-- ==== Sys2Proof/Word.lean ====
section
/-! DEFINITION. Words, bytes, the precision of an engine, and the value type of its datapath. -/

namespace Sys2Proof

/-- One byte of a byte-addressed space (`20_memory.md` R70). -/
abbrev Byte := BitVec 8

/-- One 32-bit register or command word (`10_state.md` R31). -/
abbrev Word := BitVec 32

/-- A 64-bit quantity: two registers `_LO`, `_HI`, or the IEEE bits of a real (`10_state.md` R31, R36). -/
abbrev Word64 := BitVec 64

/-- The precision `P` of an instance: binary32 or binary64 (`00_scope.md` R9, R12). -/
inductive Prec where
  | p32
  | p64
deriving DecidableEq, Repr, Inhabited

/-- `P` in bits: 32 or 64 (R9). -/
def Prec.bits : Prec → Nat
  | .p32 => 32
  | .p64 => 64

/-- `rs = P/8`, the size of a real in bytes (R9). -/
def Prec.bytes : Prec → Nat
  | .p32 => 4
  | .p64 => 8

/-- A value of the datapath (R12). Every finite binary32 and binary64 number is an integer multiple of
`2^-1074`, so a finite value is its sign and its magnitude counted in that unit: sums and comparisons are
then exact integer arithmetic and only the final narrowing rounds. `nan` has no payload: R12 and
`93_implementation_defined.md` U3 leave the sign and payload of every NaN open, and no rule's result
depends on them; they are chosen (freely) when a NaN is stored as bits. -/
inductive FReal where
  | nan
  | inf (neg : Bool)
  | fin (neg : Bool) (mag : Nat)
deriving DecidableEq, Repr, Inhabited

/-- `+0.0`. -/
def FReal.zero : FReal := .fin false 0

/-- The words of a 64-bit quantity: `_LO` and `_HI` (R31). -/
def loWord (x : Word64) : Word := x.extractLsb' 0 32

/-- The high word of a 64-bit quantity (R31). -/
def hiWord (x : Word64) : Word := x.extractLsb' 32 32

/-- `hi ++ lo` (R11): the 64-bit quantity of two registers. -/
def joinWords (hi lo : Word) : Word64 := hi ++ lo

end Sys2Proof
end

