-- ==== Sys2Proof/Syntax.lean ====
section
/-! DEFINITION. The commands, one constructor per row of `spec/opcode_table.json` (`30_encoding.md` R100). -/

namespace Sys2Proof

/-- A command as decoded from a 32-bit command word. `MIX_AND_SCALE` is one command with two rows, by its
mode `fb` (R103). The only operands in the word are the count `n` and the channel `ch`, both the 4-bit
field `fa` (R101); every other operand is in a register. -/
inductive Instr where
  | construct
  | setCoeff
  | run
  | reset
  | checkOverflows
  | isInitialized
  | timeToFreq
  | freqToTime
  | mixAndScaleIn (n : Nat)
  | mixAndScaleOut (n : Nat)
  | convolve
  | convolveAdd
  | convolveInplace
  | diracConvolve
  | diracConvolveInplace
  | coeffsToInternal (ch : Nat)
  | verify (n : Nat)
  | decodeSamples (ch : Nat)
  | encodeSamples (ch : Nat)
deriving DecidableEq, Repr, Inhabited

end Sys2Proof
end

