-- ==== Sys2Proof/WellFormed.lean ====
section
/-! DEFINITION. Which instructions have a command word: the small operand fits the 4-bit field `fa`. -/

namespace Sys2Proof

/-- The small operand of an instruction, the field `fa` (R101 to R104); 0 where the format says 0. -/
def Instr.fa : Instr → Nat
  | .construct => 0
  | .setCoeff => 0
  | .run => 0
  | .reset => 0
  | .checkOverflows => 0
  | .isInitialized => 0
  | .timeToFreq => 0
  | .freqToTime => 0
  | .mixAndScaleIn n => n
  | .mixAndScaleOut n => n
  | .convolve => 0
  | .convolveAdd => 0
  | .convolveInplace => 0
  | .diracConvolve => 0
  | .diracConvolveInplace => 0
  | .coeffsToInternal ch => ch
  | .verify n => n
  | .decodeSamples ch => ch
  | .encodeSamples ch => ch

/-- An instruction is well formed when its count or channel is an unsigned 4-bit number (R101). A count of
0 or above 4 and a channel not below `C` are still instructions: they raise `E_BAD_ARG` when they run
(R105). -/
def Instr.wellFormed (i : Instr) : Bool := decide (i.fa < 16)

end Sys2Proof
end

