-- ==== Sys2Proof/Decode.lean ====
section
/-! DEFINITION. The command decoder (`30_encoding.md` R100 to R106) and, after it, the encoder. -/

namespace Sys2Proof

/-- Why a command word is reserved (R106): each raises `E_ILLEGAL_CMD`. -/
inductive DecodeError where
  /-- `w[31:16] != 0`. -/
  | reservedBits
  /-- `w[7:0]` is not in the table of R100. -/
  | reservedOpcode
  /-- `fa` or `fb` breaks the format's rule (R102 to R104). -/
  | reservedOperand
deriving DecidableEq, Repr, Inhabited

/-- The fields of a command word (R101). -/
def opField (w : Word) : Nat := w.toNat % 256
/-- `fa`, bits 11:8. -/
def faField (w : Word) : Nat := w.toNat / 256 % 16
/-- `fb`, bits 15:12. -/
def fbField (w : Word) : Nat := w.toNat / 4096 % 16
/-- `rsv`, bits 31:16. -/
def rsvField (w : Word) : Nat := w.toNat / 65536

/-- A command both of whose small operands must be 0 (formats E and U, R102, R103). -/
def bothZero (i : Instr) (fa fb : Nat) : Except DecodeError Instr :=
  if fa = 0 ∧ fb = 0 then .ok i else .error .reservedOperand

/-- A command with an operand in `fa` and `fb` 0 (format C, R104, and `VERIFY`, R103). -/
def fbZero (i : Instr) (fb : Nat) : Except DecodeError Instr :=
  if fb = 0 then .ok i else .error .reservedOperand

/-- `MIX_AND_SCALE` by its mode (R103): 0 `INPUT`, 1 `OUTPUT`, 2 to 15 reserved. -/
def mixMode (n fb : Nat) : Except DecodeError Instr :=
  if fb = 0 then .ok (.mixAndScaleIn n)
  else if fb = 1 then .ok (.mixAndScaleOut n)
  else .error .reservedOperand

/-- The table of R100, by opcode. -/
def decodeFields (op fa fb : Nat) : Except DecodeError Instr :=
  match op with
  | 0x01 => bothZero .construct fa fb
  | 0x02 => bothZero .setCoeff fa fb
  | 0x03 => bothZero .run fa fb
  | 0x04 => bothZero .reset fa fb
  | 0x05 => bothZero .checkOverflows fa fb
  | 0x06 => bothZero .isInitialized fa fb
  | 0x10 => bothZero .timeToFreq fa fb
  | 0x11 => bothZero .freqToTime fa fb
  | 0x12 => mixMode fa fb
  | 0x18 => bothZero .convolve fa fb
  | 0x19 => bothZero .convolveAdd fa fb
  | 0x1A => bothZero .convolveInplace fa fb
  | 0x1B => bothZero .diracConvolve fa fb
  | 0x1C => bothZero .diracConvolveInplace fa fb
  | 0x20 => fbZero (.coeffsToInternal fa) fb
  | 0x21 => fbZero (.verify fa) fb
  | 0x28 => fbZero (.decodeSamples fa) fb
  | 0x29 => fbZero (.encodeSamples fa) fb
  | _ => .error .reservedOpcode

/-- Decoding of any command word, in the order of R105. -/
def decode (w : Word) : Except DecodeError Instr :=
  if rsvField w ≠ 0 then .error .reservedBits
  else decodeFields (opField w) (faField w) (fbField w)

/-- The opcode of an instruction (R100). -/
def Instr.opcode : Instr → Nat
  | .construct => 0x01
  | .setCoeff => 0x02
  | .run => 0x03
  | .reset => 0x04
  | .checkOverflows => 0x05
  | .isInitialized => 0x06
  | .timeToFreq => 0x10
  | .freqToTime => 0x11
  | .mixAndScaleIn _ => 0x12
  | .mixAndScaleOut _ => 0x12
  | .convolve => 0x18
  | .convolveAdd => 0x19
  | .convolveInplace => 0x1A
  | .diracConvolve => 0x1B
  | .diracConvolveInplace => 0x1C
  | .coeffsToInternal _ => 0x20
  | .verify _ => 0x21
  | .decodeSamples _ => 0x28
  | .encodeSamples _ => 0x29

/-- The mode field `fb` of an instruction (R103): 1 for `MIX_AND_SCALE.OUT`, else 0. -/
def Instr.fb : Instr → Nat
  | .mixAndScaleOut _ => 1
  | .construct => 0
  | .setCoeff => 0
  | .run => 0
  | .reset => 0
  | .checkOverflows => 0
  | .isInitialized => 0
  | .timeToFreq => 0
  | .freqToTime => 0
  | .mixAndScaleIn _ => 0
  | .convolve => 0
  | .convolveAdd => 0
  | .convolveInplace => 0
  | .diracConvolve => 0
  | .diracConvolveInplace => 0
  | .coeffsToInternal _ => 0
  | .verify _ => 0
  | .decodeSamples _ => 0
  | .encodeSamples _ => 0

/-- The command word of an instruction (R101): `op | fa << 8 | fb << 12`, `rsv = 0`. -/
def encode (i : Instr) : Word :=
  BitVec.ofNat 32 (i.opcode + i.fa * 256 + i.fb * 4096)

/-- The instruction the decoder reads from a row's bits. A command word is one 32-bit register write
(R101), so a number with a bit above bit 31 is no command. -/
def decodeTableWord (nbits w : Nat) : Option Instr :=
  if w % 2 ^ nbits < 2 ^ 32 then
    match decode (BitVec.ofNat 32 (w % 2 ^ nbits)) with
    | .ok i => some i
    | .error _ => none
  else none

end Sys2Proof
end

