-- ==== Sys2Proof/Machine/Real.lean ====
section
/-! DEFINITION. The real primitives (`00_scope.md` R12, `46_arithmetic_and_access_laws.md` R372): IEEE 754
binary32 and binary64, one rounding per operation, to nearest with ties to even, subnormals kept. A finite
value is a sign and a magnitude in units of `2^-1074`; every operation is exact integer arithmetic followed
by one narrowing (DEDUCED, assumption 11). -/

namespace Sys2Proof.Machine

/-- Significant digits of a precision: 24 or 53. -/
def Prec.digits : Prec → Nat
  | .p32 => 24
  | .p64 => 53

/-- The smallest positive number of a precision is `2^lsb` units of `2^-1074`. -/
def Prec.lsb : Prec → Nat
  | .p32 => 925
  | .p64 => 0

/-- The first power of two that is too large for a precision, in units of `2^-1074`. -/
def Prec.tooLarge : Prec → Nat
  | .p32 => 2 ^ (128 + 1074)
  | .p64 => 2 ^ (1024 + 1074)

/-- `m / 2^q` to the nearest integer, ties to even. -/
def roundNearestEven (m q : Nat) : Nat :=
  let n := m / 2 ^ q
  let r := m % 2 ^ q
  if 2 ^ q < 2 * r ∨ (2 * r = 2 ^ q ∧ n % 2 = 1) then n + 1 else n

/-- The magnitude `m`, counted in units of `2^-(1074+x)`, narrowed to the digits of `p`, in units of
`2^-1074`. No upper limit is applied. -/
def roundMag (p : Prec) (x m : Nat) : Nat :=
  let q := max (Prec.lsb p + x) (m.log2 + 1 - Prec.digits p)
  roundNearestEven m q * 2 ^ (q - x)

/-- A rounded value of precision `p` from a sign and a magnitude in units of `2^-(1074+x)`; an overflow gives
an infinity (R372). -/
def roundReal (p : Prec) (neg : Bool) (x m : Nat) : FReal :=
  let r := roundMag p x m
  if Prec.tooLarge p ≤ r then .inf neg else .fin neg r

/-- The value of a sign and a magnitude as a signed number of units. -/
def signedUnits (neg : Bool) (mag : Nat) : Int := if neg then -(mag : Int) else (mag : Int)

/-- `is_finite(a)` (R12). -/
def isFinite : FReal → Bool
  | .fin _ _ => true
  | .inf _ => false
  | .nan => false

/-- `is_nan(a)` (R12). -/
def isNan : FReal → Bool
  | .nan => true
  | .inf _ => false
  | .fin _ _ => false

/-- `fneg(a)`: sign flip, exact (R12). -/
def fneg : FReal → FReal
  | .nan => .nan
  | .inf n => .inf (!n)
  | .fin n m => .fin (!n) m

/-- `fabs(a)`, exact (R12). -/
def fabs : FReal → FReal
  | .nan => .nan
  | .inf _ => .inf false
  | .fin _ m => .fin false m

/-- `fadd(a,b)` (R12). An exact zero sum is `+0.0` unless both operands are negative. -/
def fadd (p : Prec) : FReal → FReal → FReal
  | .nan, _ => .nan
  | .inf _, .nan => .nan
  | .inf a, .inf b => if a = b then .inf a else .nan
  | .inf a, .fin _ _ => .inf a
  | .fin _ _, .nan => .nan
  | .fin _ _, .inf b => .inf b
  | .fin a m, .fin b n =>
    let s := signedUnits a m + signedUnits b n
    if s = 0 then .fin (a && b) 0 else roundReal p (decide (s < 0)) 0 s.natAbs

/-- `fsub(a,b)` (R12). -/
def fsub (p : Prec) (a b : FReal) : FReal := fadd p a (fneg b)

/-- `fmul(a,b)` (R12). -/
def fmul (p : Prec) : FReal → FReal → FReal
  | .nan, _ => .nan
  | .inf _, .nan => .nan
  | .fin _ _, .nan => .nan
  | .inf a, .inf b => .inf (a != b)
  | .inf a, .fin b n => if n = 0 then .nan else .inf (a != b)
  | .fin a m, .inf b => if m = 0 then .nan else .inf (a != b)
  | .fin a m, .fin b n => roundReal p (a != b) 1074 (m * n)

/-- `fdiv64(a,b)`: binary64 division (R12). The quotient is taken to one bit beyond `2^-1074`, with a sticky
bit below it, and rounded once. -/
def fdiv64 : FReal → FReal → FReal
  | .nan, _ => .nan
  | .inf _, .nan => .nan
  | .fin _ _, .nan => .nan
  | .inf _, .inf _ => .nan
  | .inf a, .fin b _ => .inf (a != b)
  | .fin a _, .inf b => .fin (a != b) 0
  | .fin a m, .fin b n =>
    if n = 0 then (if m = 0 then .nan else .inf (a != b))
    else
      let num := m * 2 ^ 1075
      roundReal .p64 (a != b) 2 (2 * (num / n) + (if num % n = 0 then 0 else 1))

/-- `fmul64(a,b)`: binary64 multiplication (R12). -/
def fmul64 (a b : FReal) : FReal := fmul .p64 a b

/-- `cvt(x)`: narrowing to the precision `p` (R12); the identity on a value of that precision. -/
def cvt (p : Prec) : FReal → FReal
  | .nan => .nan
  | .inf n => .inf n
  | .fin n m => roundReal p n 0 m

/-- `i2f(n)`: an integer as a real, rounded (R12). -/
def i2f (p : Prec) (n : Int) : FReal := roundReal p (decide (n < 0)) 0 (n.natAbs * 2 ^ 1074)

/-- `i2f64(n)` (R12). -/
def i2f64 (n : Int) : FReal := i2f .p64 n

/-- `widen(a)`: exact (R12). Values of both precisions are counted in one unit. -/
def widen (a : FReal) : FReal := a

/-- `2^k` as an exact constant (`cvt` of it is itself in both precisions for the `k` that occur). -/
def powerOfTwo (k : Int) : FReal := .fin false (2 ^ (1074 + k).toNat)

/-- `a < b` (R12): false when either is a NaN, `+0.0` and `-0.0` equal. -/
def flt : FReal → FReal → Bool
  | .nan, _ => false
  | .inf _, .nan => false
  | .fin _ _, .nan => false
  | .inf a, .inf b => a && !b
  | .inf a, .fin _ _ => a
  | .fin _ _, .inf b => !b
  | .fin a m, .fin b n => decide (signedUnits a m < signedUnits b n)

/-- `a == b` (R12): false when either is a NaN, `+0.0 == -0.0`. -/
def feq : FReal → FReal → Bool
  | .nan, _ => false
  | .inf _, .nan => false
  | .fin _ _, .nan => false
  | .inf a, .inf b => a == b
  | .inf _, .fin _ _ => false
  | .fin _ _, .inf _ => false
  | .fin a m, .fin b n => decide (signedUnits a m = signedUnits b n)

/-- `cmp_exact(a, n)` is "greater" (R12). -/
def greaterThanInt : FReal → Int → Bool
  | .nan, _ => false
  | .inf neg, _ => !neg
  | .fin neg m, n => decide (n * 2 ^ 1074 < signedUnits neg m)

/-- `cmp_exact(a, n)` is "less" (R12). -/
def lessThanInt : FReal → Int → Bool
  | .nan, _ => false
  | .inf neg, _ => neg
  | .fin neg m, n => decide (signedUnits neg m < n * 2 ^ 1074)

/-- `floor_int(a + 1/2)` for a finite `a`: the half is added exactly (R12). (0 where `a` is not finite: no
rule asks.) -/
def floorHalf : FReal → Int
  | .nan => 0
  | .inf _ => 0
  | .fin neg m => (signedUnits neg m + 2 ^ 1073) / 2 ^ 1074

/-- The bits of `+infinity` of a precision. -/
def infinityBits : Prec → Nat
  | .p32 => 0x7F800000
  | .p64 => 0x7FF0000000000000

/-- The weight of the sign bit of a precision. -/
def signWeight : Prec → Nat
  | .p32 => 2 ^ 31
  | .p64 => 2 ^ 63

/-- The `code`-th NaN of a precision: its sign and its payload, which is never 0 (an all-zero payload is an
infinity). Every NaN is some `code`'s. -/
def nanBits (p : Prec) (code : Nat) : Nat :=
  (if code % 2 = 1 then signWeight p else 0) + infinityBits p + 1
    + code / 2 % (2 ^ (Prec.digits p - 1) - 1)

/-- The exponent and fraction bits of a magnitude of precision `p`: `2^(digits-1)` per power of two above
the subnormals, plus the leading digits. -/
def magnitudeBits (p : Prec) (mag : Nat) : Nat :=
  let k := mag / 2 ^ Prec.lsb p
  let q := k.log2 - (Prec.digits p - 1)
  q * 2 ^ (Prec.digits p - 1) + k / 2 ^ q

/-- The bits of a real of precision `p` as a number; `code` chooses which NaN a NaN is (U3). -/
def packNat (p : Prec) (code : Nat) : FReal → Nat
  | .nan => nanBits p code
  | .inf neg => (if neg then signWeight p else 0) + infinityBits p
  | .fin neg mag => (if neg then signWeight p else 0) + magnitudeBits p mag

/-- The bits of a real of precision `p` (binary32 in the low half). -/
def pack (p : Prec) (code : Nat) (x : FReal) : Word64 := BitVec.ofNat 64 (packNat p code x)

/-- A real from its sign, biased exponent and fraction fields. -/
def unpackFields (p : Prec) (neg : Bool) (e f top : Nat) : FReal :=
  if e = top then (if f = 0 then .inf neg else .nan)
  else if e = 0 then .fin neg (f * 2 ^ Prec.lsb p)
  else .fin neg ((2 ^ (Prec.digits p - 1) + f) * 2 ^ (e - 1) * 2 ^ Prec.lsb p)

/-- The real with the given bits, of precision `p` (binary32 in the low half). -/
def unpack (p : Prec) (b : Word64) : FReal :=
  match p with
  | .p32 =>
    let n := b.toNat % 2 ^ 32
    unpackFields .p32 (decide (n / 2 ^ 31 = 1)) (n / 2 ^ 23 % 256) (n % 2 ^ 23) 255
  | .p64 =>
    let n := b.toNat
    unpackFields .p64 (decide (n / 2 ^ 63 = 1)) (n / 2 ^ 52 % 2048) (n % 2 ^ 52) 2047

end Sys2Proof.Machine
end

