-- ==== Sys2Proof/Machine/Log10.lean ====
section
/-! DEFINITION. What may be assumed of `LOG10` (`45_overflow_tracker.md` R302), exactly that and nothing more,
and that some function satisfies it: the free value `Config.log10` is any such function (assumption 2). -/

namespace Sys2Proof.Machine

/-- `a` units of `2^-1074` are within one unit in the last place of `r`: with `n` whole units in `|r|`, a
binary64 of 53 digits steps there by `2^(log2 n + 1 - 53)` units, one where that is negative. -/
def WithinOneUlp (a : Int) (r : ℝ) : Prop :=
  |(a : ℝ) - r * (2 : ℝ) ^ 1074| ≤ (2 : ℝ) ^ (⌊|r| * (2 : ℝ) ^ 1074⌋₊.log2 + 1 - 53)

/-- What R302 lets a model assume of `LOG10`, a function of binary64 bits. -/
structure Log10Laws (f : Word64 → Word64) : Prop where
  /-- `LOG10(1.0) = +0.0`. -/
  one : f 0x3FF0000000000000#64 = 0#64
  /-- `LOG10(+infinity) = +infinity`. -/
  infinity : f 0x7FF0000000000000#64 = 0x7FF0000000000000#64
  /-- `LOG10(x) > 0` for `x > 1.0`. -/
  above : ∀ x : Word64, flt (powerOfTwo 0) (unpack .p64 x) = true → flt FReal.zero (unpack .p64 (f x)) = true
  /-- `LOG10(x) < 0` for `0 < x < 1.0`. -/
  below : ∀ x : Word64, flt FReal.zero (unpack .p64 x) = true → flt (unpack .p64 x) (powerOfTwo 0) = true →
    flt (unpack .p64 (f x)) FReal.zero = true
  /-- It is monotone non-decreasing. -/
  monotone : ∀ x y : Word64, flt FReal.zero (unpack .p64 x) = true →
    flt (unpack .p64 x) (unpack .p64 y) = true → flt (unpack .p64 (f y)) (unpack .p64 (f x)) = false
  /-- For a finite `x > 0` the result is finite. -/
  finite : ∀ (x : Word64) (m : Nat), unpack .p64 x = .fin false m → 0 < m →
    isFinite (unpack .p64 (f x)) = true
  /-- For a finite `x > 0` the result is within one unit in the last place of the exact logarithm. -/
  accurate : ∀ (x : Word64) (m : Nat) (neg : Bool) (mag : Nat), unpack .p64 x = .fin false m → 0 < m →
    unpack .p64 (f x) = .fin neg mag →
    WithinOneUlp (signedUnits neg mag) (Real.logb 10 ((m : ℝ) / (2 : ℝ) ^ 1074))

/-- A function that R302 allows as `LOG10`. -/
structure Log10 where
  /-- The function, of the bits of a binary64. -/
  fn : Word64 → Word64
  /-- It has the properties R302 lists. -/
  laws : Log10Laws fn


/-! ## Such a function exists -/

/-- `floor(log10(a/b) * 2^k)` for `a >= b > 0`: the largest `n` with `10^n <= (a/b)^(2^k)`. -/
@[noinline] def logUnits (k a b : Nat) : Nat :=
  Nat.findGreatest (fun n => 10 ^ n * b ^ 2 ^ k ≤ a ^ 2 ^ k) ((a.log2 + 1) * 2 ^ k)

/-- The 53 leading digits of a magnitude. -/
def truncUnits (n : Nat) : Nat := n / 2 ^ (n.log2 + 1 - 53) * 2 ^ (n.log2 + 1 - 53)

/-- The exact base-10 logarithm of a positive binary64, its digits after the 53rd dropped. -/
def truncLog10 (x : Word64) : Word64 :=
  match unpack .p64 x with
  | .nan => 0#64
  | .inf _ => 0x7FF0000000000000#64
  | .fin _ m =>
    if 2 ^ 1074 ≤ m then pack .p64 0 (.fin false (truncUnits (logUnits 1074 m (2 ^ 1074))))
    else pack .p64 0 (.fin true (truncUnits (logUnits 1074 (2 ^ 1074) m)))

/-- The test of `logUnits` is a comparison with the logarithm. -/
theorem logUnits_test (k a b n : Nat) (hb : 0 < b) (ha : 0 < a) :
    10 ^ n * b ^ 2 ^ k ≤ a ^ 2 ^ k ↔ (n : ℝ) ≤ Real.logb 10 ((a : ℝ) / b) * 2 ^ k := by
  have hb' : (0 : ℝ) < b := by exact_mod_cast hb
  have ha' : (0 : ℝ) < a := by exact_mod_cast ha
  have hq : (0 : ℝ) < ((a : ℝ) / b) ^ (2 ^ k) := by positivity
  have h1 : Real.logb 10 ((a : ℝ) / b) * 2 ^ k = Real.logb 10 (((a : ℝ) / b) ^ (2 ^ k)) := by
    rw [Real.logb_pow]; push_cast; ring
  rw [h1, Real.le_logb_iff_rpow_le (by norm_num) hq, Real.rpow_natCast, div_pow,
    le_div_iff₀ (by positivity)]
  exact_mod_cast Iff.rfl

/-- `logUnits` is the whole number of units of the logarithm. -/
theorem logUnits_eq (k a b : Nat) (hb : 0 < b) (hab : b ≤ a) :
    logUnits k a b = ⌊Real.logb 10 ((a : ℝ) / b) * 2 ^ k⌋₊ := by
  have ha : 0 < a := by omega
  have hb' : (0 : ℝ) < b := by exact_mod_cast hb
  have h0 : 10 ^ 0 * b ^ 2 ^ k ≤ a ^ 2 ^ k := by
    rw [pow_zero, one_mul]
    exact Nat.pow_le_pow_left hab _
  have hlim : ∀ n, 10 ^ n * b ^ 2 ^ k ≤ a ^ 2 ^ k → n ≤ (a.log2 + 1) * 2 ^ k := by
    intro n hn
    have h1 : 2 ^ n ≤ 10 ^ n * b ^ 2 ^ k :=
      le_trans (Nat.pow_le_pow_left (by norm_num) n) (Nat.le_mul_of_pos_right _ (by positivity))
    have h2 : a ^ 2 ^ k ≤ (2 ^ (a.log2 + 1)) ^ 2 ^ k :=
      Nat.pow_le_pow_left (Nat.le_of_lt Nat.lt_log2_self) _
    rw [← pow_mul] at h2
    exact (Nat.pow_le_pow_iff_right (by norm_num)).1 (h1.trans (hn.trans h2))
  have hz : 0 ≤ Real.logb 10 ((a : ℝ) / b) * 2 ^ k := by
    refine mul_nonneg (Real.logb_nonneg (by norm_num) ?_) (by positivity)
    rw [le_div_iff₀ hb', one_mul]
    exact_mod_cast hab
  symm
  rw [Nat.floor_eq_iff hz]
  have hs : 10 ^ logUnits k a b * b ^ 2 ^ k ≤ a ^ 2 ^ k :=
    Nat.findGreatest_spec (P := fun n => 10 ^ n * b ^ 2 ^ k ≤ a ^ 2 ^ k) (Nat.zero_le _) h0
  refine ⟨(logUnits_test k a b _ hb ha).1 hs, ?_⟩
  by_contra hc
  have h2 : ((logUnits k a b + 1 : Nat) : ℝ) ≤ Real.logb 10 ((a : ℝ) / b) * 2 ^ k := by
    push_cast
    exact not_lt.1 hc
  have h3 := (logUnits_test k a b _ hb ha).2 h2
  have h4 := Nat.le_findGreatest (P := fun n => 10 ^ n * b ^ 2 ^ k ≤ a ^ 2 ^ k) (hlim _ h3) h3
  have h5 : logUnits k a b + 1 ≤ logUnits k a b := h4
  omega

/-- Dropping digits loses less than one unit of the last digit kept. -/
theorem truncUnits_spec (n : Nat) :
    truncUnits n ≤ n ∧ n < truncUnits n + 2 ^ (n.log2 + 1 - 53) := by
  have h := Nat.div_add_mod n (2 ^ (n.log2 + 1 - 53))
  have h2 := Nat.mod_lt n (Nat.two_pow_pos (n.log2 + 1 - 53))
  unfold truncUnits
  rw [Nat.mul_comm] at h
  omega

/-- The leading digit is kept. -/
theorem truncUnits_lead (n : Nat) (h : n ≠ 0) : 2 ^ n.log2 ≤ truncUnits n := by
  have h1 := Nat.log2_self_le h
  have h2 : 2 ^ n.log2 = 2 ^ (n.log2 - (n.log2 + 1 - 53)) * 2 ^ (n.log2 + 1 - 53) := by
    rw [← pow_add]; congr 1; omega
  unfold truncUnits
  rw [h2]
  refine Nat.mul_le_mul_right _ ((Nat.le_div_iff_mul_le (Nat.two_pow_pos _)).2 ?_)
  rw [← h2]
  exact h1

/-- Dropping digits is monotone. -/
theorem truncUnits_mono {a b : Nat} (h : a ≤ b) : truncUnits a ≤ truncUnits b := by
  by_cases ha : a = 0
  · simp [ha, truncUnits]
  have hb : b ≠ 0 := by omega
  by_cases hl : a.log2 = b.log2
  · unfold truncUnits
    rw [hl]
    exact Nat.mul_le_mul_right _ (Nat.div_le_div_right h)
  · have h1 : a.log2 < b.log2 := by
      rcases Nat.lt_or_ge a.log2 b.log2 with h1 | h1
      · exact h1
      · have h2 : b.log2 < a.log2 := by omega
        have h3 := (Nat.log2_lt hb).1 h2
        have h4 := Nat.log2_self_le ha
        omega
    have h2 : a < 2 ^ b.log2 := (Nat.log2_lt ha).1 h1
    exact (truncUnits_spec a).1.trans ((Nat.le_of_lt h2).trans (truncUnits_lead b hb))

/-- The digits kept and their place. -/
theorem truncUnits_digits (n : Nat) (hn : n < 2 ^ 2098) :
    ∃ c q : Nat, truncUnits n = c * 2 ^ q ∧ c < 2 ^ 53 ∧ q ≤ 2045 ∧ (q = 0 ∨ 2 ^ 52 ≤ c) := by
  refine ⟨n / 2 ^ (n.log2 + 1 - 53), n.log2 + 1 - 53, rfl, ?_, ?_, ?_⟩
  · rw [Nat.div_lt_iff_lt_mul (Nat.two_pow_pos _), ← pow_add]
    exact Nat.lt_log2_self.trans_le (Nat.pow_le_pow_right (by norm_num) (by omega))
  · by_cases h : n = 0
    · simp [h]
    · have := (Nat.log2_lt h).2 hn
      omega
  · by_cases h : n.log2 < 53
    · exact .inl (by omega)
    · have hn0 : n ≠ 0 := by
        rintro rfl
        simp at h
      refine .inr ((Nat.le_div_iff_mul_le (Nat.two_pow_pos _)).2 ?_)
      rw [← pow_add]
      exact (Nat.pow_le_pow_right (by norm_num) (by omega)).trans (Nat.log2_self_le hn0)

/-- The exponent and fraction bits of `c * 2^q`. -/
theorem magnitudeBits_digits (c q : Nat) (hc : c < 2 ^ 53) (h : q = 0 ∨ 2 ^ 52 ≤ c) :
    magnitudeBits .p64 (c * 2 ^ q) = q * 2 ^ 52 + c := by
  have hq : (c * 2 ^ q).log2 - 52 = q := by
    by_cases h0 : c = 0
    · have : q = 0 := by
        rcases h with h | h
        · exact h
        · omega
      simp [h0, this]
    have hm : c * 2 ^ q ≠ 0 := Nat.mul_ne_zero h0 (Nat.two_pow_pos _).ne'
    have hu : (c * 2 ^ q).log2 < 53 + q := by
      rw [Nat.log2_lt hm, pow_add]
      exact Nat.mul_lt_mul_of_pos_right hc (Nat.two_pow_pos _)
    rcases h with h | h
    · omega
    · have hl : 52 + q ≤ (c * 2 ^ q).log2 := by
        rw [Nat.le_log2 hm, pow_add]
        exact Nat.mul_le_mul_right _ h
      omega
  simp only [magnitudeBits, Prec.lsb, Prec.digits, pow_zero, Nat.div_one]
  rw [hq, Nat.mul_div_cancel _ (Nat.two_pow_pos q)]

/-- A magnitude of 53 digits is read back from its bits. -/
theorem unpack_pack_trunc (neg : Bool) (n : Nat) (hn : n < 2 ^ 2098) :
    unpack .p64 (pack .p64 0 (.fin neg (truncUnits n))) = .fin neg (truncUnits n) := by
  obtain ⟨c, q, ht, hc, hq, h⟩ := truncUnits_digits n hn
  rw [ht]
  have hb := magnitudeBits_digits c q hc h
  have hpow : q = 0 → (2 : Nat) ^ q = 1 := fun h0 => by rw [h0, pow_zero]
  have hn2 : (pack .p64 0 (.fin neg (c * 2 ^ q))).toNat = (if neg then 2 ^ 63 else 0) + (q * 2 ^ 52 + c) := by
    simp only [pack, packNat, hb, signWeight, BitVec.toNat_ofNat]
    apply Nat.mod_eq_of_lt
    split <;> omega
  simp only [unpack, hn2]
  have hs : decide (((if neg = true then 2 ^ 63 else 0) + (q * 2 ^ 52 + c)) / 2 ^ 63 = 1) = neg := by
    cases neg <;> simp <;> omega
  rw [hs]
  have he : ((if neg = true then 2 ^ 63 else 0) + (q * 2 ^ 52 + c)) / 2 ^ 52 % 2048 = q + c / 2 ^ 52 := by
    split <;> omega
  have hf : ((if neg = true then 2 ^ 63 else 0) + (q * 2 ^ 52 + c)) % 2 ^ 52 = c % 2 ^ 52 := by
    split <;> omega
  rw [he, hf]
  unfold unpackFields
  simp only [Prec.lsb, Prec.digits, pow_zero, Nat.mul_one]
  rw [if_neg (by omega)]
  by_cases hlo : c < 2 ^ 52
  · have hq0 : q = 0 := by omega
    rw [if_pos (by omega), hpow hq0, Nat.mul_one, Nat.mod_eq_of_lt hlo]
  · rw [if_neg (by omega)]
    have h1 : q + c / 2 ^ 52 - 1 = q := by omega
    have h2 : 2 ^ (53 - 1) + c % 2 ^ 52 = c := by omega
    rw [h1, h2]

/-- The shape of a finite binary64. -/
theorem unpack_fin {x : Word64} {neg : Bool} {m : Nat} (h : unpack .p64 x = .fin neg m) :
    ∃ c e : Nat, c < 2 ^ 53 ∧ e ≤ 2045 ∧ m = c * 2 ^ e := by
  simp only [unpack, unpackFields, Prec.lsb, Prec.digits, pow_zero, Nat.mul_one] at h
  split at h
  · split at h <;> cases h
  · split at h
    · injection h with _ h
      exact ⟨x.toNat % 2 ^ 52, 0, by omega, by omega, by rw [← h, pow_zero, Nat.mul_one]⟩
    · injection h with _ h
      exact ⟨_, _, by omega, by omega, h.symm⟩

/-- A binary64 above 1.0 is above it by `2^-52` at least. -/
theorem above_one {x : Word64} {neg : Bool} {m : Nat} (h : unpack .p64 x = .fin neg m) (hm : 2 ^ 1074 < m) :
    2 ^ 1074 + 2 ^ 1022 ≤ m := by
  obtain ⟨c, e, hc, -, rfl⟩ := unpack_fin h
  have he : 1022 ≤ e := by
    by_contra hlt
    have h1 : c * 2 ^ e ≤ 2 ^ 53 * 2 ^ 1021 :=
      Nat.mul_le_mul (Nat.le_of_lt hc) (Nat.pow_le_pow_right (by norm_num) (by omega))
    rw [← pow_add] at h1
    exact absurd (hm.trans_le h1) (lt_irrefl _)
  obtain ⟨d, rfl⟩ : ∃ d, e = 1022 + d := ⟨e - 1022, by omega⟩
  have h2 : c * 2 ^ (1022 + d) = (c * 2 ^ d) * 2 ^ 1022 := by rw [pow_add]; ring
  have h3 : (2 : Nat) ^ 1074 = 2 ^ 52 * 2 ^ 1022 := by rw [← pow_add]
  rw [h2, h3] at hm
  rw [h2, h3]
  have h4 := Nat.lt_of_mul_lt_mul_right hm
  calc 2 ^ 52 * 2 ^ 1022 + 2 ^ 1022 = (2 ^ 52 + 1) * 2 ^ 1022 := by rw [Nat.add_mul, Nat.one_mul]
    _ ≤ _ := Nat.mul_le_mul_right _ h4

/-- A binary64 below 1.0 is below it by `2^-53` at least. -/
theorem below_one {x : Word64} {neg : Bool} {m : Nat} (h : unpack .p64 x = .fin neg m) (hm : m < 2 ^ 1074) :
    m + 2 ^ 1021 ≤ 2 ^ 1074 := by
  obtain ⟨c, e, hc, -, rfl⟩ := unpack_fin h
  by_cases he : 1021 ≤ e
  · obtain ⟨d, rfl⟩ : ∃ d, e = 1021 + d := ⟨e - 1021, by omega⟩
    have h2 : c * 2 ^ (1021 + d) = (c * 2 ^ d) * 2 ^ 1021 := by rw [pow_add]; ring
    have h3 : (2 : Nat) ^ 1074 = 2 ^ 53 * 2 ^ 1021 := by rw [← pow_add]
    rw [h2, h3] at hm
    rw [h2, h3]
    have h4 := Nat.lt_of_mul_lt_mul_right hm
    calc c * 2 ^ d * 2 ^ 1021 + 2 ^ 1021 = (c * 2 ^ d + 1) * 2 ^ 1021 := by rw [Nat.add_mul, Nat.one_mul]
      _ ≤ _ := Nat.mul_le_mul_right _ h4
  · have h1 : c * 2 ^ e ≤ 2 ^ 53 * 2 ^ 1020 :=
      Nat.mul_le_mul (Nat.le_of_lt hc) (Nat.pow_le_pow_right (by norm_num) (by omega))
    rw [← pow_add] at h1
    have h2 : (2 : Nat) ^ 1021 ≤ 2 ^ 1073 := Nat.pow_le_pow_right (by norm_num) (by omega)
    calc c * 2 ^ e + 2 ^ 1021 ≤ 2 ^ 1073 + 2 ^ 1073 := Nat.add_le_add h1 h2
      _ = 2 ^ 1074 := by rw [← Nat.two_mul, ← pow_succ']

/-- The logarithm of a positive finite binary64 is no larger than its exponent. -/
theorem logb_bound {m : Nat} (h0 : 0 < m) (hm : m < 2 ^ 2098) :
    |Real.logb 10 ((m : ℝ) / (2 : ℝ) ^ 1074)| ≤ 1074 := by
  have hm0 : (0 : ℝ) < m := by exact_mod_cast h0
  have hm1 : (1 : ℝ) ≤ m := by exact_mod_cast h0
  have hm2 : (m : ℝ) ≤ (2 : ℝ) ^ 2098 := by exact_mod_cast Nat.le_of_lt hm
  have hl2 : Real.log 2 ≤ 1 := by
    have := Real.log_le_sub_one_of_pos (show (0 : ℝ) < 2 by norm_num)
    linarith
  have hl20 : 0 ≤ Real.log 2 := Real.log_nonneg (by norm_num)
  have hl10 : 1 ≤ Real.log 10 := by
    rw [Real.le_log_iff_exp_le (by norm_num)]
    have := Real.exp_one_lt_d9
    linarith
  have hlog : Real.log ((m : ℝ) / (2 : ℝ) ^ 1074) = Real.log m - 1074 * Real.log 2 := by
    rw [Real.log_div hm0.ne' (by positivity), Real.log_pow]
    norm_num
  have h1 : 0 ≤ Real.log m := Real.log_nonneg hm1
  have h2 : Real.log m ≤ 2098 * Real.log 2 := by
    have h := Real.log_le_log hm0 hm2
    rwa [Real.log_pow, show ((2098 : ℕ) : ℝ) = 2098 by norm_num] at h
  rw [Real.logb, hlog, abs_div, abs_of_pos (show 0 < Real.log 10 by linarith), div_le_iff₀ (by linarith)]
  have h3 : |Real.log m - 1074 * Real.log 2| ≤ 1074 := by
    rw [abs_le]
    constructor <;> linarith only [h1, h2, hl2, hl20]
  linarith only [h3, hl10]

/-- The logarithm of a binary64 other than 1.0 is not below the smallest unit. -/
theorem logb_away {x : Word64} {m : Nat} (h : unpack .p64 x = .fin false m) (h0 : 0 < m) (h1 : m ≠ 2 ^ 1074) :
    1 ≤ |Real.logb 10 ((m : ℝ) / (2 : ℝ) ^ 1074)| * (2 : ℝ) ^ 1074 := by
  have hm0 : (0 : ℝ) < m := by exact_mod_cast h0
  have hp : (0 : ℝ) < (2 : ℝ) ^ 1074 := by positivity
  have hy : 0 < (m : ℝ) / (2 : ℝ) ^ 1074 := by positivity
  have hl10 : 0 < Real.log 10 := Real.log_pos (by norm_num)
  have hl9 : Real.log 10 ≤ 9 := by
    have := Real.log_le_sub_one_of_pos (show (0 : ℝ) < 10 by norm_num)
    linarith
  have hlog : 1 / (2 : ℝ) ^ 53 ≤ |Real.log ((m : ℝ) / (2 : ℝ) ^ 1074)| := by
    rcases Nat.lt_or_gt_of_ne h1 with hlt | hgt
    · have hle : (m : ℝ) + (2 : ℝ) ^ 1021 ≤ (2 : ℝ) ^ 1074 := by exact_mod_cast below_one h hlt
      have hs : (2 : ℝ) ^ 1074 = (2 : ℝ) ^ 53 * (2 : ℝ) ^ 1021 := by rw [← pow_add]
      have h2 : (m : ℝ) / (2 : ℝ) ^ 1074 ≤ 1 - 1 / (2 : ℝ) ^ 53 := by
        rw [div_le_iff₀ hp, sub_mul, one_mul]
        have hu : 1 / (2 : ℝ) ^ 53 * (2 : ℝ) ^ 1074 = (2 : ℝ) ^ 1021 := by
          rw [hs, ← mul_assoc, one_div_mul_cancel (by positivity), one_mul]
        rw [hu]
        exact le_sub_iff_add_le.2 hle
      have h3 := Real.log_le_sub_one_of_pos hy
      exact le_trans (by linarith) (neg_le_abs _)
    · have hle : (2 : ℝ) ^ 1074 + (2 : ℝ) ^ 1022 ≤ (m : ℝ) := by exact_mod_cast above_one h hgt
      have hs : (2 : ℝ) ^ 1074 = (2 : ℝ) ^ 52 * (2 : ℝ) ^ 1022 := by rw [← pow_add]
      have h2 : 1 + 1 / (2 : ℝ) ^ 52 ≤ (m : ℝ) / (2 : ℝ) ^ 1074 := by
        rw [le_div_iff₀ hp, add_mul, one_mul]
        have hu : 1 / (2 : ℝ) ^ 52 * (2 : ℝ) ^ 1074 = (2 : ℝ) ^ 1022 := by
          rw [hs, ← mul_assoc, one_div_mul_cancel (by positivity), one_mul]
        rw [hu]
        exact hle
      have h3 := Real.one_sub_inv_le_log_of_pos hy
      have h4 : ((m : ℝ) / (2 : ℝ) ^ 1074)⁻¹ ≤ (1 + 1 / (2 : ℝ) ^ 52)⁻¹ := inv_anti₀ (by positivity) h2
      have h5 : (1 + 1 / (2 : ℝ) ^ 52)⁻¹ ≤ 1 - 1 / (2 : ℝ) ^ 53 := by norm_num
      exact le_trans (by linarith) (le_abs_self _)
  have hb : 1 / (2 : ℝ) ^ 57 ≤ |Real.logb 10 ((m : ℝ) / (2 : ℝ) ^ 1074)| := by
    rw [Real.logb, abs_div, abs_of_pos hl10, le_div_iff₀ hl10]
    refine le_trans ?_ hlog
    have : 1 / (2 : ℝ) ^ 57 * Real.log 10 ≤ 1 / (2 : ℝ) ^ 57 * 9 :=
      mul_le_mul_of_nonneg_left hl9 (by positivity)
    refine this.trans (by norm_num)
  have hs : (2 : ℝ) ^ 1074 = (2 : ℝ) ^ 57 * (2 : ℝ) ^ 1017 := by rw [← pow_add]
  calc (1 : ℝ) ≤ (2 : ℝ) ^ 1017 := one_le_pow₀ (by norm_num)
    _ = 1 / (2 : ℝ) ^ 57 * (2 : ℝ) ^ 1074 := by
      rw [hs, ← mul_assoc, one_div_mul_cancel (by positivity), one_mul]
    _ ≤ _ := mul_le_mul_of_nonneg_right hb hp.le

/-- A finite binary64 is below `2^1024`. -/
theorem unpack_lt {x : Word64} {neg : Bool} {m : Nat} (h : unpack .p64 x = .fin neg m) : m < 2 ^ 2098 := by
  obtain ⟨c, e, hc, he, rfl⟩ := unpack_fin h
  have h1 : c * 2 ^ e < 2 ^ 53 * 2 ^ 2045 :=
    Nat.mul_lt_mul_of_lt_of_le hc (Nat.pow_le_pow_right (by norm_num) he) (Nat.two_pow_pos _)
  rwa [← pow_add] at h1

/-- The value of `truncLog10`. -/
theorem truncLog10_eq {x : Word64} {m : Nat} (h : unpack .p64 x = .fin false m) (h0 : 0 < m) :
    unpack .p64 (truncLog10 x) = .fin (decide (m < 2 ^ 1074))
      (truncUnits ⌊|Real.logb 10 ((m : ℝ) / (2 : ℝ) ^ 1074)| * (2 : ℝ) ^ 1074⌋₊) := by
  have hm0 : (0 : ℝ) < m := by exact_mod_cast h0
  have hp : (0 : ℝ) < (2 : ℝ) ^ 1074 := by positivity
  have hlt : ⌊|Real.logb 10 ((m : ℝ) / (2 : ℝ) ^ 1074)| * (2 : ℝ) ^ 1074⌋₊ < 2 ^ 2098 := by
    rw [Nat.floor_lt (by positivity)]
    have h1 : |Real.logb 10 ((m : ℝ) / (2 : ℝ) ^ 1074)| * (2 : ℝ) ^ 1074 ≤ 1074 * (2 : ℝ) ^ 1074 :=
      mul_le_mul_of_nonneg_right (logb_bound h0 (unpack_lt h)) hp.le
    have h2 : (1074 : ℝ) * (2 : ℝ) ^ 1074 < (2 : ℝ) ^ 1024 * (2 : ℝ) ^ 1074 := by
      refine mul_lt_mul_of_pos_right ?_ hp
      calc (1074 : ℝ) < (2 : ℝ) ^ 11 := by norm_num
        _ ≤ (2 : ℝ) ^ 1024 := pow_le_pow_right₀ (by norm_num) (by norm_num)
    rw [← pow_add] at h2
    refine (h1.trans_lt h2).trans_le (le_of_eq ?_)
    push_cast
    rfl
  unfold truncLog10
  rw [h]
  dsimp only
  by_cases hc : 2 ^ 1074 ≤ m
  · have hr : 0 ≤ Real.logb 10 ((m : ℝ) / (2 : ℝ) ^ 1074) := by
      refine Real.logb_nonneg (by norm_num) ?_
      rw [le_div_iff₀ hp, one_mul]
      exact_mod_cast hc
    have hu := logUnits_eq 1074 m (2 ^ 1074) (Nat.two_pow_pos _) hc
    push_cast at hu
    rw [abs_of_nonneg hr] at hlt ⊢
    rw [if_pos hc, hu, unpack_pack_trunc _ _ hlt, decide_eq_false (not_lt.2 hc)]
  · have hc' : m < 2 ^ 1074 := not_le.1 hc
    have hr : Real.logb 10 ((m : ℝ) / (2 : ℝ) ^ 1074) ≤ 0 := by
      refine Real.logb_nonpos (by norm_num) (by positivity) ?_
      rw [div_le_iff₀ hp, one_mul]
      exact_mod_cast hc'.le
    have hu := logUnits_eq 1074 (2 ^ 1074) m h0 hc'.le
    push_cast at hu
    have hi : Real.logb 10 ((2 : ℝ) ^ 1074 / (m : ℝ)) = -Real.logb 10 ((m : ℝ) / (2 : ℝ) ^ 1074) := by
      rw [← Real.logb_inv, inv_div]
    rw [hi] at hu
    rw [abs_of_nonpos hr] at hlt ⊢
    rw [if_neg hc, hu, unpack_pack_trunc _ _ hlt, decide_eq_true hc']

/-- Comparing two values that are not negative. -/
theorem flt_false_false (a b : Nat) : flt (.fin false a) (.fin false b) = decide (a < b) := by
  simp [flt, signedUnits]

/-- A value that is not negative is not below one that is not positive. -/
theorem flt_false_true (a b : Nat) : flt (.fin false a) (.fin true b) = false := by
  simp [flt, signedUnits]

/-- Comparing two values that are not positive. -/
theorem flt_true_true (a b : Nat) : flt (.fin true a) (.fin true b) = decide (b < a) := by
  simp [flt, signedUnits]

/-- A negative value is below one that is not. -/
theorem flt_true_false (a b : Nat) (h : 0 < a) : flt (.fin true a) (.fin false b) = true := by
  simp only [flt, signedUnits, if_true, decide_eq_true_eq]
  simp
  omega

/-- What is above a value that is not negative: an infinity, or a larger one. -/
theorem flt_false_cases {m : Nat} {y : FReal} (h : flt (.fin false m) y = true) :
    y = .inf false ∨ ∃ n, y = .fin false n ∧ m < n := by
  cases y with
  | nan => simp [flt] at h
  | inf neg =>
    cases neg
    · exact .inl rfl
    · simp [flt] at h
  | fin neg n =>
    cases neg
    · rw [flt_false_false] at h
      exact .inr ⟨n, rfl, of_decide_eq_true h⟩
    · rw [flt_false_true] at h
      cases h

/-- The logarithm of a value not below 1. -/
theorem logb_unit_nonneg {m : Nat} (h : ¬m < 2 ^ 1074) : 0 ≤ Real.logb 10 ((m : ℝ) / (2 : ℝ) ^ 1074) := by
  refine Real.logb_nonneg (by norm_num) ?_
  rw [le_div_iff₀ (by positivity), one_mul]
  exact_mod_cast not_lt.1 h

/-- The logarithm of a value below 1. -/
theorem logb_unit_nonpos {m : Nat} (h : m < 2 ^ 1074) : Real.logb 10 ((m : ℝ) / (2 : ℝ) ^ 1074) ≤ 0 := by
  refine Real.logb_nonpos (by norm_num) (div_nonneg (Nat.cast_nonneg _) (by positivity)) ?_
  rw [div_le_iff₀ (by positivity), one_mul]
  exact_mod_cast h.le

/-- A value is within one unit of the last digit kept of it. -/
theorem within_trunc (neg : Bool) (z : ℝ) (hz : 0 ≤ z) :
    |((signedUnits neg (truncUnits ⌊z⌋₊) : Int) : ℝ) - (if neg then (-1 : ℝ) else 1) * z| ≤
      (2 : ℝ) ^ (⌊z⌋₊.log2 + 1 - 53) := by
  obtain ⟨h1, h2⟩ := truncUnits_spec ⌊z⌋₊
  have h1' : (truncUnits ⌊z⌋₊ : ℝ) ≤ (⌊z⌋₊ : ℝ) := by exact_mod_cast h1
  have h2' : (⌊z⌋₊ : ℝ) + 1 ≤ (truncUnits ⌊z⌋₊ : ℝ) + (2 : ℝ) ^ (⌊z⌋₊.log2 + 1 - 53) := by exact_mod_cast h2
  have h3 := Nat.floor_le hz
  have h4 := Nat.lt_floor_add_one z
  rw [abs_le]
  cases neg <;> simp only [signedUnits, Int.cast_neg, Int.cast_natCast, if_true, Bool.false_eq_true, if_false] <;>
    constructor <;> linarith only [h1', h2', h3, h4]

/-- The truncated logarithm has every property R302 lists. -/
theorem truncLog10_laws : Log10Laws truncLog10 := by
  have hp : (0 : ℝ) < (2 : ℝ) ^ 1074 := by positivity
  have hsign : ∀ {x : Word64} {m : Nat}, unpack .p64 x = .fin false m → 0 < m → m ≠ 2 ^ 1074 →
      0 < truncUnits ⌊|Real.logb 10 ((m : ℝ) / (2 : ℝ) ^ 1074)| * (2 : ℝ) ^ 1074⌋₊ := by
    intro x m h h0 h1
    have h2 := Nat.le_floor (show ((1 : ℕ) : ℝ) ≤ _ from by simpa using logb_away h h0 h1)
    exact (Nat.two_pow_pos _).trans_le (truncUnits_lead _ (by omega))
  have hone : powerOfTwo 0 = .fin false (2 ^ 1074) := rfl
  have h1 : unpack .p64 0x3FF0000000000000#64 = .fin false (2 ^ 1074) := by decide +kernel
  have hinf : unpack .p64 0x7FF0000000000000#64 = .inf false := by decide +kernel
  have hti : ∀ {x : Word64}, unpack .p64 x = .inf false → truncLog10 x = 0x7FF0000000000000#64 := by
    intro x h
    unfold truncLog10
    rw [h]
  have hmono : ∀ {a b : ℝ}, a ≤ b → truncUnits ⌊a * (2 : ℝ) ^ 1074⌋₊ ≤ truncUnits ⌊b * (2 : ℝ) ^ 1074⌋₊ :=
    fun h => truncUnits_mono (Nat.floor_le_floor (mul_le_mul_of_nonneg_right h hp.le))
  refine ⟨?_, hti hinf, ?_, ?_, ?_, ?_, ?_⟩
  · unfold truncLog10
    rw [h1]
    dsimp only
    have hu := logUnits_eq 1074 (2 ^ 1074) (2 ^ 1074) (Nat.two_pow_pos _) le_rfl
    push_cast at hu
    rw [div_self hp.ne', Real.logb_one, zero_mul, Nat.floor_zero] at hu
    rw [if_pos le_rfl, hu]
    decide +kernel
  · intro x h
    rw [hone] at h
    rcases flt_false_cases h with hx | ⟨m, hx, hm⟩
    · rw [hti hx, hinf]
      rfl
    · have h0 : 0 < m := (Nat.two_pow_pos _).trans hm
      rw [truncLog10_eq hx h0, decide_eq_false (not_lt.2 hm.le)]
      exact (flt_false_false _ _).trans (decide_eq_true (hsign hx h0 hm.ne'))
  · intro x h h2
    rcases flt_false_cases h with hx | ⟨m, hx, h0⟩
    · rw [hx] at h2
      cases h2
    · rw [hx, hone, flt_false_false] at h2
      have hm := of_decide_eq_true h2
      rw [truncLog10_eq hx h0, decide_eq_true hm]
      exact flt_true_false _ _ (hsign hx h0 hm.ne)
  · intro x y h hxy
    rcases flt_false_cases h with hx | ⟨m, hx, h0⟩
    · rw [hx] at hxy
      cases hy : unpack .p64 y <;> simp [hy, flt] at hxy
    · rw [hx] at hxy
      rcases flt_false_cases hxy with hy | ⟨n, hy, hmn⟩
      · rw [hti hy, hinf, truncLog10_eq hx h0]
        rfl
      · rw [truncLog10_eq hx h0, truncLog10_eq hy (h0.trans hmn)]
        have hm0 : (0 : ℝ) < (m : ℝ) / (2 : ℝ) ^ 1074 := div_pos (by exact_mod_cast h0) hp
        have hle : (m : ℝ) / (2 : ℝ) ^ 1074 ≤ (n : ℝ) / (2 : ℝ) ^ 1074 :=
          div_le_div_of_nonneg_right (by exact_mod_cast hmn.le) hp.le
        have hl : Real.logb 10 ((m : ℝ) / (2 : ℝ) ^ 1074) ≤ Real.logb 10 ((n : ℝ) / (2 : ℝ) ^ 1074) :=
          Real.logb_le_logb_of_le (by norm_num) hm0 hle
        by_cases hm : m < 2 ^ 1074
        · by_cases hn : n < 2 ^ 1074
          · have h3 : |Real.logb 10 ((n : ℝ) / (2 : ℝ) ^ 1074)| ≤ |Real.logb 10 ((m : ℝ) / (2 : ℝ) ^ 1074)| := by
              rw [abs_of_nonpos (logb_unit_nonpos hm), abs_of_nonpos (logb_unit_nonpos hn)]
              exact neg_le_neg hl
            rw [decide_eq_true hm, decide_eq_true hn, flt_true_true]
            exact decide_eq_false (not_lt.2 (hmono h3))
          · rw [decide_eq_true hm, decide_eq_false hn, flt_false_true]
        · have hn : ¬n < 2 ^ 1074 := fun hc => hm (hmn.trans hc)
          have h3 : |Real.logb 10 ((m : ℝ) / (2 : ℝ) ^ 1074)| ≤ |Real.logb 10 ((n : ℝ) / (2 : ℝ) ^ 1074)| := by
            rw [abs_of_nonneg (logb_unit_nonneg hm), abs_of_nonneg (logb_unit_nonneg hn)]
            exact hl
          rw [decide_eq_false hm, decide_eq_false hn, flt_false_false]
          exact decide_eq_false (not_lt.2 (hmono h3))
  · intro x m h h0
    rw [truncLog10_eq h h0]
    rfl
  · intro x m neg mag h h0 hv
    rw [truncLog10_eq h h0] at hv
    injection hv with h3 h4
    unfold WithinOneUlp
    rw [← h4]
    have hz : 0 ≤ |Real.logb 10 ((m : ℝ) / (2 : ℝ) ^ 1074)| * (2 : ℝ) ^ 1074 := by positivity
    have ha : Real.logb 10 ((m : ℝ) / (2 : ℝ) ^ 1074) * (2 : ℝ) ^ 1074 =
        (if neg then (-1 : ℝ) else 1) * (|Real.logb 10 ((m : ℝ) / (2 : ℝ) ^ 1074)| * (2 : ℝ) ^ 1074) := by
      rw [← h3]
      by_cases hm : m < 2 ^ 1074
      · rw [abs_of_nonpos (logb_unit_nonpos hm), if_pos (decide_eq_true hm)]
        ring
      · rw [abs_of_nonneg (logb_unit_nonneg hm), if_neg (by rw [decide_eq_false hm]; decide), one_mul]
    rw [ha]
    exact within_trunc neg _ hz

/-- A function R302 allows. -/
def someLog10 : Log10 := { fn := truncLog10, laws := truncLog10_laws }

end Sys2Proof.Machine
end

