-- ==== Sys2Proof/Config.lean ====
section
/-! DEFINITION. What a build of the hardware fixes, as the argument the machine takes (`00_scope.md` R10,
`92_eei_decisions.md`, last paragraph), and the free values: what the spec leaves open, as constants with no
body. -/

namespace Sys2Proof.Config

/-- The build-time parameters (R10). The machine takes them as an argument; a field's default is the one the
spec chose. `TW` and `LOG10` have none: they are open (D9, D24). -/
structure Build where
  /-- `MAX_CHANNELS`, bound of `C`. -/
  maxChannels : Nat := 8
  /-- `MIN_ORDER`, the smallest transform order. -/
  minOrder : Nat := 3
  /-- `MAX_ORDER`, the largest transform order. -/
  maxOrder : Nat := 17
  /-- `MAX_BLOCKS`, bound of `B`. -/
  maxBlocks : Nat := 1024
  /-- `ARENA_MAX_BYTES` (R74). -/
  arenaMaxBytes : Nat := 2 ^ 28
  /-- `COEF_MAX_BYTES` (R75). -/
  coefMaxBytes : Nat := 2 ^ 28
  /-- `IOBUF_MAX_BYTES`, the size of `INBUF` and of `OUTBUF`. -/
  iobufMaxBytes : Nat := 2 ^ 22
  /-- `CIN_MAX_ELEMS`, raw coefficients per channel. -/
  cinMaxElems : Nat := 2 ^ 22
  /-- `DITHER_TABLE_MAX` in bytes (R264). -/
  ditherTableMax : Nat := 1536000
  /-- `LOG_DEPTH`, records in the log FIFO (R30). -/
  logDepth : Nat := 64
  /-- `DITHER_SEED` (R265). -/
  ditherSeed : Word := 1#32
  /-- `IN_SCALE`, the weight of `RUN` step 4, as binary64 bits (1.0; R223). -/
  inScale : Word64 := 0x3FF0000000000000#64
  /-- `OUT_SCALE`, the weight of `RUN` step 6, as binary64 bits (1.0; R227). -/
  outScale : Word64 := 0x3FF0000000000000#64
  /-- `NONFINITE_CHECK_INDEX`, the sample `RUN` step 7 inspects, in `0..L-1` (R227, U4). -/
  nonfiniteCheckIndex : Nat := 0
  /-- `TW`: precision, order and index to the bits of `(wr, wi)`, any two reals (R143; binary32 bits in the low
  half). -/
  tw : Prec → Nat → Nat → Word64 × Word64
  /-- `LOG10`, of the bits of a binary64 (R302). -/
  log10 : Word64 → Word64

/-- What makes parameters a build of this hardware: any `TW` (R143), a `LOG10` that R302 allows, an inspected
sample in the range `0..L-1` that `93_implementation_defined.md` U4 gives it, for the smallest `L`, and sizes that
fit the widths the spec gives what they bound (DEDUCED, assumption 9): `C` in 4 bits (R23), a transform in
groups of 4 bins and an order in a 32-bit plan word (D12, R29), a ring slot in a 24-bit index (R112), `T` and
`LOG_COUNT` in 32 bits (R27, R31), and an aperture ends below the next one (R71). -/
structure Build.Legal (b : Build) : Prop where
  channels : 1 ≤ b.maxChannels ∧ b.maxChannels ≤ 15
  orders : 3 ≤ b.minOrder ∧ b.maxOrder ≤ 31
  blocks : b.maxBlocks ≤ 2 ^ 24
  table : b.ditherTableMax < 2 ^ 32
  logs : b.logDepth < 2 ^ 32
  samples : b.iobufMaxBytes ≤ 0x10000000
  staging : b.cinMaxElems * 8 ≤ 0x04000000
  check : b.nonfiniteCheckIndex < 2 ^ (b.minOrder - 1)
  log10 : Machine.Log10Laws b.log10

/-- The twiddle ROM's contents (R143; assumption 1). -/
opaque twiddle : Prec → Nat → Nat → Word64 × Word64

/-- `LOG10`: some function with the properties R302 lists, there being one; which one is free
(assumption 2). -/
opaque log10 [Inhabited Machine.Log10] : Machine.Log10

/-- The sign and payload of a NaN that is stored, one choice for each store and each element
(`93_implementation_defined.md` U3; assumption 3). -/
opaque nanCode : Nat → Nat → Nat

/-- The byte at an address of `INBUF`, `OUTBUF` or `CIN` that nothing has written since the hardware
reset of that number (`10_state.md` R41; assumption 4). -/
opaque powerOnByte : Nat → Nat → Byte

/-- The build that `exec` and `step` run: the spec's defaults, a free ROM and a free `LOG10`. -/
def build : Build := { tw := twiddle, log10 := (@log10 ⟨Machine.someLog10⟩).fn }

/-- The build that `exec` and `step` run is one. -/
theorem build_legal : build.Legal where
  channels := by decide
  orders := by decide
  blocks := by decide
  table := by decide
  logs := by decide
  samples := by decide
  staging := by decide
  check := by decide
  log10 := (@log10 ⟨Machine.someLog10⟩).laws

end Sys2Proof.Config
end

