-- ==== Sys2Proof/Machine/State.lean ====
section
/-! DEFINITION. The state of one engine instance (`10_state.md` R20 to R41), as plain data, and its value
after a hardware reset. -/

namespace Sys2Proof.Machine

/-- The engine state `fsm` (R21). -/
inductive Fsm where
  | uninit
  | initialized
  | ready
deriving DecidableEq, Repr, Inhabited

/-- The code of `fsm` in `STATUS[1:0]` and in the `RESULT_AUX` of `E_STATE` (R21, R115). -/
def Fsm.code : Fsm → Nat
  | .uninit => 0
  | .initialized => 1
  | .ready => 2

/-- Why the machine stops with a fault. There is no such reason: every command ends by writing `RESULT`
and no error stops the hardware (`60_exceptions.md` R310, `93_implementation_defined.md` section 1), and a
host access to an address that does not exist is ignored or reads 0 (`20_memory.md` R71; DEDUCED, assumption 16). -/
inductive Fault where
deriving DecidableEq, Repr

/-- Why the machine refuses an instruction. -/
inductive Refusal where
  /-- Raised by `exec` alone, for an instruction that has no meaning yet. Safe: the model stops. -/
  | notModelled (mnemonic : String)
deriving DecidableEq, Repr

/-- What one step answers. -/
abbrev Result (σ : Type) := Host.Outcome σ Fault Refusal

/-- The result codes (`30_encoding.md` R114). -/
inductive ResultCode where
  | ok
  | eIncompatible
  | eLoad
  | ePreprocess
  | eNonfinite
  | eState
  | ePrecision
  | eBlockLen
  | eChannels
  | eAlloc
  | eDitherTable
  | eIllegalCmd
  | eBadArg
  | eFormat
  | eNBlocks
  | eSampleRate
  | eCounter
  | eAlias
deriving DecidableEq, Repr, Inhabited

/-- The magnitude of the negative code of R114: code `-n` for `n` here. -/
def ResultCode.number : ResultCode → Nat
  | .ok => 0
  | .eIncompatible => 1
  | .eLoad => 2
  | .ePreprocess => 3
  | .eNonfinite => 4
  | .eState => 5
  | .ePrecision => 6
  | .eBlockLen => 7
  | .eChannels => 8
  | .eAlloc => 9
  | .eDitherTable => 10
  | .eIllegalCmd => 11
  | .eBadArg => 12
  | .eFormat => 13
  | .eNBlocks => 14
  | .eSampleRate => 15
  | .eCounter => 16
  | .eAlias => 17

/-- The 32-bit two's-complement word of a result code (R114). -/
def ResultCode.word (c : ResultCode) : Word := -(BitVec.ofNat 32 c.number)

/-- The kinds of a log record (`30_encoding.md` R117; no other kind is ever produced, V9). -/
inductive LogKind where
  | planCreated
  | overflowReport
  | preprocessBlockFail
  | constructFail
  | verifyNonfinite
  | setcoeffFail
  | runNonfinite
deriving DecidableEq, Repr, Inhabited

/-- The number of a log kind (R117). -/
def LogKind.code : LogKind → Nat
  | .planCreated => 1
  | .overflowReport => 2
  | .preprocessBlockFail => 3
  | .constructFail => 4
  | .verifyNonfinite => 5
  | .setcoeffFail => 6
  | .runNonfinite => 7

/-- A log record (`30_encoding.md` R116). -/
structure LogRecord where
  kind : LogKind
  ch : Byte
  sub : Byte
  a : Word
  f : Word64
deriving DecidableEq, Repr, Inhabited

/-- The bits of a real of the instance's precision; binary32 bits stand in the low half (R36). -/
abbrev RealBits := Word64

/-- A buffer of the arena or of the coefficient store: its elements' bits (`20_memory.md` R70). -/
abbrev Buf := List RealBits

/-- The latched configuration (R9, R23). `N`, `o` and `rs` are derived from it. -/
structure Latched where
  /-- `L`, the filter block length. -/
  blockLen : Word
  /-- `B`, the number of ring slots per channel. -/
  nBlocks : Word
  /-- `P`. -/
  prec : Prec
  /-- `C`, the number of channels. -/
  nChannels : BitVec 4
  /-- `fmt_in`. -/
  fmtIn : BitVec 13
  /-- `fmt_out`. -/
  fmtOut : BitVec 13
  /-- `rate`. -/
  rate : Word
  /-- `apply_dither`. -/
  applyDither : Bool
deriving DecidableEq, Repr, Inhabited

/-- A sample format descriptor of a channel and direction (R24). -/
structure SampleDesc where
  bytes : Nat
  sbits : Nat
  isFloat : Bool
  bigEndian : Bool
  /-- Byte offset of the channel's first sample. -/
  offset : Nat
  /-- Distance between two samples of the channel, in samples. -/
  stride : Nat
  /-- The scale factor, binary64 bits. -/
  scale : Word64
deriving DecidableEq, Repr, Inhabited

/-- The current overflow record `ovf[c]` (R28). -/
structure OvfRecord where
  clips : Word
  /-- binary64 bits, never a NaN, never negative. -/
  largestF : Word64
  largestI : Word
  /-- binary64 bits. -/
  max : Word64
deriving DecidableEq, Repr, Inhabited

/-- The last reported snapshot `snap[c]` (R28). -/
structure SnapRecord where
  clips : Word
  largestF : Word64
  largestI : Word
deriving DecidableEq, Repr, Inhabited

/-- The dither state `dstate[c]` (R27). -/
structure DitherState where
  cursor : Word
  s0 : RealBits
  s1 : RealBits
deriving DecidableEq, Repr, Inhabited

/-- Everything a channel owns: descriptors (R24), counters (R25), coefficient set (R26), dither state
(R27), overflow records (R28), and its buffers of the arena and of the coefficient store (`20_memory.md`
R74, R75). A buffer that does not exist is the empty list. -/
structure Channel where
  descIn : SampleDesc
  descOut : SampleDesc
  ditherOn : Bool
  processed : Word
  coefNBlocks : Word
  coef : List Buf
  dstate : DitherState
  ovf : OvfRecord
  snap : SnapRecord
  tb0 : Buf
  tb1 : Buf
  ring : List Buf
  acc : Buf
deriving DecidableEq, Repr, Inhabited

/-- The plan bitset `plan_valid[inv][inpl]` (R29). -/
structure PlanValid where
  fwdOop : Word
  fwdInp : Word
  invOop : Word
  invInp : Word
deriving DecidableEq, Repr, Inhabited

/-- The `CFG_*` registers (R33). -/
structure CfgRegs where
  blockLen : Word
  nBlocks : Word
  precision : Word
  nChannels : Word
  inFormat : Word
  outFormat : Word
  sampleRate : Word
  applyDither : Word
deriving DecidableEq, Repr, Inhabited

/-- The `ARG_*` registers (R34). -/
structure ArgRegs where
  nCoeffs : Word
  coeffBlocks : Word
  coeffLen : Word
  scale : Word64
deriving DecidableEq, Repr, Inhabited

/-- The `OP_*` registers (R35). -/
structure OpRegs where
  dst : Word
  src0 : Word
  src1 : Word
  src2 : Word
  src3 : Word
  coef : Word
  off : Word
  len : Word
  scale0 : Word64
  scale1 : Word64
  scale2 : Word64
  scale3 : Word64
deriving DecidableEq, Repr, Inhabited

/-- The size of a host access in bytes (`20_memory.md` R78, R79). -/
inductive AccessSize where
  | b1
  | b2
  | b4
  | b8
deriving DecidableEq, Repr, Inhabited

/-- The size in bytes. -/
def AccessSize.bytes : AccessSize → Nat
  | .b1 => 1
  | .b2 => 2
  | .b4 => 4
  | .b8 => 8

/-- One thing the outside does to the block: a transaction at the host port (`00_scope.md` R8), or a
hardware reset, sampled between commands (`70_reset_and_hazards.md` R340). -/
inductive HostTxn where
  | write (size : AccessSize) (addr : Word) (data : Word64)
  | read (size : AccessSize) (addr : Word)
  | hardReset
deriving DecidableEq, Repr, Inhabited

/-- The bytes of `INBUF`, `OUTBUF` and `CIN` that have been written since the hardware reset, by host
address, addresses strictly rising. An unlisted address has not been written: it reads as no listed byte
at all, and the machine puts the free power-on byte there (`10_state.md` R41; assumption 4). -/
abbrev Memory := List Host.Cell

/-- The state of one instance (R20). The last four fields are the model's own. -/
structure State where
  /-- `fsm` (R21). -/
  fsm : Fsm
  /-- The latched configuration (R23). -/
  lat : Latched
  /-- `block_counter` (R25). -/
  blockCounter : Word64
  /-- `buf_sel` (R25): which of `TB[c][0]`, `TB[c][1]` is current. -/
  bufSel : Bool
  /-- The channels `0 .. MAX_CHANNELS-1`. -/
  chans : List Channel
  /-- `SCR[0..3]` (`20_memory.md` R74). -/
  scr : List Buf
  /-- `T` (R27). -/
  tableSize : Word
  /-- `spacing` (R27). -/
  spacing : Word
  /-- `RANDVEC[0..T)` (R27). -/
  randvec : List Byte
  /-- `plan_valid` (R29). -/
  plan : PlanValid
  /-- The log FIFO, head first (R30). -/
  log : List LogRecord
  /-- `log_rd` (R30). -/
  logRd : BitVec 2
  /-- `log_lost` (R30). -/
  logLost : Bool
  cfg : CfgRegs
  arg : ArgRegs
  op : OpRegs
  /-- `DBG_BUF` (R36). -/
  dbgBuf : Word
  /-- `DBG_IDX` (R36). -/
  dbgIdx : Word
  /-- `RESULT` (R31). -/
  result : Word
  /-- `RESULT_AUX` (R31). -/
  resultAux : Word
  /-- `STATUS.LAST_FAIL` (R32). -/
  lastFail : Bool
  /-- `INBUF`, `OUTBUF`, `CIN[c]` by host address (`20_memory.md` R71). -/
  mem : Memory
  /-- The model's own: what the outside does next, first at the head (assumption 5). -/
  pending : List HostTxn
  /-- The model's own: the data of the last host read, zero-extended (assumption 5). -/
  readData : Word64
  /-- The model's own: counts the stores that may need a free NaN (assumption 3). -/
  freeCtr : Nat
  /-- The model's own: counts the hardware resets, so that each leaves fresh power-on bytes (assumption 4). -/
  powerOns : Nat
deriving DecidableEq, Repr

/-- `N = 2*L` (R9). -/
def Latched.size (l : Latched) : Nat := 2 * l.blockLen.toNat

/-- `o = log2 N` (R9). -/
def Latched.order (l : Latched) : Nat := l.size.log2

/-- A configuration nothing has latched: "not meaningful while `fsm = UNINIT`" (R41; DESIGN CHOICE, assumption 6). -/
def Latched.reset : Latched :=
  { blockLen := 0#32, nBlocks := 0#32, prec := .p32, nChannels := 0#4, fmtIn := 0#13, fmtOut := 0#13,
    rate := 0#32, applyDither := false }

/-- A descriptor nothing has derived (R41; assumption 6). -/
def SampleDesc.reset : SampleDesc :=
  { bytes := 0, sbits := 0, isFloat := false, bigEndian := false, offset := 0, stride := 0, scale := 0#64 }

/-- `ovf[c]` after hardware reset: "all fields 0 (`max = +0.0`)" (R41). -/
def OvfRecord.reset : OvfRecord := { clips := 0#32, largestF := 0#64, largestI := 0#32, max := 0#64 }

/-- `snap[c]` after hardware reset (R41). -/
def SnapRecord.reset : SnapRecord := { clips := 0#32, largestF := 0#64, largestI := 0#32 }

/-- `dstate[c]` after hardware reset: cursor 0, `s0 = s1 = +0.0` (R41). -/
def DitherState.reset : DitherState := { cursor := 0#32, s0 := 0#64, s1 := 0#64 }

/-- A channel after hardware reset (R41): no buffer exists. -/
def Channel.reset : Channel :=
  { descIn := .reset, descOut := .reset, ditherOn := false, processed := 0#32, coefNBlocks := 0#32,
    coef := [], dstate := .reset, ovf := .reset, snap := .reset, tb0 := [], tb1 := [], ring := [], acc := [] }

/-- `plan_valid` all 0 (R41). -/
def PlanValid.reset : PlanValid := { fwdOop := 0#32, fwdInp := 0#32, invOop := 0#32, invInp := 0#32 }

/-- `CFG_*` all 0 (R41). -/
def CfgRegs.reset : CfgRegs :=
  { blockLen := 0#32, nBlocks := 0#32, precision := 0#32, nChannels := 0#32, inFormat := 0#32,
    outFormat := 0#32, sampleRate := 0#32, applyDither := 0#32 }

/-- `ARG_*` all 0 (R41). -/
def ArgRegs.reset : ArgRegs := { nCoeffs := 0#32, coeffBlocks := 0#32, coeffLen := 0#32, scale := 0#64 }

/-- `OP_*` all 0 (R41). -/
def OpRegs.reset : OpRegs :=
  { dst := 0#32, src0 := 0#32, src1 := 0#32, src2 := 0#32, src3 := 0#32, coef := 0#32, off := 0#32,
    len := 0#32, scale0 := 0#64, scale1 := 0#64, scale2 := 0#64, scale3 := 0#64 }

/-- The state of a build right after the first hardware reset (R41), with nothing pending at the host port. -/
def State.resetWith (b : Config.Build) : State :=
  { fsm := .uninit, lat := .reset, blockCounter := 0#64, bufSel := false,
    chans := List.replicate b.maxChannels .reset, scr := [], tableSize := 0#32, spacing := 0#32,
    randvec := [], plan := .reset, log := [], logRd := 0#2, logLost := false, cfg := .reset, arg := .reset,
    op := .reset, dbgBuf := 0#32, dbgIdx := 0#32, result := 0#32, resultAux := 0#32, lastFail := false,
    mem := [], pending := [], readData := 0#64, freeCtr := 0, powerOns := 0 }

/-- The state right after the first hardware reset (R41). -/
def State.reset : State := .resetWith Config.build

end Sys2Proof.Machine
end

