-- ==== Sys2Proof/Machine/Ops.lean ====
section
/-! DEFINITION. The named operations over the state: how a command ends (an error, a success), the log FIFO,
the byte-addressed memory, the channels and the buffers, and what a hardware reset and a tear-down leave. -/

namespace Sys2Proof.Machine

/-! ## Ending a command -/

/-- `raise E_X(aux)` (`00_scope.md` R13, `60_exceptions.md` R311): the hardware's whole exception entry. It
saves nothing else and transfers control nowhere (R317); what the command wrote before stays written. -/
def raise (s : State) (code : ResultCode) (aux : Word) : State :=
  { s with result := code.word, resultAux := aux, lastFail := true }

/-- A command that succeeds: `RESULT <- 0`, `RESULT_AUX <- aux`, `STATUS.LAST_FAIL <- 0` (R311). There is no
other return from an error (R317): the next command that succeeds clears `LAST_FAIL`. -/
def succeed (s : State) (aux : Word) : State :=
  { s with result := 0#32, resultAux := aux, lastFail := false }

/-- One line of a list of checks: what makes it fail, and what it then raises. -/
structure Check where
  fails : Bool
  code : ResultCode
  aux : Word
deriving DecidableEq, Repr, Inhabited

/-- The first check that fails, in the order written (R315; DEDUCED, assumption 10). -/
def firstFailure : List Check → Option (ResultCode × Word)
  | [] => none
  | c :: cs => if c.fails then some (c.code, c.aux) else firstFailure cs

/-- A command's argument checks and then its effect: the first check that fails is raised and nothing else
happens (R312, R315). -/
def checked (s : State) (checks : List Check) (effect : State) : State :=
  match firstFailure checks with
  | some (code, aux) => raise s code aux
  | none => effect

/-- A command legal in `INITIALIZED` and `READY` (R313): elsewhere `E_STATE` with `fsm`, before any argument
is looked at (R105). -/
def whenConstructed (s : State) (effect : State) : State :=
  if s.fsm = .uninit then raise s .eState (BitVec.ofNat 32 s.fsm.code) else effect

/-- A command legal in `READY` only (R313). -/
def whenReady (s : State) (effect : State) : State :=
  if s.fsm = .ready then effect else raise s .eState (BitVec.ofNat 32 s.fsm.code)

/-! ## The log FIFO -/

/-- `log(kind, ch, sub, a, f)` (`10_state.md` R30, `30_encoding.md` R116): a full FIFO drops the new record and
sets `log_lost`. -/
def logEvent (b : Config.Build) (s : State) (r : LogRecord) : State :=
  if s.log.length < b.logDepth then { s with log := s.log ++ [r] } else { s with logLost := true }

/-- A read of `LOG_POP` (R38): the word read and what the read does. -/
def logWord (r : LogRecord) (i : BitVec 2) : Word :=
  if i = 0#2 then BitVec.ofNat 32 (r.kind.code + r.ch.toNat * 256 + r.sub.toNat * 65536)
  else if i = 1#2 then r.a
  else if i = 2#2 then loWord r.f
  else hiWord r.f

/-- The value of a read of `LOG_POP`: word `log_rd` of the head record, 0 when the FIFO is empty (R38). -/
def logPopValue (s : State) : Word :=
  match s.log with
  | [] => 0#32
  | r :: _ => logWord r s.logRd

/-- The side effect of a read of `LOG_POP` (R38). -/
def logPopEffect (s : State) : State :=
  match s.log with
  | [] => s
  | _ :: rest => if s.logRd = 3#2 then { s with log := rest, logRd := 0#2 } else { s with logRd := s.logRd + 1#2 }

/-! ## The byte-addressed memory -/

/-- The canonical form of the memory: addresses strictly rising. -/
def Memory.wf : Memory → Bool
  | [] => true
  | [_] => true
  | a :: b :: rest => decide (a.1 < b.1) && Memory.wf (b :: rest)

/-- The byte written at an address, if any has been (an unlisted address has none). -/
def Memory.read? (m : Memory) (addr : Nat) : Option Byte :=
  match m with
  | [] => none
  | (a, b) :: rest => if a = addr then some b else Memory.read? rest addr

/-- The memory with a byte written, in canonical form. -/
def Memory.write (m : Memory) (addr : Nat) (v : Byte) : Memory :=
  match m with
  | [] => [(addr, v)]
  | (a, b) :: rest =>
    if addr < a then (addr, v) :: (a, b) :: rest
    else if addr = a then (addr, v) :: rest
    else (a, b) :: Memory.write rest addr v

/-- Base of `INBUF` in the host's address map (`20_memory.md` R71). -/
def inbufBase : Nat := 0x10000000
/-- Base of `OUTBUF` (R71). -/
def outbufBase : Nat := 0x20000000
/-- Base of `CIN[c]` (R71). -/
def cinBase (c : Nat) : Nat := 0x40000000 + c * 0x04000000

/-- Whether a host address is a byte of `INBUF`, `OUTBUF` or some `CIN[c]` (R71). -/
def mapped (b : Config.Build) (addr : Nat) : Bool :=
  (decide (inbufBase ≤ addr) && decide (addr < inbufBase + b.iobufMaxBytes)) ||
  (decide (outbufBase ≤ addr) && decide (addr < outbufBase + b.iobufMaxBytes)) ||
  (List.range b.maxChannels).any fun c =>
    decide (cinBase c ≤ addr) && decide (addr < cinBase c + b.cinMaxElems * 8)

/-- The byte at an address of an aperture: what was last written, or the power-on byte, which is free
(`10_state.md` R41; assumption 4). -/
def readByte (s : State) (addr : Nat) : Byte :=
  (Memory.read? s.mem addr).getD (Config.powerOnByte s.powerOns addr)

/-- A byte stored in an aperture. -/
def writeByte (s : State) (addr : Nat) (v : Byte) : State := { s with mem := Memory.write s.mem addr v }

/-- `MemRead(space, addr, n)` (R13): the bytes in ascending address order. -/
def readBytes (s : State) (addr n : Nat) : List Byte := (List.range n).map fun i => readByte s (addr + i)

/-- `MemWrite(space, addr, n, b)` (R13). -/
def writeBytes (s : State) (addr : Nat) : List Byte → State
  | [] => s
  | b :: bs => writeBytes (writeByte s addr b) (addr + 1) bs

/-- The number with the given bytes, the least significant first (`44_codec_dither.md` R250, `be = 0`). -/
def fromBytes : List Byte → Nat
  | [] => 0
  | b :: bs => b.toNat + 256 * fromBytes bs

/-- The low `n` bytes of a number, the least significant first (R250, `be = 0`). -/
def toBytes : Nat → Nat → List Byte
  | 0, _ => []
  | n + 1, u => BitVec.ofNat 8 u :: toBytes n (u / 256)

/-! ## Channels and buffers -/

/-- Channel `c` of the state. -/
def State.chan (s : State) (c : Nat) : Channel := s.chans.getD c .reset

/-- The state with channel `c` replaced. -/
def State.setChan (s : State) (c : Nat) (ch : Channel) : State := { s with chans := s.chans.set c ch }

/-- `C` of the latched configuration. -/
def State.channels (s : State) : Nat := s.lat.nChannels.toNat

/-- A buffer named by a buffer id (`30_encoding.md` R112). -/
inductive BufRef where
  | tb (c i : Nat)
  | ring (c b : Nat)
  | acc (c : Nat)
  | scr (i : Nat)
  | coef (c i : Nat)
  | invalid
deriving DecidableEq, Repr, Inhabited

/-- The elements of a buffer as stored; a buffer that does not exist has none. -/
def getBuf (s : State) : BufRef → Buf
  | .tb c i => if i = 0 then (s.chan c).tb0 else (s.chan c).tb1
  | .ring c b => (s.chan c).ring.getD b []
  | .acc c => (s.chan c).acc
  | .scr i => s.scr.getD i []
  | .coef c i => (s.chan c).coef.getD i []
  | .invalid => []

/-- The state with a buffer replaced (a `COEF` block is written by `SET_COEFF` alone, `20_memory.md` R70, and
not through here). -/
def setBuf (s : State) (r : BufRef) (b : Buf) : State :=
  match r with
  | .tb c i => s.setChan c (if i = 0 then { s.chan c with tb0 := b } else { s.chan c with tb1 := b })
  | .ring c i => s.setChan c { s.chan c with ring := (s.chan c).ring.set i b }
  | .acc c => s.setChan c { s.chan c with acc := b }
  | .scr i => { s with scr := s.scr.set i b }
  | .coef _ _ => s
  | .invalid => s

/-- Exactly `n` elements of a buffer, `+0.0` where it has fewer. -/
def fitTo : Nat → Buf → Buf
  | 0, _ => []
  | n + 1, [] => 0#64 :: fitTo n []
  | n + 1, x :: xs => x :: fitTo n xs

/-- `BUF(id)[0..N)` as reals (R13). -/
def loadReals (s : State) (r : BufRef) : List FReal :=
  (fitTo s.lat.size (getBuf s r)).map (unpack s.lat.prec)

/-- Reals as stored bits, from element number `e` on; a NaN's sign and payload are free, one choice for
each store and element (`93_implementation_defined.md` U3; assumption 3). -/
def packReals (p : Prec) (ctr : Nat) : Nat → List FReal → Buf
  | _, [] => []
  | e, x :: xs => pack p (Config.nanCode ctr e) x :: packReals p ctr (e + 1) xs

/-- `BUF(id)[0..N) <- xs`. -/
def storeReals (s : State) (r : BufRef) (xs : List FReal) : State :=
  { setBuf s r (packReals s.lat.prec s.freeCtr 0 xs) with freeCtr := s.freeCtr + 1 }

/-- A buffer of `n` elements with the elements from `off` on replaced by `xs`. -/
def splice (n : Nat) (b : Buf) (off : Nat) (xs : Buf) : Buf :=
  fitTo n ((fitTo n b).take off ++ xs ++ (fitTo n b).drop (off + xs.length))

/-- `BUF(id)[off + j] <- xs[j]`; the other elements are not changed. -/
def storeRealsAt (s : State) (r : BufRef) (off : Nat) (xs : List FReal) : State :=
  { setBuf s r (splice s.lat.size (getBuf s r) off (packReals s.lat.prec s.freeCtr off xs)) with
    freeCtr := s.freeCtr + 1 }

/-- Element `e` of a list of reals. -/
def nth (xs : List FReal) (e : Nat) : FReal := xs.getD e FReal.zero

/-- A buffer of `n` elements all `+0.0`. -/
def zeroBuf (n : Nat) : Buf := List.replicate n 0#64

/-! ## Resets -/

/-- The engine's own state as a hardware reset leaves it: no engine (R41; for a tear-down DEDUCED,
assumption 7). -/
def noEngine (b : Config.Build) (s : State) : State :=
  { s with
    fsm := .uninit, lat := .reset, blockCounter := 0#64, bufSel := false,
    chans := List.replicate b.maxChannels .reset, scr := [], tableSize := 0#32, spacing := 0#32,
    randvec := [], plan := .reset, log := [], logRd := 0#2, logLost := false }

/-- A hardware reset (`70_reset_and_hazards.md` R340, `10_state.md` R41): every register and state variable
to its reset value, and the apertures to unspecified bytes, fresh ones at each reset. What is pending at the
host port is outside the block and stays (DEDUCED, assumption 15). -/
def hardReset (b : Config.Build) (s : State) : State :=
  { State.resetWith b with pending := s.pending, freeCtr := s.freeCtr, powerOns := s.powerOns + 1 }

end Sys2Proof.Machine
end

