-- ==== Sys2Proof/Machine/Operands.lean ====
section
/-! DEFINITION. The operand forms: buffer ids, sample-format words and descriptors, sample containers and
their addresses, staging elements (`46_arithmetic_and_access_laws.md` R375). -/

namespace Sys2Proof.Machine

/-! ## Buffer ids -/

/-- The buffer a buffer id names (`30_encoding.md` R112); `invalid` for a reserved space or a reserved field
that is not 0. -/
def bufRef (id : Word) : BufRef :=
  let chan := id.toNat / 2 ^ 24 % 16
  let index := id.toNat % 2 ^ 24
  match id.toNat / 2 ^ 28 with
  | 1 => .tb chan index
  | 2 => .ring chan index
  | 3 => if index = 0 then .acc chan else .invalid
  | 4 => if chan = 0 then .scr index else .invalid
  | 5 => .coef chan index
  | _ => .invalid

/-- Whether a buffer exists (R113). -/
def refValid (s : State) : BufRef → Bool
  | .tb c i => decide (s.fsm ≠ .uninit) && decide (c < s.channels) && decide (i < 2)
  | .ring c b => decide (s.fsm ≠ .uninit) && decide (c < s.channels) && decide (b < s.lat.nBlocks.toNat)
  | .acc c => decide (s.fsm ≠ .uninit) && decide (c < s.channels)
  | .scr i => decide (s.fsm ≠ .uninit) && decide (i < 4)
  | .coef c i =>
    decide (s.fsm ≠ .uninit) && decide (c < s.channels) && decide (i < (s.chan c).coefNBlocks.toNat)
  | .invalid => false

/-- Whether a unit command may write a buffer (R113). -/
def refWritable : BufRef → Bool
  | .tb _ _ => true
  | .ring _ _ => true
  | .acc _ => true
  | .scr _ => true
  | .coef _ _ => false
  | .invalid => false

/-- A valid buffer id (R113). -/
def validId (s : State) (id : Word) : Bool := refValid s (bufRef id)

/-- A valid id of a buffer a unit command may write (R113). -/
def writableId (s : State) (id : Word) : Bool := validId s id && refWritable (bufRef id)

/-- `check valid(id) else raise E_BAD_ARG(id)`. -/
def checkValid (s : State) (id : Word) : Check := { fails := !validId s id, code := .eBadArg, aux := id }

/-- `check valid writable(id) else raise E_BAD_ARG(id)`. -/
def checkWritable (s : State) (id : Word) : Check :=
  { fails := !writableId s id, code := .eBadArg, aux := id }

/-- The ids `OP_SRC0 .. OP_SRC3`. -/
def OpRegs.sources (o : OpRegs) : List Word := [o.src0, o.src1, o.src2, o.src3]

/-- The scales `OP_SCALE0 .. OP_SCALE3`, binary64 bits. -/
def OpRegs.scales (o : OpRegs) : List Word64 := [o.scale0, o.scale1, o.scale2, o.scale3]

/-! ## Sample formats -/

/-- `bytes`, the container width (R110). -/
def fmtBytes (w : Nat) : Nat := w % 16
/-- `sbits`, the significant bits (R110). -/
def fmtSbits (w : Nat) : Nat := w / 16 % 128
/-- `is_float` (R110). -/
def fmtIsFloat (w : Nat) : Bool := decide (w / 2048 % 2 = 1)
/-- `big_endian` (R110). -/
def fmtBigEndian (w : Nat) : Bool := decide (w / 4096 % 2 = 1)

/-- Whether a sample-format word is valid (R110). -/
def fmtValid (w : Nat) : Bool :=
  decide (w / 8192 = 0) &&
  (if fmtIsFloat w then
    (decide (fmtBytes w = 4) || decide (fmtBytes w = 8)) && decide (fmtSbits w = 8 * fmtBytes w)
  else
    decide (1 ≤ fmtBytes w) && decide (fmtBytes w ≤ 4) && decide (2 ≤ fmtSbits w) &&
      decide (fmtSbits w ≤ 8 * fmtBytes w))

/-- The descriptor of channel `c` for a format word and `C` channels (`10_state.md` R24). -/
def sampleDesc (fmt : BitVec 13) (nChannels c : Nat) : SampleDesc :=
  let w := fmt.toNat
  { bytes := fmtBytes w
    sbits := fmtSbits w
    isFloat := fmtIsFloat w
    bigEndian := fmtBigEndian w
    offset := c * fmtBytes w
    stride := nChannels
    scale := pack .p64 0 (if fmtIsFloat w then powerOfTwo 0 else powerOfTwo (-((fmtSbits w : Int) - 1))) }

/-- `addr_d(c, j)`, the byte offset of sample `j` in the buffer of its direction (`20_memory.md` R72). -/
def sampleOffset (d : SampleDesc) (j : Nat) : Nat := d.offset + j * d.stride * d.bytes

/-! ## Containers -/

/-- `sext_n(u)` (`00_scope.md` R11, R371). -/
def signExtend (n u : Nat) : Int := if u < 2 ^ (n - 1) then (u : Int) else (u : Int) - 2 ^ n

/-- The unsigned integer of a container's bytes in ascending address order (`44_codec_dither.md` R250). -/
def containerValue (bigEndian : Bool) (bytes : List Byte) : Nat :=
  fromBytes (if bigEndian then bytes.reverse else bytes)

/-- The bytes of a container in ascending address order (R250). -/
def containerBytes (bigEndian : Bool) (width u : Nat) : List Byte :=
  if bigEndian then (toBytes width u).reverse else toBytes width u

/-- `GetContainer(space, addr, Bw, be)` (R250), `addr` a host address. -/
def getContainer (s : State) (addr width : Nat) (bigEndian : Bool) : Nat :=
  containerValue bigEndian (readBytes s addr width)

/-- `PutContainer(space, addr, Bw, be, u)` (R250), `addr` a host address. -/
def putContainer (s : State) (addr width : Nat) (bigEndian : Bool) (u : Nat) : State :=
  writeBytes s addr (containerBytes bigEndian width u)

/-! ## Staging -/

/-- `CinRead(c, e)`: element `e` of `CIN[c]`, `rs` bytes, little-endian, in the latched precision
(`20_memory.md` R73). -/
def cinRead (s : State) (c e : Nat) : FReal :=
  unpack s.lat.prec
    (BitVec.ofNat 64 (fromBytes (readBytes s (cinBase c + e * s.lat.prec.bytes) s.lat.prec.bytes)))

end Sys2Proof.Machine
end

