-- ==== Sys2Proof/Machine/Rom.lean ====
section
/-! DEFINITION. The two open parameters as the datapath reads them: the twiddle ROM and `LOG10`. -/

namespace Sys2Proof.Machine

/-- `LOG10(x)` of a binary64 value (R302); it is never applied to 0, a negative number or a NaN (R301). -/
def log10 (b : Config.Build) (x : FReal) : FReal := unpack .p64 (b.log10 (pack .p64 0 x))

/-- A twiddle factor `TW_o[k]` of order `o` (R143): `TW_o[0] = (1.0, -0.0)` and `TW_o[N/4] = (0.0, -1.0)`
exactly, every other entry the two reals the ROM holds, of which nothing is assumed (assumption 1). -/
def twiddle (b : Config.Build) (p : Prec) (o k : Nat) : FReal × FReal :=
  if k = 0 then (powerOfTwo 0, .fin true 0)
  else if 4 * k = 2 ^ o then (FReal.zero, fneg (powerOfTwo 0))
  else (unpack p (b.tw p o k).1, unpack p (b.tw p o k).2)

end Sys2Proof.Machine
end

