-- ==== Sys2Proof/Machine/Flags.lean ====
section
/-! DEFINITION. What stands in for flags: `STATUS` (`10_state.md` R32) and the overflow records that every
encoded sample updates (`45_overflow_tracker.md` R290 to R292; R28: they "play the part that condition flags
play in a processor"). -/

namespace Sys2Proof.Machine

/-- `STATUS` (R32). `BUSY` always reads 0: a command completes before the next transaction is accepted. -/
def statusWord (s : State) : Word :=
  BitVec.ofNat 32 (s.fsm.code + (if s.log.isEmpty then 0 else 8) + (if s.logLost then 16 else 0)
    + (if s.lastFail then 32 else 0))

/-- `OvfClip(c)`: the count saturates (R290). -/
def ovfClip (o : OvfRecord) : OvfRecord :=
  { o with clips := BitVec.ofNat 32 (min (o.clips.toNat + 1) (2 ^ 32 - 1)) }

/-- `OvfPeakF(c, m)`: the larger of `m` and `largest_f` (R291). -/
def ovfPeakF (o : OvfRecord) (m : FReal) : OvfRecord :=
  if flt (unpack .p64 o.largestF) m then { o with largestF := pack .p64 0 m } else o

/-- `OvfPeakI(c, a)`: the larger of `a` and `largest_i` (R292). -/
def ovfPeakI (o : OvfRecord) (a : Nat) : OvfRecord :=
  if o.largestI.toNat < a then { o with largestI := BitVec.ofNat 32 a } else o

/-- `ovf[c].max` (R28): `2^(S-1) - 1` for an integer output format, 1.0 for a float one. -/
def formatMax (d : SampleDesc) : Word64 :=
  pack .p64 0 (if d.isFloat then powerOfTwo 0 else i2f64 (2 ^ (d.sbits - 1) - 1))

/-- The record after `CONSTRUCT` (`43_engine.md` R213). -/
def freshOvf (d : SampleDesc) : OvfRecord :=
  { clips := 0#32, largestF := 0#64, largestI := 0#32, max := formatMax d }

/-- The record after `RESET`: `max` is kept (R230, R293). -/
def clearOvf (o : OvfRecord) : OvfRecord :=
  { clips := 0#32, largestF := 0#64, largestI := 0#32, max := o.max }

/-- The snapshot of a record (R300). -/
def snapshot (o : OvfRecord) : SnapRecord :=
  { clips := o.clips, largestF := o.largestF, largestI := o.largestI }

/-- Whether a record differs from its snapshot (R300). -/
def ovfDiffers (o : OvfRecord) (n : SnapRecord) : Bool :=
  decide (o.clips ≠ n.clips) || decide (o.largestI ≠ n.largestI) ||
    !feq (unpack .p64 o.largestF) (unpack .p64 n.largestF)

/-- The three display classes of a report (R117 kind 2). -/
inductive DbClass where
  | finite
  | negInf
  | negZero
deriving DecidableEq, Repr, Inhabited

/-- The `db_class` code (R117). -/
def DbClass.code : DbClass → Nat
  | .finite => 0
  | .negInf => 1
  | .negZero => 2

/-- The larger of two binary64 values that are not NaN. -/
def fmax (a b : FReal) : FReal := if flt a b then b else a

/-- The peak of a record: the larger tracker (R301). -/
def ovfPeak (o : OvfRecord) : FReal := fmax (unpack .p64 o.largestF) (i2f64 o.largestI.toNat)

/-- `PeakDb(c)` (R301). -/
def peakDb (b : Config.Build) (o : OvfRecord) : DbClass × FReal :=
  let peak := ovfPeak o
  if feq peak FReal.zero then (.negInf, FReal.zero)
  else
    let db := fmul64 (.fin false (20 * 2 ^ 1074)) (log10 b (fdiv64 peak (unpack .p64 o.max)))
    if feq db FReal.zero then (.negZero, FReal.zero) else (.finite, db)

end Sys2Proof.Machine
end

