-- ==== Sys2Proof/Machine/Codec.lean ====
section
/-! DEFINITION. The sample codec and the dither generator (`44_codec_dither.md`): decode, the three encoders,
the Tausworthe generator and its table, and the commands `DECODE` and `ENCODE`. -/

namespace Sys2Proof.Machine

/-! ## Decode -/

/-- The integer of an integer container (R253): the high `S` bits, sign-extended. -/
def decodeInt (d : SampleDesc) (u : Nat) : Int :=
  signExtend (8 * d.bytes) u / 2 ^ (8 * d.bytes - d.sbits)

/-- `DecSample(u, fmt)` (R253). -/
def decodeSample (p : Prec) (d : SampleDesc) (u : Nat) : FReal :=
  if d.isFloat then
    cvt p (unpack (if d.bytes = 4 then .p32 else .p64) (BitVec.ofNat 64 u))
  else fmul p (i2f p (decodeInt d u)) (cvt p (unpack .p64 d.scale))

/-- The sample of index `j` of channel `c` in `INBUF` (R251). -/
def inputSample (s : State) (c j : Nat) : FReal :=
  let d := (s.chan c).descIn
  decodeSample s.lat.prec d (getContainer s (inbufBase + sampleOffset d j) d.bytes d.bigEndian)

/-- `DECODE_SAMPLES(c)` (R251). -/
def decodeBlock (s : State) (c : Nat) : List FReal :=
  (List.range s.lat.blockLen.toNat).map fun j => inputSample s c j

/-- The check of the element offset of `DECODE` and `ENCODE` (R252, R256). -/
def checkOffset (s : State) : Check :=
  { fails := decide (s.lat.size < s.op.off.toNat + s.lat.blockLen.toNat), code := .eBadArg, aux := s.op.off }

/-- The check of a channel operand (R105). -/
def checkChannel (s : State) (ch : Nat) : Check :=
  { fails := decide (s.channels ≤ ch), code := .eBadArg, aux := BitVec.ofNat 32 ch }

/-- `DECODE` (R252). -/
def execDecodeSamples (ch : Nat) (s : State) : Result State :=
  .next <| whenConstructed s <|
    checked s [checkChannel s ch, checkWritable s s.op.dst, checkOffset s] <|
      succeed (storeRealsAt s (bufRef s.op.dst) s.op.off.toNat (decodeBlock s ch)) 0#32

/-! ## The encoders -/

/-- `mx = 2^(S-1) - 1` (R258). -/
def sampleMax (d : SampleDesc) : Int := 2 ^ (d.sbits - 1) - 1
/-- `mn = -2^(S-1)` (R258). -/
def sampleMin (d : SampleDesc) : Int := -(2 ^ (d.sbits - 1))

/-- `Quantise(c, u)` (R259): the integer and the record after it. -/
def quantise (d : SampleDesc) (o : OvfRecord) (u : FReal) : Int × OvfRecord :=
  if isNan u then (0, ovfClip o)
  else if greaterThanInt u (sampleMax d) then (sampleMax d, ovfPeakF (ovfClip o) (widen u))
  else if lessThanInt u (sampleMin d) then (sampleMin d, ovfPeakF (ovfClip o) (widen (fneg u)))
  else (floorHalf u, ovfPeakI o (floorHalf u).natAbs)

/-- The container of a quantised integer (R260): the high `S` bits, zeros below. -/
def intContainer (d : SampleDesc) (q : Int) : Nat :=
  (q * 2 ^ (8 * d.bytes - d.sbits) % 2 ^ (8 * d.bytes)).toNat

/-- A sample in the integer domain: `fmul(y, cvt(2^(S-1)))` (R258). -/
def integerDomain (p : Prec) (d : SampleDesc) (y : FReal) : FReal :=
  fmul p y (cvt p (powerOfTwo ((d.sbits : Int) - 1)))

/-- `EncFloat(c, y)` (R257): the container and the record; `code` chooses the bits of a NaN (U3). -/
def encodeFloat (d : SampleDesc) (code : Nat) (o : OvfRecord) (y : FReal) : Nat × OvfRecord :=
  let q := if d.bytes = 4 then Prec.p32 else Prec.p64
  let u := packNat q code (cvt q y)
  if isNan y then (u, ovfClip o)
  else
    let o1 := if flt (powerOfTwo 0) (fabs y) then ovfClip o else o
    (u, ovfPeakF o1 (widen (fabs y)))

/-- `EncInt(c, y)` (R258). -/
def encodeInt (p : Prec) (d : SampleDesc) (o : OvfRecord) (y : FReal) : Nat × OvfRecord :=
  let r := quantise d o (integerDomain p d y)
  (intContainer d r.1, r.2)

/-- `RANDMAP[s] = s/256` for a table byte read as a signed number (R266). -/
def randMap (b : Byte) : FReal := .fin (decide (b.toInt < 0)) (b.toInt.natAbs * 2 ^ 1066)

/-- The table byte at a position (R76, R261). -/
def randByte (s : State) (i : Nat) : Byte := s.randvec.getD i 0#8

/-- `u` and `w` of the dithered encoder (R261): the pre-quantization value, and the sample minus the error
fed back. -/
def ditheredValue (p : Prec) (d : SampleDesc) (t : DitherState) (r y : FReal) : FReal × FReal :=
  let w := fsub p (integerDomain p d y) (unpack p t.s1)
  (fadd p w (fsub p r (unpack p t.s0)), w)

/-- The next dither state (R261): the cursor moves on modulo `T`, `s0` is this random value, `s1` the total
error of this sample before any clamp, `+0.0` when `u` is not finite. -/
def nextDither (p : Prec) (t : DitherState) (tableSize code : Nat) (r u w : FReal) : DitherState :=
  { cursor := BitVec.ofNat 32 ((t.cursor.toNat + 1) % tableSize)
    s0 := pack p code r
    s1 := pack p code (if isFinite u then fsub p (i2f p (floorHalf u)) w else FReal.zero) }

/-- One sample of channel `c` encoded (R255): the container, and the channel with its record and, on the
dithered path, its dither state updated. -/
def encodeSample (s : State) (c code : Nat) (y : FReal) : Nat × Channel :=
  let ch := s.chan c
  let d := ch.descOut
  if d.isFloat then
    let e := encodeFloat d code ch.ovf y
    (e.1, { ch with ovf := e.2 })
  else if !ch.ditherOn then
    let e := encodeInt s.lat.prec d ch.ovf y
    (e.1, { ch with ovf := e.2 })
  else
    let r := randMap (randByte s ch.dstate.cursor.toNat)
    let v := ditheredValue s.lat.prec d ch.dstate r y
    let e := quantise d ch.ovf v.1
    (intContainer d e.1,
      { ch with
        ovf := e.2
        dstate := nextDither s.lat.prec ch.dstate s.tableSize.toNat code r v.1 v.2 })

/-- The host address of sample `j` of channel `c` in `OUTBUF` (R255). -/
def outputAddr (s : State) (c j : Nat) : Nat := outbufBase + sampleOffset (s.chan c).descOut j

/-- One turn of the loop of `ENCODE_BLOCK` (R255). -/
def encodeStep (c : Nat) (s : State) (jy : Nat × FReal) : State :=
  let d := (s.chan c).descOut
  let e := encodeSample s c (Config.nanCode s.freeCtr jy.1) jy.2
  { putContainer (s.setChan c e.2) (outputAddr s c jy.1) d.bytes d.bigEndian e.1 with
    freeCtr := s.freeCtr + 1 }

/-- The samples `ENCODE_BLOCK(c, src, off)` encodes, numbered (R255). -/
def numbered (l off : Nat) (src : List FReal) : List (Nat × FReal) :=
  (List.range l).map fun j => (j, nth src (off + j))

/-- `ENCODE_BLOCK(c, src, off)` (R255): ascending, because the dither state advances per sample. -/
def encodeBlock (s : State) (c off : Nat) (src : List FReal) : State :=
  (numbered s.lat.blockLen.toNat off src).foldl (encodeStep c) s

/-- `ENCODE` (R256). -/
def execEncodeSamples (ch : Nat) (s : State) : Result State :=
  .next <| whenConstructed s <|
    checked s [checkChannel s ch, checkValid s s.op.src0, checkOffset s] <|
      succeed (encodeBlock s ch s.op.off.toNat (loadReals s (bufRef s.op.src0))) 0#32

/-! ## The generator -/

/-- The state of the generator (R263). It exists only during `CONSTRUCT`. -/
structure Taus where
  z1 : Word
  z2 : Word
  z3 : Word
deriving DecidableEq, Repr, Inhabited

/-- `LCG(n)` (R263). -/
def lcg (n : Word) : Word := 69069#32 * n

/-- `TAUS(z, a, b, c, d)` (R263). -/
def tausWord (z : Word) (a b : Nat) (c : Word) (d : Nat) : Word :=
  ((z &&& c) <<< d) ^^^ (((z <<< a) ^^^ z) >>> b)

/-- The state after one `TausStep` (R263). -/
def Taus.next (t : Taus) : Taus :=
  { z1 := tausWord t.z1 13 19 0xFFFFFFFE#32 12
    z2 := tausWord t.z2 2 25 0xFFFFFFF8#32 4
    z3 := tausWord t.z3 3 11 0xFFFFFFF0#32 17 }

/-- The output of a `TausStep` that left this state (R263). -/
def Taus.output (t : Taus) : Word := t.z1 ^^^ t.z2 ^^^ t.z3

/-- `TausInit(seed)` (R263). -/
def tausInit (seed : Word) : Taus :=
  let n := if seed = 0#32 then 1#32 else seed
  let t : Taus := { z1 := lcg n, z2 := lcg (lcg n), z3 := lcg (lcg (lcg n)) }
  t.next.next.next.next.next.next

/-- The next `n` table bytes (R265). -/
def randTable : Nat → Taus → List Byte
  | 0, _ => []
  | n + 1, t => BitVec.ofNat 8 t.next.output.toNat :: randTable n t.next

/-- `RANDVEC[0..T)` for a seed (R265). -/
def ditherTable (seed : Word) (n : Nat) : List Byte := randTable n (tausInit seed)

end Sys2Proof.Machine
end

