-- ==== Sys2Proof/Machine/Transform.lean ====
section
/-! DEFINITION. The spectral transform engine (`40_transform.md`): layouts, butterfly, schedule, plan cache,
and the commands `TIME_TO_FREQ`, `FREQ_TO_TIME` and `MIX_AND_SCALE`. -/

namespace Sys2Proof.Machine

/-! ## The butterfly and the schedule -/

/-- A complex value, real part first. -/
abbrev ComplexValue := FReal × FReal

/-- Element `e` of a list of complex values. -/
def cnth (xs : List ComplexValue) (e : Nat) : ComplexValue := xs.getD e (FReal.zero, FReal.zero)

/-- The butterfly (R144): `(a + w*b, a - w*b)` in ten rounded operations. -/
def butterfly (p : Prec) (a b w : ComplexValue) : ComplexValue × ComplexValue :=
  let tr := fsub p (fmul p w.1 b.1) (fmul p w.2 b.2)
  let ti := fadd p (fmul p w.1 b.2) (fmul p w.2 b.1)
  ((fadd p a.1 tr, fadd p a.2 ti), (fsub p a.1 tr, fsub p a.2 ti))

/-- `bitrev_o(n)`: the low `o` bits of `n` reversed (R145). -/
def bitrev : Nat → Nat → Nat
  | 0, _ => 0
  | o + 1, n => n % 2 * 2 ^ o + bitrev o (n / 2)

/-- The twiddle of a butterfly, its imaginary part negated for the inverse (R145). -/
def stageTwiddle (b : Config.Build) (p : Prec) (o : Nat) (inverse : Bool) (k : Nat) : ComplexValue :=
  let w := twiddle b p o k
  (w.1, if inverse then fneg w.2 else w.2)

/-- Stage `s` of the schedule (R145): `m = 2^s`, `h = m/2`, butterflies of elements `k0 + j` and
`k0 + j + h`. Those of one stage touch disjoint pairs, so each element is given by its own butterfly
(DEDUCED, assumption 17). -/
def fftStage (b : Config.Build) (p : Prec) (o : Nat) (inverse : Bool) (s : Nat)
    (xs : List ComplexValue) : List ComplexValue :=
  (List.range (2 ^ o)).map fun i =>
    let h := 2 ^ (s - 1)
    let j := i % 2 ^ s
    if j < h then
      (butterfly p (cnth xs i) (cnth xs (i + h)) (stageTwiddle b p o inverse (j * 2 ^ (o - s)))).1
    else
      (butterfly p (cnth xs (i - h)) (cnth xs i) (stageTwiddle b p o inverse ((j - h) * 2 ^ (o - s)))).2

/-- The bit-reversed order of the `2^o` inputs (R145): element `bitrev_o(n)` is input `n`. -/
def bitReversed (o : Nat) (xs : List ComplexValue) : List ComplexValue :=
  (List.range (2 ^ o)).map fun i => cnth xs (bitrev o i)

/-- `FFT(re, im, inverse)` (R145): bit reversal, then stages `1 .. o` in order. -/
def fft (b : Config.Build) (p : Prec) (o : Nat) (inverse : Bool) (xs : List ComplexValue) : List ComplexValue :=
  (List.range o).foldl (fun ys k => fftStage b p o inverse (k + 1) ys) (bitReversed o xs)

/-- The forward transform of `2^o` time samples, in the half-complex layout (R140, R147). -/
def forwardReals (b : Config.Build) (p : Prec) (o : Nat) (xs : List FReal) : List FReal :=
  let y := fft b p o false ((List.range (2 ^ o)).map fun n => (nth xs n, FReal.zero))
  (List.range (2 ^ o)).map fun e => if e ≤ 2 ^ o / 2 then (cnth y e).1 else (cnth y (2 ^ o - e)).2

/-- The Hermitian spectrum a half-complex buffer stands for (R148). -/
def hermitian (o : Nat) (hc : List FReal) : List ComplexValue :=
  (List.range (2 ^ o)).map fun i =>
    let n := 2 ^ o
    if i = 0 ∨ i = n / 2 then (nth hc i, FReal.zero)
    else if i < n / 2 then (nth hc i, nth hc (n - i))
    else (nth hc (n - i), fneg (nth hc i))

/-- The inverse transform of a half-complex buffer, not normalised (R148): the real parts. -/
def inverseReals (b : Config.Build) (p : Prec) (o : Nat) (hc : List FReal) : List FReal :=
  (fft b p o true (hermitian o hc)).map fun z => z.1

/-! ## The plan cache -/

/-- `plan_valid[inv][inpl]` (R29). -/
def planWord (pl : PlanValid) (inv inpl : Bool) : Word :=
  match inv, inpl with
  | false, false => pl.fwdOop
  | false, true => pl.fwdInp
  | true, false => pl.invOop
  | true, true => pl.invInp

/-- `plan_valid` with one word replaced. -/
def setPlanWord (pl : PlanValid) (inv inpl : Bool) (w : Word) : PlanValid :=
  match inv, inpl with
  | false, false => { pl with fwdOop := w }
  | false, true => { pl with fwdInp := w }
  | true, false => { pl with invOop := w }
  | true, true => { pl with invInp := w }

/-- The record of a plan's creation (R117 kind 1). -/
def planRecord (inv inpl : Bool) (o : Nat) : LogRecord :=
  { kind := .planCreated, ch := 0xFF#8, sub := BitVec.ofNat 8 (inv.toNat + 2 * inpl.toNat),
    a := BitVec.ofNat 32 o, f := 0#64 }

/-- `use_plan(inv, inpl)` for the latched order (R146). -/
def usePlan (b : Config.Build) (s : State) (inv inpl : Bool) : State :=
  let o := s.lat.order
  if (planWord s.plan inv inpl).getLsbD o then s
  else
    logEvent b
      { s with plan := setPlanWord s.plan inv inpl (planWord s.plan inv inpl ||| BitVec.ofNat 32 (2 ^ o)) }
      (planRecord inv inpl o)

/-! ## Mixing and re-ordering -/

/-- The weighted sum of one element (R150): weights and values in input order, left to right, every product
rounded before it is added. -/
def weightedSum (p : Prec) : List (FReal × FReal) → FReal
  | [] => FReal.zero
  | t :: ts => ts.foldl (fun acc u => fadd p acc (fmul p u.1 u.2)) (fmul p t.1 t.2)

/-- `mixed(e)` for every element `e` (R149). -/
def mixed (p : Prec) (n : Nat) (weights : List FReal) (inputs : List (List FReal)) : List FReal :=
  (List.range n).map fun e => weightedSum p (weights.zip (inputs.map fun xs => nth xs e))

/-- `reorder_in`, half-complex to internal layout (R151). -/
def reorderIn (n : Nat) (xs : List FReal) : List FReal :=
  (List.range n).map fun i =>
    if i = 0 then nth xs 0
    else if i = 1 then nth xs (n / 2)
    else if i % 2 = 0 then nth xs (i / 2)
    else nth xs (n - i / 2)

/-- `reorder_out`, internal layout to half-complex (R152). -/
def reorderOut (n : Nat) (xs : List FReal) : List FReal :=
  (List.range n).map fun i =>
    if i = 0 then nth xs 0
    else if i = n / 2 then nth xs 1
    else if i < n / 2 then nth xs (2 * i)
    else nth xs (2 * (n - i) + 1)

/-- The mode of `MIX_AND_SCALE` (R103). -/
inductive MixMode where
  | input
  | output
deriving DecidableEq, Repr, Inhabited

/-- The re-ordering of a mode (R149). -/
def reorder (mode : MixMode) (n : Nat) (xs : List FReal) : List FReal :=
  match mode with
  | .input => reorderIn n xs
  | .output => reorderOut n xs

/-- `MIX_AND_SCALE` of one buffer with one binary64 weight, as `RUN` and the preprocessor use it (R149 with
`n = 1`). -/
def mixOne (p : Prec) (mode : MixMode) (n : Nat) (weight : FReal) (xs : List FReal) : List FReal :=
  reorder mode n (mixed p n [cvt p weight] [xs])

/-! ## The commands -/

/-- The state after a transform of a buffer into another, with its plan (R147, R148). -/
def transformed (b : Config.Build) (s : State) (inv inpl : Bool) (dst src : BufRef) : State :=
  let x := loadReals s src
  let y := if inv then inverseReals b s.lat.prec s.lat.order x else forwardReals b s.lat.prec s.lat.order x
  storeReals (usePlan b s inv inpl) dst y

/-- `TIME_TO_FREQ` (R147) with the build as an argument. -/
def timeToFreqWith (b : Config.Build) (s : State) : State :=
  whenConstructed s <| checked s [checkValid s s.op.src0, checkWritable s s.op.dst] <|
    succeed
      (transformed b s false (decide (s.op.dst = s.op.src0)) (bufRef s.op.dst) (bufRef s.op.src0)) 0#32

/-- `TIME_TO_FREQ` (R147). -/
def execTimeToFreq (s : State) : Result State := .next (timeToFreqWith Config.build s)

/-- `FREQ_TO_TIME` (R148) with the build as an argument. -/
def freqToTimeWith (b : Config.Build) (s : State) : State :=
  whenConstructed s <| checked s [checkValid s s.op.src0, checkWritable s s.op.dst] <|
    succeed
      (transformed b s true (decide (s.op.dst = s.op.src0)) (bufRef s.op.dst) (bufRef s.op.src0)) 0#32

/-- `FREQ_TO_TIME` (R148). -/
def execFreqToTime (s : State) : Result State := .next (freqToTimeWith Config.build s)

/-- The checks of `MIX_AND_SCALE` with `n` inputs (R149), in order. -/
def mixChecks (s : State) (n : Nat) : List Check :=
  { fails := decide (n = 0) || decide (4 < n), code := .eBadArg, aux := BitVec.ofNat 32 n } ::
    ((s.op.sources.take n).map (checkValid s) ++
      [checkWritable s s.op.dst,
       { fails := (s.op.sources.take n).contains s.op.dst, code := .eAlias, aux := s.op.dst }])

/-- The output of `MIX_AND_SCALE` with `n` inputs (R149). -/
def mixResult (s : State) (mode : MixMode) (n : Nat) : List FReal :=
  reorder mode s.lat.size
    (mixed s.lat.prec s.lat.size ((s.op.scales.take n).map fun w => cvt s.lat.prec (unpack .p64 w))
      ((s.op.sources.take n).map fun id => loadReals s (bufRef id)))

/-- `MIX_AND_SCALE` in either mode (R149). -/
def mixAndScale (s : State) (mode : MixMode) (n : Nat) : State :=
  whenConstructed s <| checked s (mixChecks s n) <|
    succeed (storeReals s (bufRef s.op.dst) (mixResult s mode n)) 0#32

/-- `MIX_AND_SCALE.IN` (R149, mode `INPUT`). -/
def execMixAndScaleIn (n : Nat) (s : State) : Result State := .next (mixAndScale s .input n)

/-- `MIX_AND_SCALE.OUT` (R149, mode `OUTPUT`). -/
def execMixAndScaleOut (n : Nat) (s : State) : Result State := .next (mixAndScale s .output n)

end Sys2Proof.Machine
end

