-- ==== Sys2Proof/Machine/Coeff.lean ====
section
/-! DEFINITION. Coefficient preprocessing (`42_coeff_preprocessor.md`): the conversion of one block,
`COEFFS_TO_INTERNAL`, `VERIFY`, and the preprocessor that `SET_COEFF` runs. -/

namespace Sys2Proof.Machine

/-- The first element, from number `e` on, that is not finite (R190, R192). -/
def firstNonfinite : Nat → List FReal → Option Nat
  | _, [] => none
  | e, x :: xs => if isFinite x then firstNonfinite (e + 1) xs else some e

/-- The record of a non-finite element (R117 kind 5): operand `sub`, element `e`. -/
def nonfiniteRecord (sub e : Nat) : LogRecord :=
  { kind := .verifyNonfinite, ch := 0xFF#8, sub := BitVec.ofNat 8 sub, a := BitVec.ofNat 32 e, f := 0#64 }

/-- The transform input of `C2I` (R190): `n` scaled staging elements at `L .. L+n-1`, `+0.0` elsewhere. -/
def c2iInput (s : State) (c start n : Nat) (scale : Word64) : List FReal :=
  let l := s.lat.blockLen.toNat
  let sp := cvt s.lat.prec (unpack .p64 scale)
  (List.range s.lat.size).map fun e =>
    if l ≤ e ∧ e < l + n then fmul s.lat.prec (cinRead s c (start + (e - l))) sp else FReal.zero

/-- The half-complex spectrum `C2I` leaves in `SCR[1]` (R190). -/
def c2iSpectrum (b : Config.Build) (s : State) (c start n : Nat) (scale : Word64) : List FReal :=
  forwardReals b s.lat.prec s.lat.order (c2iInput s c start n scale)

/-- The block `C2I` delivers (R190): the spectrum times `1/N`, in the internal layout. -/
def c2iBlock (b : Config.Build) (s : State) (c start n : Nat) (scale : Word64) : List FReal :=
  mixOne s.lat.prec .input s.lat.size (powerOfTwo (-(s.lat.order : Int))) (c2iSpectrum b s c start n scale)

/-- What `C2I` does before it writes the block: the in-place forward plan is used and `SCR[1]` holds the
spectrum (R190). -/
def c2iScratch (b : Config.Build) (s : State) (c start n : Nat) (scale : Word64) : State :=
  storeReals (usePlan b s false true) (.scr 1) (c2iSpectrum b s c start n scale)

/-- The finiteness scan over the finished block (R190): the first hit is logged. -/
def c2iScan (b : Config.Build) (s : State) (block : List FReal) : State :=
  match firstNonfinite 0 block with
  | none => s
  | some e => logEvent b s (nonfiniteRecord 0 e)

/-- The checks of `COEFFS_TO_INTERNAL` (R191), in order. -/
def coeffsToInternalChecks (b : Config.Build) (s : State) (ch : Nat) : List Check :=
  [{ fails := decide (s.channels ≤ ch), code := .eBadArg, aux := BitVec.ofNat 32 ch },
   { fails := decide (s.lat.blockLen.toNat < s.op.len.toNat), code := .eBadArg, aux := s.op.len },
   { fails := decide (b.cinMaxElems < s.op.off.toNat + s.op.len.toNat), code := .eBadArg,
     aux := s.op.off },
   checkWritable s s.op.dst,
   { fails := decide (bufRef s.op.dst = .scr 1), code := .eAlias, aux := s.op.dst }]

/-- The effect of `COEFFS_TO_INTERNAL` (R191): the block and `SCR[1]` are written in either case, and a block
that is not finite raises `E_PREPROCESS` with its first non-finite element. -/
def coeffsToInternalEffect (b : Config.Build) (s : State) (ch : Nat) : State :=
  let block := c2iBlock b s ch s.op.off.toNat s.op.len.toNat s.op.scale0
  let s1 := c2iScratch b s ch s.op.off.toNat s.op.len.toNat s.op.scale0
  let s2 := c2iScan b (storeReals s1 (bufRef s.op.dst) block) block
  match firstNonfinite 0 block with
  | none => succeed s2 0#32
  | some e => raise s2 .ePreprocess (BitVec.ofNat 32 e)

/-- `COEFFS_TO_INTERNAL` (R191) with the build as an argument. -/
def coeffsToInternalWith (b : Config.Build) (ch : Nat) (s : State) : State :=
  whenConstructed s <| checked s (coeffsToInternalChecks b s ch) <| coeffsToInternalEffect b s ch

/-- `COEFFS_TO_INTERNAL` (R191). -/
def execCoeffsToInternal (ch : Nat) (s : State) : Result State :=
  .next (coeffsToInternalWith Config.build ch s)

/-! ## VERIFY -/

/-- The first non-finite element of a list of buffers, as operand and element, operands from number `j` on
(R192). -/
def firstBad (s : State) : Nat → List Word → Option (Nat × Nat)
  | _, [] => none
  | j, id :: ids =>
    match firstNonfinite 0 (loadReals s (bufRef id)) with
    | some e => some (j, e)
    | none => firstBad s (j + 1) ids

/-- The checks of `VERIFY` with `n` buffers (R192), in order. -/
def verifyChecks (s : State) (n : Nat) : List Check :=
  { fails := decide (n = 0) || decide (4 < n), code := .eBadArg, aux := BitVec.ofNat 32 n } ::
    (s.op.sources.take n).map (checkValid s)

/-- `VERIFY` (R192) with the build as an argument: a non-finite element is no error; it is logged and the
command returns false. -/
def verifyWith (b : Config.Build) (n : Nat) (s : State) : State :=
  whenConstructed s <| checked s (verifyChecks s n) <|
    match firstBad s 0 (s.op.sources.take n) with
    | some (j, e) => succeed (logEvent b s (nonfiniteRecord j e)) 0#32
    | none => succeed s 1#32

/-- `VERIFY` (R192). -/
def execVerify (n : Nat) (s : State) : Result State := .next (verifyWith Config.build n s)

/-! ## The preprocessor -/

/-- The record of a failed block (R117 kind 3). -/
def blockFailRecord (c i : Nat) : LogRecord :=
  { kind := .preprocessBlockFail, ch := BitVec.ofNat 8 c, sub := 0#8, a := BitVec.ofNat 32 i, f := 0#64 }

/-- `n_i`, how many staged coefficients block `i` takes (R193). -/
def blockCount (blockLen len i : Nat) : Nat := min blockLen (len - i * blockLen)

/-- A block added to the blocks built so far of channel `c` (R193: the block is written although
`coef_nblocks[c]` does not count it yet). -/
def appendCoef (s : State) (c : Nat) (block : List FReal) : State :=
  { s.setChan c { s.chan c with coef := (s.chan c).coef ++ [packReals s.lat.prec s.freeCtr 0 block] } with
    freeCtr := s.freeCtr + 1 }

/-- One turn of the loop of `PREPROCESS` (R193): block `i`, and whether it failed. -/
def preprocessBlock (b : Config.Build) (s : State) (c len : Nat) (scale : Word64) (i : Nat) :
    State × Bool :=
  let l := s.lat.blockLen.toNat
  let n := blockCount l len i
  let block := c2iBlock b s c (i * l) n scale
  let s1 := c2iScan b (appendCoef (c2iScratch b s c (i * l) n scale) c block) block
  match firstNonfinite 0 block with
  | none => (s1, false)
  | some _ => (logEvent b s1 (blockFailRecord c i), true)

/-- `PREPROCESS(c, cb, len, sc)` (R193): every block is attempted; the second component says whether one
failed. -/
def preprocess (b : Config.Build) (s : State) (c cb len : Nat) (scale : Word64) : State × Bool :=
  (List.range cb).foldl
    (fun acc i =>
      let r := preprocessBlock b acc.1 c len scale i
      (r.1, acc.2 || r.2))
    (s, false)

end Sys2Proof.Machine
end

