-- ==== Sys2Proof/Machine/Multiplier.lean ====
section
/-! DEFINITION. The half-complex multiplier (`41_multiplier.md`): the convolve family and the dirac
pass-through. -/

namespace Sys2Proof.Machine

/-- `CMUL(a, b, c, d)` (R170): four rounded products, one subtraction, one addition. -/
def cmul (p : Prec) (x k : ComplexValue) : ComplexValue :=
  (fsub p (fmul p x.1 k.1) (fmul p x.2 k.2), fadd p (fmul p x.1 k.2) (fmul p x.2 k.1))

/-- Bin `b` of a buffer in the internal layout: its two adjacent elements (`40_transform.md` R141). -/
def bin (xs : List FReal) (b : Nat) : ComplexValue := (nth xs (2 * b), nth xs (2 * b + 1))

/-- `PRODUCT(A, K)` (R176): the two real-only bins apart, every other bin one complex product. -/
def product (p : Prec) (n : Nat) (a k : List FReal) : List FReal :=
  (List.range n).map fun e =>
    if e < 2 then fmul p (nth a e) (nth k e)
    else
      let z := cmul p (bin a (e / 2)) (bin k (e / 2))
      if e % 2 = 0 then z.1 else z.2

/-- `DIRAC(A)` (R174): every bin times `1/N`, with a minus sign for odd bins. -/
def dirac (p : Prec) (o : Nat) (a : List FReal) : List FReal :=
  (List.range (2 ^ o)).map fun e =>
    let f := cvt p (powerOfTwo (-(o : Int)))
    if e < 2 then fmul p (nth a e) f
    else fmul p (nth a e) (if e / 2 % 2 = 0 then f else fneg f)

/-- `fadd` of two buffers, element by element, the first operand first (R172). -/
def addReals (p : Prec) (n : Nat) (a b : List FReal) : List FReal :=
  (List.range n).map fun e => fadd p (nth a e) (nth b e)

/-- `PRODUCT` of two buffers of the state. -/
def productOf (s : State) (a k : BufRef) : List FReal :=
  product s.lat.prec s.lat.size (loadReals s a) (loadReals s k)

/-- The checks `CONVOLVE` and `CONVOLVE_ADD` share (R171, R172). -/
def convolveChecks (s : State) : List Check :=
  [checkValid s s.op.src0, checkValid s s.op.coef, checkWritable s s.op.dst,
   { fails := decide (s.op.dst = s.op.src0) || decide (s.op.dst = s.op.coef), code := .eAlias,
     aux := s.op.dst }]

/-- `CONVOLVE` (R171). -/
def execConvolve (s : State) : Result State :=
  .next <| whenConstructed s <| checked s (convolveChecks s) <|
    succeed (storeReals s (bufRef s.op.dst) (productOf s (bufRef s.op.src0) (bufRef s.op.coef))) 0#32

/-- The destination plus the product (R172). -/
def accumulated (s : State) (dst a k : BufRef) : List FReal :=
  addReals s.lat.prec s.lat.size (loadReals s dst) (productOf s a k)

/-- `CONVOLVE_ADD` (R172). -/
def execConvolveAdd (s : State) : Result State :=
  .next <| whenConstructed s <| checked s (convolveChecks s) <|
    succeed
      (storeReals s (bufRef s.op.dst)
        (accumulated s (bufRef s.op.dst) (bufRef s.op.src0) (bufRef s.op.coef))) 0#32

/-- `CONVOLVE_INPLACE` (R173). -/
def execConvolveInplace (s : State) : Result State :=
  .next <| whenConstructed s <|
    checked s [checkWritable s s.op.dst, checkValid s s.op.coef,
      { fails := decide (s.op.dst = s.op.coef), code := .eAlias, aux := s.op.dst }] <|
      succeed (storeReals s (bufRef s.op.dst) (productOf s (bufRef s.op.dst) (bufRef s.op.coef))) 0#32

/-- `DIRAC_CONVOLVE` (R174). -/
def execDiracConvolve (s : State) : Result State :=
  .next <| whenConstructed s <|
    checked s [checkValid s s.op.src0, checkWritable s s.op.dst,
      { fails := decide (s.op.dst = s.op.src0), code := .eAlias, aux := s.op.dst }] <|
      succeed
        (storeReals s (bufRef s.op.dst) (dirac s.lat.prec s.lat.order (loadReals s (bufRef s.op.src0)))) 0#32

/-- `DIRAC_CONVOLVE_INPLACE` (R175). -/
def execDiracConvolveInplace (s : State) : Result State :=
  .next <| whenConstructed s <| checked s [checkWritable s s.op.dst] <|
    succeed
      (storeReals s (bufRef s.op.dst) (dirac s.lat.prec s.lat.order (loadReals s (bufRef s.op.dst)))) 0#32

end Sys2Proof.Machine
end

