-- ==== Sys2Proof/Machine/Engine.lean ====
section
/-! DEFINITION. The engine commands (`43_engine.md`): `CONSTRUCT`, `SET_COEFF`, `RUN`, `RESET` and
`IS_INITIALIZED`. -/

namespace Sys2Proof.Machine

/-! ## CONSTRUCT -/

/-- Whether a register value is a power of two (R212; 0 is not). -/
def isPowerOfTwo (n : Nat) : Bool := decide (n ≠ 0) && decide (2 ^ n.log2 = n)

/-- `rs` for a precision register: 8 for 64, else 4 (R9). -/
def realSize (precision : Nat) : Nat := if precision = 64 then 8 else 4

/-- `arena_bytes = N * rs * (C * (B + 3) + 4)` (`20_memory.md` R74), exact. -/
def arenaBytes (g : CfgRegs) : Nat :=
  2 * g.blockLen.toNat * realSize g.precision.toNat * (g.nChannels.toNat * (g.nBlocks.toNat + 3) + 4)

/-- `Tneed = C * max(rate, L)` (R212 check 6, `44_codec_dither.md` R264), exact. -/
def tableNeed (g : CfgRegs) : Nat := g.nChannels.toNat * max g.sampleRate.toNat g.blockLen.toNat

/-- The checks of `CONSTRUCT`, in order (R212). -/
def constructChecks (b : Config.Build) (g : CfgRegs) : List Check :=
  let l := g.blockLen.toNat
  let c := g.nChannels.toNat
  [{ fails := decide (c = 0) || decide (b.maxChannels < c), code := .eChannels, aux := g.nChannels },
   { fails := !fmtValid g.inFormat.toNat, code := .eFormat, aux := g.inFormat },
   { fails := !fmtValid g.outFormat.toNat, code := .eFormat, aux := g.outFormat },
   { fails := decide (2 ≤ g.applyDither.toNat), code := .eFormat, aux := g.applyDither },
   { fails := decide (g.sampleRate = 0#32), code := .eSampleRate, aux := 0#32 },
   { fails := decide (b.ditherTableMax < tableNeed g), code := .eDitherTable,
     aux := BitVec.ofNat 32 (tableNeed g) },
   { fails := decide (g.precision ≠ 32#32) && decide (g.precision ≠ 64#32), code := .ePrecision,
     aux := g.precision },
   { fails := !isPowerOfTwo l || decide (l < 2 ^ (b.minOrder - 1)) ||
       decide (2 ^ (b.maxOrder - 1) < l), code := .eBlockLen, aux := g.blockLen },
   { fails := decide (g.nBlocks = 0#32) || decide (b.maxBlocks < g.nBlocks.toNat), code := .eNBlocks,
     aux := g.nBlocks },
   { fails := decide (b.arenaMaxBytes < arenaBytes g), code := .eAlloc, aux := 0#32 },
   { fails := decide (b.iobufMaxBytes < l * c * fmtBytes g.inFormat.toNat), code := .eAlloc,
     aux := 1#32 },
   { fails := decide (b.iobufMaxBytes < l * c * fmtBytes g.outFormat.toNat), code := .eAlloc,
     aux := 2#32 }]

/-- The configuration `CONSTRUCT` latches (`10_state.md` R23, R213). -/
def latch (g : CfgRegs) : Latched :=
  { blockLen := g.blockLen
    nBlocks := g.nBlocks
    prec := if g.precision = 64#32 then .p64 else .p32
    nChannels := BitVec.ofNat 4 g.nChannels.toNat
    fmtIn := BitVec.ofNat 13 g.inFormat.toNat
    fmtOut := BitVec.ofNat 13 g.outFormat.toNat
    rate := g.sampleRate
    applyDither := decide (g.applyDither.toNat % 2 = 1) }

/-- `spacing = max(rate, L)` (R213, R264). -/
def spacingOf (l : Latched) : Nat := max l.rate.toNat l.blockLen.toNat

/-- Channel `c` after `CONSTRUCT` (R213, `10_state.md` R24). -/
def freshChannel (l : Latched) (c : Nat) : Channel :=
  let n := l.size
  let dout := sampleDesc l.fmtOut l.nChannels.toNat c
  { descIn := sampleDesc l.fmtIn l.nChannels.toNat c
    descOut := dout
    ditherOn := l.applyDither && !dout.isFloat
    processed := 0#32
    coefNBlocks := 0#32
    coef := []
    dstate := { cursor := BitVec.ofNat 32 (c * spacingOf l), s0 := 0#64, s1 := 0#64 }
    ovf := freshOvf dout
    snap := .reset
    tb0 := zeroBuf n
    tb1 := zeroBuf n
    ring := List.replicate l.nBlocks.toNat (zeroBuf n)
    acc := zeroBuf n }

/-- The effects of a `CONSTRUCT` whose checks pass, on the state after the tear-down (R213). -/
def buildEngine (b : Config.Build) (s : State) (l : Latched) : State :=
  { s with
    fsm := .initialized
    lat := l
    tableSize := BitVec.ofNat 32 (l.nChannels.toNat * spacingOf l)
    spacing := BitVec.ofNat 32 (spacingOf l)
    randvec := ditherTable b.ditherSeed (l.nChannels.toNat * spacingOf l)
    scr := List.replicate 4 (zeroBuf l.size)
    chans := (List.range b.maxChannels).map fun c =>
      if c < l.nChannels.toNat then freshChannel l c else .reset }

/-- The record of a failed construction (R117 kind 4). -/
def constructFailRecord (code : ResultCode) : LogRecord :=
  { kind := .constructFail, ch := 0xFF#8, sub := 0#8, a := code.word, f := 0#64 }

/-- `CONSTRUCT` (R211) with the build as an argument: the engine that exists is torn down first, whatever the
checks then say. -/
def constructWith (b : Config.Build) (s : State) : State :=
  match firstFailure (constructChecks b s.cfg) with
  | some (code, aux) => raise (logEvent b (noEngine b s) (constructFailRecord code)) code aux
  | none => succeed (buildEngine b (noEngine b s) (latch s.cfg)) 0#32

/-- `CONSTRUCT` (R211). -/
def execConstruct (s : State) : Result State := .next (constructWith Config.build s)

/-! ## SET_COEFF -/

/-- A loop over channels that stops at the first one that fails: the state then, and that channel. -/
def untilFailure (f : State → Nat → State × Bool) : List Nat → State → State × Option Nat
  | [], s => (s, none)
  | c :: cs, s =>
    let r := f s c
    if r.2 then (r.1, some c) else untilFailure f cs r.1

/-- The channels `SET_COEFF` builds: `min(n_coeffs, C)` (R215). -/
def coefChannels (s : State) : Nat := min s.arg.nCoeffs.toNat s.channels

/-- The argument checks of `SET_COEFF` but the capacity (R216 rows 1 and 2). -/
def setCoeffChecks (b : Config.Build) (s : State) : List Check :=
  [{ fails := decide (s.arg.coeffBlocks = 0#32) || decide (s.lat.nBlocks.toNat < s.arg.coeffBlocks.toNat),
     code := .eBadArg, aux := s.arg.coeffBlocks },
   { fails := decide (b.cinMaxElems < s.arg.coeffLen.toNat), code := .eBadArg, aux := s.arg.coeffLen }]

/-- The bytes the new coefficient set needs (R216 row 3, `20_memory.md` R75). -/
def coefBytes (s : State) : Nat :=
  coefChannels s * s.arg.coeffBlocks.toNat * s.lat.size * s.lat.prec.bytes

/-- The record of a failed `SET_COEFF` (R117 kind 6). -/
def setCoeffFailRecord (ch : Byte) (code : ResultCode) : LogRecord :=
  { kind := .setcoeffFail, ch := ch, sub := 0#8, a := code.word, f := 0#64 }

/-- A channel without a coefficient set (`20_memory.md` R75: "freeing"; DEDUCED, assumption 12). -/
def freeCoef (ch : Channel) : Channel := { ch with coefNBlocks := 0#32, coef := [] }

/-- Every channel's coefficient set freed (R215, R217). -/
def freeCoefs (s : State) : State := { s with chans := s.chans.map freeCoef }

/-- One turn of the loop of `SET_COEFF` (R215): channel `c` preprocessed, and whether it failed. -/
def setCoeffChannel (b : Config.Build) (cb len : Nat) (scale : Word64) (s : State) (c : Nat) :
    State × Bool :=
  let r := preprocess b s c cb len scale
  if r.2 then r
  else (r.1.setChan c { r.1.chan c with coefNBlocks := BitVec.ofNat 32 cb }, false)

/-- The effect of `SET_COEFF` once its arguments pass (R215, R217). -/
def setCoeffEffect (b : Config.Build) (s : State) : State :=
  let start := { freeCoefs s with fsm := .initialized }
  match untilFailure (setCoeffChannel b s.arg.coeffBlocks.toNat s.arg.coeffLen.toNat s.arg.scale)
      (List.range (coefChannels s)) start with
  | (t, none) => succeed { t with fsm := .ready } 0#32
  | (t, some c) =>
    raise (logEvent b (freeCoefs t) (setCoeffFailRecord (BitVec.ofNat 8 c) .ePreprocess)) .ePreprocess
      (BitVec.ofNat 32 c)

/-- `SET_COEFF` (R215) with the build as an argument. A set that does not fit is logged before it is
refused; the two checks before it are not (R216). -/
def setCoeffWith (b : Config.Build) (s : State) : State :=
  whenConstructed s <| checked s (setCoeffChecks b s) <|
    if b.coefMaxBytes < coefBytes s then
      raise (logEvent b s (setCoeffFailRecord 0xFF#8 .eAlloc)) .eAlloc 3#32
    else setCoeffEffect b s

/-- `SET_COEFF` (R215). -/
def execSetCoeff (s : State) : Result State := .next (setCoeffWith Config.build s)

/-! ## RUN -/

/-- `BUF_SEL` as the index of a time segment buffer. -/
def segment (sel : Bool) : Nat := if sel then 1 else 0

/-- Steps 1 and 2 of `RUN` for channel `c` (R221). -/
def runInput (b : Config.Build) (sel : Bool) (s : State) (c : Nat) : State :=
  let d := decodeBlock s c
  let s1 := storeRealsAt s (.tb c (segment sel)) s.lat.blockLen.toNat d
  let s2 := storeRealsAt s1 (.tb c (segment (!sel))) 0 d
  transformed b s2 false true (.tb c (segment sel)) (.tb c (segment sel))

/-- Step 3 (R222): `processed[c] <- min(processed[c] + 1, B)`. -/
def runCount (s : State) (c : Nat) : State :=
  s.setChan c { s.chan c with
    processed := BitVec.ofNat 32 (min ((s.chan c).processed.toNat + 1) s.lat.nBlocks.toNat) }

/-- Step 4 (R223). -/
def runStore (b : Config.Build) (sel : Bool) (slot : Nat) (s : State) (c : Nat) : State :=
  storeReals s (.ring c slot)
    (mixOne s.lat.prec .input s.lat.size (unpack .p64 b.inScale) (loadReals s (.tb c (segment sel))))

/-- `(k - i) mod B`, the mathematical remainder (`00_scope.md` R11, R225). -/
def slotBack (k i b : Nat) : Nat := (((k : Int) - (i : Int)) % (b : Int)).toNat

/-- Step 5 for a channel without coefficients: the dirac path (R224). -/
def runDirac (slot : Nat) (s : State) (c : Nat) : State :=
  if s.lat.nBlocks = 1#32 then
    storeReals s (.ring c 0) (dirac s.lat.prec s.lat.order (loadReals s (.ring c 0)))
  else storeReals s (.acc c) (dirac s.lat.prec s.lat.order (loadReals s (.ring c slot)))

/-- Step 5 for a channel with coefficients: the overlap-save recurrence (R225). -/
def runConvolve (k slot : Nat) (s : State) (c : Nat) : State :=
  if s.lat.nBlocks = 1#32 then storeReals s (.ring c 0) (productOf s (.ring c 0) (.coef c 0))
  else
    let nb := min (s.chan c).coefNBlocks.toNat (s.chan c).processed.toNat
    (List.range (nb - 1)).foldl
      (fun t j =>
        storeReals t (.acc c)
          (accumulated t (.acc c) (.ring c (slotBack k (j + 1) t.lat.nBlocks.toNat)) (.coef c (j + 1))))
      (storeReals s (.acc c) (productOf s (.ring c slot) (.coef c 0)))

/-- Step 6 (R227): the product re-ordered and scaled into `SCR[0]`, then transformed back in place. -/
def runOutput (b : Config.Build) (s : State) (c : Nat) : State :=
  let src := if s.lat.nBlocks = 1#32 then BufRef.ring c 0 else BufRef.acc c
  let s1 := storeReals s (.scr 0)
    (mixOne s.lat.prec .output s.lat.size (unpack .p64 b.outScale) (loadReals s src))
  transformed b s1 true true (.scr 0) (.scr 0)

/-- The record of a non-finite sample (R117 kind 7). -/
def runNonfiniteRecord (s : State) (c : Nat) : LogRecord :=
  { kind := .runNonfinite, ch := BitVec.ofNat 8 c, sub := 0#8, a := loWord s.blockCounter, f := 0#64 }

/-- The eight steps of `RUN` for channel `c` (R220), and whether step 7 stopped them. -/
def runChannel (b : Config.Build) (k slot : Nat) (sel : Bool) (s : State) (c : Nat) : State × Bool :=
  let s4 := runStore b sel slot (runCount (runInput b sel s c) c) c
  let s5 := if (s4.chan c).coefNBlocks = 0#32 then runDirac slot s4 c else runConvolve k slot s4 c
  let s6 := runOutput b s5 c
  let y := loadReals s6 (.scr 0)
  if isFinite (nth y b.nonfiniteCheckIndex) then (encodeBlock s6 c 0 y, false)
  else (logEvent b s6 (runNonfiniteRecord s6 c), true)

/-- The effect of `RUN` (R220, R227, R229). -/
def runEffect (b : Config.Build) (s : State) : State :=
  let k := s.blockCounter.toNat
  match untilFailure (runChannel b k (k % s.lat.nBlocks.toNat) s.bufSel) (List.range s.channels) s with
  | (t, none) => succeed { t with bufSel := !t.bufSel, blockCounter := t.blockCounter + 1#64 } 0#32
  | (t, some c) => raise t .eNonfinite (BitVec.ofNat 32 c)

/-- `RUN` (R220) with the build as an argument; the counter's top is refused before anything is
done (R228). -/
def runWith (b : Config.Build) (s : State) : State :=
  whenReady s <|
    checked s [{ fails := decide (s.blockCounter.toNat = 2 ^ 64 - 1), code := .eCounter, aux := 0#32 }] <|
      runEffect b s

/-- `RUN` (R220). -/
def execRun (s : State) : Result State := .next (runWith Config.build s)

/-! ## RESET and IS_INITIALIZED -/

/-- Channel `c` after `RESET` (R230). -/
def resetChannel (size spacing c : Nat) (ch : Channel) : Channel :=
  { ch with
    ovf := clearOvf ch.ovf
    snap := .reset
    processed := 0#32
    dstate := { cursor := BitVec.ofNat 32 (c * spacing), s0 := 0#64, s1 := 0#64 }
    tb0 := zeroBuf size
    tb1 := zeroBuf size }

/-- The effect of `RESET` on the channels `c < C` and the counters (R230). -/
def resetEffect (s : State) : State :=
  { s with
    chans := s.chans.mapIdx fun c ch =>
      if c < s.channels then resetChannel s.lat.size s.spacing.toNat c ch else ch
    bufSel := false
    blockCounter := 0#64 }

/-- `RESET` (R230). -/
def execReset (s : State) : Result State :=
  .next <| whenConstructed s <| succeed (resetEffect s) 0#32

/-- `IS_INITIALIZED` (R231), legal in every `fsm`. -/
def execIsInitialized (s : State) : Result State :=
  .next <| succeed s (if s.fsm = .ready then 1#32 else 0#32)

end Sys2Proof.Machine
end

