-- ==== Sys2Proof/Machine/Overflow.lean ====
section
/-! DEFINITION. `CHECK_OVERFLOWS` (`45_overflow_tracker.md` R300 to R303). -/

namespace Sys2Proof.Machine

/-- The report of a channel (R300, R117 kind 2). -/
def reportRecord (b : Config.Build) (c : Nat) (o : OvfRecord) : LogRecord :=
  { kind := .overflowReport, ch := BitVec.ofNat 8 c, sub := BitVec.ofNat 8 (peakDb b o).1.code, a := o.clips,
    f := pack .p64 0 (peakDb b o).2 }

/-- Channel `c` reported: its snapshot taken, then its record logged (R300). -/
def reportChannel (b : Config.Build) (s : State) (c : Nat) : State :=
  logEvent b (s.setChan c { s.chan c with snap := snapshot (s.chan c).ovf }) (reportRecord b c (s.chan c).ovf)

/-- Whether any channel differs from its snapshot (R300). -/
def anyDiffers (s : State) : Bool :=
  (List.range s.channels).any fun c => ovfDiffers (s.chan c).ovf (s.chan c).snap

/-- `CHECK_OVERFLOWS` (R300) with the build as an argument: when any channel differs every channel
is reported. -/
def checkOverflowsWith (b : Config.Build) (s : State) : State :=
  whenConstructed s <|
    if anyDiffers s then succeed ((List.range s.channels).foldl (reportChannel b) s) 1#32
    else succeed s 0#32

/-- `CHECK_OVERFLOWS` (R300). -/
def execCheckOverflows (s : State) : Result State := .next (checkOverflowsWith Config.build s)

end Sys2Proof.Machine
end

