-- ==== Sys2Proof/Machine/Dispatch.lean ====
section
/-! DEFINITION. The meaning of each instruction, one arm per constructor of `Instr`. -/

namespace Sys2Proof.Machine

/-- What a command does to the state (`30_encoding.md` R100). -/
def exec (i : Instr) (s : State) : Host.Outcome State Fault Refusal :=
  match i with
  | .construct => Sys2Proof.Machine.execConstruct s
  | .setCoeff => Sys2Proof.Machine.execSetCoeff s
  | .run => Sys2Proof.Machine.execRun s
  | .reset => Sys2Proof.Machine.execReset s
  | .checkOverflows => Sys2Proof.Machine.execCheckOverflows s
  | .isInitialized => Sys2Proof.Machine.execIsInitialized s
  | .timeToFreq => Sys2Proof.Machine.execTimeToFreq s
  | .freqToTime => Sys2Proof.Machine.execFreqToTime s
  | .mixAndScaleIn n => Sys2Proof.Machine.execMixAndScaleIn n s
  | .mixAndScaleOut n => Sys2Proof.Machine.execMixAndScaleOut n s
  | .convolve => Sys2Proof.Machine.execConvolve s
  | .convolveAdd => Sys2Proof.Machine.execConvolveAdd s
  | .convolveInplace => Sys2Proof.Machine.execConvolveInplace s
  | .diracConvolve => Sys2Proof.Machine.execDiracConvolve s
  | .diracConvolveInplace => Sys2Proof.Machine.execDiracConvolveInplace s
  | .coeffsToInternal ch => Sys2Proof.Machine.execCoeffsToInternal ch s
  | .verify n => Sys2Proof.Machine.execVerify n s
  | .decodeSamples ch => Sys2Proof.Machine.execDecodeSamples ch s
  | .encodeSamples ch => Sys2Proof.Machine.execEncodeSamples ch s

end Sys2Proof.Machine
end

