-- ==== Sys2Proof/Machine/Registers.lean ====
section
/-! DEFINITION. The register file the host sees (`10_state.md` R31 to R39). A write to `CMD` is not here: it
issues a command (`Machine/Port.lean`). -/

namespace Sys2Proof.Machine

/-- The words of a channel's read-back block (R37). -/
inductive ChanReg where
  | processed
  | coefNBlocks
  | ovfClips
  | ovfLargestI
  | ovfLargestFLo
  | ovfLargestFHi
  | ovfMaxLo
  | ovfMaxHi
  | snapClips
  | snapLargestI
  | snapLargestFLo
  | snapLargestFHi
  | ditherCursor
  | reserved
deriving DecidableEq, Repr, Inhabited

/-- The registers (R31, R33 to R37); `reserved` is every other offset (R39). -/
inductive Reg where
  | id
  | version
  | cmd
  | status
  | result
  | resultAux
  | logCount
  | logPop
  | cfgBlockLen
  | cfgNBlocks
  | cfgPrecision
  | cfgNChannels
  | cfgInFormat
  | cfgOutFormat
  | cfgSampleRate
  | cfgApplyDither
  | argNCoeffs
  | argCoeffBlocks
  | argCoeffLen
  | argScaleLo
  | argScaleHi
  | opDst
  | opSrc0
  | opSrc1
  | opSrc2
  | opSrc3
  | opCoef
  | opOff
  | opLen
  | opScale0Lo
  | opScale0Hi
  | opScale1Lo
  | opScale1Hi
  | opScale2Lo
  | opScale2Hi
  | opScale3Lo
  | opScale3Hi
  | blockCounterLo
  | blockCounterHi
  | bufSel
  | ditherTableSize
  | planValidFwdOop
  | planValidFwdInp
  | planValidInvOop
  | planValidInvInp
  | dbgBuf
  | dbgIdx
  | dbgDataLo
  | dbgDataHi
  | latBlockLen
  | latNBlocks
  | latMisc
  | chan (c : Nat) (r : ChanReg)
  | reserved
deriving DecidableEq, Repr, Inhabited

/-- The word at an offset of a channel's block (R37). -/
def chanRegAt (off : Nat) : ChanReg :=
  match off with
  | 0x00 => .processed
  | 0x04 => .coefNBlocks
  | 0x08 => .ovfClips
  | 0x0C => .ovfLargestI
  | 0x10 => .ovfLargestFLo
  | 0x14 => .ovfLargestFHi
  | 0x18 => .ovfMaxLo
  | 0x1C => .ovfMaxHi
  | 0x20 => .snapClips
  | 0x24 => .snapLargestI
  | 0x28 => .snapLargestFLo
  | 0x2C => .snapLargestFHi
  | 0x30 => .ditherCursor
  | _ => .reserved

/-- The global register at an offset (R31, R33 to R36). -/
def globalRegAt (off : Nat) : Reg :=
  match off with
  | 0x000 => .id
  | 0x004 => .version
  | 0x008 => .cmd
  | 0x00C => .status
  | 0x010 => .result
  | 0x014 => .resultAux
  | 0x018 => .logCount
  | 0x01C => .logPop
  | 0x020 => .cfgBlockLen
  | 0x024 => .cfgNBlocks
  | 0x028 => .cfgPrecision
  | 0x02C => .cfgNChannels
  | 0x030 => .cfgInFormat
  | 0x034 => .cfgOutFormat
  | 0x038 => .cfgSampleRate
  | 0x03C => .cfgApplyDither
  | 0x040 => .argNCoeffs
  | 0x044 => .argCoeffBlocks
  | 0x048 => .argCoeffLen
  | 0x050 => .argScaleLo
  | 0x054 => .argScaleHi
  | 0x060 => .opDst
  | 0x064 => .opSrc0
  | 0x068 => .opSrc1
  | 0x06C => .opSrc2
  | 0x070 => .opSrc3
  | 0x074 => .opCoef
  | 0x078 => .opOff
  | 0x07C => .opLen
  | 0x080 => .opScale0Lo
  | 0x084 => .opScale0Hi
  | 0x088 => .opScale1Lo
  | 0x08C => .opScale1Hi
  | 0x090 => .opScale2Lo
  | 0x094 => .opScale2Hi
  | 0x098 => .opScale3Lo
  | 0x09C => .opScale3Hi
  | 0x0A0 => .blockCounterLo
  | 0x0A4 => .blockCounterHi
  | 0x0A8 => .bufSel
  | 0x0AC => .ditherTableSize
  | 0x0B0 => .planValidFwdOop
  | 0x0B4 => .planValidFwdInp
  | 0x0B8 => .planValidInvOop
  | 0x0BC => .planValidInvInp
  | 0x0C0 => .dbgBuf
  | 0x0C4 => .dbgIdx
  | 0x0C8 => .dbgDataLo
  | 0x0CC => .dbgDataHi
  | 0x0D0 => .latBlockLen
  | 0x0D4 => .latNBlocks
  | 0x0D8 => .latMisc
  | _ => .reserved

/-- The register at a byte offset of the CSR region: a global register, or a word of the block of channel
`c` at `0x100 + 0x40*c` (R37). -/
def regAt (b : Config.Build) (off : Nat) : Reg :=
  if off < 0x100 then globalRegAt off
  else if (off - 0x100) / 0x40 < b.maxChannels then
    .chan ((off - 0x100) / 0x40) (chanRegAt ((off - 0x100) % 0x40))
  else .reserved

/-- A word of a channel's read-back block when the channel exists (R37). -/
def chanRegValue (ch : Channel) : ChanReg → Word
  | .processed => ch.processed
  | .coefNBlocks => ch.coefNBlocks
  | .ovfClips => ch.ovf.clips
  | .ovfLargestI => ch.ovf.largestI
  | .ovfLargestFLo => loWord ch.ovf.largestF
  | .ovfLargestFHi => hiWord ch.ovf.largestF
  | .ovfMaxLo => loWord ch.ovf.max
  | .ovfMaxHi => hiWord ch.ovf.max
  | .snapClips => ch.snap.clips
  | .snapLargestI => ch.snap.largestI
  | .snapLargestFLo => loWord ch.snap.largestF
  | .snapLargestFHi => hiWord ch.snap.largestF
  | .ditherCursor => ch.dstate.cursor
  | .reserved => 0#32

/-- A read-back value that reads 0 in `UNINIT` (R36, R37). -/
def unlessUninit (s : State) (w : Word) : Word := if s.fsm = .uninit then 0#32 else w

/-- The bits of an element as the debug window shows them (R36): binary32 bits in the low word, 0 above. -/
def shownBits (p : Prec) (w : RealBits) : Word64 :=
  match p with
  | .p32 => joinWords 0#32 (loWord w)
  | .p64 => w

/-- The element the debug window shows (R36): `BUF(DBG_BUF)[DBG_IDX]`, 0 where there is none. -/
def debugData (s : State) : Word64 :=
  if validId s s.dbgBuf && decide (s.dbgIdx.toNat < s.lat.size) then
    shownBits s.lat.prec ((getBuf s (bufRef s.dbgBuf)).getD s.dbgIdx.toNat 0#64)
  else 0#64

/-- `LAT_MISC` (R36). -/
def latMiscWord (l : Latched) : Word :=
  BitVec.ofNat 32 (l.prec.bits + l.nChannels.toNat * 256 + l.applyDither.toNat * 4096)

/-- What a read of a register returns (R31 to R39). `CMD` is write-only and reads 0. -/
def regValue (s : State) : Reg → Word
  | .id => 0x42464952#32
  | .version => 0x00000001#32
  | .cmd => 0#32
  | .status => statusWord s
  | .result => s.result
  | .resultAux => s.resultAux
  | .logCount => BitVec.ofNat 32 s.log.length
  | .logPop => logPopValue s
  | .cfgBlockLen => s.cfg.blockLen
  | .cfgNBlocks => s.cfg.nBlocks
  | .cfgPrecision => s.cfg.precision
  | .cfgNChannels => s.cfg.nChannels
  | .cfgInFormat => s.cfg.inFormat
  | .cfgOutFormat => s.cfg.outFormat
  | .cfgSampleRate => s.cfg.sampleRate
  | .cfgApplyDither => s.cfg.applyDither
  | .argNCoeffs => s.arg.nCoeffs
  | .argCoeffBlocks => s.arg.coeffBlocks
  | .argCoeffLen => s.arg.coeffLen
  | .argScaleLo => loWord s.arg.scale
  | .argScaleHi => hiWord s.arg.scale
  | .opDst => s.op.dst
  | .opSrc0 => s.op.src0
  | .opSrc1 => s.op.src1
  | .opSrc2 => s.op.src2
  | .opSrc3 => s.op.src3
  | .opCoef => s.op.coef
  | .opOff => s.op.off
  | .opLen => s.op.len
  | .opScale0Lo => loWord s.op.scale0
  | .opScale0Hi => hiWord s.op.scale0
  | .opScale1Lo => loWord s.op.scale1
  | .opScale1Hi => hiWord s.op.scale1
  | .opScale2Lo => loWord s.op.scale2
  | .opScale2Hi => hiWord s.op.scale2
  | .opScale3Lo => loWord s.op.scale3
  | .opScale3Hi => hiWord s.op.scale3
  | .blockCounterLo => loWord s.blockCounter
  | .blockCounterHi => hiWord s.blockCounter
  | .bufSel => if s.bufSel then 1#32 else 0#32
  | .ditherTableSize => unlessUninit s s.tableSize
  | .planValidFwdOop => s.plan.fwdOop
  | .planValidFwdInp => s.plan.fwdInp
  | .planValidInvOop => s.plan.invOop
  | .planValidInvInp => s.plan.invInp
  | .dbgBuf => s.dbgBuf
  | .dbgIdx => s.dbgIdx
  | .dbgDataLo => loWord (debugData s)
  | .dbgDataHi => hiWord (debugData s)
  | .latBlockLen => unlessUninit s s.lat.blockLen
  | .latNBlocks => unlessUninit s s.lat.nBlocks
  | .latMisc => unlessUninit s (latMiscWord s.lat)
  | .chan c r => if c < s.channels then unlessUninit s (chanRegValue (s.chan c) r) else 0#32
  | .reserved => 0#32

/-- What a read of a register does besides: only `LOG_POP` has a side effect (R38, `20_memory.md` R79). -/
def regReadEffect (s : State) : Reg → State
  | .logPop => logPopEffect s
  | _ => s

/-- A 64-bit quantity with its low word written. -/
def withLo (x : Word64) (w : Word) : Word64 := joinWords (hiWord x) w

/-- A 64-bit quantity with its high word written. -/
def withHi (x : Word64) (w : Word) : Word64 := joinWords w (loWord x)

/-- A write to a register (R31 to R39): a read-write register takes any value (R33, R42), a read-only or
reserved one ignores it. -/
def regWrite (s : State) (r : Reg) (w : Word) : State :=
  match r with
  | .cfgBlockLen => { s with cfg := { s.cfg with blockLen := w } }
  | .cfgNBlocks => { s with cfg := { s.cfg with nBlocks := w } }
  | .cfgPrecision => { s with cfg := { s.cfg with precision := w } }
  | .cfgNChannels => { s with cfg := { s.cfg with nChannels := w } }
  | .cfgInFormat => { s with cfg := { s.cfg with inFormat := w } }
  | .cfgOutFormat => { s with cfg := { s.cfg with outFormat := w } }
  | .cfgSampleRate => { s with cfg := { s.cfg with sampleRate := w } }
  | .cfgApplyDither => { s with cfg := { s.cfg with applyDither := w } }
  | .argNCoeffs => { s with arg := { s.arg with nCoeffs := w } }
  | .argCoeffBlocks => { s with arg := { s.arg with coeffBlocks := w } }
  | .argCoeffLen => { s with arg := { s.arg with coeffLen := w } }
  | .argScaleLo => { s with arg := { s.arg with scale := withLo s.arg.scale w } }
  | .argScaleHi => { s with arg := { s.arg with scale := withHi s.arg.scale w } }
  | .opDst => { s with op := { s.op with dst := w } }
  | .opSrc0 => { s with op := { s.op with src0 := w } }
  | .opSrc1 => { s with op := { s.op with src1 := w } }
  | .opSrc2 => { s with op := { s.op with src2 := w } }
  | .opSrc3 => { s with op := { s.op with src3 := w } }
  | .opCoef => { s with op := { s.op with coef := w } }
  | .opOff => { s with op := { s.op with off := w } }
  | .opLen => { s with op := { s.op with len := w } }
  | .opScale0Lo => { s with op := { s.op with scale0 := withLo s.op.scale0 w } }
  | .opScale0Hi => { s with op := { s.op with scale0 := withHi s.op.scale0 w } }
  | .opScale1Lo => { s with op := { s.op with scale1 := withLo s.op.scale1 w } }
  | .opScale1Hi => { s with op := { s.op with scale1 := withHi s.op.scale1 w } }
  | .opScale2Lo => { s with op := { s.op with scale2 := withLo s.op.scale2 w } }
  | .opScale2Hi => { s with op := { s.op with scale2 := withHi s.op.scale2 w } }
  | .opScale3Lo => { s with op := { s.op with scale3 := withLo s.op.scale3 w } }
  | .opScale3Hi => { s with op := { s.op with scale3 := withHi s.op.scale3 w } }
  | .dbgBuf => { s with dbgBuf := w }
  | .dbgIdx => { s with dbgIdx := w }
  | _ => s

end Sys2Proof.Machine
end

