-- ==== Sys2Proof/Machine/Port.lean ====
section
/-! DEFINITION. The host port (`20_memory.md` R71, R78 to R80): one transaction after another, a command
running to its end before the next is accepted. The port takes the build and what executes a command. -/

namespace Sys2Proof.Machine

/-- Whether an address is in the CSR region (R71). -/
def inCsr (addr : Nat) : Bool := decide (addr < 0x1000)

/-- Whether an access to the CSR region is one aligned 32-bit word, the only kind performed (R78). -/
def csrAccess (size : AccessSize) (addr : Nat) : Bool := decide (size = .b4) && decide (addr % 4 = 0)

/-- What executes a command. -/
abbrev Executor := Instr → State → Result State

/-- A write to `CMD` (`30_encoding.md` R101, R105): a reserved word raises `E_ILLEGAL_CMD` with the word, any
other is executed to its end. -/
def issue (ex : Executor) (s : State) (w : Word) : Result State :=
  match decode w with
  | .ok i => ex i s
  | .error _ => .next (raise s .eIllegalCmd w)

/-- A write to a CSR (`10_state.md` R31): `CMD` alone has a side effect (R79). -/
def csrWrite (b : Config.Build) (ex : Executor) (s : State) (off : Nat) (w : Word) : Result State :=
  match regAt b off with
  | .cmd => issue ex s w
  | r => .next (regWrite s r w)

/-- The bytes of an access to the apertures, performed one by one in ascending address order (R78); a byte
outside every region is not performed (R71; across the end of a region DEDUCED, assumption 8). -/
def apertureWrite (b : Config.Build) (s : State) (addr : Nat) : List Byte → State
  | [] => s
  | v :: vs => apertureWrite b (if mapped b addr then writeByte s addr v else s) (addr + 1) vs

/-- The byte a read of the apertures returns: 0 outside every region (R71). -/
def apertureByte (b : Config.Build) (s : State) (addr : Nat) : Byte :=
  if mapped b addr then readByte s addr else 0#8

/-- The value of a read of the apertures, composed little-endian (R77). -/
def apertureRead (b : Config.Build) (s : State) (addr n : Nat) : Nat :=
  fromBytes ((List.range n).map fun i => apertureByte b s (addr + i))

/-- A host write (R71, R78). -/
def hostWrite (b : Config.Build) (ex : Executor) (s : State) (size : AccessSize) (addr : Word) (data : Word64) :
    Result State :=
  if inCsr addr.toNat then
    if csrAccess size addr.toNat then csrWrite b ex s addr.toNat (loWord data) else .next s
  else .next (apertureWrite b s addr.toNat (toBytes size.bytes data.toNat))

/-- A host read (R71, R78): the state with the data on the bus. A read that is not performed returns 0. -/
def hostRead (b : Config.Build) (s : State) (size : AccessSize) (addr : Word) : State :=
  if inCsr addr.toNat then
    if csrAccess size addr.toNat then
      { regReadEffect s (regAt b addr.toNat) with
        readData := (regValue s (regAt b addr.toNat)).setWidth 64 }
    else { s with readData := 0#64 }
  else { s with readData := BitVec.ofNat 64 (apertureRead b s addr.toNat size.bytes) }

/-- One transaction carried out. -/
def serve (b : Config.Build) (ex : Executor) (t : HostTxn) (s : State) : Result State :=
  match t with
  | .write size addr data => hostWrite b ex s size addr data
  | .read size addr => .next (hostRead b s size addr)
  | .hardReset => .next (hardReset b s)

/-- A write of a 32-bit register: one bus transaction. -/
def regWriteTxn (off : Nat) (w : Word) : HostTxn := .write .b4 (BitVec.ofNat 32 off) (w.setWidth 64)

/-- The issue of a command word: a write to `CMD`. -/
def cmdTxn (w : Word) : HostTxn := regWriteTxn 0x008 w

/-- The next event at the block: with nothing pending "the block does nothing until the host writes `CMD`"
(`70_reset_and_hazards.md` R340), else the first transaction is taken off and carried out
(DESIGN CHOICE, assumption 5). -/
def nextEvent (b : Config.Build) (ex : Executor) (s : State) : Result State :=
  match s.pending with
  | [] => .next s
  | t :: rest => serve b ex t { s with pending := rest }

/-- The state with a command word about to be written to `CMD`. -/
def withCommand (s : State) (w : Word) : State := { s with pending := cmdTxn w :: s.pending }

end Sys2Proof.Machine
end

