-- ==== Sys2Proof/Machine/Step.lean ====
section
/-! DEFINITION. One step of the machine: one event at the host port. A command takes one step
(`70_reset_and_hazards.md` R346; DEDUCED, assumption 14). -/

namespace Sys2Proof.Machine

/-- One step, of the build with the spec's defaults (R10). -/
def step (s : State) : Host.Outcome State Fault Refusal := nextEvent Config.build exec s

/-- `s` with the command of a row's bits as the next thing the host writes to `CMD` (a command word is 32
bits; bits of the row above `nbits` are 0). -/
def State.withFetchWord (s : State) (nbits w : Nat) : State :=
  withCommand s (BitVec.ofNat 32 (w % 2 ^ nbits))

end Sys2Proof.Machine
end

