-- ==== Sys2Proof/Machine/Render.lean ====
section
/-! DEFINITION. The report line of `CHECK_OVERFLOWS` as text (`30_encoding.md` R118). The block emits log
records; the host renders them, and this is the rendering the spec makes normative
(assumption 13). -/

namespace Sys2Proof.Machine

/-- Two decimal digits. -/
def twoDigits (n : Nat) : String := toString (n / 10 % 10) ++ toString (n % 10)

/-- The sign of C's `%+`. -/
def signText (neg : Bool) : String := if neg then "-" else "+"

/-- A real printed as C prints `%+.2f` (R118): the exact value to the nearest hundredth, ties to even. -/
def fixedTwo : FReal → String
  | .nan => "nan"
  | .inf neg => signText neg ++ "inf"
  | .fin neg mag =>
    let h := roundNearestEven (mag * 100) 1074
    signText neg ++ toString (h / 100) ++ "." ++ twoDigits (h % 100)

/-- The level of a report (R118), from its `db_class` code and its payload. -/
def levelText (cls : Nat) (f : Word64) : String :=
  if cls = DbClass.negInf.code then "-Inf"
  else if cls = DbClass.negZero.code then "-0.0"
  else fixedTwo (unpack .p64 f)

/-- The line of an `OVERFLOW_REPORT` record (R118); the wording of the other kinds is free. -/
def reportLine (r : LogRecord) : String :=
  "overflow ch" ++ toString r.ch.toNat ++ ": " ++ toString r.a.toNat ++ "/" ++ levelText r.sub.toNat r.f

end Sys2Proof.Machine
end

