-- ==== Sys2Proof/Machine/Asm.lean ====
section
/-! DEFINITION. The notation of command streams (`30_encoding.md` R119, R120): each statement as the host
transactions it stands for. Comments and the spelling of a statement have no meaning. -/

namespace Sys2Proof.Machine

/-- The id of a buffer (R112). -/
def bufferId : BufRef → Word
  | .tb c i => BitVec.ofNat 32 (0x10000000 + c * 0x01000000 + i)
  | .ring c b => BitVec.ofNat 32 (0x20000000 + c * 0x01000000 + b)
  | .acc c => BitVec.ofNat 32 (0x30000000 + c * 0x01000000)
  | .scr i => BitVec.ofNat 32 (0x40000000 + i)
  | .coef c i => BitVec.ofNat 32 (0x50000000 + c * 0x01000000 + i)
  | .invalid => 0#32

/-- The byte offset of a register of a channel's block (`10_state.md` R37). -/
def chanRegOffset : ChanReg → Nat
  | .processed => 0x00
  | .coefNBlocks => 0x04
  | .ovfClips => 0x08
  | .ovfLargestI => 0x0C
  | .ovfLargestFLo => 0x10
  | .ovfLargestFHi => 0x14
  | .ovfMaxLo => 0x18
  | .ovfMaxHi => 0x1C
  | .snapClips => 0x20
  | .snapLargestI => 0x24
  | .snapLargestFLo => 0x28
  | .snapLargestFHi => 0x2C
  | .ditherCursor => 0x30
  | .reserved => 0x34

/-- The byte offset of a register (`10_state.md` R31 to R37); one of the reserved ones for `reserved`. -/
def regOffset : Reg → Nat
  | .id => 0x000
  | .version => 0x004
  | .cmd => 0x008
  | .status => 0x00C
  | .result => 0x010
  | .resultAux => 0x014
  | .logCount => 0x018
  | .logPop => 0x01C
  | .cfgBlockLen => 0x020
  | .cfgNBlocks => 0x024
  | .cfgPrecision => 0x028
  | .cfgNChannels => 0x02C
  | .cfgInFormat => 0x030
  | .cfgOutFormat => 0x034
  | .cfgSampleRate => 0x038
  | .cfgApplyDither => 0x03C
  | .argNCoeffs => 0x040
  | .argCoeffBlocks => 0x044
  | .argCoeffLen => 0x048
  | .argScaleLo => 0x050
  | .argScaleHi => 0x054
  | .opDst => 0x060
  | .opSrc0 => 0x064
  | .opSrc1 => 0x068
  | .opSrc2 => 0x06C
  | .opSrc3 => 0x070
  | .opCoef => 0x074
  | .opOff => 0x078
  | .opLen => 0x07C
  | .opScale0Lo => 0x080
  | .opScale0Hi => 0x084
  | .opScale1Lo => 0x088
  | .opScale1Hi => 0x08C
  | .opScale2Lo => 0x090
  | .opScale2Hi => 0x094
  | .opScale3Lo => 0x098
  | .opScale3Hi => 0x09C
  | .blockCounterLo => 0x0A0
  | .blockCounterHi => 0x0A4
  | .bufSel => 0x0A8
  | .ditherTableSize => 0x0AC
  | .planValidFwdOop => 0x0B0
  | .planValidFwdInp => 0x0B4
  | .planValidInvOop => 0x0B8
  | .planValidInvInp => 0x0BC
  | .dbgBuf => 0x0C0
  | .dbgIdx => 0x0C4
  | .dbgDataLo => 0x0C8
  | .dbgDataHi => 0x0CC
  | .latBlockLen => 0x0D0
  | .latNBlocks => 0x0D4
  | .latMisc => 0x0D8
  | .chan c r => 0x100 + 0x40 * c + chanRegOffset r
  | .reserved => 0x0DC

/-- The byte-addressed spaces the host stores to and loads from (R119). -/
inductive Space where
  | inbuf
  | outbuf
  | cin (c : Nat)
deriving DecidableEq, Repr, Inhabited

/-- The host address of a space (`20_memory.md` R71). -/
def Space.base : Space → Nat
  | .inbuf => inbufBase
  | .outbuf => outbufBase
  | .cin c => cinBase c

/-- A statement of a command stream (R119, R120). A real operand is its binary64 bits. -/
inductive Stmt where
  | wr (r : Reg) (v : Word)
  | wr64 (lo hi : Reg) (v : Word64)
  | rd (r : Reg)
  | st (sp : Space) (off : Nat) (bytes : List Byte)
  | ld (sp : Space) (off n : Nat)
  /-- A command of format E: no operands. -/
  | engine (i : Instr)
  | timeToFreq (dst src : BufRef)
  | freqToTime (dst src : BufRef)
  /-- `MIX_AND_SCALE.IN` and `.OUT`; the pairs are scale and source. -/
  | mixAndScale (output : Bool) (dst : BufRef) (pairs : List (Word64 × BufRef))
  | convolve (dst src coef : BufRef)
  | convolveAdd (dst src coef : BufRef)
  | convolveInplace (buf coef : BufRef)
  | diracConvolve (dst src : BufRef)
  | diracConvolveInplace (buf : BufRef)
  | verify (srcs : List BufRef)
  | coeffsToInternal (ch : Nat) (dst : BufRef) (off len : Word) (scale : Word64)
  | decodeSamples (ch : Nat) (dst : BufRef) (off : Word)
  | encodeSamples (ch : Nat) (src : BufRef) (off : Word)
  /-- `CONFIG L, B, P, C, fin, fout, rate, dith`. -/
  | config (g : CfgRegs)
  /-- `LOADCOEF n, cb, len, scale`. -/
  | loadCoef (a : ArgRegs)
  | popLog
  /-- `EXPECT <reg>, <value>`: a read; the check is the test program's. -/
  | expect (r : Reg) (v : Word)
deriving DecidableEq, Repr, Inhabited

/-- `WR <reg>, <value>`. -/
def wrTxn (r : Reg) (v : Word) : HostTxn := regWriteTxn (regOffset r) v

/-- `WR64 <reg>, <value>`: `_LO` and then `_HI`. -/
def wr64Txns (lo hi : Reg) (v : Word64) : List HostTxn := [wrTxn lo (loWord v), wrTxn hi (hiWord v)]

/-- `RD <reg>`. -/
def rdTxn (r : Reg) : HostTxn := .read .b4 (BitVec.ofNat 32 (regOffset r))

/-- The issue of a command. -/
def issueTxn (i : Instr) : HostTxn := cmdTxn (encode i)

/-- The register of source `j`. -/
def srcReg (j : Nat) : Reg :=
  match j with
  | 0 => .opSrc0
  | 1 => .opSrc1
  | 2 => .opSrc2
  | _ => .opSrc3

/-- The two registers of scale `j`. -/
def scaleRegs (j : Nat) : Reg × Reg :=
  match j with
  | 0 => (.opScale0Lo, .opScale0Hi)
  | 1 => (.opScale1Lo, .opScale1Hi)
  | 2 => (.opScale2Lo, .opScale2Hi)
  | _ => (.opScale3Lo, .opScale3Hi)

/-- The writes of the sources from number `j` on. -/
def srcTxns : Nat → List BufRef → List HostTxn
  | _, [] => []
  | j, r :: rs => wrTxn (srcReg j) (bufferId r) :: srcTxns (j + 1) rs

/-- The writes of the scales from number `j` on. -/
def scaleTxns : Nat → List Word64 → List HostTxn
  | _, [] => []
  | j, x :: xs => wr64Txns (scaleRegs j).1 (scaleRegs j).2 x ++ scaleTxns (j + 1) xs

/-- The byte stores of an `ST`. -/
def storeTxns : Nat → List Byte → List HostTxn
  | _, [] => []
  | a, b :: bs => .write .b1 (BitVec.ofNat 32 a) (b.setWidth 64) :: storeTxns (a + 1) bs

/-- The transactions of a statement (R119, R120). -/
def assemble : Stmt → List HostTxn
  | .wr r v => [wrTxn r v]
  | .wr64 lo hi v => wr64Txns lo hi v
  | .rd r => [rdTxn r]
  | .st sp off bytes => storeTxns (sp.base + off) bytes
  | .ld sp off n => (List.range n).map fun i => .read .b1 (BitVec.ofNat 32 (sp.base + off + i))
  | .engine i => [issueTxn i]
  | .timeToFreq dst src =>
    [wrTxn .opDst (bufferId dst), wrTxn .opSrc0 (bufferId src), issueTxn .timeToFreq]
  | .freqToTime dst src =>
    [wrTxn .opDst (bufferId dst), wrTxn .opSrc0 (bufferId src), issueTxn .freqToTime]
  | .mixAndScale output dst pairs =>
    wrTxn .opDst (bufferId dst) :: srcTxns 0 (pairs.map (·.2)) ++ scaleTxns 0 (pairs.map (·.1)) ++
      [issueTxn (if output then .mixAndScaleOut pairs.length else .mixAndScaleIn pairs.length)]
  | .convolve dst src coef =>
    [wrTxn .opDst (bufferId dst), wrTxn .opSrc0 (bufferId src), wrTxn .opCoef (bufferId coef),
      issueTxn .convolve]
  | .convolveAdd dst src coef =>
    [wrTxn .opDst (bufferId dst), wrTxn .opSrc0 (bufferId src), wrTxn .opCoef (bufferId coef),
      issueTxn .convolveAdd]
  | .convolveInplace buf coef =>
    [wrTxn .opDst (bufferId buf), wrTxn .opCoef (bufferId coef), issueTxn .convolveInplace]
  | .diracConvolve dst src =>
    [wrTxn .opDst (bufferId dst), wrTxn .opSrc0 (bufferId src), issueTxn .diracConvolve]
  | .diracConvolveInplace buf => [wrTxn .opDst (bufferId buf), issueTxn .diracConvolveInplace]
  | .verify srcs => srcTxns 0 srcs ++ [issueTxn (.verify srcs.length)]
  | .coeffsToInternal ch dst off len scale =>
    [wrTxn .opDst (bufferId dst), wrTxn .opOff off, wrTxn .opLen len] ++
      wr64Txns .opScale0Lo .opScale0Hi scale ++ [issueTxn (.coeffsToInternal ch)]
  | .decodeSamples ch dst off =>
    [wrTxn .opDst (bufferId dst), wrTxn .opOff off, issueTxn (.decodeSamples ch)]
  | .encodeSamples ch src off =>
    [wrTxn .opSrc0 (bufferId src), wrTxn .opOff off, issueTxn (.encodeSamples ch)]
  | .config g =>
    [wrTxn .cfgBlockLen g.blockLen, wrTxn .cfgNBlocks g.nBlocks, wrTxn .cfgPrecision g.precision,
      wrTxn .cfgNChannels g.nChannels, wrTxn .cfgInFormat g.inFormat, wrTxn .cfgOutFormat g.outFormat,
      wrTxn .cfgSampleRate g.sampleRate, wrTxn .cfgApplyDither g.applyDither, issueTxn .construct]
  | .loadCoef a =>
    [wrTxn .argNCoeffs a.nCoeffs, wrTxn .argCoeffBlocks a.coeffBlocks, wrTxn .argCoeffLen a.coeffLen] ++
      wr64Txns .argScaleLo .argScaleHi a.scale ++ [issueTxn .setCoeff]
  | .popLog => List.replicate 4 (rdTxn .logPop)
  | .expect r _ => [rdTxn r]

/-- The transactions of a command stream, in order (R80). -/
def assembleAll (prog : List Stmt) : List HostTxn := prog.flatMap assemble

end Sys2Proof.Machine
end

