-- ==== Sys2Proof/Machine/Builds.lean ====
section
/-! DEFINITION. The machine of any build (`00_scope.md` R10): what `exec` and `step` are for the build with the
spec's defaults, with the parameters as an argument. Commands that read no parameter are the same in every
build. -/

namespace Sys2Proof.Machine

/-- What a command does in a build. -/
def execWith (b : Config.Build) (i : Instr) (s : State) : Result State :=
  match i with
  | .construct => .next (constructWith b s)
  | .setCoeff => .next (setCoeffWith b s)
  | .run => .next (runWith b s)
  | .reset => execReset s
  | .checkOverflows => .next (checkOverflowsWith b s)
  | .isInitialized => execIsInitialized s
  | .timeToFreq => .next (timeToFreqWith b s)
  | .freqToTime => .next (freqToTimeWith b s)
  | .mixAndScaleIn n => execMixAndScaleIn n s
  | .mixAndScaleOut n => execMixAndScaleOut n s
  | .convolve => execConvolve s
  | .convolveAdd => execConvolveAdd s
  | .convolveInplace => execConvolveInplace s
  | .diracConvolve => execDiracConvolve s
  | .diracConvolveInplace => execDiracConvolveInplace s
  | .coeffsToInternal ch => .next (coeffsToInternalWith b ch s)
  | .verify n => .next (verifyWith b n s)
  | .decodeSamples ch => execDecodeSamples ch s
  | .encodeSamples ch => execEncodeSamples ch s

/-- One step of a build. -/
def stepWith (b : Config.Build) (s : State) : Result State := nextEvent b (execWith b) s

end Sys2Proof.Machine
end

