-- ==== Sys2Proof/Safety.lean ====
section
/-! DEFINITION. The terms in which claims about the machine are made: what a stored element stands for, how a
command ended, what a command leaves as it was, which command is legal where, and the invariants. -/

namespace Sys2Proof.Machine

/-! ## Stored reals -/

/-- The bits `b` are the real `x` of precision `p`; a NaN is "some NaN" (`00_scope.md` R12, U3). -/
def Holds (p : Prec) (b : RealBits) (x : FReal) : Prop := ∃ code : Nat, b = pack p code x

/-- `x` is a value of precision `p` (R12): some bits stand for it. -/
def IsReal (p : Prec) (x : FReal) : Prop := ∃ b : Word64, unpack p b = x

/-- The bits of element `e` of a buffer. -/
def elemBits (s : State) (r : BufRef) (e : Nat) : RealBits := (getBuf s r).getD e 0#64

/-- Element `e` of a buffer, `BUF(id)[e]` (R13). -/
def elem (s : State) (r : BufRef) (e : Nat) : FReal := unpack s.lat.prec (elemBits s r e)

/-- Element `e` of a buffer holds `x`. -/
def Stored (t : State) (r : BufRef) (e : Nat) (x : FReal) : Prop := Holds t.lat.prec (elemBits t r e) x

/-! ## How a command ended -/

/-- `RESULT`, `RESULT_AUX` and `LAST_FAIL` after a command that ends with a code (`60_exceptions.md` R311). -/
structure Ends (t : State) (code : ResultCode) (aux : Word) : Prop where
  result : t.result = code.word
  resultAux : t.resultAux = aux
  lastFail : t.lastFail = decide (code ≠ .ok)

/-- Nothing but how the command ended differs. -/
def OnlyResult (s t : State) : Prop :=
  t = { s with result := t.result, resultAux := t.resultAux, lastFail := t.lastFail }

/-! ## What is left as it was -/

/-- The registers a host writes (`10_state.md` R42). -/
structure SameHostRegs (s t : State) : Prop where
  cfg : t.cfg = s.cfg
  arg : t.arg = s.arg
  op : t.op = s.op
  dbgBuf : t.dbgBuf = s.dbgBuf
  dbgIdx : t.dbgIdx = s.dbgIdx

/-- The model's own port fields. -/
structure SamePort (s t : State) : Prop where
  pending : t.pending = s.pending
  readData : t.readData = s.readData
  powerOns : t.powerOns = s.powerOns

/-- The engine's state, configuration, table and counters (R21, R23, R25, R27). -/
structure SameControl (s t : State) : Prop where
  fsm : t.fsm = s.fsm
  lat : t.lat = s.lat
  blockCounter : t.blockCounter = s.blockCounter
  bufSel : t.bufSel = s.bufSel
  tableSize : t.tableSize = s.tableSize
  spacing : t.spacing = s.spacing
  randvec : t.randvec = s.randvec

/-- The log FIFO (R30). -/
structure SameLog (s t : State) : Prop where
  log : t.log = s.log
  logRd : t.logRd = s.logRd
  logLost : t.logLost = s.logLost

/-- Every byte of the apertures reads as before. -/
def SameMemory (s t : State) : Prop := ∀ a : Nat, readByte t a = readByte s a

/-- What a channel holds besides its arena buffers: descriptors, counters, coefficients, dither state and
overflow records (R24 to R28). -/
def Channel.book (ch : Channel) : Channel := { ch with tb0 := [], tb1 := [], ring := [], acc := [] }

/-- Every channel keeps all but its arena buffers. -/
def SameBooks (s t : State) : Prop := ∀ c : Nat, (t.chan c).book = (s.chan c).book

/-- Every buffer that exists keeps its elements, but for those listed. -/
def SameBuffersBut (s t : State) (written : List BufRef) : Prop :=
  ∀ r : BufRef, refValid s r = true → r ∉ written → getBuf t r = getBuf s r

/-- A unit command that writes the listed buffers, the result registers, the plan bits and the log, and
nothing else. -/
structure UnitFrame (s t : State) (written : List BufRef) : Prop where
  hostRegs : SameHostRegs s t
  port : SamePort s t
  control : SameControl s t
  memory : SameMemory s t
  books : SameBooks s t
  buffers : SameBuffersBut s t written

/-! ## Legal states -/

/-- Which command is legal in which `fsm` (`60_exceptions.md` R313). -/
def legalIn (i : Instr) (f : Fsm) : Bool :=
  match i with
  | .construct => true
  | .isInitialized => true
  | .run => decide (f = .ready)
  | .setCoeff => decide (f ≠ .uninit)
  | .reset => decide (f ≠ .uninit)
  | .checkOverflows => decide (f ≠ .uninit)
  | .timeToFreq => decide (f ≠ .uninit)
  | .freqToTime => decide (f ≠ .uninit)
  | .mixAndScaleIn _ => decide (f ≠ .uninit)
  | .mixAndScaleOut _ => decide (f ≠ .uninit)
  | .convolve => decide (f ≠ .uninit)
  | .convolveAdd => decide (f ≠ .uninit)
  | .convolveInplace => decide (f ≠ .uninit)
  | .diracConvolve => decide (f ≠ .uninit)
  | .diracConvolveInplace => decide (f ≠ .uninit)
  | .coeffsToInternal _ => decide (f ≠ .uninit)
  | .verify _ => decide (f ≠ .uninit)
  | .decodeSamples _ => decide (f ≠ .uninit)
  | .encodeSamples _ => decide (f ≠ .uninit)

/-! ## The spec's formulas, element by element -/

/-- Whether a command word is reserved, from its bits (`30_encoding.md` R106 with R102 to R104). -/
def reservedWord (w : Word) : Bool :=
  let op := (w.extractLsb' 0 8).toNat
  let fa := (w.extractLsb' 8 4).toNat
  let fb := (w.extractLsb' 12 4).toNat
  let rsv := (w.extractLsb' 16 16).toNat
  decide (rsv ≠ 0) ||
    (decide (op = 0x00) || (decide (0x07 ≤ op) && decide (op ≤ 0x0F)) ||
      (decide (0x13 ≤ op) && decide (op ≤ 0x17)) || (decide (0x1D ≤ op) && decide (op ≤ 0x1F)) ||
      (decide (0x22 ≤ op) && decide (op ≤ 0x27)) || decide (0x2A ≤ op)) ||
    (if op = 0x12 then decide (2 ≤ fb)
      else if op = 0x20 ∨ op = 0x21 ∨ op = 0x28 ∨ op = 0x29 then decide (fb ≠ 0)
      else decide (fa ≠ 0) || decide (fb ≠ 0))

/-- Element `e` of `PRODUCT` (`41_multiplier.md` R176, R170): elements 0 and 1 are real-only bins, an even
element is a bin's real part and an odd one its imaginary part. -/
def productElem (p : Prec) (a k : Nat → FReal) (e : Nat) : FReal :=
  if e = 0 then fmul p (a 0) (k 0)
  else if e = 1 then fmul p (a 1) (k 1)
  else if e % 2 = 0 then fsub p (fmul p (a e) (k e)) (fmul p (a (e + 1)) (k (e + 1)))
  else fadd p (fmul p (a (e - 1)) (k e)) (fmul p (a e) (k (e - 1)))

/-- The product of input `j` and its weight at element `e` (`40_transform.md` R149). -/
def mixTerm (s : State) (e j : Nat) : FReal :=
  fmul s.lat.prec (cvt s.lat.prec (unpack .p64 (s.op.scales.getD j 0#64)))
    (elem s (bufRef (s.op.sources.getD j 0#32)) e)

/-- The weighted sum `mixed(e)` of `n` inputs named by the operand registers (R150): `acc` is the first product,
then the others are added to it in input order, each rounded before it is added. -/
def mixedElem (s : State) (n e : Nat) : FReal :=
  match n with
  | 0 => FReal.zero
  | 1 => mixTerm s e 0
  | n + 2 => fadd s.lat.prec (mixedElem s (n + 1) e) (mixTerm s e (n + 1))

/-- `1/N` as a real, for `N = 2^o`. -/
def oneOver (o : Nat) : FReal := .fin false (2 ^ (1074 - o))

/-- The factor of `DIRAC` at element `e` (`41_multiplier.md` R174): bin `e/2`, minus for odd bins; element 1
is the Nyquist bin, plus. -/
def diracFactor (o e : Nat) : FReal :=
  if e < 2 then oneOver o else if e / 2 % 2 = 0 then oneOver o else fneg (oneOver o)

/-- `bitrev_o(n)` (`40_transform.md` R145): bit `j` of `n` becomes bit `o-1-j`. -/
def reverseBits (o n : Nat) : Nat := ((List.range o).map fun j => n / 2 ^ j % 2 * 2 ^ (o - 1 - j)).sum

/-- `BFLY` (R144), its ten operations written out. -/
def bfly (p : Prec) (ar ai br bi wr wi : FReal) : ComplexValue × ComplexValue :=
  let tr := fsub p (fmul p wr br) (fmul p wi bi)
  let ti := fadd p (fmul p wr bi) (fmul p wi br)
  ((fadd p ar tr, fadd p ai ti), (fsub p ar tr, fsub p ai ti))

/-- `TW_o[k]` (R143): two entries are fixed, every other one is whatever two reals the build's ROM holds. -/
def romEntry (b : Config.Build) (p : Prec) (o k : Nat) : ComplexValue :=
  if k = 0 then (.fin false (2 ^ 1074), .fin true 0)
  else if 4 * k = 2 ^ o then (.fin false 0, .fin true (2 ^ 1074))
  else (unpack p (b.tw p o k).1, unpack p (b.tw p o k).2)

/-- The assignment of one butterfly of the schedule to the two elements `a` and `a + h` (R145). -/
def bflyAt (b : Config.Build) (p : Prec) (o : Nat) (inverse : Bool) (m k0 j : Nat) (x : List ComplexValue) :
    List ComplexValue :=
  let a := k0 + j
  let a' := a + m / 2
  let w := romEntry b p o (j * (2 ^ o / m))
  let r := bfly p (cnth x a).1 (cnth x a).2 (cnth x a').1 (cnth x a').2 w.1 (if inverse then fneg w.2 else w.2)
  (x.set a r.1).set a' r.2

/-- `FFT` as R145 writes it: the loops over `n`, over `s`, over `k0` and over `j`, each assigning elements. -/
def fftLoops (b : Config.Build) (p : Prec) (o : Nat) (inverse : Bool) (xs : List ComplexValue) :
    List ComplexValue :=
  let start := (List.range (2 ^ o)).foldl (fun x n => x.set (reverseBits o n) (cnth xs n))
    (List.replicate (2 ^ o) (FReal.zero, FReal.zero))
  (List.range o).foldl
    (fun x s => (List.range (2 ^ o / 2 ^ (s + 1))).foldl
      (fun x k => (List.range (2 ^ (s + 1) / 2)).foldl
        (fun x j => bflyAt b p o inverse (2 ^ (s + 1)) (k * 2 ^ (s + 1)) j x) x) x)
    start

/-- What `use_plan` leaves of the plan bits and the log (`40_transform.md` R146). -/
def PlanUsed (b : Config.Build) (s t : State) (inv inpl : Bool) : Prop :=
  ((planWord s.plan inv inpl).getLsbD s.lat.order = true → t.plan = s.plan ∧ SameLog s t) ∧
  ((planWord s.plan inv inpl).getLsbD s.lat.order = false →
    (∀ i : Nat, (planWord t.plan inv inpl).getLsbD i =
      (decide (i = s.lat.order) || (planWord s.plan inv inpl).getLsbD i)) ∧
    (∀ inv' inpl' : Bool, ¬(inv' = inv ∧ inpl' = inpl) →
      planWord t.plan inv' inpl' = planWord s.plan inv' inpl') ∧
    SameLog
      (logEvent b s
        { kind := .planCreated, ch := 0xFF#8, sub := BitVec.ofNat 8 (inv.toNat + 2 * inpl.toNat),
          a := BitVec.ofNat 32 s.lat.order, f := 0#64 }) t)

/-- The first failing row of `CONSTRUCT`'s checks as code and `RESULT_AUX` (`43_engine.md` R212), each raw
register an unsigned integer, at the limits of a build. -/
def constructError (b : Config.Build) (g : CfgRegs) : Option (ResultCode × Word) :=
  let l := g.blockLen.toNat
  let blocks := g.nBlocks.toNat
  let c := g.nChannels.toNat
  let rate := g.sampleRate.toNat
  let tneed := c * max rate l
  let rs := if g.precision = 64#32 then 8 else 4
  let lengths := ((List.range b.maxOrder).filter fun k => b.minOrder ≤ k + 1).map fun k => 2 ^ k
  if c = 0 ∨ b.maxChannels < c then some (.eChannels, g.nChannels)
  else if fmtValid g.inFormat.toNat = false then some (.eFormat, g.inFormat)
  else if fmtValid g.outFormat.toNat = false then some (.eFormat, g.outFormat)
  else if g.applyDither.toNat / 2 ≠ 0 then some (.eFormat, g.applyDither)
  else if rate = 0 then some (.eSampleRate, 0#32)
  else if b.ditherTableMax < tneed then some (.eDitherTable, BitVec.ofNat 32 tneed)
  else if g.precision ≠ 32#32 ∧ g.precision ≠ 64#32 then some (.ePrecision, g.precision)
  else if l ∉ lengths then some (.eBlockLen, g.blockLen)
  else if blocks = 0 ∨ b.maxBlocks < blocks then some (.eNBlocks, g.nBlocks)
  else if b.arenaMaxBytes < 2 * l * rs * (c * (blocks + 3) + 4) then some (.eAlloc, 0#32)
  else if b.iobufMaxBytes < l * c * (g.inFormat.toNat % 16) then some (.eAlloc, 1#32)
  else if b.iobufMaxBytes < l * c * (g.outFormat.toNat % 16) then some (.eAlloc, 2#32)
  else none

/-- A descriptor as R24 (`10_state.md`) gives it for a format word, `C` channels and channel `c`. -/
structure DescribedBy (d : SampleDesc) (w nChannels c : Nat) : Prop where
  bytes : d.bytes = w % 2 ^ 4
  sbits : d.sbits = w / 2 ^ 4 % 2 ^ 7
  isFloat : d.isFloat = w.testBit 11
  bigEndian : d.bigEndian = w.testBit 12
  offset : d.offset = c * (w % 2 ^ 4)
  stride : d.stride = nChannels
  scale : unpack .p64 d.scale =
    if w.testBit 11 then .fin false (2 ^ 1074) else .fin false (2 ^ (1074 - (w / 2 ^ 4 % 2 ^ 7 - 1)))

/-! ## The codec, from the spec's formulas -/

/-- `DecSample(u, fmt)` (`44_codec_dither.md` R253) of a container: of an integer one the high `S` bits as a
two's-complement number, the bits below ignored, converted (rounded) and scaled by `2^-(S-1)`; of a float one
the value of its bits, which only a binary64 on a binary32 engine is rounded. -/
def sampleValue (p : Prec) (d : SampleDesc) (u : Nat) : FReal :=
  if d.isFloat then
    if d.bytes = 4 then unpack .p32 (BitVec.ofNat 64 u)
    else match p with
      | .p32 => cvt .p32 (unpack .p64 (BitVec.ofNat 64 u))
      | .p64 => unpack .p64 (BitVec.ofNat 64 u)
  else
    let k := u / 2 ^ (8 * d.bytes - d.sbits)
    fmul p (i2f p (if k < 2 ^ (d.sbits - 1) then (k : Int) else (k : Int) - 2 ^ d.sbits))
      (.fin false (2 ^ (1074 - (d.sbits - 1))))

/-- `OvfClip` (`45_overflow_tracker.md` R290): one clip more, saturating. -/
def ClipCounted (o o' : OvfRecord) : Prop := o'.clips.toNat = min (o.clips.toNat + 1) (2 ^ 32 - 1)

/-- `OvfPeakF` (R291): the running maximum of the values that clipped. -/
def FloatPeak (o o' : OvfRecord) (m : FReal) : Prop :=
  (flt (unpack .p64 o.largestF) m = true → Holds .p64 o'.largestF m) ∧
  (flt (unpack .p64 o.largestF) m = false → o'.largestF = o.largestF)

/-- `Quantise` (`44_codec_dither.md` R259 with R290 to R292): the integer `q` and the record `o'` for the
pre-quantization value `u`, the record being `o` before. -/
structure Quantised (d : SampleDesc) (o : OvfRecord) (u : FReal) (q : Int) (o' : OvfRecord) : Prop where
  max : o'.max = o.max
  nan : u = .nan → q = 0 ∧ ClipCounted o o' ∧ o'.largestF = o.largestF ∧ o'.largestI = o.largestI
  above : (u = .inf false ∨ ∃ neg mag, u = .fin neg mag ∧
      ((2 : Int) ^ (d.sbits - 1) - 1) * 2 ^ 1074 < signedUnits neg mag) →
    q = 2 ^ (d.sbits - 1) - 1 ∧ ClipCounted o o' ∧ FloatPeak o o' u ∧ o'.largestI = o.largestI
  below : (u = .inf true ∨ ∃ neg mag, u = .fin neg mag ∧
      signedUnits neg mag < -(2 : Int) ^ (d.sbits - 1) * 2 ^ 1074) →
    q = -(2 ^ (d.sbits - 1)) ∧ ClipCounted o o' ∧ FloatPeak o o' (fneg u) ∧ o'.largestI = o.largestI
  within : ∀ (neg : Bool) (mag : Nat), u = .fin neg mag →
    -(2 : Int) ^ (d.sbits - 1) * 2 ^ 1074 ≤ signedUnits neg mag →
    signedUnits neg mag ≤ ((2 : Int) ^ (d.sbits - 1) - 1) * 2 ^ 1074 →
    2 * q * 2 ^ 1074 ≤ 2 * signedUnits neg mag + 2 ^ 1074 ∧
      2 * signedUnits neg mag + 2 ^ 1074 < 2 * (q + 1) * 2 ^ 1074 ∧
      o'.clips = o.clips ∧ o'.largestF = o.largestF ∧ o'.largestI.toNat = Max.max o.largestI.toNat q.natAbs

/-- `EncFloat` (R257) of a sample of precision `p`: the container's bits are those of the sample (rounded to
binary32 for 4 bytes, some NaN's for a NaN); a NaN and a magnitude above 1.0 count as a clip; the magnitude of
every sample that is not a NaN goes to the float peak. -/
structure FloatEncoded (d : SampleDesc) (o : OvfRecord) (y : FReal) (u : Nat) (o' : OvfRecord) : Prop where
  fits : u < 2 ^ (8 * d.bytes)
  bits : unpack (if d.bytes = 4 then .p32 else .p64) (BitVec.ofNat 64 u) = if d.bytes = 4 then cvt .p32 y else y
  max : o'.max = o.max
  largestI : o'.largestI = o.largestI
  nan : y = .nan → ClipCounted o o' ∧ o'.largestF = o.largestF
  peak : y ≠ .nan → FloatPeak o o' (fabs y)
  clip : y ≠ .nan → flt (.fin false (2 ^ 1074)) (fabs y) = true → ClipCounted o o'
  fit : y ≠ .nan → flt (.fin false (2 ^ 1074)) (fabs y) = false → o'.clips = o.clips

/-- The container of a quantised integer (R260). -/
def highBits (d : SampleDesc) (q : Int) : Nat := (q * 2 ^ (8 * d.bytes - d.sbits) % 2 ^ (8 * d.bytes)).toNat

/-- `EncInt` (R258): the sample times `2^(S-1)`, quantised. -/
def IntEncoded (p : Prec) (d : SampleDesc) (o : OvfRecord) (y : FReal) (u : Nat) (o' : OvfRecord) : Prop :=
  ∃ q : Int, u = highBits d q ∧ Quantised d o (fmul p y (.fin false (2 ^ (1074 + (d.sbits - 1))))) q o'

/-- `EncIntDither` (R261, R266), with the dither state `t` before and `t'` after, on the table of `s`. -/
def DitherEncoded (s : State) (d : SampleDesc) (o : OvfRecord) (t : DitherState) (y : FReal) (u : Nat)
    (o' : OvfRecord) (t' : DitherState) : Prop :=
  let p := s.lat.prec
  let byte := (s.randvec.getD t.cursor.toNat 0#8).toInt
  let v := fmul p y (.fin false (2 ^ (1074 + (d.sbits - 1))))
  let r : FReal := .fin (decide (byte < 0)) (byte.natAbs * 2 ^ 1066)
  let w := fsub p v (unpack p t.s1)
  let x := fadd p w (fsub p r (unpack p t.s0))
  (∃ q : Int, u = highBits d q ∧ Quantised d o x q o') ∧
    t'.cursor.toNat = (t.cursor.toNat + 1) % s.tableSize.toNat ∧ Holds p t'.s0 r ∧
    Holds p t'.s1 (if isFinite x then fsub p (i2f p (floorHalf x)) w else FReal.zero)

/-- One sample `y` encoded to the container `u` (R255) by the channel's variant, the channel being `ch` before
and `ch'` after: only its overflow record and, with dither, its dither state are written. -/
structure SampleEncoded (s : State) (ch : Channel) (y : FReal) (u : Nat) (ch' : Channel) : Prop where
  frame : ch' = { ch with ovf := ch'.ovf, dstate := ch'.dstate }
  undithered : (ch.descOut.isFloat = true ∨ ch.ditherOn = false) → ch'.dstate = ch.dstate
  float : ch.descOut.isFloat = true → FloatEncoded ch.descOut ch.ovf y u ch'.ovf
  int : ch.descOut.isFloat = false → ch.ditherOn = false → IntEncoded s.lat.prec ch.descOut ch.ovf y u ch'.ovf
  dither : ch.descOut.isFloat = false → ch.ditherOn = true →
    DitherEncoded s ch.descOut ch.ovf ch.dstate y u ch'.ovf ch'.dstate

/-! ## The overflow report -/

/-- The peak of a record: the larger tracker (`45_overflow_tracker.md` R301). -/
def peakOf (o : OvfRecord) : FReal :=
  if flt (unpack .p64 o.largestF) (i2f .p64 o.largestI.toNat) then i2f .p64 o.largestI.toNat
  else unpack .p64 o.largestF

/-- `peak / max` (R301). -/
def ratioOf (o : OvfRecord) : FReal := fdiv64 (peakOf o) (unpack .p64 o.max)

/-- `20 * LOG10(peak / max)` (R301), `LOG10` of a build. -/
def levelOf (b : Config.Build) (o : OvfRecord) : FReal :=
  fmul64 (.fin false (20 * 2 ^ 1074)) (unpack .p64 (b.log10 (pack .p64 0 (ratioOf o))))

/-- The report of channel `c` (R300, R301, `30_encoding.md` R117): the clip count, and the class with the level:
1 (`NEG_INF`) where the peak is 0, 2 (`NEG_ZERO`) where the level is 0, both with `+0.0`, else 0 (`FINITE`) with
the level. -/
structure Reports (b : Config.Build) (c : Nat) (o : OvfRecord) (r : LogRecord) : Prop where
  kind : r.kind = .overflowReport
  ch : r.ch = BitVec.ofNat 8 c
  a : r.a = o.clips
  negInf : feq (peakOf o) FReal.zero = true → r.sub = 1#8 ∧ r.f = 0#64
  negZero : feq (peakOf o) FReal.zero = false → feq (levelOf b o) FReal.zero = true → r.sub = 2#8 ∧ r.f = 0#64
  finite : feq (peakOf o) FReal.zero = false → feq (levelOf b o) FReal.zero = false →
    r.sub = 0#8 ∧ Holds .p64 r.f (levelOf b o)

/-- The log after records were offered to a FIFO of depth `depth` (`10_state.md` R30): those that fit are
appended in order, the rest dropped, and `log_lost` is set when one was. -/
structure LogTakes (depth : Nat) (s t : State) (rs : List LogRecord) : Prop where
  log : t.log = (s.log ++ rs).take depth
  logRd : t.logRd = s.logRd
  logLost : t.logLost = (s.logLost || decide (depth < s.log.length + rs.length))

/-- The `PLAN_CREATED` record of an in-place transform, if the plan is new (`40_transform.md` R146). -/
def newPlan (s : State) (inv : Bool) : List LogRecord :=
  if (planWord s.plan inv true).getLsbD s.lat.order then []
  else [{ kind := .planCreated, ch := 0xFF#8, sub := BitVec.ofNat 8 (inv.toNat + 2),
          a := BitVec.ofNat 32 s.lat.order, f := 0#64 }]

/-- The records of a channel whose preprocessing fails (`42_coeff_preprocessor.md` R190, R193): for each block
that is not finite, ascending, its first non-finite element and the block. -/
def blockFailures (c cb : Nat) (block : Nat → List FReal) : List LogRecord :=
  (List.range cb).flatMap fun i =>
    match (block i).findIdx? fun x => !isFinite x with
    | none => []
    | some e =>
      [{ kind := .verifyNonfinite, ch := 0xFF#8, sub := 0#8, a := BitVec.ofNat 32 e, f := 0#64 },
       { kind := .preprocessBlockFail, ch := BitVec.ofNat 8 c, sub := 0#8, a := BitVec.ofNat 32 i, f := 0#64 }]

/-! ## `RUN` as a sequence of unit commands -/

/-- A unit command issued, in a build, with the given operand registers. -/
def unitStep (b : Config.Build) (s : State) (o : OpRegs) (i : Instr) : State :=
  match execWith b i { s with op := o } with
  | .next t => t
  | .fault _ => s
  | .refused _ => s

/-- A sequence of unit commands. -/
def unitSteps (b : Config.Build) (s : State) (cs : List (OpRegs × Instr)) : State :=
  cs.foldl (fun t c => unitStep b t c.1 c.2) s

/-- The operand registers with a destination and the first source. -/
def opsOf (dst src : BufRef) : OpRegs := { OpRegs.reset with dst := bufferId dst, src0 := bufferId src }

/-- The unit commands that steps 5 of `RUN` are for channel 0 (`43_engine.md` R224, R225), `processed` being
the counter after step 3. -/
def runProductUnits (s : State) (k slot processed : Nat) : List (OpRegs × Instr) :=
  let b := s.lat.nBlocks.toNat
  let nb := (s.chan 0).coefNBlocks.toNat
  if nb = 0 then
    if b = 1 then [({ OpRegs.reset with dst := bufferId (.ring 0 0) }, .diracConvolveInplace)]
    else [(opsOf (.acc 0) (.ring 0 slot), .diracConvolve)]
  else if b = 1 then
    [({ OpRegs.reset with dst := bufferId (.ring 0 0), coef := bufferId (.coef 0 0) }, .convolveInplace)]
  else
    ({ opsOf (.acc 0) (.ring 0 slot) with coef := bufferId (.coef 0 0) }, .convolve) ::
      (List.range (min nb processed - 1)).map fun (j : Nat) =>
        ({ opsOf (.acc 0) (.ring 0 ((((k : Int) - ((j : Int) + 1)) % (b : Int)).toNat)) with
            coef := bufferId (.coef 0 (j + 1)) },
          .convolveAdd)

/-- Steps 1, 2, 4, 5 and 6 of `RUN` for channel 0 as unit commands (`43_engine.md` R221 to R227,
`44_codec_dither.md` R252), with the weights of the build. -/
def runUnits (b : Config.Build) (s : State) : List (OpRegs × Instr) :=
  let k := s.blockCounter.toNat
  let blocks := s.lat.nBlocks.toNat
  let slot := k % blocks
  let sel := if s.bufSel then 1 else 0
  let processed := min ((s.chan 0).processed.toNat + 1) blocks
  [({ OpRegs.reset with dst := bufferId (.tb 0 sel), off := s.lat.blockLen }, .decodeSamples 0),
   ({ OpRegs.reset with dst := bufferId (.tb 0 (1 - sel)) }, .decodeSamples 0),
   (opsOf (.tb 0 sel) (.tb 0 sel), .timeToFreq),
   ({ opsOf (.ring 0 slot) (.tb 0 sel) with scale0 := b.inScale }, .mixAndScaleIn 1)] ++
  runProductUnits s k slot processed ++
  [({ opsOf (.scr 0) (if blocks = 1 then .ring 0 0 else .acc 0) with scale0 := b.outScale },
      .mixAndScaleOut 1),
   (opsOf (.scr 0) (.scr 0), .freqToTime)]

/-- Step 8 of `RUN` for channel 0 as a unit command (`44_codec_dither.md` R256). -/
def runEncodeUnit : List (OpRegs × Instr) := [(opsOf .invalid (.scr 0), .encodeSamples 0)]

/-! ## Invariants -/

/-- The memory has its canonical form. -/
def MemInv (s : State) : Prop := Memory.wf s.mem = true

/-- The log holds at most `LOG_DEPTH` records, and the read position is 0 when there is none (R30, R38). -/
structure LogInv (b : Config.Build) (s : State) : Prop where
  depth : s.log.length ≤ b.logDepth
  empty : s.log = [] → s.logRd = 0#2

/-- `RESULT` is a code and `LAST_FAIL` is 1 iff it is not 0 (R32, `30_encoding.md` R114). -/
structure ResultInv (s : State) : Prop where
  code : ∃ code : ResultCode, s.result = code.word
  lastFail : s.lastFail = decide (s.result ≠ 0#32)

/-- A channel `c < C` of an engine (R24 to R28, `20_memory.md` R74, R75). -/
structure ChannelInv (s : State) (c : Nat) : Prop where
  descIn : (s.chan c).descIn = sampleDesc s.lat.fmtIn s.channels c
  descOut : (s.chan c).descOut = sampleDesc s.lat.fmtOut s.channels c
  ditherOn : (s.chan c).ditherOn = (s.lat.applyDither && !fmtIsFloat s.lat.fmtOut.toNat)
  processed : (s.chan c).processed.toNat ≤ s.lat.nBlocks.toNat
  coefNBlocks : (s.chan c).coefNBlocks.toNat ≤ s.lat.nBlocks.toNat
  coefCount : (s.chan c).coef.length = (s.chan c).coefNBlocks.toNat
  coefSize : ∀ b ∈ (s.chan c).coef, b.length = s.lat.size
  cursor : (s.chan c).dstate.cursor.toNat < s.tableSize.toNat
  max : (s.chan c).ovf.max = formatMax (s.chan c).descOut
  tb0 : (s.chan c).tb0.length = s.lat.size
  tb1 : (s.chan c).tb1.length = s.lat.size
  acc : (s.chan c).acc.length = s.lat.size
  ringCount : (s.chan c).ring.length = s.lat.nBlocks.toNat
  ringSize : ∀ b ∈ (s.chan c).ring, b.length = s.lat.size

/-- What holds of an engine that has been constructed (`43_engine.md` R212, R213). -/
structure BuiltInv (b : Config.Build) (s : State) : Prop where
  blockLen : ∃ k : Nat, b.minOrder ≤ k + 1 ∧ k + 1 ≤ b.maxOrder ∧ s.lat.blockLen.toNat = 2 ^ k
  nBlocksLow : 1 ≤ s.lat.nBlocks.toNat
  nBlocksHigh : s.lat.nBlocks.toNat ≤ b.maxBlocks
  channelsLow : 1 ≤ s.channels
  channelsHigh : s.channels ≤ b.maxChannels
  fmtIn : fmtValid s.lat.fmtIn.toNat = true
  fmtOut : fmtValid s.lat.fmtOut.toNat = true
  rate : 1 ≤ s.lat.rate.toNat
  spacing : s.spacing.toNat = max s.lat.rate.toNat s.lat.blockLen.toNat
  tableSize : s.tableSize.toNat = s.channels * s.spacing.toNat
  tableHigh : s.tableSize.toNat ≤ b.ditherTableMax
  randvec : s.randvec.length = s.tableSize.toNat
  arena : s.lat.size * s.lat.prec.bytes * (s.channels * (s.lat.nBlocks.toNat + 3) + 4) ≤
    b.arenaMaxBytes
  inBytes : s.lat.blockLen.toNat * s.channels * fmtBytes s.lat.fmtIn.toNat ≤ b.iobufMaxBytes
  outBytes : s.lat.blockLen.toNat * s.channels * fmtBytes s.lat.fmtOut.toNat ≤ b.iobufMaxBytes
  plan : ∀ inv inpl : Bool, planWord s.plan inv inpl = 0#32 ∨
    planWord s.plan inv inpl = BitVec.ofNat 32 (2 ^ s.lat.order)
  scrCount : s.scr.length = 4
  scrSize : ∀ x ∈ s.scr, x.length = s.lat.size
  channel : ∀ c : Nat, c < s.channels → ChannelInv s c
  unused : ∀ c : Nat, s.channels ≤ c → s.chan c = .reset

/-- There is no engine: nothing of an earlier one is left (R211, `10_state.md` R41). -/
structure NoEngineInv (s : State) : Prop where
  lat : s.lat = .reset
  chans : ∀ c : Nat, s.chan c = .reset
  scr : s.scr = []
  randvec : s.randvec = []
  tableSize : s.tableSize = 0#32
  spacing : s.spacing = 0#32
  plan : s.plan = .reset
  blockCounter : s.blockCounter = 0#64
  bufSel : s.bufSel = false

/-- The engine is well shaped: sizes, bounds and derived values are what `CONSTRUCT` made them. -/
structure EngineInv (b : Config.Build) (s : State) : Prop where
  chans : s.chans.length = b.maxChannels
  none : s.fsm = .uninit → NoEngineInv s
  built : s.fsm ≠ .uninit → BuiltInv b s

/-- The overflow statistics keep their ranges (`45_overflow_tracker.md` R291, R292): the peaks are never NaN
and never negative, and the integer peak is at most `2^(S-1)`, 0 for a float format. -/
structure StatsInv (s : State) : Prop where
  largestF : ∀ c : Nat, isNan (unpack .p64 (s.chan c).ovf.largestF) = false
  largestFSign : ∀ c : Nat, (s.chan c).ovf.largestF.getLsbD 63 = false
  snapF : ∀ c : Nat, isNan (unpack .p64 (s.chan c).snap.largestF) = false
  largestI : ∀ c : Nat, c < s.channels →
    (s.chan c).ovf.largestI.toNat ≤
      if fmtIsFloat s.lat.fmtOut.toNat then 0 else 2 ^ (fmtSbits s.lat.fmtOut.toNat - 1)

/-- A stream of `k` successful `RUN`s (`43_engine.md` R232, the counters). -/
structure StreamAt (k : Nat) (s : State) : Prop where
  blockCounter : s.blockCounter.toNat = k
  bufSel : s.bufSel = decide (k % 2 = 1)
  processed : ∀ c : Nat, c < s.channels →
    (s.chan c).processed.toNat = min k s.lat.nBlocks.toNat

end Sys2Proof.Machine
end

