-- ==== Sys2Proof/Certificates/Slice0/Obligations.lean ====
section
/-! DEFINITION. The statements about the machine. Each docstring names the rule or section it rests on. -/

open Sys2Proof Sys2Proof.Machine

/-! ## Decoding and the step -/

/-- Decoding the word of a well-formed instruction gives it back (`30_encoding.md` R100 to R104): every
instruction, every operand the 4-bit field admits. -/
def Obligations.DecodeOfEncode : Prop := ∀ i : Instr, i.wellFormed = true → decode (encode i) = .ok i

/-- A word that decodes is the word of the instruction it decodes to, which is well formed: no two words are
one instruction (R100 to R106). -/
def Obligations.EncodeOfDecode : Prop :=
  ∀ (w : Word) (i : Instr), decode w = .ok i → i.wellFormed = true ∧ encode i = w

/-- A reserved word written to `CMD` raises `E_ILLEGAL_CMD` with the word and has no other effect, and every
other word is a command (R106). -/
def Obligations.ReservedWordsAreIllegal : Prop :=
  ∀ w : Word,
    (reservedWord w = true → ∀ (s : State) (rest : List HostTxn), s.pending = cmdTxn w :: rest →
      step s = .next
        { s with pending := rest, result := 0xFFFFFFF5#32, resultAux := w, lastFail := true }) ∧
    (reservedWord w = false → ∃ i : Instr, decode w = .ok i)

/-- A sanity check: words written out from the tables of R100 to R104 decode to the commands they stand for. -/
def Obligations.DecodeTableWords : Prop :=
  decode 0x00000001#32 = .ok .construct ∧ decode 0x00000003#32 = .ok .run ∧
  decode 0x00000011#32 = .ok .freqToTime ∧ decode 0x00000312#32 = .ok (.mixAndScaleIn 3) ∧
  decode 0x00001412#32 = .ok (.mixAndScaleOut 4) ∧ decode 0x0000001A#32 = .ok .convolveInplace ∧
  decode 0x00000720#32 = .ok (.coeffsToInternal 7) ∧ decode 0x00000221#32 = .ok (.verify 2) ∧
  decode 0x00000F29#32 = .ok (.encodeSamples 15)

/-- A step runs the decoded instruction: the write to `CMD` that is next at the port is taken off and the
command it decodes to is executed on the state that is left; a row's word put there by `withFetchWord` runs
on the very state; with nothing pending a step does nothing (the port is the
model's, log entry 5; R101, `20_memory.md` R80, `70_reset_and_hazards.md` R340). In every build a step runs the
decoded command of that build; `exec`, `step` and `reset` are those of the build with the defaults of R10
(`00_scope.md`). -/
def Obligations.StepRunsDecoded : Prop :=
  (∀ (s : State) (rest : List HostTxn) (data : Word64) (i : Instr),
    s.pending = HostTxn.write .b4 0x008#32 data :: rest → decode (data.extractLsb' 0 32) = .ok i →
      step s = exec i { s with pending := rest } ∧
      ∀ b : Config.Build, stepWith b s = execWith b i { s with pending := rest }) ∧
  (∀ (s : State) (w : Nat) (i : Instr), decodeTableWord 32 w = some i →
    step (s.withFetchWord 32 w) = exec i s) ∧
  (∀ s : State, s.pending = [] → step s = .next s) ∧
  (∀ (i : Instr) (s : State), exec i s = execWith Config.build i s ∧ step s = stepWith Config.build s) ∧
  State.reset = .resetWith Config.build ∧
  (let b := Config.build
   b.maxChannels = 8 ∧ b.minOrder = 3 ∧ b.maxOrder = 17 ∧ b.maxBlocks = 1024 ∧ b.arenaMaxBytes = 2 ^ 28 ∧
     b.coefMaxBytes = 2 ^ 28 ∧ b.iobufMaxBytes = 2 ^ 22 ∧ b.cinMaxElems = 2 ^ 22 ∧ b.ditherTableMax = 1536000 ∧
     b.logDepth = 64 ∧ b.ditherSeed = 1#32 ∧ unpack .p64 b.inScale = .fin false (2 ^ 1074) ∧
     unpack .p64 b.outScale = .fin false (2 ^ 1074) ∧ b.nonfiniteCheckIndex = 0)

/-- Every command, in every state and with every operand, ends by writing `RESULT`, with 0 or one of the
codes the hardware raises, and `RESULT_AUX` and `LAST_FAIL` with it; and no step of the machine stops
(`60_exceptions.md` R310; log entry 16). -/
def Obligations.EveryCommandEndsWithAResult : Prop :=
  (∀ (i : Instr) (s : State), ∃ (t : State) (code : ResultCode) (aux : Word),
    exec i s = .next t ∧ Ends t code aux ∧ code ≠ .eIncompatible ∧ code ≠ .eLoad) ∧
  (∀ s : State, ∃ t : State, step s = .next t)

/-- The table of `60_exceptions.md` R313: a command that is not legal in `fsm` raises `E_STATE` with `fsm` and
does nothing else; a legal one never raises it. -/
def Obligations.IllegalStateRaises : Prop :=
  ∀ (i : Instr) (s : State),
    (legalIn i s.fsm = false → exec i s = .next
      { s with result := 0xFFFFFFFB#32, resultAux := BitVec.ofNat 32 s.fsm.code, lastFail := true }) ∧
    (legalIn i s.fsm = true → ∀ t : State, exec i s = .next t → t.result ≠ 0xFFFFFFFB#32)

/-- The transitions of `fsm` (`43_engine.md` R210), row by row. -/
def Obligations.FsmTransitions : Prop :=
  (∀ (i : Instr) (s t : State), exec i s = .next t →
    (i = .construct → (t.result = 0#32 → t.fsm = .initialized) ∧ (t.result ≠ 0#32 → t.fsm = .uninit)) ∧
    (i = .setCoeff → s.fsm ≠ .uninit → t.result = 0#32 → t.fsm = .ready) ∧
    (i = .setCoeff → s.fsm ≠ .uninit → t.result = ResultCode.ePreprocess.word → t.fsm = .initialized) ∧
    (i = .setCoeff → t.result = ResultCode.eBadArg.word ∨ t.result = ResultCode.eAlloc.word ∨
      t.result = ResultCode.eState.word → t.fsm = s.fsm) ∧
    (i ≠ .construct → i ≠ .setCoeff → t.fsm = s.fsm)) ∧
  (∀ (s t : State) (w : Word), reservedWord w = true → issue exec s w = .next t → t.fsm = s.fsm) ∧
  (∀ (s t : State) (rest : List HostTxn), s.pending = .hardReset :: rest → step s = .next t →
    t.fsm = .uninit)

/-! ## Reset and the invariants -/

/-- What a hardware reset leaves, whatever was before (`10_state.md` R41, `70_reset_and_hazards.md` R340):
every register and state variable at the value of the table, no buffer, and no byte of the apertures known (log
entries 4 and 15 for what the model keeps beside it). -/
def Obligations.HardResetLeaves : Prop :=
  ∀ (s : State) (rest : List HostTxn), s.pending = .hardReset :: rest →
    ∃ t : State, step s = .next t ∧ t.pending = rest ∧
      t.fsm = .uninit ∧ t.result = 0#32 ∧ t.resultAux = 0#32 ∧ t.lastFail = false ∧
      t.cfg = ⟨0#32, 0#32, 0#32, 0#32, 0#32, 0#32, 0#32, 0#32⟩ ∧ t.arg = ⟨0#32, 0#32, 0#32, 0#64⟩ ∧
      t.op = ⟨0#32, 0#32, 0#32, 0#32, 0#32, 0#32, 0#32, 0#32, 0#64, 0#64, 0#64, 0#64⟩ ∧
      t.dbgBuf = 0#32 ∧ t.dbgIdx = 0#32 ∧
      (∀ off : Nat, off ∈ [0x0D0, 0x0D4, 0x0D8] → regValue t (regAt Config.build off) = 0#32) ∧
      t.blockCounter = 0#64 ∧ t.bufSel = false ∧ t.tableSize = 0#32 ∧ t.spacing = 0#32 ∧
      (∀ c : Nat, (t.chan c).processed = 0#32 ∧ (t.chan c).coefNBlocks = 0#32 ∧
        (t.chan c).dstate = ⟨0#32, 0#64, 0#64⟩ ∧ (t.chan c).ovf = ⟨0#32, 0#64, 0#32, 0#64⟩ ∧
        (t.chan c).snap = ⟨0#32, 0#64, 0#32⟩) ∧
      t.plan = ⟨0#32, 0#32, 0#32, 0#32⟩ ∧ t.log = [] ∧ t.logRd = 0#2 ∧ t.logLost = false ∧
      (∀ a : Nat, Memory.read? t.mem a = none) ∧ (∀ id : Word, validId t id = false) ∧ t.randvec = []

/-- The invariants hold of the state after reset (for the values of log entries 3 to 6, the model's). -/
def Obligations.InvariantsAtReset : Prop :=
  MemInv State.reset ∧ LogInv Config.build State.reset ∧ ResultInv State.reset ∧
    EngineInv Config.build State.reset ∧ StatsInv State.reset

/-- The memory keeps its canonical form through every step (the form is the model's, log entry 4). -/
def Obligations.MemInvKept : Prop := ∀ s t : State, MemInv s → step s = .next t → MemInv t

/-- The log FIFO keeps its depth and its read position, and the result registers agree, through every step
(`10_state.md` R30, R32, R38), in every build. -/
def Obligations.LogAndResultInvKept : Prop :=
  (∀ s t : State, LogInv Config.build s → ResultInv s → step s = .next t →
    LogInv Config.build t ∧ ResultInv t) ∧
  (∀ (b : Config.Build) (s t : State), LogInv b s → ResultInv s → stepWith b s = .next t →
    LogInv b t ∧ ResultInv t)

/-- The engine stays well shaped through every step, in every build: sizes, counters within their bounds, the
dither cursor inside the table, the coefficient set as large as it says, nothing left of an engine in `UNINIT`
(the model's, log entries 6 and 7) (`10_state.md` R23 to R29, `43_engine.md` R211 to R213,
`46_arithmetic_and_access_laws.md` R370, `00_scope.md` R10; which parameters make a build, log entry 9). -/
def Obligations.EngineInvKept : Prop :=
  (∀ s t : State, EngineInv Config.build s → step s = .next t → EngineInv Config.build t) ∧
  (∀ (b : Config.Build) (s t : State), b.Legal → EngineInv b s → stepWith b s = .next t → EngineInv b t)

/-- The overflow statistics keep their ranges through every step: the float peak is never NaN and never
negative, the integer peak is at most `2^(S-1)` and stays 0 for a float format (`45_overflow_tracker.md` R291,
R292). -/
def Obligations.StatsInvKept : Prop :=
  ∀ s t : State, EngineInv Config.build s → StatsInv s → step s = .next t → StatsInv t

/-! ## Rules of the whole machine -/

/-- No command writes a register that the host writes (`10_state.md` R42). -/
def Obligations.CommandsKeepHostRegisters : Prop :=
  ∀ (i : Instr) (s t : State), exec i s = .next t → SameHostRegs s t ∧ SamePort s t

/-- After any error except `E_NONFINITE`, `E_PREPROCESS` and the `CONSTRUCT` errors the state is the one
before the command, but for the result registers, and for one log record after `E_ALLOC` from `SET_COEFF`
(`60_exceptions.md` R312, R317). -/
def Obligations.ErrorsLeaveTheState : Prop :=
  ∀ (i : Instr) (s t : State), exec i s = .next t → i ≠ .construct → t.result ≠ 0#32 →
    t.result ≠ ResultCode.ePreprocess.word → t.result ≠ ResultCode.eNonfinite.word →
    (t.result ≠ ResultCode.eAlloc.word → OnlyResult s t) ∧
    (t.result = ResultCode.eAlloc.word → i = .setCoeff ∧
      OnlyResult
        (logEvent Config.build s
          { kind := .setcoeffFail, ch := 0xFF#8, sub := 0#8, a := 0xFFFFFFF7#32, f := 0#64 }) t)

/-- Which command writes what (`10_state.md` R23, R25 to R28, `45_overflow_tracker.md` R293, `20_memory.md`
R70): the configuration and the dither table `CONSTRUCT` only; the counters `RUN`, `RESET` and `CONSTRUCT`; the
coefficient set `SET_COEFF` and `CONSTRUCT`; the overflow records and the dither state the encoders, `RESET`
and `CONSTRUCT`; the snapshots `CHECK_OVERFLOWS`, `RESET` and `CONSTRUCT`; bytes of memory `RUN` and `ENCODE`. -/
def Obligations.WhoWritesWhat : Prop :=
  ∀ (i : Instr) (s t : State), exec i s = .next t →
    (i ≠ .construct → t.lat = s.lat ∧ t.tableSize = s.tableSize ∧ t.spacing = s.spacing ∧
      t.randvec = s.randvec ∧ ∀ c : Nat, (t.chan c).descIn = (s.chan c).descIn ∧
        (t.chan c).descOut = (s.chan c).descOut ∧ (t.chan c).ditherOn = (s.chan c).ditherOn ∧
        (t.chan c).ovf.max = (s.chan c).ovf.max) ∧
    (i ≠ .run → i ≠ .reset → i ≠ .construct → t.blockCounter = s.blockCounter ∧ t.bufSel = s.bufSel ∧
      ∀ c : Nat, (t.chan c).processed = (s.chan c).processed) ∧
    (i ≠ .setCoeff → i ≠ .construct → ∀ c : Nat, (t.chan c).coefNBlocks = (s.chan c).coefNBlocks ∧
      (t.chan c).coef = (s.chan c).coef) ∧
    (i ≠ .run → (∀ ch : Nat, i ≠ .encodeSamples ch) → i ≠ .reset → i ≠ .construct →
      ∀ c : Nat, (t.chan c).ovf = (s.chan c).ovf ∧ (t.chan c).dstate = (s.chan c).dstate) ∧
    (i ≠ .checkOverflows → i ≠ .reset → i ≠ .construct → ∀ c : Nat, (t.chan c).snap = (s.chan c).snap) ∧
    (i ≠ .run → (∀ ch : Nat, i ≠ .encodeSamples ch) → SameMemory s t)

/-- A byte that a command changes is a byte of the block in `OUTBUF`: it lies below `L * C * Bw` there
(`20_memory.md` R72). -/
def Obligations.CommandsWriteTheOutputBlock : Prop :=
  ∀ (i : Instr) (s t : State) (a : Nat), EngineInv Config.build s → exec i s = .next t →
    readByte t a ≠ readByte s a →
    0x20000000 ≤ a ∧
      a < 0x20000000 + s.lat.blockLen.toNat * s.channels * fmtBytes s.lat.fmtOut.toNat

/-! ## Memory and registers -/

/-- Containers and byte order (`44_codec_dither.md` R250): `GetContainer` is the weighted sum of the bytes,
`PutContainer` writes each byte of the number to its place and no other byte, in either byte order, and the
first undoes the second. -/
def Obligations.ContainerBytes : Prop :=
  ∀ (s : State) (a bw u : Nat) (be : Bool),
    getContainer s a bw be =
      ((List.range bw).map fun i =>
        (readByte s (a + i)).toNat * 2 ^ (8 * (if be then bw - 1 - i else i))).sum ∧
    (∀ i : Nat, i < bw → readByte (putContainer s a bw be u) (a + i) =
      BitVec.ofNat 8 (u / 2 ^ (8 * (if be then bw - 1 - i else i)))) ∧
    (∀ x : Nat, x < a ∨ a + bw ≤ x → readByte (putContainer s a bw be u) x = readByte s x) ∧
    getContainer (putContainer s a bw be u) a bw be = u % 2 ^ (8 * bw)

/-- What the host writes to an aperture it reads back, at any address and in any of the four sizes, and it
changes no other byte (`20_memory.md` R77 to R79). -/
def Obligations.ApertureReadBack : Prop :=
  ∀ (s : State) (rest : List HostTxn) (size : AccessSize) (addr : Word) (data : Word64),
    s.pending = .write size addr data :: .read size addr :: rest →
    (∀ i : Nat, i < size.bytes → mapped Config.build (addr.toNat + i) = true) →
    ∃ t u : State, step s = .next t ∧ step t = .next u ∧
      u.readData = BitVec.ofNat 64 (data.toNat % 2 ^ (8 * size.bytes)) ∧
      (∀ x : Nat, x < addr.toNat ∨ addr.toNat + size.bytes ≤ x → readByte u x = readByte s x) ∧
      u = { s with pending := rest, mem := u.mem, readData := u.readData }

/-- An access that is not performed (`20_memory.md` R71, R78): in the CSR region not an aligned 32-bit word, or
wholly outside every region. A write changes nothing, a read returns 0. (Accesses across a region's
end: log entry 8.) -/
def Obligations.UnperformedAccess : Prop :=
  ∀ (s : State) (rest : List HostTxn) (size : AccessSize) (addr : Word) (data : Word64),
    ((addr.toNat < 0x1000 ∧ ¬(size = .b4 ∧ addr.toNat % 4 = 0)) ∨
      (0x1000 ≤ addr.toNat ∧ ∀ i : Nat, i < size.bytes → mapped Config.build (addr.toNat + i) = false)) →
    (s.pending = .write size addr data :: rest → step s = .next { s with pending := rest }) ∧
    (s.pending = .read size addr :: rest → step s = .next { s with pending := rest, readData := 0#64 })

/-- A write to a register other than `CMD` (`10_state.md` R31 to R39): a read-write one then reads back any
value, a read-only or reserved one ignores it; no other register reads differently, but for the data of the
debug window when its address was written; and nothing else changes. -/
def Obligations.RegisterWrite : Prop :=
  ∀ (s : State) (off : Nat) (w : Word), off < 0x1000 → off % 4 = 0 → off ≠ 0x008 →
    ∃ t : State, csrWrite Config.build exec s off w = .next t ∧
      (let readWrite := off ∈ ((List.range 8).map (0x020 + 4 * ·) ++ [0x040, 0x044, 0x048, 0x050, 0x054] ++
          (List.range 16).map (0x060 + 4 * ·) ++ [0x0C0, 0x0C4])
       (readWrite → regValue t (regAt Config.build off) = w) ∧ (¬readWrite → t = s)) ∧
      (∀ off' : Nat, off' ≠ off → off' ≠ 0x0C8 → off' ≠ 0x0CC →
        regValue t (regAt Config.build off') = regValue s (regAt Config.build off')) ∧
      t = { s with cfg := t.cfg, arg := t.arg, op := t.op, dbgBuf := t.dbgBuf, dbgIdx := t.dbgIdx }

/-- A read of `LOG_POP` (`10_state.md` R38): 0 and no change when the FIFO is empty; else word `log_rd` of the
head record, and the position moves on, the head record removed after its fourth word. Reset and `CONSTRUCT`
set the position to 0. No other read has a side effect. -/
def Obligations.LogPop : Prop :=
  (∀ (s : State) (rest : List HostTxn), s.pending = .read .b4 0x01C#32 :: rest → s.log = [] →
    step s = .next { s with pending := rest, readData := 0#64 }) ∧
  (∀ (s : State) (rest : List HostTxn) (r : LogRecord) (l : List LogRecord),
    s.pending = .read .b4 0x01C#32 :: rest → s.log = r :: l →
    let word : Nat :=
      if s.logRd = 0#2 then r.kind.code + r.ch.toNat * 2 ^ 8 + r.sub.toNat * 2 ^ 16
      else if s.logRd = 1#2 then r.a.toNat
      else if s.logRd = 2#2 then r.f.toNat % 2 ^ 32
      else r.f.toNat / 2 ^ 32
    (s.logRd ≠ 3#2 → step s = .next
      { s with pending := rest, readData := BitVec.ofNat 64 word, logRd := s.logRd + 1#2 }) ∧
    (s.logRd = 3#2 → step s = .next
      { s with pending := rest, readData := BitVec.ofNat 64 word, logRd := 0#2, log := l })) ∧
  (∀ s t : State, exec .construct s = .next t → t.logRd = 0#2) ∧
  (∀ s : State, (hardReset Config.build s).logRd = 0#2) ∧
  (∀ (s : State) (size : AccessSize) (addr : Word), ¬(size = .b4 ∧ addr = 0x01C#32) →
    hostRead Config.build s size addr = { s with readData := (hostRead Config.build s size addr).readData })

/-- The registers the host can only read, through the port (`10_state.md` R31, R32, R36, R37, R39): the fields
of `STATUS` (`LAST_FAIL` is 1 iff `RESULT` is not 0 because the result registers agree, an invariant of its own),
the identity and the results, the read-back registers, the debug window, the words of each channel, and 0 at
every reserved offset and at `CMD`. -/
def Obligations.StatusFields : Prop :=
  ∀ s : State, ResultInv s →
    let Reads : Nat → Word → Prop := fun off w =>
      (hostRead Config.build s .b4 (BitVec.ofNat 32 off)).readData = w.setWidth 64
    let Reads2 : Nat → Word64 → Prop := fun off x =>
      Reads off (x.extractLsb' 0 32) ∧ Reads (off + 4) (x.extractLsb' 32 32)
    let live : Word → Word := fun w => if s.fsm = .uninit then 0#32 else w
    (∃ w : Word, Reads 0x00C w ∧ (w.extractLsb' 0 2).toNat = s.fsm.code ∧ w.getLsbD 2 = false ∧
      w.getLsbD 3 = decide (0 < s.log.length) ∧ w.getLsbD 4 = s.logLost ∧
      w.getLsbD 5 = decide (s.result ≠ 0#32) ∧ w.extractLsb' 6 26 = 0#26) ∧
    Reads 0x000 0x42464952#32 ∧ Reads 0x004 1#32 ∧ Reads 0x008 0#32 ∧ Reads 0x010 s.result ∧
    Reads 0x014 s.resultAux ∧ Reads 0x018 (BitVec.ofNat 32 s.log.length) ∧
    Reads2 0x0A0 s.blockCounter ∧ Reads 0x0A8 (if s.bufSel then 1#32 else 0#32) ∧
    Reads 0x0AC (live s.tableSize) ∧ Reads 0x0B0 s.plan.fwdOop ∧ Reads 0x0B4 s.plan.fwdInp ∧
    Reads 0x0B8 s.plan.invOop ∧ Reads 0x0BC s.plan.invInp ∧
    (let x := elemBits s (bufRef s.dbgBuf) s.dbgIdx.toNat
     (validId s s.dbgBuf = true → s.dbgIdx.toNat < s.lat.size →
       (s.lat.prec = .p64 → Reads2 0x0C8 x) ∧
       (s.lat.prec = .p32 → Reads 0x0C8 (x.extractLsb' 0 32) ∧ Reads 0x0CC 0#32)) ∧
     (s.fsm = .uninit ∨ validId s s.dbgBuf = false ∨ s.lat.size ≤ s.dbgIdx.toNat → Reads2 0x0C8 0#64)) ∧
    Reads 0x0D0 (live s.lat.blockLen) ∧ Reads 0x0D4 (live s.lat.nBlocks) ∧
    (∃ w : Word, Reads 0x0D8 (live w) ∧
      (w.extractLsb' 0 7).toNat = (match s.lat.prec with | .p32 => 32 | .p64 => 64) ∧ w.getLsbD 7 = false ∧
      w.extractLsb' 8 4 = s.lat.nChannels ∧ w.getLsbD 12 = s.lat.applyDither ∧ w.extractLsb' 13 19 = 0#19) ∧
    (∀ c : Nat, c < 8 →
      let base := 0x100 + 0x40 * c
      let ch := s.chan c
      let there : Word → Word := fun w => if c < s.channels then live w else 0#32
      Reads base (there ch.processed) ∧ Reads (base + 0x04) (there ch.coefNBlocks) ∧
      Reads (base + 0x08) (there ch.ovf.clips) ∧ Reads (base + 0x0C) (there ch.ovf.largestI) ∧
      Reads (base + 0x10) (there (ch.ovf.largestF.extractLsb' 0 32)) ∧
      Reads (base + 0x14) (there (ch.ovf.largestF.extractLsb' 32 32)) ∧
      Reads (base + 0x18) (there (ch.ovf.max.extractLsb' 0 32)) ∧
      Reads (base + 0x1C) (there (ch.ovf.max.extractLsb' 32 32)) ∧
      Reads (base + 0x20) (there ch.snap.clips) ∧ Reads (base + 0x24) (there ch.snap.largestI) ∧
      Reads (base + 0x28) (there (ch.snap.largestF.extractLsb' 0 32)) ∧
      Reads (base + 0x2C) (there (ch.snap.largestF.extractLsb' 32 32)) ∧
      Reads (base + 0x30) (there ch.dstate.cursor) ∧
      Reads (base + 0x34) 0#32 ∧ Reads (base + 0x38) 0#32 ∧ Reads (base + 0x3C) 0#32) ∧
    (∀ off : Nat, off % 4 = 0 → off = 0x04C ∨ off = 0x058 ∨ off = 0x05C ∨ (0x0DC ≤ off ∧ off < 0x100) ∨
      (0x300 ≤ off ∧ off < 0x1000) → Reads off 0#32)

/-- Buffer ids (`30_encoding.md` R112): the word of each buffer names it, and spaces 0 and 6 to 15 name none;
and which ids are valid and which a command may write (R113). -/
def Obligations.BufferIds : Prop :=
  (∀ c i : Nat, c < 16 → i < 2 ^ 24 →
    bufRef (BitVec.ofNat 32 (0x10000000 + c * 2 ^ 24 + i)) = .tb c i ∧
    bufRef (BitVec.ofNat 32 (0x20000000 + c * 2 ^ 24 + i)) = .ring c i ∧
    bufRef (BitVec.ofNat 32 (0x30000000 + c * 2 ^ 24)) = .acc c ∧
    bufRef (BitVec.ofNat 32 (0x40000000 + i)) = .scr i ∧
    bufRef (BitVec.ofNat 32 (0x50000000 + c * 2 ^ 24 + i)) = .coef c i) ∧
  (∀ id : Word, (id.extractLsb' 28 4 = 0#4 ∨ 6 ≤ (id.extractLsb' 28 4).toNat) → bufRef id = .invalid) ∧
  (∀ (s : State) (id : Word),
    let space := (id.extractLsb' 28 4).toNat
    let chan := (id.extractLsb' 24 4).toNat
    let index := (id.extractLsb' 0 24).toNat
    (validId s id = true ↔ s.fsm ≠ .uninit ∧
      ((space = 1 ∧ chan < s.channels ∧ index < 2) ∨
       (space = 2 ∧ chan < s.channels ∧ index < s.lat.nBlocks.toNat) ∨
       (space = 3 ∧ chan < s.channels ∧ index = 0) ∨
       (space = 4 ∧ chan = 0 ∧ index < 4) ∨
       (space = 5 ∧ chan < s.channels ∧ index < (s.chan chan).coefNBlocks.toNat))) ∧
    (writableId s id = true ↔ validId s id = true ∧ space ≠ 5))

/-! ## The multiplier -/

/-- `CONVOLVE` (`41_multiplier.md` R170, R171, R176): with valid operands and no alias it succeeds, the
destination holds the bin-wise product, and nothing else changes. -/
def Obligations.ConvolveResult : Prop :=
  ∀ s : State, EngineInv Config.build s → validId s s.op.src0 = true → validId s s.op.coef = true →
    writableId s s.op.dst = true → s.op.dst ≠ s.op.src0 → s.op.dst ≠ s.op.coef →
    ∃ t : State, exec .convolve s = .next t ∧ Ends t .ok 0#32 ∧ UnitFrame s t [bufRef s.op.dst] ∧
      t.plan = s.plan ∧ SameLog s t ∧
      ∀ e : Nat, e < s.lat.size → Stored t (bufRef s.op.dst) e
        (productElem s.lat.prec (elem s (bufRef s.op.src0)) (elem s (bufRef s.op.coef)) e)

/-- `CONVOLVE_ADD` (R172): as `CONVOLVE`, the product added to what the destination held, accumulator first. -/
def Obligations.ConvolveAddResult : Prop :=
  ∀ s : State, EngineInv Config.build s → validId s s.op.src0 = true → validId s s.op.coef = true →
    writableId s s.op.dst = true → s.op.dst ≠ s.op.src0 → s.op.dst ≠ s.op.coef →
    ∃ t : State, exec .convolveAdd s = .next t ∧ Ends t .ok 0#32 ∧ UnitFrame s t [bufRef s.op.dst] ∧
      t.plan = s.plan ∧ SameLog s t ∧
      ∀ e : Nat, e < s.lat.size → Stored t (bufRef s.op.dst) e
        (fadd s.lat.prec (elem s (bufRef s.op.dst) e)
          (productElem s.lat.prec (elem s (bufRef s.op.src0)) (elem s (bufRef s.op.coef)) e))

/-- `CONVOLVE_INPLACE` (R173): the buffer is multiplied in place. -/
def Obligations.ConvolveInplaceResult : Prop :=
  ∀ s : State, EngineInv Config.build s → writableId s s.op.dst = true → validId s s.op.coef = true →
    s.op.dst ≠ s.op.coef →
    ∃ t : State, exec .convolveInplace s = .next t ∧ Ends t .ok 0#32 ∧
      UnitFrame s t [bufRef s.op.dst] ∧ t.plan = s.plan ∧ SameLog s t ∧
      ∀ e : Nat, e < s.lat.size → Stored t (bufRef s.op.dst) e
        (productElem s.lat.prec (elem s (bufRef s.op.dst)) (elem s (bufRef s.op.coef)) e)

/-- `DIRAC_CONVOLVE` and `DIRAC_CONVOLVE_INPLACE` (R174, R175): every bin times `1/N`, odd bins negated. -/
def Obligations.DiracResult : Prop :=
  (∀ s : State, EngineInv Config.build s → validId s s.op.src0 = true → writableId s s.op.dst = true →
    s.op.dst ≠ s.op.src0 →
    ∃ t : State, exec .diracConvolve s = .next t ∧ Ends t .ok 0#32 ∧ UnitFrame s t [bufRef s.op.dst] ∧
      t.plan = s.plan ∧ SameLog s t ∧
      ∀ e : Nat, e < s.lat.size → Stored t (bufRef s.op.dst) e
        (fmul s.lat.prec (elem s (bufRef s.op.src0) e) (diracFactor s.lat.order e))) ∧
  (∀ s : State, EngineInv Config.build s → writableId s s.op.dst = true →
    ∃ t : State, exec .diracConvolveInplace s = .next t ∧ Ends t .ok 0#32 ∧
      UnitFrame s t [bufRef s.op.dst] ∧ t.plan = s.plan ∧ SameLog s t ∧
      ∀ e : Nat, e < s.lat.size → Stored t (bufRef s.op.dst) e
        (fmul s.lat.prec (elem s (bufRef s.op.dst) e) (diracFactor s.lat.order e)))

/-! ## The transform engine -/

/-- `MIX_AND_SCALE.IN` (`40_transform.md` R149 to R151): half-complex to internal layout, for 1 to 4 inputs. -/
def Obligations.MixInResult : Prop :=
  ∀ (s : State) (n : Nat), EngineInv Config.build s → s.fsm ≠ .uninit → 1 ≤ n → n ≤ 4 →
    (∀ j : Nat, j < n → validId s (s.op.sources.getD j 0#32) = true ∧
      s.op.dst ≠ s.op.sources.getD j 0#32) →
    writableId s s.op.dst = true →
    ∃ t : State, exec (.mixAndScaleIn n) s = .next t ∧ Ends t .ok 0#32 ∧
      UnitFrame s t [bufRef s.op.dst] ∧ t.plan = s.plan ∧ SameLog s t ∧
      Stored t (bufRef s.op.dst) 0 (mixedElem s n 0) ∧
      Stored t (bufRef s.op.dst) 1 (mixedElem s n (s.lat.size / 2)) ∧
      ∀ k : Nat, 1 ≤ k → k < s.lat.size / 2 →
        Stored t (bufRef s.op.dst) (2 * k) (mixedElem s n k) ∧
        Stored t (bufRef s.op.dst) (2 * k + 1) (mixedElem s n (s.lat.size - k))

/-- `MIX_AND_SCALE.OUT` (R149, R150, R152): internal to half-complex layout. -/
def Obligations.MixOutResult : Prop :=
  ∀ (s : State) (n : Nat), EngineInv Config.build s → s.fsm ≠ .uninit → 1 ≤ n → n ≤ 4 →
    (∀ j : Nat, j < n → validId s (s.op.sources.getD j 0#32) = true ∧
      s.op.dst ≠ s.op.sources.getD j 0#32) →
    writableId s s.op.dst = true →
    ∃ t : State, exec (.mixAndScaleOut n) s = .next t ∧ Ends t .ok 0#32 ∧
      UnitFrame s t [bufRef s.op.dst] ∧ t.plan = s.plan ∧ SameLog s t ∧
      Stored t (bufRef s.op.dst) 0 (mixedElem s n 0) ∧
      Stored t (bufRef s.op.dst) (s.lat.size / 2) (mixedElem s n 1) ∧
      ∀ k : Nat, 1 ≤ k → k < s.lat.size / 2 →
        Stored t (bufRef s.op.dst) k (mixedElem s n (2 * k)) ∧
        Stored t (bufRef s.op.dst) (s.lat.size - k) (mixedElem s n (2 * k + 1))

/-- `reorder_out` (R152): its elements, and that it undoes `reorder_in`. -/
def Obligations.ReorderRoundTrip : Prop :=
  ∀ (m : Nat) (xs : List FReal), 1 ≤ m → xs.length = 2 * m →
    nth (reorderOut (2 * m) xs) 0 = nth xs 0 ∧ nth (reorderOut (2 * m) xs) m = nth xs 1 ∧
    (∀ k : Nat, 1 ≤ k → k < m → nth (reorderOut (2 * m) xs) k = nth xs (2 * k) ∧
      nth (reorderOut (2 * m) xs) (2 * m - k) = nth xs (2 * k + 1)) ∧
    reorderOut (2 * m) (reorderIn (2 * m) xs) = xs

/-- `TIME_TO_FREQ` (R146, R147): the forward transform by the schedule, in the half-complex layout; source and
destination may be one buffer, which selects the plan. -/
def Obligations.TimeToFreqResult : Prop :=
  ∀ s : State, EngineInv Config.build s → validId s s.op.src0 = true → writableId s s.op.dst = true →
    let y := fft Config.build s.lat.prec s.lat.order false
      ((List.range s.lat.size).map fun n => (elem s (bufRef s.op.src0) n, FReal.zero))
    ∃ t : State, exec .timeToFreq s = .next t ∧ Ends t .ok 0#32 ∧ UnitFrame s t [bufRef s.op.dst] ∧
      PlanUsed Config.build s t false (decide (s.op.dst = s.op.src0)) ∧
      (∀ k : Nat, k ≤ s.lat.size / 2 → Stored t (bufRef s.op.dst) k (cnth y k).1) ∧
      (∀ k : Nat, 1 ≤ k → k < s.lat.size / 2 →
        Stored t (bufRef s.op.dst) (s.lat.size - k) (cnth y k).2)

/-- `FREQ_TO_TIME` (R146, R148): the inverse transform of the Hermitian spectrum, not normalised. -/
def Obligations.FreqToTimeResult : Prop :=
  ∀ s : State, EngineInv Config.build s → validId s s.op.src0 = true → writableId s s.op.dst = true →
    let h := elem s (bufRef s.op.src0)
    let n := s.lat.size
    let y := fft Config.build s.lat.prec s.lat.order true
      ((List.range n).map fun i =>
        if i = 0 ∨ i = n / 2 then (h i, FReal.zero)
        else if i < n / 2 then (h i, h (n - i))
        else (h (n - i), fneg (h i)))
    ∃ t : State, exec .freqToTime s = .next t ∧ Ends t .ok 0#32 ∧ UnitFrame s t [bufRef s.op.dst] ∧
      PlanUsed Config.build s t true (decide (s.op.dst = s.op.src0)) ∧
      ∀ e : Nat, e < n → Stored t (bufRef s.op.dst) e (cnth y e).1

/-- The transform is the schedule of R145, loop by loop, in both precisions and directions and for every order
and twiddle ROM: the bit-reversed copy, then for each stage the butterflies of disjoint pairs, assigned one
after another, with the factors of R143: two of them fixed, every other one as the ROM holds it, an infinity
or a NaN included. -/
def Obligations.FftIsTheSchedule : Prop :=
  ∀ (b : Config.Build) (p : Prec) (o : Nat) (inverse : Bool) (xs : List ComplexValue),
    xs.length = 2 ^ o → fft b p o inverse xs = fftLoops b p o inverse xs

/-! ## The coefficient preprocessor -/

/-- `COEFFS_TO_INTERNAL` (`42_coeff_preprocessor.md` R190, R191), in every build: with valid operands and a
finite block it succeeds: `SCR[1]` holds the half-complex spectrum of the scaled, zero-extended coefficients,
the destination holds it times `1/N` in the internal layout, the in-place forward plan is used, and nothing else
changes. With a block that is not finite it writes the same, logs the first non-finite element and raises
`E_PREPROCESS` with it. -/
def Obligations.CoeffsToInternalResult : Prop :=
  ∀ (b : Config.Build) (s : State) (ch : Nat), b.Legal → EngineInv b s → s.fsm ≠ .uninit → ch < s.channels →
    s.op.len.toNat ≤ s.lat.blockLen.toNat → s.op.off.toNat + s.op.len.toNat ≤ b.cinMaxElems →
    writableId s s.op.dst = true → bufRef s.op.dst ≠ .scr 1 →
    let p := s.lat.prec
    let l := s.lat.blockLen.toNat
    let n := s.lat.size
    let y := fft b p s.lat.order false ((List.range n).map fun e =>
      (if l ≤ e ∧ e < l + s.op.len.toNat then
          fmul p (cinRead s ch (s.op.off.toNat + (e - l))) (cvt p (unpack .p64 s.op.scale0))
        else FReal.zero, FReal.zero))
    let spectrum : Nat → FReal := fun e => if e ≤ n / 2 then (cnth y e).1 else (cnth y (n - e)).2
    let block : Nat → FReal := fun e =>
      fmul p (oneOver s.lat.order)
        (spectrum (if e = 0 then 0 else if e = 1 then n / 2 else if e % 2 = 0 then e / 2 else n - e / 2))
    ∃ t : State, execWith b (.coeffsToInternal ch) s = .next t ∧
      (b = Config.build → exec (.coeffsToInternal ch) s = .next t) ∧ UnitFrame s t [bufRef s.op.dst, .scr 1] ∧
      (∀ e : Nat, e < n → Stored t (.scr 1) e (spectrum e) ∧ Stored t (bufRef s.op.dst) e (block e)) ∧
      ((∀ e : Nat, e < n → isFinite (block e) = true) → Ends t .ok 0#32 ∧ PlanUsed b s t false true) ∧
      (∀ e : Nat, e < n → isFinite (block e) = false → (∀ d : Nat, d < e → isFinite (block d) = true) →
        Ends t .ePreprocess (BitVec.ofNat 32 e) ∧
        ∃ v : State, PlanUsed b s v false true ∧ t.plan = v.plan ∧
          SameLog (logEvent b v
            { kind := .verifyNonfinite, ch := 0xFF#8, sub := 0#8, a := BitVec.ofNat 32 e, f := 0#64 }) t)

/-- `VERIFY` (R192), from its checks to its answer: with 1 to 4 valid buffers it succeeds, with 1 when every
element is finite, else with 0 and one record of the first non-finite element, operands in order and
elements ascending; no other state changes. -/
def Obligations.VerifyResult : Prop :=
  ∀ (s : State) (n : Nat), s.fsm ≠ .uninit →
    let src : Nat → Word := fun j => s.op.sources.getD j 0#32
    (n = 0 ∨ 4 < n → exec (.verify n) s = .next (raise s .eBadArg (BitVec.ofNat 32 n))) ∧
    (∀ j : Nat, 1 ≤ n → n ≤ 4 → j < n → validId s (src j) = false →
      (∀ i : Nat, i < j → validId s (src i) = true) →
      exec (.verify n) s = .next (raise s .eBadArg (src j))) ∧
    (1 ≤ n → n ≤ 4 → (∀ j : Nat, j < n → validId s (src j) = true) →
      ∃ t : State, exec (.verify n) s = .next t ∧
        ((∀ j e : Nat, j < n → e < s.lat.size → isFinite (elem s (bufRef (src j)) e) = true) →
          Ends t .ok 1#32 ∧ OnlyResult s t) ∧
        (∀ j e : Nat, j < n → e < s.lat.size → isFinite (elem s (bufRef (src j)) e) = false →
          (∀ i d : Nat, (i < j ∧ d < s.lat.size) ∨ (i = j ∧ d < e) →
            isFinite (elem s (bufRef (src i)) d) = true) →
          Ends t .ok 0#32 ∧ OnlyResult
            (logEvent Config.build s
              { kind := .verifyNonfinite, ch := 0xFF#8, sub := BitVec.ofNat 8 j, a := BitVec.ofNat 32 e,
                f := 0#64 }) t))

/-- `SET_COEFF` (`43_engine.md` R215, `42_coeff_preprocessor.md` R193), in every build: with its arguments in
range and every block finite it succeeds and the engine is `READY`: channels below `min(n_coeffs, C)` hold the
new blocks, chunk after chunk of the staged coefficients, the others none; counters, ring slots, time segment
buffers, dither state and overflow records are not touched, nor is any scratch buffer but `SCR[1]`. (That a
channel without blocks holds none of the old ones, `coef = []`, is the model's reading of "freeing", log entry
12.) -/
def Obligations.SetCoeffResult : Prop :=
  ∀ (b : Config.Build) (s : State), b.Legal → EngineInv b s → s.fsm ≠ .uninit →
    let nch := min s.arg.nCoeffs.toNat s.channels
    let cb := s.arg.coeffBlocks.toNat
    let l := s.lat.blockLen.toNat
    let block : Nat → Nat → List FReal := fun c i =>
      c2iBlock b s c (i * l) (min l (s.arg.coeffLen.toNat - i * l)) s.arg.scale
    1 ≤ cb → cb ≤ s.lat.nBlocks.toNat → s.arg.coeffLen.toNat ≤ b.cinMaxElems →
    nch * cb * s.lat.size * s.lat.prec.bytes ≤ b.coefMaxBytes →
    (∀ c i : Nat, c < nch → i < cb → ∀ x ∈ block c i, isFinite x = true) →
    ∃ t : State, execWith b .setCoeff s = .next t ∧ (b = Config.build → exec .setCoeff s = .next t) ∧
      Ends t .ok 0#32 ∧ t.fsm = .ready ∧
      SameHostRegs s t ∧ SamePort s t ∧ SameMemory s t ∧ SameControl { s with fsm := .ready } t ∧
      (∀ c : Nat, (t.chan c) =
        { s.chan c with coefNBlocks := if c < nch then BitVec.ofNat 32 cb else 0#32,
                        coef := (t.chan c).coef }) ∧
      (∀ c i e : Nat, c < nch → i < cb → e < s.lat.size →
        Stored t (.coef c i) e (nth (block c i) e)) ∧
      (∀ c : Nat, nch ≤ c → (t.chan c).coef = []) ∧
      (∀ i : Nat, i ≠ 1 ∨ nch = 0 → getBuf t (.scr i) = getBuf s (.scr i)) ∧
      (nch = 0 → t.plan = s.plan ∧ SameLog s t) ∧ (1 ≤ nch → PlanUsed b s t false true)

/-- When `SET_COEFF` does not succeed (R216, R217), in every build: the argument checks in their order leave
everything as it was, the capacity check logs a record; and a block that is not finite leaves no channel any
coefficient block (that their bytes are gone with them is the model's, log entry 12), the engine `INITIALIZED`,
and names the lowest channel that has such a block. All of that channel's blocks were attempted: the log takes
one record for the plan if it is new, two for each block that failed, in order, and one for the command
(`42_coeff_preprocessor.md` R190, R193). -/
def Obligations.SetCoeffFailures : Prop :=
  ∀ (b : Config.Build) (s : State), s.fsm ≠ .uninit →
    let nch := min s.arg.nCoeffs.toNat s.channels
    let cb := s.arg.coeffBlocks.toNat
    let l := s.lat.blockLen.toNat
    let badArgs := cb = 0 ∨ s.lat.nBlocks.toNat < cb
    let badLen := b.cinMaxElems < s.arg.coeffLen.toNat
    let tooBig := b.coefMaxBytes < nch * cb * s.lat.size * s.lat.prec.bytes
    let block : Nat → Nat → List FReal := fun c i =>
      c2iBlock b s c (i * l) (min l (s.arg.coeffLen.toNat - i * l)) s.arg.scale
    let bad : Nat → Prop := fun c => ∃ i : Nat, i < cb ∧ ∃ x ∈ block c i, isFinite x = false
    (badArgs → execWith b .setCoeff s = .next (raise s .eBadArg s.arg.coeffBlocks)) ∧
    (¬badArgs → badLen → execWith b .setCoeff s = .next (raise s .eBadArg s.arg.coeffLen)) ∧
    (¬badArgs → ¬badLen → tooBig → execWith b .setCoeff s = .next
      (raise (logEvent b s { kind := .setcoeffFail, ch := 0xFF#8, sub := 0#8, a := 0xFFFFFFF7#32, f := 0#64 })
        .eAlloc 3#32)) ∧
    (¬badArgs → ¬badLen → ¬tooBig → b.Legal → EngineInv b s → LogInv b s → ∀ c : Nat, c < nch → bad c →
      (∀ d : Nat, d < c → ¬bad d) →
      ∃ t : State, execWith b .setCoeff s = .next t ∧ Ends t .ePreprocess (BitVec.ofNat 32 c) ∧
        t.fsm = .initialized ∧ SameHostRegs s t ∧ SamePort s t ∧ SameMemory s t ∧
        (∀ d : Nat, t.chan d = { s.chan d with coefNBlocks := 0#32, coef := [] }) ∧
        t.lat = s.lat ∧ t.tableSize = s.tableSize ∧ t.spacing = s.spacing ∧ t.randvec = s.randvec ∧
        t.blockCounter = s.blockCounter ∧ t.bufSel = s.bufSel ∧
        (∀ i : Nat, i ≠ 1 → getBuf t (.scr i) = getBuf s (.scr i)) ∧
        (∀ (inv inpl : Bool) (i : Nat), (planWord t.plan inv inpl).getLsbD i =
          ((planWord s.plan inv inpl).getLsbD i || (!inv && inpl && decide (i = s.lat.order)))) ∧
        LogTakes b.logDepth s t (newPlan s false ++ blockFailures c cb (block c) ++
          [{ kind := .setcoeffFail, ch := BitVec.ofNat 8 c, sub := 0#8, a := 0xFFFFFFFD#32, f := 0#64 }])) ∧
    (exec .setCoeff s = execWith Config.build .setCoeff s)

/-! ## The codec -/

/-- `DECODE` (`44_codec_dither.md` R252), from its checks to its effect: `L` elements from `OP_OFF` on hold the
channel's samples, decoded as R253 says for every input format (`sampleValue`), the other elements and
everything else are not changed. (That an invalid id is reported before a bad offset is as R252 writes it; R315
lists the two the other way round, and the model's choice between them is log entry 10.) -/
def Obligations.DecodeResult : Prop :=
  ∀ (s : State) (ch : Nat), EngineInv Config.build s → s.fsm ≠ .uninit →
    let l := s.lat.blockLen.toNat
    let off := s.op.off.toNat
    (s.channels ≤ ch → exec (.decodeSamples ch) s = .next (raise s .eBadArg (BitVec.ofNat 32 ch))) ∧
    (ch < s.channels → writableId s s.op.dst = false →
      exec (.decodeSamples ch) s = .next (raise s .eBadArg s.op.dst)) ∧
    (ch < s.channels → writableId s s.op.dst = true → s.lat.size < off + l →
      exec (.decodeSamples ch) s = .next (raise s .eBadArg s.op.off)) ∧
    (ch < s.channels → writableId s s.op.dst = true → off + l ≤ s.lat.size →
      ∃ t : State, exec (.decodeSamples ch) s = .next t ∧ Ends t .ok 0#32 ∧
        UnitFrame s t [bufRef s.op.dst] ∧ t.plan = s.plan ∧ SameLog s t ∧
        (∀ j : Nat, j < l →
          let d := (s.chan ch).descIn
          Stored t (bufRef s.op.dst) (off + j)
            (sampleValue s.lat.prec d
              (getContainer s (0x10000000 + (ch * d.bytes + j * s.channels * d.bytes)) d.bytes
                d.bigEndian))) ∧
        (∀ e : Nat, e < s.lat.size → e < off ∨ off + l ≤ e →
          elemBits t (bufRef s.op.dst) e = elemBits s (bufRef s.op.dst) e))

/-- `ENCODE` (R255, R256), from its checks to its effect, for every output format and with or without dither:
the samples are encoded in ascending order, each on the channel the one before left, as R257, R258 and R261 say
for the format (`SampleEncoded`); their containers stand in the channel's places of `OUTBUF`, and nothing else
changes. (That an invalid id is reported before a bad offset is as R256 writes it; R315 lists the two the other
way round, and the model's choice between them is log entry 10.) -/
def Obligations.EncodeResult : Prop :=
  ∀ (s : State) (ch : Nat), EngineInv Config.build s → s.fsm ≠ .uninit →
    let l := s.lat.blockLen.toNat
    let off := s.op.off.toNat
    let d := (s.chan ch).descOut
    let addr : Nat → Nat := fun j => 0x20000000 + (ch * d.bytes + j * s.channels * d.bytes)
    (s.channels ≤ ch → exec (.encodeSamples ch) s = .next (raise s .eBadArg (BitVec.ofNat 32 ch))) ∧
    (ch < s.channels → validId s s.op.src0 = false →
      exec (.encodeSamples ch) s = .next (raise s .eBadArg s.op.src0)) ∧
    (ch < s.channels → validId s s.op.src0 = true → s.lat.size < off + l →
      exec (.encodeSamples ch) s = .next (raise s .eBadArg s.op.off)) ∧
    (ch < s.channels → validId s s.op.src0 = true → off + l ≤ s.lat.size →
      ∃ (t : State) (chs : Nat → Channel), exec (.encodeSamples ch) s = .next t ∧ Ends t .ok 0#32 ∧
        SameHostRegs s t ∧ SamePort s t ∧ SameControl s t ∧ SameLog s t ∧ t.plan = s.plan ∧
        t.scr = s.scr ∧ (∀ c : Nat, c ≠ ch → t.chan c = s.chan c) ∧
        t.chan ch = { s.chan ch with ovf := (t.chan ch).ovf, dstate := (t.chan ch).dstate } ∧
        ((s.chan ch).ditherOn = false → (t.chan ch).dstate = (s.chan ch).dstate) ∧
        chs 0 = s.chan ch ∧ t.chan ch = chs l ∧
        (∀ j : Nat, j < l → SampleEncoded s (chs j) (elem s (bufRef s.op.src0) (off + j))
          (getContainer t (addr j) d.bytes d.bigEndian) (chs (j + 1))) ∧
        (∀ a : Nat, (∀ j : Nat, j < l → a < addr j ∨ addr j + d.bytes ≤ a) →
          readByte t a = readByte s a))

/-- `Quantise` (R259), for every value, every integer format and every record (`Quantised`): a NaN counts as a
clip and gives 0; a value strictly above or below the range counts as a clip, is clamped, and its magnitude goes
to the float peak; any other value is rounded to the nearest integer, ties upward, without a rounding error of
its own, and goes to the integer peak. A clip adds one to a count that saturates (`45_overflow_tracker.md` R290),
the peaks are running maxima (R291, R292), what a case does not name is kept, and the result is always in the
range. -/
def Obligations.QuantiseLaw : Prop :=
  (∀ (d : SampleDesc) (o : OvfRecord) (u : FReal), 2 ≤ d.sbits → d.sbits ≤ 32 →
    let q := (quantise d o u).1
    (-(2 ^ (d.sbits - 1)) : Int) ≤ q ∧ q ≤ 2 ^ (d.sbits - 1) - 1 ∧ Quantised d o u q (quantise d o u).2) ∧
  (∀ o : OvfRecord, (ovfClip o).clips.toNat = min (o.clips.toNat + 1) (2 ^ 32 - 1) ∧
    ovfClip o = { o with clips := (ovfClip o).clips }) ∧
  (∀ (o : OvfRecord) (m : FReal), IsReal .p64 m → m ≠ .nan → flt m FReal.zero = false →
    unpack .p64 (ovfPeakF o m).largestF =
      (if flt (unpack .p64 o.largestF) m then m else unpack .p64 o.largestF) ∧
    ovfPeakF o m = { o with largestF := (ovfPeakF o m).largestF }) ∧
  (∀ (o : OvfRecord) (a : Nat), a ≤ 2 ^ 31 →
    (ovfPeakI o a).largestI.toNat = max o.largestI.toNat a ∧
    ovfPeakI o a = { o with largestI := (ovfPeakI o a).largestI })

/-- One sample of the dithered encoder (R261, R266): the random value at the cursor, the triangular dither, the
error fed back, the quantised integer's container, and the next dither state. -/
def Obligations.DitheredSample : Prop :=
  ∀ (s : State) (c code : Nat) (y : FReal),
    let ch := s.chan c
    let d := ch.descOut
    let p := s.lat.prec
    d.isFloat = false → ch.ditherOn = true → 2 ≤ d.sbits → d.sbits ≤ 32 → 0 < s.tableSize.toNat →
    let b := (s.randvec.getD ch.dstate.cursor.toNat 0#8).toInt
    let v := fmul p y (.fin false (2 ^ (1074 + (d.sbits - 1))))
    let r : FReal := .fin (decide (b < 0)) (b.natAbs * 2 ^ 1066)
    let w := fsub p v (unpack p ch.dstate.s1)
    let u := fadd p w (fsub p r (unpack p ch.dstate.s0))
    let q := quantise d ch.ovf u
    ∃ s0 s1 : RealBits, Holds p s0 r ∧
      Holds p s1 (if isFinite u then fsub p (i2f p (floorHalf u)) w else FReal.zero) ∧
      encodeSample s c code y =
        ((q.1 * 2 ^ (8 * d.bytes - d.sbits) % 2 ^ (8 * d.bytes)).toNat,
          { ch with
            ovf := q.2
            dstate :=
              { cursor := BitVec.ofNat 32 ((ch.dstate.cursor.toNat + 1) % s.tableSize.toNat)
                s0 := s0
                s1 := s1 } })

/-- The round trip of an integer format (R268): where the significant bits fit the precision, a sample
`m * 2^-(S-1)` encodes without dither to the integer `m`, counts no clip, and decodes to itself. -/
def Obligations.IntegerRoundTrip : Prop :=
  ∀ (p : Prec) (fmt : BitVec 13) (nch c : Nat) (o : OvfRecord) (m : Int),
    fmtValid fmt.toNat = true → fmtIsFloat fmt.toNat = false →
    (fmtSbits fmt.toNat ≤ 24 ∨ p = .p64) →
    -(2 ^ (fmtSbits fmt.toNat - 1)) ≤ m → m ≤ 2 ^ (fmtSbits fmt.toNat - 1) - 1 →
    let d := sampleDesc fmt nch c
    let x : FReal := .fin (decide (m < 0)) (m.natAbs * 2 ^ (1074 - (fmtSbits fmt.toNat - 1)))
    (encodeInt p d o x).1 =
      (m * 2 ^ (8 * fmtBytes fmt.toNat - fmtSbits fmt.toNat) % 2 ^ (8 * fmtBytes fmt.toNat)).toNat ∧
    (encodeInt p d o x).2 = { o with largestI := BitVec.ofNat 32 (max o.largestI.toNat m.natAbs) } ∧
    decodeSample p d (encodeInt p d o x).1 = x

/-- The dither table (R263 to R265): the bytes the spec lists for the default seed, that a seed of 0 is taken as
1, and that for every seed a smaller table is a prefix of a larger one. -/
def Obligations.DitherTable : Prop :=
  ditherTable 1#32 16 = [0xAC#8, 0x1D#8, 0xBF#8, 0xC9#8, 0x5D#8, 0x6A#8, 0x46#8, 0x43#8, 0x5F#8, 0x15#8, 0xE2#8,
    0x37#8, 0xE1#8, 0x5A#8, 0x6E#8, 0x04#8] ∧
  (∀ n : Nat, ditherTable 0#32 n = ditherTable 1#32 n) ∧
  ∀ (seed : Word) (m n : Nat), m ≤ n →
    (ditherTable seed n).take m = ditherTable seed m ∧ (ditherTable seed n).length = n

/-! ## The overflow tracker -/

/-- `CHECK_OVERFLOWS` (`45_overflow_tracker.md` R300): when no channel differs from its snapshot it returns 0
and nothing changes; else it returns 1, every channel's snapshot is taken, and one record per channel is
appended in order, with its class and its level `20 * LOG10(peak / max)` (R301, `Reports`), those that do not fit
being dropped with `log_lost` set. -/
def Obligations.CheckOverflowsResult : Prop :=
  ∀ s : State, EngineInv Config.build s → LogInv Config.build s → s.fsm ≠ .uninit →
    let differs := ∃ c : Nat, c < s.channels ∧ ((s.chan c).ovf.clips ≠ (s.chan c).snap.clips ∨
      (s.chan c).ovf.largestI ≠ (s.chan c).snap.largestI ∨
      feq (unpack .p64 (s.chan c).ovf.largestF) (unpack .p64 (s.chan c).snap.largestF) = false)
    ∃ t : State, exec .checkOverflows s = .next t ∧
      (¬differs → Ends t .ok 0#32 ∧ OnlyResult s t) ∧
      (differs → Ends t .ok 1#32 ∧ SameHostRegs s t ∧ SamePort s t ∧ SameControl s t ∧ SameMemory s t ∧
        t.plan = s.plan ∧ t.scr = s.scr ∧
        (∃ rs : List LogRecord, rs.length = s.channels ∧
          (∀ (c : Nat) (r : LogRecord), rs[c]? = some r → Reports Config.build c (s.chan c).ovf r) ∧
          LogTakes 64 s t rs) ∧
        (∀ c : Nat, c < s.channels → t.chan c =
          { s.chan c with snap := ⟨(s.chan c).ovf.clips, (s.chan c).ovf.largestF, (s.chan c).ovf.largestI⟩ }) ∧
        (∀ c : Nat, s.channels ≤ c → t.chan c = s.chan c))

/-- The level of a report (R301 to R303), for every logarithm R302 allows and every record whose peaks and
maximum have the values R28 (`10_state.md`) gives them: `NEG_INF` exactly when the peak is zero, `NEG_ZERO`
exactly when the peak is not zero and the ratio to the maximum is 1, both with the value +0.0; else the level is
`20 * LOG10(ratio)`, positive above full scale and negative below it, and it is finite whenever the peak is. -/
def Obligations.PeakDbClasses : Prop :=
  ∀ (b : Config.Build) (o : OvfRecord), Log10Laws b.log10 →
    isNan (unpack .p64 o.largestF) = false → o.largestF.getLsbD 63 = false →
    (∃ n : Nat, 1 ≤ n ∧ n ≤ 2 ^ 31 ∧ unpack .p64 o.max = .fin false (n * 2 ^ 1074) ∧
      (n = 1 ∨ o.largestF = 0#64 ∨ flt (unpack .p64 o.max) (unpack .p64 o.largestF) = true)) →
    ((peakDb b o).1 = .negInf ↔ feq (peakOf o) FReal.zero = true) ∧
    ((peakDb b o).1 = .negZero ↔
      feq (peakOf o) FReal.zero = false ∧ feq (ratioOf o) (.fin false (2 ^ 1074)) = true) ∧
    ((peakDb b o).1 ≠ .finite → (peakDb b o).2 = FReal.zero) ∧
    ((peakDb b o).1 = .finite → (peakDb b o).2 = levelOf b o ∧
      (flt (.fin false (2 ^ 1074)) (ratioOf o) = true → flt FReal.zero (levelOf b o) = true) ∧
      (flt (ratioOf o) (.fin false (2 ^ 1074)) = true → flt (levelOf b o) FReal.zero = true) ∧
      (isFinite (unpack .p64 o.largestF) = true → isFinite (levelOf b o) = true))

/-! ## The engine commands -/

/-- A `CONSTRUCT` whose checks do not all pass (`43_engine.md` R211, R212), in every build: the first failing
row in the order of the table gives the code and `RESULT_AUX`; the engine that existed is gone, the log holds
that one record, and the registers, the port and the memory are as before. (That a torn-down engine has the
values of `NoEngineInv` is the model's, log entries 6 and 7; which parameters make a build, log entry 9.) -/
def Obligations.ConstructFails : Prop :=
  ∀ (b : Config.Build) (s : State) (code : ResultCode) (aux : Word), b.Legal → 1 ≤ b.logDepth →
    constructError b s.cfg = some (code, aux) →
    ∃ t : State, execWith b .construct s = .next t ∧ (b = Config.build → exec .construct s = .next t) ∧
      Ends t code aux ∧ t.fsm = .uninit ∧ NoEngineInv t ∧
      t.log = [{ kind := .constructFail, ch := 0xFF#8, sub := 0#8, a := code.word, f := 0#64 }] ∧
      t.logRd = 0#2 ∧ t.logLost = false ∧ SameHostRegs s t ∧ SamePort s t ∧ SameMemory s t ∧
      ∀ id : Word, validId t id = false

/-- A `CONSTRUCT` whose checks pass, in any state and in every build (R213, `10_state.md` R24,
`44_codec_dither.md` R264): the values after construction, the descriptors of every channel among them. (Which
parameters make a build: log entry 9.) -/
def Obligations.ConstructSucceeds : Prop :=
  ∀ (b : Config.Build) (s : State), b.Legal → constructError b s.cfg = none →
    let g := s.cfg
    let n := 2 * g.blockLen.toNat
    let c0 := g.nChannels.toNat
    let spacing := max g.sampleRate.toNat g.blockLen.toNat
    let zeros := List.replicate n (0#64 : RealBits)
    let dithered := decide (g.applyDither = 1#32)
    ∃ t : State, execWith b .construct s = .next t ∧ (b = Config.build → exec .construct s = .next t) ∧
      Ends t .ok 0#32 ∧ t.fsm = .initialized ∧
      t.lat.blockLen = g.blockLen ∧ t.lat.nBlocks = g.nBlocks ∧
      t.lat.prec = (if g.precision = 64#32 then Prec.p64 else Prec.p32) ∧ t.lat.nChannels.toNat = c0 ∧
      t.lat.fmtIn.toNat = g.inFormat.toNat ∧ t.lat.fmtOut.toNat = g.outFormat.toNat ∧
      t.lat.rate = g.sampleRate ∧ t.lat.applyDither = dithered ∧
      t.tableSize.toNat = c0 * spacing ∧ t.spacing.toNat = spacing ∧
      t.randvec = ditherTable b.ditherSeed (c0 * spacing) ∧
      t.scr = [zeros, zeros, zeros, zeros] ∧ t.blockCounter = 0#64 ∧ t.bufSel = false ∧
      (∀ c : Nat, c < c0 →
        (t.chan c).tb0 = zeros ∧ (t.chan c).tb1 = zeros ∧ (t.chan c).acc = zeros ∧
        (t.chan c).ring = List.replicate g.nBlocks.toNat zeros ∧ (t.chan c).processed = 0#32 ∧
        (t.chan c).coefNBlocks = 0#32 ∧
        DescribedBy (t.chan c).descIn g.inFormat.toNat c0 c ∧
        DescribedBy (t.chan c).descOut g.outFormat.toNat c0 c ∧
        (t.chan c).ditherOn = (dithered && !g.outFormat.toNat.testBit 11) ∧
        (t.chan c).dstate.cursor.toNat = c * spacing ∧ (t.chan c).dstate.s0 = 0#64 ∧
        (t.chan c).dstate.s1 = 0#64 ∧ (t.chan c).ovf.clips = 0#32 ∧ (t.chan c).ovf.largestF = 0#64 ∧
        (t.chan c).ovf.largestI = 0#32 ∧
        unpack .p64 (t.chan c).ovf.max =
          (if g.outFormat.toNat.testBit 11 then .fin false (2 ^ 1074)
           else .fin false ((2 ^ (g.outFormat.toNat / 2 ^ 4 % 2 ^ 7 - 1) - 1) * 2 ^ 1074)) ∧
        (t.chan c).snap = ⟨0#32, 0#64, 0#32⟩) ∧
      t.plan = ⟨0#32, 0#32, 0#32, 0#32⟩ ∧ t.log = [] ∧ t.logRd = 0#2 ∧ t.logLost = false ∧
      SameHostRegs s t ∧ SamePort s t ∧ SameMemory s t

/-- The block counter (R228), in every build: at its top `RUN` raises `E_COUNTER` and does nothing else; below
it a `RUN` that succeeds counts exactly one more; `RESET` and `CONSTRUCT` clear it. So it never wraps. -/
def Obligations.BlockCounterNeverWraps : Prop :=
  (∀ (b : Config.Build) (s : State), s.fsm = .ready → s.blockCounter.toNat = 2 ^ 64 - 1 →
    execWith b .run s = .next
    { s with result := 0xFFFFFFF0#32, resultAux := 0#32, lastFail := true }) ∧
  (∀ (b : Config.Build) (s t : State), s.fsm = .ready → execWith b .run s = .next t → t.result = 0#32 →
    t.blockCounter.toNat = s.blockCounter.toNat + 1) ∧
  (∀ (b : Config.Build) (s t : State), s.fsm ≠ .uninit → execWith b .reset s = .next t → t.blockCounter = 0#64) ∧
  (∀ (b : Config.Build) (s t : State), execWith b .construct s = .next t → t.blockCounter = 0#64) ∧
  (∀ (i : Instr) (s : State), exec i s = execWith Config.build i s)

/-- `RUN` (R220 to R229), in every build, in `READY`, below the counter's top, when step 7 passes on every
channel: it succeeds; the counter and the selector move on, every channel's counter is advanced and capped, the
decoded samples wait in the first half of the other time segment buffer, the current one and the current ring
slot are the only others of the history written, and no other ring slot, coefficient, scratch buffer, register
or byte outside the output block changes. -/
def Obligations.RunSucceeds : Prop :=
  ∀ (b : Config.Build) (s : State), b.Legal → EngineInv b s → s.fsm = .ready →
    s.blockCounter.toNat ≠ 2 ^ 64 - 1 →
    let k := s.blockCounter.toNat
    let l := s.lat.blockLen.toNat
    let blocks := s.lat.nBlocks.toNat
    (untilFailure (runChannel b k (k % blocks) s.bufSel) (List.range s.channels) s).2 = none →
    ∃ t : State, execWith b .run s = .next t ∧ (b = Config.build → exec .run s = .next t) ∧
      Ends t .ok 0#32 ∧ t.fsm = .ready ∧ t.lat = s.lat ∧
      t.blockCounter.toNat = k + 1 ∧ t.bufSel = !s.bufSel ∧ SameHostRegs s t ∧ SamePort s t ∧
      t.tableSize = s.tableSize ∧ t.spacing = s.spacing ∧ t.randvec = s.randvec ∧
      (∀ c : Nat, c < s.channels →
        (t.chan c).processed.toNat = min ((s.chan c).processed.toNat + 1) blocks ∧
        (t.chan c).coefNBlocks = (s.chan c).coefNBlocks ∧ (t.chan c).coef = (s.chan c).coef ∧
        (t.chan c).snap = (s.chan c).snap ∧
        ((s.chan c).ditherOn = false → (t.chan c).dstate = (s.chan c).dstate) ∧
        (∀ j : Nat, j < l →
          Stored t (.tb c (if s.bufSel then 0 else 1)) j
            (let d := (s.chan c).descIn
             sampleValue s.lat.prec d
               (getContainer s (0x10000000 + (c * d.bytes + j * s.channels * d.bytes)) d.bytes d.bigEndian))) ∧
        (∀ j : Nat, l ≤ j → elemBits t (.tb c (if s.bufSel then 0 else 1)) j =
          elemBits s (.tb c (if s.bufSel then 0 else 1)) j) ∧
        (∀ i : Nat, i < blocks → i ≠ k % blocks → getBuf t (.ring c i) = getBuf s (.ring c i))) ∧
      (∀ c : Nat, s.channels ≤ c → t.chan c = s.chan c) ∧
      (∀ i : Nat, i ≠ 0 → getBuf t (.scr i) = getBuf s (.scr i)) ∧
      (∀ a : Nat, a < 0x20000000 ∨
        0x20000000 + l * s.channels * fmtBytes s.lat.fmtOut.toNat ≤ a → readByte t a = readByte s a)

/-- `RUN` is its unit commands: on an engine of one channel, the whole call leaves every buffer, byte, overflow
record, dither state, plan bit and log record exactly as the unit commands of steps 1 to 8 issued by hand leave
them, in both precisions, with and without coefficients, for every number of ring slots, and in every build
(R220 to R229,
`44_codec_dither.md` R252, R256, `60_exceptions.md` R334). -/
def Obligations.RunIsItsUnitCommands : Prop :=
  ∀ (b : Config.Build) (s : State), b.Legal → EngineInv b s → s.fsm = .ready → s.channels = 1 →
    s.blockCounter.toNat ≠ 2 ^ 64 - 1 →
    let v := unitSteps b s (runUnits b s)
    let u := unitSteps b v runEncodeUnit
    isFinite (elem v (.scr 0) b.nonfiniteCheckIndex) = true →
    ∃ t : State, execWith b .run s = .next t ∧ (b = Config.build → exec .run s = .next t) ∧ Ends t .ok 0#32 ∧
      t.chan 0 = { u.chan 0 with processed := (t.chan 0).processed } ∧
      (t.chan 0).processed.toNat = min ((s.chan 0).processed.toNat + 1) s.lat.nBlocks.toNat ∧
      (∀ c : Nat, 1 ≤ c → t.chan c = s.chan c) ∧ t.scr = u.scr ∧ t.mem = u.mem ∧ t.plan = u.plan ∧
      SameLog u t ∧ t.freeCtr = u.freeCtr ∧
      t.blockCounter = s.blockCounter + 1#64 ∧ t.bufSel = !s.bufSel

/-- What a `RUN` that stops at a channel leaves (R226, R227): the channel is named, its sample 0 is not finite
and the log takes one record for each new plan and then the one of the stop, which is lost only when the FIFO is
full; its processed counter was advanced, but its `OUTBUF` bytes, overflow record and dither state were not
written; the channels above it are untouched; the selector, the counter and `fsm` are as before; bytes of
`OUTBUF` were written for the channels below it only. -/
def Obligations.RunStoppedLeaves : Prop :=
  ∀ s t : State, EngineInv Config.build s → LogInv Config.build s → s.fsm = .ready →
    exec .run s = .next t → t.result = ResultCode.eNonfinite.word →
    ∃ c : Nat, c < s.channels ∧ t.resultAux = BitVec.ofNat 32 c ∧ t.lastFail = true ∧
      isFinite (elem t (.scr 0) 0) = false ∧
      LogTakes 64 s t (newPlan s false ++ newPlan s true ++
        [{ kind := .runNonfinite, ch := BitVec.ofNat 8 c, sub := 0#8, a := s.blockCounter.extractLsb' 0 32,
           f := 0#64 }]) ∧
      t.fsm = .ready ∧ t.blockCounter = s.blockCounter ∧ t.bufSel = s.bufSel ∧
      SameHostRegs s t ∧ SamePort s t ∧
      (∀ d : Nat, d ≤ c →
        (t.chan d).processed.toNat = min ((s.chan d).processed.toNat + 1) s.lat.nBlocks.toNat) ∧
      (t.chan c).ovf = (s.chan c).ovf ∧ (t.chan c).dstate = (s.chan c).dstate ∧
      (∀ d : Nat, c < d → t.chan d = s.chan d) ∧
      (∀ d : Nat, (t.chan d).coefNBlocks = (s.chan d).coefNBlocks ∧ (t.chan d).coef = (s.chan d).coef) ∧
      (∀ a : Nat, (∀ d j : Nat, d < c → j < s.lat.blockLen.toNat →
          a < outputAddr s d j ∨ outputAddr s d j + fmtBytes s.lat.fmtOut.toNat ≤ a) →
        readByte t a = readByte s a)

/-- The counters of an undisturbed stream (R232), in every build: after `CONSTRUCT` or `RESET` a stream is at
block 0, and a `RUN` that succeeds takes it from block `k` to block `k + 1`. -/
def Obligations.StreamCounters : Prop :=
  (∀ (b : Config.Build) (s t : State), b.Legal → execWith b .construct s = .next t → t.result = 0#32 →
    StreamAt 0 t) ∧
  (∀ (b : Config.Build) (s t : State), b.Legal → EngineInv b s → s.fsm ≠ .uninit →
    execWith b .reset s = .next t → StreamAt 0 t) ∧
  (∀ (b : Config.Build) (s t : State) (k : Nat), b.Legal → EngineInv b s → StreamAt k s → s.fsm = .ready →
    execWith b .run s = .next t → t.result = 0#32 → StreamAt (k + 1) t) ∧
  (∀ (i : Instr) (s : State), exec i s = execWith Config.build i s)

/-- `RESET` (R230), in `INITIALIZED` and `READY`: what it clears, what it starts again, and that it touches
neither coefficients nor ring slots nor anything else. -/
def Obligations.ResetResult : Prop :=
  ∀ s : State, EngineInv Config.build s → s.fsm ≠ .uninit →
    ∃ t : State, exec .reset s = .next t ∧ Ends t .ok 0#32 ∧ t.bufSel = false ∧ t.blockCounter = 0#64 ∧
      (∀ c : Nat, c < s.channels → t.chan c =
        { s.chan c with
          ovf := ⟨0#32, 0#64, 0#32, (s.chan c).ovf.max⟩
          snap := ⟨0#32, 0#64, 0#32⟩
          processed := 0#32
          dstate := ⟨BitVec.ofNat 32 (c * s.spacing.toNat), 0#64, 0#64⟩
          tb0 := List.replicate s.lat.size 0#64
          tb1 := List.replicate s.lat.size 0#64 }) ∧
      (∀ c : Nat, s.channels ≤ c → t.chan c = s.chan c) ∧
      t = { s with chans := t.chans, bufSel := false, blockCounter := 0#64, result := t.result,
                   resultAux := t.resultAux, lastFail := t.lastFail }

/-- `IS_INITIALIZED` (R231), in every state. -/
def Obligations.IsInitializedResult : Prop :=
  ∀ s : State, exec .isInitialized s = .next
    { s with result := 0#32, resultAux := (if s.fsm = .ready then 1#32 else 0#32), lastFail := false }

/-- Operands that do not name what a unit command needs (`30_encoding.md` R105, R113, `60_exceptions.md` R315):
the first one that is out of range or not valid, in the order of the command's own rule, raises `E_BAD_ARG`
with it, and nothing else happens. (`VERIFY`, `DECODE` and `ENCODE` have it in their own statements.) -/
def Obligations.InvalidOperandsRaise : Prop :=
  ∀ s : State, s.fsm ≠ .uninit →
    let o := s.op
    let src : Nat → Word := fun j => o.sources.getD j 0#32
    let raises : Instr → Word → Prop := fun i w =>
      exec i s = .next { s with result := 0xFFFFFFF4#32, resultAux := w, lastFail := true }
    (∀ i : Instr, i = .timeToFreq ∨ i = .freqToTime ∨ i = .diracConvolve →
      (validId s o.src0 = false → raises i o.src0) ∧
      (validId s o.src0 = true → writableId s o.dst = false → raises i o.dst)) ∧
    (∀ i : Instr, i = .convolve ∨ i = .convolveAdd →
      (validId s o.src0 = false → raises i o.src0) ∧
      (validId s o.src0 = true → validId s o.coef = false → raises i o.coef) ∧
      (validId s o.src0 = true → validId s o.coef = true → writableId s o.dst = false → raises i o.dst)) ∧
    (writableId s o.dst = false → raises .convolveInplace o.dst ∧ raises .diracConvolveInplace o.dst) ∧
    (writableId s o.dst = true → validId s o.coef = false → raises .convolveInplace o.coef) ∧
    (∀ (i : Instr) (n : Nat), i = .mixAndScaleIn n ∨ i = .mixAndScaleOut n →
      (n = 0 ∨ 4 < n → raises i (BitVec.ofNat 32 n)) ∧
      (∀ j : Nat, n ≤ 4 → j < n → validId s (src j) = false →
        (∀ k : Nat, k < j → validId s (src k) = true) → raises i (src j)) ∧
      (1 ≤ n → n ≤ 4 → (∀ j : Nat, j < n → validId s (src j) = true) → writableId s o.dst = false →
        raises i o.dst)) ∧
    (∀ ch : Nat,
      (s.channels ≤ ch → raises (.coeffsToInternal ch) (BitVec.ofNat 32 ch)) ∧
      (ch < s.channels → s.lat.blockLen.toNat < o.len.toNat → raises (.coeffsToInternal ch) o.len) ∧
      (ch < s.channels → o.len.toNat ≤ s.lat.blockLen.toNat → 2 ^ 22 < o.off.toNat + o.len.toNat →
        raises (.coeffsToInternal ch) o.off) ∧
      (ch < s.channels → o.len.toNat ≤ s.lat.blockLen.toNat → o.off.toNat + o.len.toNat ≤ 2 ^ 22 →
        writableId s o.dst = false → raises (.coeffsToInternal ch) o.dst))

/-- Aliasing (`60_exceptions.md` R318): for every command and every combination of operands its row refuses,
with all else in order, `E_ALIAS` with the destination's id and no effect; the combinations a row allows never
raise it. -/
def Obligations.AliasLaw : Prop :=
  (∀ (s : State) (i : Instr), s.fsm ≠ .uninit → writableId s s.op.dst = true →
    (((i = .convolve ∨ i = .convolveAdd) ∧ validId s s.op.src0 = true ∧ validId s s.op.coef = true ∧
        (s.op.dst = s.op.src0 ∨ s.op.dst = s.op.coef)) ∨
     (i = .convolveInplace ∧ s.op.dst = s.op.coef) ∨
     (i = .diracConvolve ∧ s.op.dst = s.op.src0) ∨
     (∃ n : Nat, (i = .mixAndScaleIn n ∨ i = .mixAndScaleOut n) ∧ 1 ≤ n ∧ n ≤ 4 ∧
        (∀ j : Nat, j < n → validId s (s.op.sources.getD j 0#32) = true) ∧
        ∃ j : Nat, j < n ∧ s.op.dst = s.op.sources.getD j 0#32) ∨
     (∃ ch : Nat, i = .coeffsToInternal ch ∧ ch < s.channels ∧
        s.op.len.toNat ≤ s.lat.blockLen.toNat ∧ s.op.off.toNat + s.op.len.toNat ≤ 2 ^ 22 ∧
        s.op.dst = 0x40000001#32)) →
    exec i s = .next { s with result := 0xFFFFFFEF#32, resultAux := s.op.dst, lastFail := true }) ∧
  (∀ (s t : State) (i : Instr), exec i s = .next t → t.result = 0xFFFFFFEF#32 →
    (i = .convolve ∨ i = .convolveAdd) ∧ (s.op.dst = s.op.src0 ∨ s.op.dst = s.op.coef) ∨
    i = .convolveInplace ∧ s.op.dst = s.op.coef ∨
    i = .diracConvolve ∧ s.op.dst = s.op.src0 ∨
    (∃ n : Nat, (i = .mixAndScaleIn n ∨ i = .mixAndScaleOut n) ∧
      ∃ j : Nat, j < n ∧ s.op.dst = s.op.sources.getD j 0#32) ∨
    (∃ ch : Nat, i = .coeffsToInternal ch ∧ s.op.dst = 0x40000001#32))

/-! ## The arithmetic -/

/-- Rounding is to the nearest (`00_scope.md` R12, `46_arithmetic_and_access_laws.md` R372): the narrowed
magnitude has at most `P`'s digits and no number with that many digits is nearer to the exact one. -/
def Obligations.RoundsToNearest : Prop :=
  ∀ (p : Prec) (x m : Nat),
    let digits := match p with | .p32 => 24 | .p64 => 53
    let least := match p with | .p32 => 925 | .p64 => 0
    (∃ k e : Nat, k < 2 ^ digits ∧ roundMag p x m = k * 2 ^ (least + e)) ∧
    ∀ k e : Nat, k < 2 ^ digits →
      ((roundMag p x m * 2 ^ x : Int) - (m : Int)).natAbs ≤ ((k * 2 ^ (least + e) * 2 ^ x : Int) - (m : Int)).natAbs

/-- Arithmetic stays in the precision (R12): every result of a primitive is a value of its format, whatever the
operands, and a value stored as bits is read back, a NaN as a NaN whatever its bits. -/
def Obligations.ResultsAreReals : Prop :=
  (∀ (p : Prec) (a b : FReal) (n : Int), IsReal p (fadd p a b) ∧ IsReal p (fsub p a b) ∧
    IsReal p (fmul p a b) ∧ IsReal p (cvt p a) ∧ IsReal p (i2f p n) ∧ IsReal .p64 (fdiv64 a b) ∧
    (IsReal p a → IsReal p (fneg a) ∧ IsReal p (fabs a))) ∧
  (∀ (p : Prec) (x : FReal) (code : Nat), IsReal p x → unpack p (pack p code x) = x)
end

