-- ==== Sys2Proof/Laws/State.lean ====
section
/-! SUPPORT. What each plain update of the state does to each field, so that no proof unfolds a record update. -/

namespace Sys2Proof.Machine

/-! ## `raise` -/

@[simp] theorem raise_fsm (s : State) (code : ResultCode) (aux : Word) :
    (raise s code aux).fsm = s.fsm := rfl
@[simp] theorem raise_lat (s : State) (code : ResultCode) (aux : Word) :
    (raise s code aux).lat = s.lat := rfl
@[simp] theorem raise_blockCounter (s : State) (code : ResultCode) (aux : Word) :
    (raise s code aux).blockCounter = s.blockCounter := rfl
@[simp] theorem raise_bufSel (s : State) (code : ResultCode) (aux : Word) :
    (raise s code aux).bufSel = s.bufSel := rfl
@[simp] theorem raise_chans (s : State) (code : ResultCode) (aux : Word) :
    (raise s code aux).chans = s.chans := rfl
@[simp] theorem raise_scr (s : State) (code : ResultCode) (aux : Word) :
    (raise s code aux).scr = s.scr := rfl
@[simp] theorem raise_tableSize (s : State) (code : ResultCode) (aux : Word) :
    (raise s code aux).tableSize = s.tableSize := rfl
@[simp] theorem raise_spacing (s : State) (code : ResultCode) (aux : Word) :
    (raise s code aux).spacing = s.spacing := rfl
@[simp] theorem raise_randvec (s : State) (code : ResultCode) (aux : Word) :
    (raise s code aux).randvec = s.randvec := rfl
@[simp] theorem raise_plan (s : State) (code : ResultCode) (aux : Word) :
    (raise s code aux).plan = s.plan := rfl
@[simp] theorem raise_log (s : State) (code : ResultCode) (aux : Word) :
    (raise s code aux).log = s.log := rfl
@[simp] theorem raise_logRd (s : State) (code : ResultCode) (aux : Word) :
    (raise s code aux).logRd = s.logRd := rfl
@[simp] theorem raise_logLost (s : State) (code : ResultCode) (aux : Word) :
    (raise s code aux).logLost = s.logLost := rfl
@[simp] theorem raise_cfg (s : State) (code : ResultCode) (aux : Word) :
    (raise s code aux).cfg = s.cfg := rfl
@[simp] theorem raise_arg (s : State) (code : ResultCode) (aux : Word) :
    (raise s code aux).arg = s.arg := rfl
@[simp] theorem raise_op (s : State) (code : ResultCode) (aux : Word) :
    (raise s code aux).op = s.op := rfl
@[simp] theorem raise_dbgBuf (s : State) (code : ResultCode) (aux : Word) :
    (raise s code aux).dbgBuf = s.dbgBuf := rfl
@[simp] theorem raise_dbgIdx (s : State) (code : ResultCode) (aux : Word) :
    (raise s code aux).dbgIdx = s.dbgIdx := rfl
@[simp] theorem raise_result (s : State) (code : ResultCode) (aux : Word) :
    (raise s code aux).result = code.word := rfl
@[simp] theorem raise_resultAux (s : State) (code : ResultCode) (aux : Word) :
    (raise s code aux).resultAux = aux := rfl
@[simp] theorem raise_lastFail (s : State) (code : ResultCode) (aux : Word) :
    (raise s code aux).lastFail = true := rfl
@[simp] theorem raise_mem (s : State) (code : ResultCode) (aux : Word) :
    (raise s code aux).mem = s.mem := rfl
@[simp] theorem raise_pending (s : State) (code : ResultCode) (aux : Word) :
    (raise s code aux).pending = s.pending := rfl
@[simp] theorem raise_readData (s : State) (code : ResultCode) (aux : Word) :
    (raise s code aux).readData = s.readData := rfl
@[simp] theorem raise_freeCtr (s : State) (code : ResultCode) (aux : Word) :
    (raise s code aux).freeCtr = s.freeCtr := rfl
@[simp] theorem raise_powerOns (s : State) (code : ResultCode) (aux : Word) :
    (raise s code aux).powerOns = s.powerOns := rfl

/-! ## `succeed` -/

@[simp] theorem succeed_fsm (s : State) (aux : Word) :
    (succeed s aux).fsm = s.fsm := rfl
@[simp] theorem succeed_lat (s : State) (aux : Word) :
    (succeed s aux).lat = s.lat := rfl
@[simp] theorem succeed_blockCounter (s : State) (aux : Word) :
    (succeed s aux).blockCounter = s.blockCounter := rfl
@[simp] theorem succeed_bufSel (s : State) (aux : Word) :
    (succeed s aux).bufSel = s.bufSel := rfl
@[simp] theorem succeed_chans (s : State) (aux : Word) :
    (succeed s aux).chans = s.chans := rfl
@[simp] theorem succeed_scr (s : State) (aux : Word) :
    (succeed s aux).scr = s.scr := rfl
@[simp] theorem succeed_tableSize (s : State) (aux : Word) :
    (succeed s aux).tableSize = s.tableSize := rfl
@[simp] theorem succeed_spacing (s : State) (aux : Word) :
    (succeed s aux).spacing = s.spacing := rfl
@[simp] theorem succeed_randvec (s : State) (aux : Word) :
    (succeed s aux).randvec = s.randvec := rfl
@[simp] theorem succeed_plan (s : State) (aux : Word) :
    (succeed s aux).plan = s.plan := rfl
@[simp] theorem succeed_log (s : State) (aux : Word) :
    (succeed s aux).log = s.log := rfl
@[simp] theorem succeed_logRd (s : State) (aux : Word) :
    (succeed s aux).logRd = s.logRd := rfl
@[simp] theorem succeed_logLost (s : State) (aux : Word) :
    (succeed s aux).logLost = s.logLost := rfl
@[simp] theorem succeed_cfg (s : State) (aux : Word) :
    (succeed s aux).cfg = s.cfg := rfl
@[simp] theorem succeed_arg (s : State) (aux : Word) :
    (succeed s aux).arg = s.arg := rfl
@[simp] theorem succeed_op (s : State) (aux : Word) :
    (succeed s aux).op = s.op := rfl
@[simp] theorem succeed_dbgBuf (s : State) (aux : Word) :
    (succeed s aux).dbgBuf = s.dbgBuf := rfl
@[simp] theorem succeed_dbgIdx (s : State) (aux : Word) :
    (succeed s aux).dbgIdx = s.dbgIdx := rfl
@[simp] theorem succeed_result (s : State) (aux : Word) :
    (succeed s aux).result = 0#32 := rfl
@[simp] theorem succeed_resultAux (s : State) (aux : Word) :
    (succeed s aux).resultAux = aux := rfl
@[simp] theorem succeed_lastFail (s : State) (aux : Word) :
    (succeed s aux).lastFail = false := rfl
@[simp] theorem succeed_mem (s : State) (aux : Word) :
    (succeed s aux).mem = s.mem := rfl
@[simp] theorem succeed_pending (s : State) (aux : Word) :
    (succeed s aux).pending = s.pending := rfl
@[simp] theorem succeed_readData (s : State) (aux : Word) :
    (succeed s aux).readData = s.readData := rfl
@[simp] theorem succeed_freeCtr (s : State) (aux : Word) :
    (succeed s aux).freeCtr = s.freeCtr := rfl
@[simp] theorem succeed_powerOns (s : State) (aux : Word) :
    (succeed s aux).powerOns = s.powerOns := rfl

/-! ## `setChan` -/

@[simp] theorem setChan_fsm (s : State) (c : Nat) (ch : Channel) :
    (s.setChan c ch).fsm = s.fsm := rfl
@[simp] theorem setChan_lat (s : State) (c : Nat) (ch : Channel) :
    (s.setChan c ch).lat = s.lat := rfl
@[simp] theorem setChan_blockCounter (s : State) (c : Nat) (ch : Channel) :
    (s.setChan c ch).blockCounter = s.blockCounter := rfl
@[simp] theorem setChan_bufSel (s : State) (c : Nat) (ch : Channel) :
    (s.setChan c ch).bufSel = s.bufSel := rfl
@[simp] theorem setChan_chans (s : State) (c : Nat) (ch : Channel) :
    (s.setChan c ch).chans = s.chans.set c ch := rfl
@[simp] theorem setChan_scr (s : State) (c : Nat) (ch : Channel) :
    (s.setChan c ch).scr = s.scr := rfl
@[simp] theorem setChan_tableSize (s : State) (c : Nat) (ch : Channel) :
    (s.setChan c ch).tableSize = s.tableSize := rfl
@[simp] theorem setChan_spacing (s : State) (c : Nat) (ch : Channel) :
    (s.setChan c ch).spacing = s.spacing := rfl
@[simp] theorem setChan_randvec (s : State) (c : Nat) (ch : Channel) :
    (s.setChan c ch).randvec = s.randvec := rfl
@[simp] theorem setChan_plan (s : State) (c : Nat) (ch : Channel) :
    (s.setChan c ch).plan = s.plan := rfl
@[simp] theorem setChan_log (s : State) (c : Nat) (ch : Channel) :
    (s.setChan c ch).log = s.log := rfl
@[simp] theorem setChan_logRd (s : State) (c : Nat) (ch : Channel) :
    (s.setChan c ch).logRd = s.logRd := rfl
@[simp] theorem setChan_logLost (s : State) (c : Nat) (ch : Channel) :
    (s.setChan c ch).logLost = s.logLost := rfl
@[simp] theorem setChan_cfg (s : State) (c : Nat) (ch : Channel) :
    (s.setChan c ch).cfg = s.cfg := rfl
@[simp] theorem setChan_arg (s : State) (c : Nat) (ch : Channel) :
    (s.setChan c ch).arg = s.arg := rfl
@[simp] theorem setChan_op (s : State) (c : Nat) (ch : Channel) :
    (s.setChan c ch).op = s.op := rfl
@[simp] theorem setChan_dbgBuf (s : State) (c : Nat) (ch : Channel) :
    (s.setChan c ch).dbgBuf = s.dbgBuf := rfl
@[simp] theorem setChan_dbgIdx (s : State) (c : Nat) (ch : Channel) :
    (s.setChan c ch).dbgIdx = s.dbgIdx := rfl
@[simp] theorem setChan_result (s : State) (c : Nat) (ch : Channel) :
    (s.setChan c ch).result = s.result := rfl
@[simp] theorem setChan_resultAux (s : State) (c : Nat) (ch : Channel) :
    (s.setChan c ch).resultAux = s.resultAux := rfl
@[simp] theorem setChan_lastFail (s : State) (c : Nat) (ch : Channel) :
    (s.setChan c ch).lastFail = s.lastFail := rfl
@[simp] theorem setChan_mem (s : State) (c : Nat) (ch : Channel) :
    (s.setChan c ch).mem = s.mem := rfl
@[simp] theorem setChan_pending (s : State) (c : Nat) (ch : Channel) :
    (s.setChan c ch).pending = s.pending := rfl
@[simp] theorem setChan_readData (s : State) (c : Nat) (ch : Channel) :
    (s.setChan c ch).readData = s.readData := rfl
@[simp] theorem setChan_freeCtr (s : State) (c : Nat) (ch : Channel) :
    (s.setChan c ch).freeCtr = s.freeCtr := rfl
@[simp] theorem setChan_powerOns (s : State) (c : Nat) (ch : Channel) :
    (s.setChan c ch).powerOns = s.powerOns := rfl

/-! ## `writeByte` -/

@[simp] theorem writeByte_fsm (s : State) (addr : Nat) (v : Byte) :
    (writeByte s addr v).fsm = s.fsm := rfl
@[simp] theorem writeByte_lat (s : State) (addr : Nat) (v : Byte) :
    (writeByte s addr v).lat = s.lat := rfl
@[simp] theorem writeByte_blockCounter (s : State) (addr : Nat) (v : Byte) :
    (writeByte s addr v).blockCounter = s.blockCounter := rfl
@[simp] theorem writeByte_bufSel (s : State) (addr : Nat) (v : Byte) :
    (writeByte s addr v).bufSel = s.bufSel := rfl
@[simp] theorem writeByte_chans (s : State) (addr : Nat) (v : Byte) :
    (writeByte s addr v).chans = s.chans := rfl
@[simp] theorem writeByte_scr (s : State) (addr : Nat) (v : Byte) :
    (writeByte s addr v).scr = s.scr := rfl
@[simp] theorem writeByte_tableSize (s : State) (addr : Nat) (v : Byte) :
    (writeByte s addr v).tableSize = s.tableSize := rfl
@[simp] theorem writeByte_spacing (s : State) (addr : Nat) (v : Byte) :
    (writeByte s addr v).spacing = s.spacing := rfl
@[simp] theorem writeByte_randvec (s : State) (addr : Nat) (v : Byte) :
    (writeByte s addr v).randvec = s.randvec := rfl
@[simp] theorem writeByte_plan (s : State) (addr : Nat) (v : Byte) :
    (writeByte s addr v).plan = s.plan := rfl
@[simp] theorem writeByte_log (s : State) (addr : Nat) (v : Byte) :
    (writeByte s addr v).log = s.log := rfl
@[simp] theorem writeByte_logRd (s : State) (addr : Nat) (v : Byte) :
    (writeByte s addr v).logRd = s.logRd := rfl
@[simp] theorem writeByte_logLost (s : State) (addr : Nat) (v : Byte) :
    (writeByte s addr v).logLost = s.logLost := rfl
@[simp] theorem writeByte_cfg (s : State) (addr : Nat) (v : Byte) :
    (writeByte s addr v).cfg = s.cfg := rfl
@[simp] theorem writeByte_arg (s : State) (addr : Nat) (v : Byte) :
    (writeByte s addr v).arg = s.arg := rfl
@[simp] theorem writeByte_op (s : State) (addr : Nat) (v : Byte) :
    (writeByte s addr v).op = s.op := rfl
@[simp] theorem writeByte_dbgBuf (s : State) (addr : Nat) (v : Byte) :
    (writeByte s addr v).dbgBuf = s.dbgBuf := rfl
@[simp] theorem writeByte_dbgIdx (s : State) (addr : Nat) (v : Byte) :
    (writeByte s addr v).dbgIdx = s.dbgIdx := rfl
@[simp] theorem writeByte_result (s : State) (addr : Nat) (v : Byte) :
    (writeByte s addr v).result = s.result := rfl
@[simp] theorem writeByte_resultAux (s : State) (addr : Nat) (v : Byte) :
    (writeByte s addr v).resultAux = s.resultAux := rfl
@[simp] theorem writeByte_lastFail (s : State) (addr : Nat) (v : Byte) :
    (writeByte s addr v).lastFail = s.lastFail := rfl
@[simp] theorem writeByte_mem (s : State) (addr : Nat) (v : Byte) :
    (writeByte s addr v).mem = Memory.write s.mem addr v := rfl
@[simp] theorem writeByte_pending (s : State) (addr : Nat) (v : Byte) :
    (writeByte s addr v).pending = s.pending := rfl
@[simp] theorem writeByte_readData (s : State) (addr : Nat) (v : Byte) :
    (writeByte s addr v).readData = s.readData := rfl
@[simp] theorem writeByte_freeCtr (s : State) (addr : Nat) (v : Byte) :
    (writeByte s addr v).freeCtr = s.freeCtr := rfl
@[simp] theorem writeByte_powerOns (s : State) (addr : Nat) (v : Byte) :
    (writeByte s addr v).powerOns = s.powerOns := rfl

/-! ## `noEngine` -/

@[simp] theorem noEngine_fsm (b : Config.Build) (s : State) :
    (noEngine b s).fsm = .uninit := rfl
@[simp] theorem noEngine_lat (b : Config.Build) (s : State) :
    (noEngine b s).lat = .reset := rfl
@[simp] theorem noEngine_blockCounter (b : Config.Build) (s : State) :
    (noEngine b s).blockCounter = 0#64 := rfl
@[simp] theorem noEngine_bufSel (b : Config.Build) (s : State) :
    (noEngine b s).bufSel = false := rfl
@[simp] theorem noEngine_chans (b : Config.Build) (s : State) :
    (noEngine b s).chans = List.replicate b.maxChannels .reset := rfl
@[simp] theorem noEngine_scr (b : Config.Build) (s : State) :
    (noEngine b s).scr = [] := rfl
@[simp] theorem noEngine_tableSize (b : Config.Build) (s : State) :
    (noEngine b s).tableSize = 0#32 := rfl
@[simp] theorem noEngine_spacing (b : Config.Build) (s : State) :
    (noEngine b s).spacing = 0#32 := rfl
@[simp] theorem noEngine_randvec (b : Config.Build) (s : State) :
    (noEngine b s).randvec = [] := rfl
@[simp] theorem noEngine_plan (b : Config.Build) (s : State) :
    (noEngine b s).plan = .reset := rfl
@[simp] theorem noEngine_log (b : Config.Build) (s : State) :
    (noEngine b s).log = [] := rfl
@[simp] theorem noEngine_logRd (b : Config.Build) (s : State) :
    (noEngine b s).logRd = 0#2 := rfl
@[simp] theorem noEngine_logLost (b : Config.Build) (s : State) :
    (noEngine b s).logLost = false := rfl
@[simp] theorem noEngine_cfg (b : Config.Build) (s : State) :
    (noEngine b s).cfg = s.cfg := rfl
@[simp] theorem noEngine_arg (b : Config.Build) (s : State) :
    (noEngine b s).arg = s.arg := rfl
@[simp] theorem noEngine_op (b : Config.Build) (s : State) :
    (noEngine b s).op = s.op := rfl
@[simp] theorem noEngine_dbgBuf (b : Config.Build) (s : State) :
    (noEngine b s).dbgBuf = s.dbgBuf := rfl
@[simp] theorem noEngine_dbgIdx (b : Config.Build) (s : State) :
    (noEngine b s).dbgIdx = s.dbgIdx := rfl
@[simp] theorem noEngine_result (b : Config.Build) (s : State) :
    (noEngine b s).result = s.result := rfl
@[simp] theorem noEngine_resultAux (b : Config.Build) (s : State) :
    (noEngine b s).resultAux = s.resultAux := rfl
@[simp] theorem noEngine_lastFail (b : Config.Build) (s : State) :
    (noEngine b s).lastFail = s.lastFail := rfl
@[simp] theorem noEngine_mem (b : Config.Build) (s : State) :
    (noEngine b s).mem = s.mem := rfl
@[simp] theorem noEngine_pending (b : Config.Build) (s : State) :
    (noEngine b s).pending = s.pending := rfl
@[simp] theorem noEngine_readData (b : Config.Build) (s : State) :
    (noEngine b s).readData = s.readData := rfl
@[simp] theorem noEngine_freeCtr (b : Config.Build) (s : State) :
    (noEngine b s).freeCtr = s.freeCtr := rfl
@[simp] theorem noEngine_powerOns (b : Config.Build) (s : State) :
    (noEngine b s).powerOns = s.powerOns := rfl

/-! ## `hardReset` -/

@[simp] theorem hardReset_fsm (b : Config.Build) (s : State) :
    (hardReset b s).fsm = (State.resetWith b).fsm := rfl
@[simp] theorem hardReset_lat (b : Config.Build) (s : State) :
    (hardReset b s).lat = (State.resetWith b).lat := rfl
@[simp] theorem hardReset_blockCounter (b : Config.Build) (s : State) :
    (hardReset b s).blockCounter = (State.resetWith b).blockCounter := rfl
@[simp] theorem hardReset_bufSel (b : Config.Build) (s : State) :
    (hardReset b s).bufSel = (State.resetWith b).bufSel := rfl
@[simp] theorem hardReset_chans (b : Config.Build) (s : State) :
    (hardReset b s).chans = (State.resetWith b).chans := rfl
@[simp] theorem hardReset_scr (b : Config.Build) (s : State) :
    (hardReset b s).scr = (State.resetWith b).scr := rfl
@[simp] theorem hardReset_tableSize (b : Config.Build) (s : State) :
    (hardReset b s).tableSize = (State.resetWith b).tableSize := rfl
@[simp] theorem hardReset_spacing (b : Config.Build) (s : State) :
    (hardReset b s).spacing = (State.resetWith b).spacing := rfl
@[simp] theorem hardReset_randvec (b : Config.Build) (s : State) :
    (hardReset b s).randvec = (State.resetWith b).randvec := rfl
@[simp] theorem hardReset_plan (b : Config.Build) (s : State) :
    (hardReset b s).plan = (State.resetWith b).plan := rfl
@[simp] theorem hardReset_log (b : Config.Build) (s : State) :
    (hardReset b s).log = (State.resetWith b).log := rfl
@[simp] theorem hardReset_logRd (b : Config.Build) (s : State) :
    (hardReset b s).logRd = (State.resetWith b).logRd := rfl
@[simp] theorem hardReset_logLost (b : Config.Build) (s : State) :
    (hardReset b s).logLost = (State.resetWith b).logLost := rfl
@[simp] theorem hardReset_cfg (b : Config.Build) (s : State) :
    (hardReset b s).cfg = (State.resetWith b).cfg := rfl
@[simp] theorem hardReset_arg (b : Config.Build) (s : State) :
    (hardReset b s).arg = (State.resetWith b).arg := rfl
@[simp] theorem hardReset_op (b : Config.Build) (s : State) :
    (hardReset b s).op = (State.resetWith b).op := rfl
@[simp] theorem hardReset_dbgBuf (b : Config.Build) (s : State) :
    (hardReset b s).dbgBuf = (State.resetWith b).dbgBuf := rfl
@[simp] theorem hardReset_dbgIdx (b : Config.Build) (s : State) :
    (hardReset b s).dbgIdx = (State.resetWith b).dbgIdx := rfl
@[simp] theorem hardReset_result (b : Config.Build) (s : State) :
    (hardReset b s).result = (State.resetWith b).result := rfl
@[simp] theorem hardReset_resultAux (b : Config.Build) (s : State) :
    (hardReset b s).resultAux = (State.resetWith b).resultAux := rfl
@[simp] theorem hardReset_lastFail (b : Config.Build) (s : State) :
    (hardReset b s).lastFail = (State.resetWith b).lastFail := rfl
@[simp] theorem hardReset_mem (b : Config.Build) (s : State) :
    (hardReset b s).mem = (State.resetWith b).mem := rfl
@[simp] theorem hardReset_pending (b : Config.Build) (s : State) :
    (hardReset b s).pending = s.pending := rfl
@[simp] theorem hardReset_readData (b : Config.Build) (s : State) :
    (hardReset b s).readData = (State.resetWith b).readData := rfl
@[simp] theorem hardReset_freeCtr (b : Config.Build) (s : State) :
    (hardReset b s).freeCtr = s.freeCtr := rfl
@[simp] theorem hardReset_powerOns (b : Config.Build) (s : State) :
    (hardReset b s).powerOns = s.powerOns + 1 := rfl

/-! ## `withCommand` -/

@[simp] theorem withCommand_fsm (s : State) (w : Word) :
    (withCommand s w).fsm = s.fsm := rfl
@[simp] theorem withCommand_lat (s : State) (w : Word) :
    (withCommand s w).lat = s.lat := rfl
@[simp] theorem withCommand_blockCounter (s : State) (w : Word) :
    (withCommand s w).blockCounter = s.blockCounter := rfl
@[simp] theorem withCommand_bufSel (s : State) (w : Word) :
    (withCommand s w).bufSel = s.bufSel := rfl
@[simp] theorem withCommand_chans (s : State) (w : Word) :
    (withCommand s w).chans = s.chans := rfl
@[simp] theorem withCommand_scr (s : State) (w : Word) :
    (withCommand s w).scr = s.scr := rfl
@[simp] theorem withCommand_tableSize (s : State) (w : Word) :
    (withCommand s w).tableSize = s.tableSize := rfl
@[simp] theorem withCommand_spacing (s : State) (w : Word) :
    (withCommand s w).spacing = s.spacing := rfl
@[simp] theorem withCommand_randvec (s : State) (w : Word) :
    (withCommand s w).randvec = s.randvec := rfl
@[simp] theorem withCommand_plan (s : State) (w : Word) :
    (withCommand s w).plan = s.plan := rfl
@[simp] theorem withCommand_log (s : State) (w : Word) :
    (withCommand s w).log = s.log := rfl
@[simp] theorem withCommand_logRd (s : State) (w : Word) :
    (withCommand s w).logRd = s.logRd := rfl
@[simp] theorem withCommand_logLost (s : State) (w : Word) :
    (withCommand s w).logLost = s.logLost := rfl
@[simp] theorem withCommand_cfg (s : State) (w : Word) :
    (withCommand s w).cfg = s.cfg := rfl
@[simp] theorem withCommand_arg (s : State) (w : Word) :
    (withCommand s w).arg = s.arg := rfl
@[simp] theorem withCommand_op (s : State) (w : Word) :
    (withCommand s w).op = s.op := rfl
@[simp] theorem withCommand_dbgBuf (s : State) (w : Word) :
    (withCommand s w).dbgBuf = s.dbgBuf := rfl
@[simp] theorem withCommand_dbgIdx (s : State) (w : Word) :
    (withCommand s w).dbgIdx = s.dbgIdx := rfl
@[simp] theorem withCommand_result (s : State) (w : Word) :
    (withCommand s w).result = s.result := rfl
@[simp] theorem withCommand_resultAux (s : State) (w : Word) :
    (withCommand s w).resultAux = s.resultAux := rfl
@[simp] theorem withCommand_lastFail (s : State) (w : Word) :
    (withCommand s w).lastFail = s.lastFail := rfl
@[simp] theorem withCommand_mem (s : State) (w : Word) :
    (withCommand s w).mem = s.mem := rfl
@[simp] theorem withCommand_pending (s : State) (w : Word) :
    (withCommand s w).pending = cmdTxn w :: s.pending := rfl
@[simp] theorem withCommand_readData (s : State) (w : Word) :
    (withCommand s w).readData = s.readData := rfl
@[simp] theorem withCommand_freeCtr (s : State) (w : Word) :
    (withCommand s w).freeCtr = s.freeCtr := rfl
@[simp] theorem withCommand_powerOns (s : State) (w : Word) :
    (withCommand s w).powerOns = s.powerOns := rfl

/-! ## `buildEngine` -/

@[simp] theorem buildEngine_fsm (b : Config.Build) (s : State) (l : Latched) :
    (buildEngine b s l).fsm = .initialized := rfl
@[simp] theorem buildEngine_lat (b : Config.Build) (s : State) (l : Latched) :
    (buildEngine b s l).lat = l := rfl
@[simp] theorem buildEngine_blockCounter (b : Config.Build) (s : State) (l : Latched) :
    (buildEngine b s l).blockCounter = s.blockCounter := rfl
@[simp] theorem buildEngine_bufSel (b : Config.Build) (s : State) (l : Latched) :
    (buildEngine b s l).bufSel = s.bufSel := rfl
@[simp] theorem buildEngine_chans (b : Config.Build) (s : State) (l : Latched) :
    (buildEngine b s l).chans = (List.range b.maxChannels).map fun c =>
      if c < l.nChannels.toNat then freshChannel l c else .reset := rfl
@[simp] theorem buildEngine_scr (b : Config.Build) (s : State) (l : Latched) :
    (buildEngine b s l).scr = List.replicate 4 (zeroBuf l.size) := rfl
@[simp] theorem buildEngine_tableSize (b : Config.Build) (s : State) (l : Latched) :
    (buildEngine b s l).tableSize = BitVec.ofNat 32 (l.nChannels.toNat * spacingOf l) := rfl
@[simp] theorem buildEngine_spacing (b : Config.Build) (s : State) (l : Latched) :
    (buildEngine b s l).spacing = BitVec.ofNat 32 (spacingOf l) := rfl
@[simp] theorem buildEngine_randvec (b : Config.Build) (s : State) (l : Latched) :
    (buildEngine b s l).randvec = ditherTable b.ditherSeed (l.nChannels.toNat * spacingOf l) := rfl
@[simp] theorem buildEngine_plan (b : Config.Build) (s : State) (l : Latched) :
    (buildEngine b s l).plan = s.plan := rfl
@[simp] theorem buildEngine_log (b : Config.Build) (s : State) (l : Latched) :
    (buildEngine b s l).log = s.log := rfl
@[simp] theorem buildEngine_logRd (b : Config.Build) (s : State) (l : Latched) :
    (buildEngine b s l).logRd = s.logRd := rfl
@[simp] theorem buildEngine_logLost (b : Config.Build) (s : State) (l : Latched) :
    (buildEngine b s l).logLost = s.logLost := rfl
@[simp] theorem buildEngine_cfg (b : Config.Build) (s : State) (l : Latched) :
    (buildEngine b s l).cfg = s.cfg := rfl
@[simp] theorem buildEngine_arg (b : Config.Build) (s : State) (l : Latched) :
    (buildEngine b s l).arg = s.arg := rfl
@[simp] theorem buildEngine_op (b : Config.Build) (s : State) (l : Latched) :
    (buildEngine b s l).op = s.op := rfl
@[simp] theorem buildEngine_dbgBuf (b : Config.Build) (s : State) (l : Latched) :
    (buildEngine b s l).dbgBuf = s.dbgBuf := rfl
@[simp] theorem buildEngine_dbgIdx (b : Config.Build) (s : State) (l : Latched) :
    (buildEngine b s l).dbgIdx = s.dbgIdx := rfl
@[simp] theorem buildEngine_result (b : Config.Build) (s : State) (l : Latched) :
    (buildEngine b s l).result = s.result := rfl
@[simp] theorem buildEngine_resultAux (b : Config.Build) (s : State) (l : Latched) :
    (buildEngine b s l).resultAux = s.resultAux := rfl
@[simp] theorem buildEngine_lastFail (b : Config.Build) (s : State) (l : Latched) :
    (buildEngine b s l).lastFail = s.lastFail := rfl
@[simp] theorem buildEngine_mem (b : Config.Build) (s : State) (l : Latched) :
    (buildEngine b s l).mem = s.mem := rfl
@[simp] theorem buildEngine_pending (b : Config.Build) (s : State) (l : Latched) :
    (buildEngine b s l).pending = s.pending := rfl
@[simp] theorem buildEngine_readData (b : Config.Build) (s : State) (l : Latched) :
    (buildEngine b s l).readData = s.readData := rfl
@[simp] theorem buildEngine_freeCtr (b : Config.Build) (s : State) (l : Latched) :
    (buildEngine b s l).freeCtr = s.freeCtr := rfl
@[simp] theorem buildEngine_powerOns (b : Config.Build) (s : State) (l : Latched) :
    (buildEngine b s l).powerOns = s.powerOns := rfl

/-! ## `resetEffect` -/

@[simp] theorem resetEffect_fsm (s : State) :
    (resetEffect s).fsm = s.fsm := rfl
@[simp] theorem resetEffect_lat (s : State) :
    (resetEffect s).lat = s.lat := rfl
@[simp] theorem resetEffect_blockCounter (s : State) :
    (resetEffect s).blockCounter = 0#64 := rfl
@[simp] theorem resetEffect_bufSel (s : State) :
    (resetEffect s).bufSel = false := rfl
@[simp] theorem resetEffect_chans (s : State) :
    (resetEffect s).chans = s.chans.mapIdx fun c ch =>
      if c < s.channels then resetChannel s.lat.size s.spacing.toNat c ch else ch := rfl
@[simp] theorem resetEffect_scr (s : State) :
    (resetEffect s).scr = s.scr := rfl
@[simp] theorem resetEffect_tableSize (s : State) :
    (resetEffect s).tableSize = s.tableSize := rfl
@[simp] theorem resetEffect_spacing (s : State) :
    (resetEffect s).spacing = s.spacing := rfl
@[simp] theorem resetEffect_randvec (s : State) :
    (resetEffect s).randvec = s.randvec := rfl
@[simp] theorem resetEffect_plan (s : State) :
    (resetEffect s).plan = s.plan := rfl
@[simp] theorem resetEffect_log (s : State) :
    (resetEffect s).log = s.log := rfl
@[simp] theorem resetEffect_logRd (s : State) :
    (resetEffect s).logRd = s.logRd := rfl
@[simp] theorem resetEffect_logLost (s : State) :
    (resetEffect s).logLost = s.logLost := rfl
@[simp] theorem resetEffect_cfg (s : State) :
    (resetEffect s).cfg = s.cfg := rfl
@[simp] theorem resetEffect_arg (s : State) :
    (resetEffect s).arg = s.arg := rfl
@[simp] theorem resetEffect_op (s : State) :
    (resetEffect s).op = s.op := rfl
@[simp] theorem resetEffect_dbgBuf (s : State) :
    (resetEffect s).dbgBuf = s.dbgBuf := rfl
@[simp] theorem resetEffect_dbgIdx (s : State) :
    (resetEffect s).dbgIdx = s.dbgIdx := rfl
@[simp] theorem resetEffect_result (s : State) :
    (resetEffect s).result = s.result := rfl
@[simp] theorem resetEffect_resultAux (s : State) :
    (resetEffect s).resultAux = s.resultAux := rfl
@[simp] theorem resetEffect_lastFail (s : State) :
    (resetEffect s).lastFail = s.lastFail := rfl
@[simp] theorem resetEffect_mem (s : State) :
    (resetEffect s).mem = s.mem := rfl
@[simp] theorem resetEffect_pending (s : State) :
    (resetEffect s).pending = s.pending := rfl
@[simp] theorem resetEffect_readData (s : State) :
    (resetEffect s).readData = s.readData := rfl
@[simp] theorem resetEffect_freeCtr (s : State) :
    (resetEffect s).freeCtr = s.freeCtr := rfl
@[simp] theorem resetEffect_powerOns (s : State) :
    (resetEffect s).powerOns = s.powerOns := rfl

/-! ## `freeCoefs` -/

@[simp] theorem freeCoefs_fsm (s : State) :
    (freeCoefs s).fsm = s.fsm := rfl
@[simp] theorem freeCoefs_lat (s : State) :
    (freeCoefs s).lat = s.lat := rfl
@[simp] theorem freeCoefs_blockCounter (s : State) :
    (freeCoefs s).blockCounter = s.blockCounter := rfl
@[simp] theorem freeCoefs_bufSel (s : State) :
    (freeCoefs s).bufSel = s.bufSel := rfl
@[simp] theorem freeCoefs_chans (s : State) :
    (freeCoefs s).chans = s.chans.map freeCoef := rfl
@[simp] theorem freeCoefs_scr (s : State) :
    (freeCoefs s).scr = s.scr := rfl
@[simp] theorem freeCoefs_tableSize (s : State) :
    (freeCoefs s).tableSize = s.tableSize := rfl
@[simp] theorem freeCoefs_spacing (s : State) :
    (freeCoefs s).spacing = s.spacing := rfl
@[simp] theorem freeCoefs_randvec (s : State) :
    (freeCoefs s).randvec = s.randvec := rfl
@[simp] theorem freeCoefs_plan (s : State) :
    (freeCoefs s).plan = s.plan := rfl
@[simp] theorem freeCoefs_log (s : State) :
    (freeCoefs s).log = s.log := rfl
@[simp] theorem freeCoefs_logRd (s : State) :
    (freeCoefs s).logRd = s.logRd := rfl
@[simp] theorem freeCoefs_logLost (s : State) :
    (freeCoefs s).logLost = s.logLost := rfl
@[simp] theorem freeCoefs_cfg (s : State) :
    (freeCoefs s).cfg = s.cfg := rfl
@[simp] theorem freeCoefs_arg (s : State) :
    (freeCoefs s).arg = s.arg := rfl
@[simp] theorem freeCoefs_op (s : State) :
    (freeCoefs s).op = s.op := rfl
@[simp] theorem freeCoefs_dbgBuf (s : State) :
    (freeCoefs s).dbgBuf = s.dbgBuf := rfl
@[simp] theorem freeCoefs_dbgIdx (s : State) :
    (freeCoefs s).dbgIdx = s.dbgIdx := rfl
@[simp] theorem freeCoefs_result (s : State) :
    (freeCoefs s).result = s.result := rfl
@[simp] theorem freeCoefs_resultAux (s : State) :
    (freeCoefs s).resultAux = s.resultAux := rfl
@[simp] theorem freeCoefs_lastFail (s : State) :
    (freeCoefs s).lastFail = s.lastFail := rfl
@[simp] theorem freeCoefs_mem (s : State) :
    (freeCoefs s).mem = s.mem := rfl
@[simp] theorem freeCoefs_pending (s : State) :
    (freeCoefs s).pending = s.pending := rfl
@[simp] theorem freeCoefs_readData (s : State) :
    (freeCoefs s).readData = s.readData := rfl
@[simp] theorem freeCoefs_freeCtr (s : State) :
    (freeCoefs s).freeCtr = s.freeCtr := rfl
@[simp] theorem freeCoefs_powerOns (s : State) :
    (freeCoefs s).powerOns = s.powerOns := rfl

/-! ## `logEvent` -/

@[simp] theorem logEvent_fsm (b : Config.Build) (s : State) (r : LogRecord) :
    (logEvent b s r).fsm = s.fsm := by
  unfold logEvent; split <;> rfl
@[simp] theorem logEvent_lat (b : Config.Build) (s : State) (r : LogRecord) :
    (logEvent b s r).lat = s.lat := by
  unfold logEvent; split <;> rfl
@[simp] theorem logEvent_blockCounter (b : Config.Build) (s : State) (r : LogRecord) :
    (logEvent b s r).blockCounter = s.blockCounter := by
  unfold logEvent; split <;> rfl
@[simp] theorem logEvent_bufSel (b : Config.Build) (s : State) (r : LogRecord) :
    (logEvent b s r).bufSel = s.bufSel := by
  unfold logEvent; split <;> rfl
@[simp] theorem logEvent_chans (b : Config.Build) (s : State) (r : LogRecord) :
    (logEvent b s r).chans = s.chans := by
  unfold logEvent; split <;> rfl
@[simp] theorem logEvent_scr (b : Config.Build) (s : State) (r : LogRecord) :
    (logEvent b s r).scr = s.scr := by
  unfold logEvent; split <;> rfl
@[simp] theorem logEvent_tableSize (b : Config.Build) (s : State) (r : LogRecord) :
    (logEvent b s r).tableSize = s.tableSize := by
  unfold logEvent; split <;> rfl
@[simp] theorem logEvent_spacing (b : Config.Build) (s : State) (r : LogRecord) :
    (logEvent b s r).spacing = s.spacing := by
  unfold logEvent; split <;> rfl
@[simp] theorem logEvent_randvec (b : Config.Build) (s : State) (r : LogRecord) :
    (logEvent b s r).randvec = s.randvec := by
  unfold logEvent; split <;> rfl
@[simp] theorem logEvent_plan (b : Config.Build) (s : State) (r : LogRecord) :
    (logEvent b s r).plan = s.plan := by
  unfold logEvent; split <;> rfl
@[simp] theorem logEvent_logRd (b : Config.Build) (s : State) (r : LogRecord) :
    (logEvent b s r).logRd = s.logRd := by
  unfold logEvent; split <;> rfl
@[simp] theorem logEvent_cfg (b : Config.Build) (s : State) (r : LogRecord) :
    (logEvent b s r).cfg = s.cfg := by
  unfold logEvent; split <;> rfl
@[simp] theorem logEvent_arg (b : Config.Build) (s : State) (r : LogRecord) :
    (logEvent b s r).arg = s.arg := by
  unfold logEvent; split <;> rfl
@[simp] theorem logEvent_op (b : Config.Build) (s : State) (r : LogRecord) :
    (logEvent b s r).op = s.op := by
  unfold logEvent; split <;> rfl
@[simp] theorem logEvent_dbgBuf (b : Config.Build) (s : State) (r : LogRecord) :
    (logEvent b s r).dbgBuf = s.dbgBuf := by
  unfold logEvent; split <;> rfl
@[simp] theorem logEvent_dbgIdx (b : Config.Build) (s : State) (r : LogRecord) :
    (logEvent b s r).dbgIdx = s.dbgIdx := by
  unfold logEvent; split <;> rfl
@[simp] theorem logEvent_result (b : Config.Build) (s : State) (r : LogRecord) :
    (logEvent b s r).result = s.result := by
  unfold logEvent; split <;> rfl
@[simp] theorem logEvent_resultAux (b : Config.Build) (s : State) (r : LogRecord) :
    (logEvent b s r).resultAux = s.resultAux := by
  unfold logEvent; split <;> rfl
@[simp] theorem logEvent_lastFail (b : Config.Build) (s : State) (r : LogRecord) :
    (logEvent b s r).lastFail = s.lastFail := by
  unfold logEvent; split <;> rfl
@[simp] theorem logEvent_mem (b : Config.Build) (s : State) (r : LogRecord) :
    (logEvent b s r).mem = s.mem := by
  unfold logEvent; split <;> rfl
@[simp] theorem logEvent_pending (b : Config.Build) (s : State) (r : LogRecord) :
    (logEvent b s r).pending = s.pending := by
  unfold logEvent; split <;> rfl
@[simp] theorem logEvent_readData (b : Config.Build) (s : State) (r : LogRecord) :
    (logEvent b s r).readData = s.readData := by
  unfold logEvent; split <;> rfl
@[simp] theorem logEvent_freeCtr (b : Config.Build) (s : State) (r : LogRecord) :
    (logEvent b s r).freeCtr = s.freeCtr := by
  unfold logEvent; split <;> rfl
@[simp] theorem logEvent_powerOns (b : Config.Build) (s : State) (r : LogRecord) :
    (logEvent b s r).powerOns = s.powerOns := by
  unfold logEvent; split <;> rfl

/-! ## `setBuf` -/

@[simp] theorem setBuf_fsm (s : State) (r : BufRef) (b : Buf) :
    (setBuf s r b).fsm = s.fsm := by
  cases r <;> rfl
@[simp] theorem setBuf_lat (s : State) (r : BufRef) (b : Buf) :
    (setBuf s r b).lat = s.lat := by
  cases r <;> rfl
@[simp] theorem setBuf_blockCounter (s : State) (r : BufRef) (b : Buf) :
    (setBuf s r b).blockCounter = s.blockCounter := by
  cases r <;> rfl
@[simp] theorem setBuf_bufSel (s : State) (r : BufRef) (b : Buf) :
    (setBuf s r b).bufSel = s.bufSel := by
  cases r <;> rfl
@[simp] theorem setBuf_tableSize (s : State) (r : BufRef) (b : Buf) :
    (setBuf s r b).tableSize = s.tableSize := by
  cases r <;> rfl
@[simp] theorem setBuf_spacing (s : State) (r : BufRef) (b : Buf) :
    (setBuf s r b).spacing = s.spacing := by
  cases r <;> rfl
@[simp] theorem setBuf_randvec (s : State) (r : BufRef) (b : Buf) :
    (setBuf s r b).randvec = s.randvec := by
  cases r <;> rfl
@[simp] theorem setBuf_plan (s : State) (r : BufRef) (b : Buf) :
    (setBuf s r b).plan = s.plan := by
  cases r <;> rfl
@[simp] theorem setBuf_log (s : State) (r : BufRef) (b : Buf) :
    (setBuf s r b).log = s.log := by
  cases r <;> rfl
@[simp] theorem setBuf_logRd (s : State) (r : BufRef) (b : Buf) :
    (setBuf s r b).logRd = s.logRd := by
  cases r <;> rfl
@[simp] theorem setBuf_logLost (s : State) (r : BufRef) (b : Buf) :
    (setBuf s r b).logLost = s.logLost := by
  cases r <;> rfl
@[simp] theorem setBuf_cfg (s : State) (r : BufRef) (b : Buf) :
    (setBuf s r b).cfg = s.cfg := by
  cases r <;> rfl
@[simp] theorem setBuf_arg (s : State) (r : BufRef) (b : Buf) :
    (setBuf s r b).arg = s.arg := by
  cases r <;> rfl
@[simp] theorem setBuf_op (s : State) (r : BufRef) (b : Buf) :
    (setBuf s r b).op = s.op := by
  cases r <;> rfl
@[simp] theorem setBuf_dbgBuf (s : State) (r : BufRef) (b : Buf) :
    (setBuf s r b).dbgBuf = s.dbgBuf := by
  cases r <;> rfl
@[simp] theorem setBuf_dbgIdx (s : State) (r : BufRef) (b : Buf) :
    (setBuf s r b).dbgIdx = s.dbgIdx := by
  cases r <;> rfl
@[simp] theorem setBuf_result (s : State) (r : BufRef) (b : Buf) :
    (setBuf s r b).result = s.result := by
  cases r <;> rfl
@[simp] theorem setBuf_resultAux (s : State) (r : BufRef) (b : Buf) :
    (setBuf s r b).resultAux = s.resultAux := by
  cases r <;> rfl
@[simp] theorem setBuf_lastFail (s : State) (r : BufRef) (b : Buf) :
    (setBuf s r b).lastFail = s.lastFail := by
  cases r <;> rfl
@[simp] theorem setBuf_mem (s : State) (r : BufRef) (b : Buf) :
    (setBuf s r b).mem = s.mem := by
  cases r <;> rfl
@[simp] theorem setBuf_pending (s : State) (r : BufRef) (b : Buf) :
    (setBuf s r b).pending = s.pending := by
  cases r <;> rfl
@[simp] theorem setBuf_readData (s : State) (r : BufRef) (b : Buf) :
    (setBuf s r b).readData = s.readData := by
  cases r <;> rfl
@[simp] theorem setBuf_freeCtr (s : State) (r : BufRef) (b : Buf) :
    (setBuf s r b).freeCtr = s.freeCtr := by
  cases r <;> rfl
@[simp] theorem setBuf_powerOns (s : State) (r : BufRef) (b : Buf) :
    (setBuf s r b).powerOns = s.powerOns := by
  cases r <;> rfl

/-! ## `storeReals` -/

@[simp] theorem storeReals_fsm (s : State) (r : BufRef) (xs : List FReal) :
    (storeReals s r xs).fsm = s.fsm := by
  cases r <;> rfl
@[simp] theorem storeReals_lat (s : State) (r : BufRef) (xs : List FReal) :
    (storeReals s r xs).lat = s.lat := by
  cases r <;> rfl
@[simp] theorem storeReals_blockCounter (s : State) (r : BufRef) (xs : List FReal) :
    (storeReals s r xs).blockCounter = s.blockCounter := by
  cases r <;> rfl
@[simp] theorem storeReals_bufSel (s : State) (r : BufRef) (xs : List FReal) :
    (storeReals s r xs).bufSel = s.bufSel := by
  cases r <;> rfl
@[simp] theorem storeReals_tableSize (s : State) (r : BufRef) (xs : List FReal) :
    (storeReals s r xs).tableSize = s.tableSize := by
  cases r <;> rfl
@[simp] theorem storeReals_spacing (s : State) (r : BufRef) (xs : List FReal) :
    (storeReals s r xs).spacing = s.spacing := by
  cases r <;> rfl
@[simp] theorem storeReals_randvec (s : State) (r : BufRef) (xs : List FReal) :
    (storeReals s r xs).randvec = s.randvec := by
  cases r <;> rfl
@[simp] theorem storeReals_plan (s : State) (r : BufRef) (xs : List FReal) :
    (storeReals s r xs).plan = s.plan := by
  cases r <;> rfl
@[simp] theorem storeReals_log (s : State) (r : BufRef) (xs : List FReal) :
    (storeReals s r xs).log = s.log := by
  cases r <;> rfl
@[simp] theorem storeReals_logRd (s : State) (r : BufRef) (xs : List FReal) :
    (storeReals s r xs).logRd = s.logRd := by
  cases r <;> rfl
@[simp] theorem storeReals_logLost (s : State) (r : BufRef) (xs : List FReal) :
    (storeReals s r xs).logLost = s.logLost := by
  cases r <;> rfl
@[simp] theorem storeReals_cfg (s : State) (r : BufRef) (xs : List FReal) :
    (storeReals s r xs).cfg = s.cfg := by
  cases r <;> rfl
@[simp] theorem storeReals_arg (s : State) (r : BufRef) (xs : List FReal) :
    (storeReals s r xs).arg = s.arg := by
  cases r <;> rfl
@[simp] theorem storeReals_op (s : State) (r : BufRef) (xs : List FReal) :
    (storeReals s r xs).op = s.op := by
  cases r <;> rfl
@[simp] theorem storeReals_dbgBuf (s : State) (r : BufRef) (xs : List FReal) :
    (storeReals s r xs).dbgBuf = s.dbgBuf := by
  cases r <;> rfl
@[simp] theorem storeReals_dbgIdx (s : State) (r : BufRef) (xs : List FReal) :
    (storeReals s r xs).dbgIdx = s.dbgIdx := by
  cases r <;> rfl
@[simp] theorem storeReals_result (s : State) (r : BufRef) (xs : List FReal) :
    (storeReals s r xs).result = s.result := by
  cases r <;> rfl
@[simp] theorem storeReals_resultAux (s : State) (r : BufRef) (xs : List FReal) :
    (storeReals s r xs).resultAux = s.resultAux := by
  cases r <;> rfl
@[simp] theorem storeReals_lastFail (s : State) (r : BufRef) (xs : List FReal) :
    (storeReals s r xs).lastFail = s.lastFail := by
  cases r <;> rfl
@[simp] theorem storeReals_mem (s : State) (r : BufRef) (xs : List FReal) :
    (storeReals s r xs).mem = s.mem := by
  cases r <;> rfl
@[simp] theorem storeReals_pending (s : State) (r : BufRef) (xs : List FReal) :
    (storeReals s r xs).pending = s.pending := by
  cases r <;> rfl
@[simp] theorem storeReals_readData (s : State) (r : BufRef) (xs : List FReal) :
    (storeReals s r xs).readData = s.readData := by
  cases r <;> rfl
@[simp] theorem storeReals_freeCtr (s : State) (r : BufRef) (xs : List FReal) :
    (storeReals s r xs).freeCtr = s.freeCtr + 1 := by
  cases r <;> rfl
@[simp] theorem storeReals_powerOns (s : State) (r : BufRef) (xs : List FReal) :
    (storeReals s r xs).powerOns = s.powerOns := by
  cases r <;> rfl

/-! ## `storeRealsAt` -/

@[simp] theorem storeRealsAt_fsm (s : State) (r : BufRef) (off : Nat) (xs : List FReal) :
    (storeRealsAt s r off xs).fsm = s.fsm := by
  cases r <;> rfl
@[simp] theorem storeRealsAt_lat (s : State) (r : BufRef) (off : Nat) (xs : List FReal) :
    (storeRealsAt s r off xs).lat = s.lat := by
  cases r <;> rfl
@[simp] theorem storeRealsAt_blockCounter (s : State) (r : BufRef) (off : Nat) (xs : List FReal) :
    (storeRealsAt s r off xs).blockCounter = s.blockCounter := by
  cases r <;> rfl
@[simp] theorem storeRealsAt_bufSel (s : State) (r : BufRef) (off : Nat) (xs : List FReal) :
    (storeRealsAt s r off xs).bufSel = s.bufSel := by
  cases r <;> rfl
@[simp] theorem storeRealsAt_tableSize (s : State) (r : BufRef) (off : Nat) (xs : List FReal) :
    (storeRealsAt s r off xs).tableSize = s.tableSize := by
  cases r <;> rfl
@[simp] theorem storeRealsAt_spacing (s : State) (r : BufRef) (off : Nat) (xs : List FReal) :
    (storeRealsAt s r off xs).spacing = s.spacing := by
  cases r <;> rfl
@[simp] theorem storeRealsAt_randvec (s : State) (r : BufRef) (off : Nat) (xs : List FReal) :
    (storeRealsAt s r off xs).randvec = s.randvec := by
  cases r <;> rfl
@[simp] theorem storeRealsAt_plan (s : State) (r : BufRef) (off : Nat) (xs : List FReal) :
    (storeRealsAt s r off xs).plan = s.plan := by
  cases r <;> rfl
@[simp] theorem storeRealsAt_log (s : State) (r : BufRef) (off : Nat) (xs : List FReal) :
    (storeRealsAt s r off xs).log = s.log := by
  cases r <;> rfl
@[simp] theorem storeRealsAt_logRd (s : State) (r : BufRef) (off : Nat) (xs : List FReal) :
    (storeRealsAt s r off xs).logRd = s.logRd := by
  cases r <;> rfl
@[simp] theorem storeRealsAt_logLost (s : State) (r : BufRef) (off : Nat) (xs : List FReal) :
    (storeRealsAt s r off xs).logLost = s.logLost := by
  cases r <;> rfl
@[simp] theorem storeRealsAt_cfg (s : State) (r : BufRef) (off : Nat) (xs : List FReal) :
    (storeRealsAt s r off xs).cfg = s.cfg := by
  cases r <;> rfl
@[simp] theorem storeRealsAt_arg (s : State) (r : BufRef) (off : Nat) (xs : List FReal) :
    (storeRealsAt s r off xs).arg = s.arg := by
  cases r <;> rfl
@[simp] theorem storeRealsAt_op (s : State) (r : BufRef) (off : Nat) (xs : List FReal) :
    (storeRealsAt s r off xs).op = s.op := by
  cases r <;> rfl
@[simp] theorem storeRealsAt_dbgBuf (s : State) (r : BufRef) (off : Nat) (xs : List FReal) :
    (storeRealsAt s r off xs).dbgBuf = s.dbgBuf := by
  cases r <;> rfl
@[simp] theorem storeRealsAt_dbgIdx (s : State) (r : BufRef) (off : Nat) (xs : List FReal) :
    (storeRealsAt s r off xs).dbgIdx = s.dbgIdx := by
  cases r <;> rfl
@[simp] theorem storeRealsAt_result (s : State) (r : BufRef) (off : Nat) (xs : List FReal) :
    (storeRealsAt s r off xs).result = s.result := by
  cases r <;> rfl
@[simp] theorem storeRealsAt_resultAux (s : State) (r : BufRef) (off : Nat) (xs : List FReal) :
    (storeRealsAt s r off xs).resultAux = s.resultAux := by
  cases r <;> rfl
@[simp] theorem storeRealsAt_lastFail (s : State) (r : BufRef) (off : Nat) (xs : List FReal) :
    (storeRealsAt s r off xs).lastFail = s.lastFail := by
  cases r <;> rfl
@[simp] theorem storeRealsAt_mem (s : State) (r : BufRef) (off : Nat) (xs : List FReal) :
    (storeRealsAt s r off xs).mem = s.mem := by
  cases r <;> rfl
@[simp] theorem storeRealsAt_pending (s : State) (r : BufRef) (off : Nat) (xs : List FReal) :
    (storeRealsAt s r off xs).pending = s.pending := by
  cases r <;> rfl
@[simp] theorem storeRealsAt_readData (s : State) (r : BufRef) (off : Nat) (xs : List FReal) :
    (storeRealsAt s r off xs).readData = s.readData := by
  cases r <;> rfl
@[simp] theorem storeRealsAt_freeCtr (s : State) (r : BufRef) (off : Nat) (xs : List FReal) :
    (storeRealsAt s r off xs).freeCtr = s.freeCtr + 1 := by
  cases r <;> rfl
@[simp] theorem storeRealsAt_powerOns (s : State) (r : BufRef) (off : Nat) (xs : List FReal) :
    (storeRealsAt s r off xs).powerOns = s.powerOns := by
  cases r <;> rfl

/-! ## `usePlan` -/

@[simp] theorem usePlan_fsm (b : Config.Build) (s : State) (inv inpl : Bool) :
    (usePlan b s inv inpl).fsm = s.fsm := by
  simp only [usePlan]; split <;> simp
@[simp] theorem usePlan_lat (b : Config.Build) (s : State) (inv inpl : Bool) :
    (usePlan b s inv inpl).lat = s.lat := by
  simp only [usePlan]; split <;> simp
@[simp] theorem usePlan_blockCounter (b : Config.Build) (s : State) (inv inpl : Bool) :
    (usePlan b s inv inpl).blockCounter = s.blockCounter := by
  simp only [usePlan]; split <;> simp
@[simp] theorem usePlan_bufSel (b : Config.Build) (s : State) (inv inpl : Bool) :
    (usePlan b s inv inpl).bufSel = s.bufSel := by
  simp only [usePlan]; split <;> simp
@[simp] theorem usePlan_chans (b : Config.Build) (s : State) (inv inpl : Bool) :
    (usePlan b s inv inpl).chans = s.chans := by
  simp only [usePlan]; split <;> simp
@[simp] theorem usePlan_scr (b : Config.Build) (s : State) (inv inpl : Bool) :
    (usePlan b s inv inpl).scr = s.scr := by
  simp only [usePlan]; split <;> simp
@[simp] theorem usePlan_tableSize (b : Config.Build) (s : State) (inv inpl : Bool) :
    (usePlan b s inv inpl).tableSize = s.tableSize := by
  simp only [usePlan]; split <;> simp
@[simp] theorem usePlan_spacing (b : Config.Build) (s : State) (inv inpl : Bool) :
    (usePlan b s inv inpl).spacing = s.spacing := by
  simp only [usePlan]; split <;> simp
@[simp] theorem usePlan_randvec (b : Config.Build) (s : State) (inv inpl : Bool) :
    (usePlan b s inv inpl).randvec = s.randvec := by
  simp only [usePlan]; split <;> simp
@[simp] theorem usePlan_logRd (b : Config.Build) (s : State) (inv inpl : Bool) :
    (usePlan b s inv inpl).logRd = s.logRd := by
  simp only [usePlan]; split <;> simp
@[simp] theorem usePlan_cfg (b : Config.Build) (s : State) (inv inpl : Bool) :
    (usePlan b s inv inpl).cfg = s.cfg := by
  simp only [usePlan]; split <;> simp
@[simp] theorem usePlan_arg (b : Config.Build) (s : State) (inv inpl : Bool) :
    (usePlan b s inv inpl).arg = s.arg := by
  simp only [usePlan]; split <;> simp
@[simp] theorem usePlan_op (b : Config.Build) (s : State) (inv inpl : Bool) :
    (usePlan b s inv inpl).op = s.op := by
  simp only [usePlan]; split <;> simp
@[simp] theorem usePlan_dbgBuf (b : Config.Build) (s : State) (inv inpl : Bool) :
    (usePlan b s inv inpl).dbgBuf = s.dbgBuf := by
  simp only [usePlan]; split <;> simp
@[simp] theorem usePlan_dbgIdx (b : Config.Build) (s : State) (inv inpl : Bool) :
    (usePlan b s inv inpl).dbgIdx = s.dbgIdx := by
  simp only [usePlan]; split <;> simp
@[simp] theorem usePlan_result (b : Config.Build) (s : State) (inv inpl : Bool) :
    (usePlan b s inv inpl).result = s.result := by
  simp only [usePlan]; split <;> simp
@[simp] theorem usePlan_resultAux (b : Config.Build) (s : State) (inv inpl : Bool) :
    (usePlan b s inv inpl).resultAux = s.resultAux := by
  simp only [usePlan]; split <;> simp
@[simp] theorem usePlan_lastFail (b : Config.Build) (s : State) (inv inpl : Bool) :
    (usePlan b s inv inpl).lastFail = s.lastFail := by
  simp only [usePlan]; split <;> simp
@[simp] theorem usePlan_mem (b : Config.Build) (s : State) (inv inpl : Bool) :
    (usePlan b s inv inpl).mem = s.mem := by
  simp only [usePlan]; split <;> simp
@[simp] theorem usePlan_pending (b : Config.Build) (s : State) (inv inpl : Bool) :
    (usePlan b s inv inpl).pending = s.pending := by
  simp only [usePlan]; split <;> simp
@[simp] theorem usePlan_readData (b : Config.Build) (s : State) (inv inpl : Bool) :
    (usePlan b s inv inpl).readData = s.readData := by
  simp only [usePlan]; split <;> simp
@[simp] theorem usePlan_freeCtr (b : Config.Build) (s : State) (inv inpl : Bool) :
    (usePlan b s inv inpl).freeCtr = s.freeCtr := by
  simp only [usePlan]; split <;> simp
@[simp] theorem usePlan_powerOns (b : Config.Build) (s : State) (inv inpl : Bool) :
    (usePlan b s inv inpl).powerOns = s.powerOns := by
  simp only [usePlan]; split <;> simp

end Sys2Proof.Machine
end

