-- ==== Sys2Proof/Laws/Memory.lean ====
section
/-! SUPPORT. The byte-addressed memory: every operation keeps the canonical form, a read after a write, and
what a write leaves alone. -/

namespace Sys2Proof.Machine

/-! ## The list of cells -/

/-- The address at the head of a memory is above `a`. -/
theorem Memory.wf_cons_iff (a : Nat) (b : Byte) (m : Memory) :
    Memory.wf ((a, b) :: m) = true ↔ (∀ x ∈ m.head?, a < x.1) ∧ Memory.wf m = true := by
  cases m <;> simp [Memory.wf]

/-- The head of a memory after a write. -/
theorem Memory.head_write (m : Memory) (addr : Nat) (v : Byte) :
    ∀ x ∈ (Memory.write m addr v).head?, x.1 = addr ∨ ∃ y ∈ m.head?, x.1 = y.1 := by
  cases m with
  | nil => simp [Memory.write]
  | cons c rest =>
    obtain ⟨a, b⟩ := c
    simp only [Memory.write]
    split
    · simp
    · split <;> simp_all

/-- A write keeps the canonical form. -/
theorem Memory.wf_write (m : Memory) (addr : Nat) (v : Byte) (h : Memory.wf m = true) :
    Memory.wf (Memory.write m addr v) = true := by
  induction m with
  | nil => rfl
  | cons c rest ih =>
    obtain ⟨a, b⟩ := c
    have hc := (Memory.wf_cons_iff a b rest).1 h
    simp only [Memory.write]
    split
    · exact (Memory.wf_cons_iff _ _ _).2 ⟨by simpa using ‹addr < a›, h⟩
    · split
      · rename_i he
        exact (Memory.wf_cons_iff _ _ _).2 ⟨by simpa [he] using hc.1, hc.2⟩
      · refine (Memory.wf_cons_iff _ _ _).2 ⟨fun x hx => ?_, ih hc.2⟩
        rcases Memory.head_write rest addr v x hx with h1 | ⟨y, hy, h1⟩
        · omega
        · exact h1 ▸ hc.1 y hy

/-- The byte just written is read back. -/
theorem Memory.read?_write_self (m : Memory) (addr : Nat) (v : Byte) :
    Memory.read? (Memory.write m addr v) addr = some v := by
  induction m with
  | nil => simp [Memory.write, Memory.read?]
  | cons c rest ih =>
    obtain ⟨a, b⟩ := c
    simp only [Memory.write]
    split
    · simp [Memory.read?]
    · split
      · simp [Memory.read?]
      · have : a ≠ addr := by omega
        simp [Memory.read?, this, ih]

/-- A write leaves every other address alone. -/
theorem Memory.read?_write_ne (m : Memory) (addr a' : Nat) (v : Byte) (hne : a' ≠ addr) :
    Memory.read? (Memory.write m addr v) a' = Memory.read? m a' := by
  induction m with
  | nil => simp [Memory.write, Memory.read?, hne.symm]
  | cons c rest ih =>
    obtain ⟨a, b⟩ := c
    simp only [Memory.write]
    split
    · simp [Memory.read?, hne.symm]
    · split
      · rename_i he
        simp [Memory.read?, hne.symm, ← he]
      · simp [Memory.read?, ih]

/-! ## Bytes of the state -/

/-- The byte just written is read back. -/
theorem readByte_writeByte_self (s : State) (a : Nat) (v : Byte) : readByte (writeByte s a v) a = v := by
  simp [readByte, Memory.read?_write_self]

/-- A write leaves every other byte alone. -/
theorem readByte_writeByte_ne (s : State) (a a' : Nat) (v : Byte) (h : a' ≠ a) :
    readByte (writeByte s a v) a' = readByte s a' := by
  simp [readByte, Memory.read?_write_ne _ _ _ _ h]

/-- States with one memory and one power-on read alike. -/
theorem readByte_congr {s t : State} (hm : t.mem = s.mem) (hp : t.powerOns = s.powerOns) (a : Nat) :
    readByte t a = readByte s a := by
  simp [readByte, hm, hp]

/-- Everything a run of byte writes can do: only the memory changes. -/
theorem writeBytes_eq (s : State) (addr : Nat) (bs : List Byte) :
    writeBytes s addr bs = { s with mem := (writeBytes s addr bs).mem } := by
  induction bs generalizing s addr with
  | nil => rfl
  | cons b bs ih =>
    simp only [writeBytes]
    rw [ih]
    rfl

/-- A run of byte writes keeps the canonical form. -/
theorem writeBytes_wf (s : State) (addr : Nat) (bs : List Byte) (h : Memory.wf s.mem = true) :
    Memory.wf (writeBytes s addr bs).mem = true := by
  induction bs generalizing s addr with
  | nil => exact h
  | cons b bs ih => exact ih _ _ (by simpa using Memory.wf_write _ _ _ h)

/-- A run of byte writes leaves every byte outside it alone. -/
theorem readByte_writeBytes_ne (s : State) (addr : Nat) (bs : List Byte) (a : Nat)
    (h : a < addr ∨ addr + bs.length ≤ a) : readByte (writeBytes s addr bs) a = readByte s a := by
  induction bs generalizing s addr with
  | nil => rfl
  | cons b bs ih =>
    simp only [List.length_cons] at h
    simp only [writeBytes]
    rw [ih _ _ (by omega), readByte_writeByte_ne _ _ _ _ (by omega)]

/-- Byte `i` of a run of byte writes is read back. -/
theorem readByte_writeBytes_get (s : State) (addr : Nat) (bs : List Byte) (i : Nat) (h : i < bs.length) :
    readByte (writeBytes s addr bs) (addr + i) = bs[i] := by
  induction bs generalizing s addr i with
  | nil => simp at h
  | cons b bs ih =>
    simp only [writeBytes]
    cases i with
    | zero =>
      rw [readByte_writeBytes_ne _ _ _ _ (by omega)]
      simp [readByte_writeByte_self]
    | succ i =>
      have := ih (writeByte s addr b) (addr + 1) i (by simpa using h)
      simpa [Nat.add_assoc, Nat.add_comm 1 i] using this

/-- A host write to the apertures keeps the canonical form. -/
theorem apertureWrite_wf (b : Config.Build) (s : State) (addr : Nat) (bs : List Byte) (h : Memory.wf s.mem = true) :
    Memory.wf (apertureWrite b s addr bs).mem = true := by
  induction bs generalizing s addr with
  | nil => exact h
  | cons b bs ih =>
    refine ih _ _ ?_
    split
    · simpa using Memory.wf_write _ _ _ h
    · exact h

/-- The memory after reset is in canonical form. -/
theorem reset_mem_wf : Memory.wf State.reset.mem = true := rfl

/-! ## Bytes and numbers -/

/-- A number's low `n` bytes put together again. -/
theorem fromBytes_toBytes (n u : Nat) : fromBytes (toBytes n u) = u % 256 ^ n := by
  induction n generalizing u with
  | zero => simp [toBytes, fromBytes, Nat.mod_one]
  | succ n ih =>
    have hp : 256 ^ (n + 1) = 256 * 256 ^ n := Nat.pow_succ'
    rw [hp, Nat.mod_mul]
    simp [toBytes, fromBytes, ih]

/-- `n` bytes. -/
theorem toBytes_length (n u : Nat) : (toBytes n u).length = n := by
  induction n generalizing u with
  | zero => rfl
  | succ n ih => simp [toBytes, ih]

end Sys2Proof.Machine
end

