-- ==== Sys2Proof/Laws/Ops.lean ====
section
/-! SUPPORT. What each shared operation can do, said once: how a command ends, the log FIFO, buffers and
stored reals. Later proofs cite these and do not unfold the operations. -/

namespace Sys2Proof.Machine

/-! ## How a command ends -/

/-- A list of checks finds nothing, or the first check that fails, everything before it holding. -/
theorem firstFailure_cases (cs : List Check) :
    ((∀ c ∈ cs, c.fails = false) ∧ firstFailure cs = none) ∨
    ∃ pre c post, cs = pre ++ c :: post ∧ (∀ d ∈ pre, d.fails = false) ∧ c.fails = true ∧
      firstFailure cs = some (c.code, c.aux) := by
  induction cs with
  | nil => exact .inl ⟨by simp, rfl⟩
  | cons c cs ih =>
    by_cases hc : c.fails = true
    · exact .inr ⟨[], c, cs, rfl, by simp, hc, by simp [firstFailure, hc]⟩
    · have hc' : c.fails = false := by simpa using hc
      rcases ih with ⟨h1, h2⟩ | ⟨pre, d, post, h1, h2, h3, h4⟩
      · exact .inl ⟨by simpa [hc'] using h1, by simp [firstFailure, hc', h2]⟩
      · exact .inr ⟨c :: pre, d, post, by simp [h1], by simpa [hc'] using h2, h3,
          by simp [firstFailure, hc', h4]⟩

/-- No check fails: the list finds nothing. -/
theorem firstFailure_none {cs : List Check} (h : ∀ c ∈ cs, c.fails = false) : firstFailure cs = none := by
  rcases firstFailure_cases cs with ⟨_, h2⟩ | ⟨pre, c, post, rfl, _, h3, _⟩
  · exact h2
  · simp [h c (by simp)] at h3

/-- Checks and an effect: the effect, or the error of a check that fails. -/
theorem checked_cases (s : State) (cs : List Check) (effect : State) :
    ((∀ c ∈ cs, c.fails = false) ∧ checked s cs effect = effect) ∨
    ∃ c ∈ cs, c.fails = true ∧ checked s cs effect = raise s c.code c.aux := by
  rcases firstFailure_cases cs with ⟨h1, h2⟩ | ⟨pre, c, post, rfl, _, h3, h4⟩
  · exact .inl ⟨h1, by simp [checked, h2]⟩
  · exact .inr ⟨c, by simp, h3, by simp [checked, h4]⟩

/-- Checks that hold leave the effect. -/
theorem checked_pass (s : State) {cs : List Check} (effect : State) (h : ∀ c ∈ cs, c.fails = false) :
    checked s cs effect = effect := by
  simp [checked, firstFailure_none h]

/-- A command legal in `INITIALIZED` and `READY`. -/
theorem whenConstructed_pass (s : State) (effect : State) (h : s.fsm ≠ .uninit) :
    whenConstructed s effect = effect := by simp [whenConstructed, h]

/-- A command legal in `INITIALIZED` and `READY`, in `UNINIT`. -/
theorem whenConstructed_fail (s : State) (effect : State) (h : s.fsm = .uninit) :
    whenConstructed s effect = raise s .eState 0#32 := by simp [whenConstructed, h, Fsm.code]

/-- A command legal in `READY` only. -/
theorem whenReady_pass (s : State) (effect : State) (h : s.fsm = .ready) :
    whenReady s effect = effect := by simp [whenReady, h]

/-- A command legal in `READY` only, elsewhere. -/
theorem whenReady_fail (s : State) (effect : State) (h : s.fsm ≠ .ready) :
    whenReady s effect = raise s .eState (BitVec.ofNat 32 s.fsm.code) := by simp [whenReady, h]

/-! ## The log FIFO -/

/-- A log record is appended, or dropped with `log_lost` set; nothing else changes. -/
theorem logEvent_cases (b : Config.Build) (s : State) (r : LogRecord) :
    (s.log.length < b.logDepth ∧ logEvent b s r = { s with log := s.log ++ [r] }) ∨
    (b.logDepth ≤ s.log.length ∧ logEvent b s r = { s with logLost := true }) := by
  unfold logEvent
  split
  · exact .inl ⟨‹_›, rfl⟩
  · exact .inr ⟨by omega, rfl⟩

/-- Logging keeps the depth of the FIFO. -/
theorem logEvent_depth (b : Config.Build) (s : State) (r : LogRecord) (h : s.log.length ≤ b.logDepth) :
    (logEvent b s r).log.length ≤ b.logDepth := by
  rcases logEvent_cases b s r with ⟨h1, h2⟩ | ⟨_, h2⟩
  · rw [h2]
    simpa using Nat.succ_le_of_lt h1
  · rw [h2]
    exact h

/-- A read of `LOG_POP` keeps the depth of the FIFO. -/
theorem logPopEffect_depth (b : Config.Build) (s : State) (h : s.log.length ≤ b.logDepth) :
    (logPopEffect s).log.length ≤ b.logDepth := by
  unfold logPopEffect
  split
  · exact h
  · rename_i r rest hl
    split
    · simp only [hl, List.length_cons] at h
      exact Nat.le_of_succ_le h
    · exact h

/-- Using a plan: the bit was set, or it is set and a record is logged. -/
theorem usePlan_cases (b : Config.Build) (s : State) (inv inpl : Bool) :
    ((planWord s.plan inv inpl).getLsbD s.lat.order = true ∧ usePlan b s inv inpl = s) ∨
    ((planWord s.plan inv inpl).getLsbD s.lat.order = false ∧ usePlan b s inv inpl =
      logEvent b
        { s with plan := setPlanWord s.plan inv inpl
                  (planWord s.plan inv inpl ||| BitVec.ofNat 32 (2 ^ s.lat.order)) }
        (planRecord inv inpl s.lat.order)) := by
  by_cases h : (planWord s.plan inv inpl).getLsbD s.lat.order = true
  · exact .inl ⟨h, by simp [usePlan, h]⟩
  · exact .inr ⟨by simpa using h, by simp [usePlan, h]⟩

/-! ## Channels -/

/-- A channel that was replaced. -/
theorem chan_setChan_self (s : State) (c : Nat) (ch : Channel) (h : c < s.chans.length) :
    (s.setChan c ch).chan c = ch := by simp [State.chan, h]

/-- The other channels. -/
theorem chan_setChan_ne (s : State) (c d : Nat) (ch : Channel) (h : d ≠ c) :
    (s.setChan c ch).chan d = s.chan d := by
  simp [State.chan, List.getD_eq_getElem?_getD, h.symm]

/-- Replacing a channel that is not there changes nothing. -/
theorem setChan_out (s : State) (c : Nat) (ch : Channel) (h : s.chans.length ≤ c) : s.setChan c ch = s := by
  simp [State.setChan, List.set_eq_of_length_le h]

/-- Replacing a channel by one that differs in its arena buffers only keeps every book. -/
theorem setChan_book (s : State) (c : Nat) (ch : Channel) (h : ch.book = (s.chan c).book) (d : Nat) :
    ((s.setChan c ch).chan d).book = (s.chan d).book := by
  by_cases hd : d = c
  · subst hd
    by_cases hl : d < s.chans.length
    · rw [chan_setChan_self _ _ _ hl, h]
    · rw [setChan_out _ _ _ (by omega)]
  · rw [chan_setChan_ne _ _ _ _ hd]

/-- Replacing a channel keeps their number. -/
theorem setChan_length (s : State) (c : Nat) (ch : Channel) :
    (s.setChan c ch).chans.length = s.chans.length := by simp

/-! ## Stored reals -/

/-- A buffer cut or filled to `n` elements has `n`. -/
theorem fitTo_length (n : Nat) (b : Buf) : (fitTo n b).length = n := by
  induction n generalizing b with
  | zero => rfl
  | succ n ih => cases b <;> simp [fitTo, ih]

/-- Element `e` of a buffer cut or filled to `n` elements. -/
theorem fitTo_getD (n : Nat) (b : Buf) (e : Nat) (h : e < n) : (fitTo n b).getD e 0#64 = b.getD e 0#64 := by
  induction n generalizing b e with
  | zero => omega
  | succ n ih =>
    cases b with
    | nil => cases e with
      | zero => rfl
      | succ e => simpa [fitTo] using ih [] e (by omega)
    | cons x xs => cases e with
      | zero => rfl
      | succ e => simpa [fitTo] using ih xs e (by omega)

/-- A buffer of `n` elements is not changed by cutting it to `n`. -/
theorem fitTo_eq_self (n : Nat) (b : Buf) (h : b.length = n) : fitTo n b = b := by
  induction n generalizing b with
  | zero => simpa [fitTo] using (List.length_eq_zero_iff.1 h).symm
  | succ n ih =>
    cases b with
    | nil => simp at h
    | cons x xs => simp [fitTo, ih xs (by simpa using h)]

/-- As many elements are stored as there are reals. -/
theorem packReals_length (p : Prec) (ctr e : Nat) (xs : List FReal) :
    (packReals p ctr e xs).length = xs.length := by
  induction xs generalizing e with
  | nil => rfl
  | cons x xs ih => simp [packReals, ih]

/-- Element `i` of stored reals: the bits of real `i`, a NaN's chosen by the store and the element. -/
theorem packReals_getD (p : Prec) (ctr e : Nat) (xs : List FReal) (i : Nat) (h : i < xs.length) :
    (packReals p ctr e xs).getD i 0#64 = pack p (Config.nanCode ctr (e + i)) xs[i] := by
  induction xs generalizing e i with
  | nil => simp at h
  | cons x xs ih =>
    cases i with
    | zero => simp [packReals]
    | succ i =>
      have := ih (e + 1) i (by simpa using h)
      simpa [packReals, Nat.add_assoc, Nat.add_comm 1 i] using this

/-- A store of reals touches the arena and the counter of free values alone. -/
theorem storeReals_eq (s : State) (r : BufRef) (xs : List FReal) :
    storeReals s r xs =
      { s with chans := (storeReals s r xs).chans, scr := (storeReals s r xs).scr,
               freeCtr := s.freeCtr + 1 } := by
  cases r <;> rfl

/-- A store of reals at an offset touches the arena and the counter of free values alone. -/
theorem storeRealsAt_eq (s : State) (r : BufRef) (off : Nat) (xs : List FReal) :
    storeRealsAt s r off xs =
      { s with chans := (storeRealsAt s r off xs).chans, scr := (storeRealsAt s r off xs).scr,
               freeCtr := s.freeCtr + 1 } := by
  cases r <;> rfl

/-- Writing a buffer keeps what every channel holds besides its arena buffers. -/
theorem setBuf_book (s : State) (r : BufRef) (b : Buf) (c : Nat) :
    ((setBuf s r b).chan c).book = (s.chan c).book := by
  cases r with
  | tb d i => exact setChan_book _ _ _ (by split <;> rfl) _
  | ring d i => exact setChan_book _ _ _ (by rfl) _
  | acc d => exact setChan_book _ _ _ (by rfl) _
  | scr i => rfl
  | coef d i => rfl
  | invalid => rfl

/-- A buffer that exists is read back after it is written, when the state has room for it. -/
theorem getBuf_setBuf_self (s : State) (r : BufRef) (b : Buf)
    (hw : refWritable r = true)
    (hc : ∀ c i, r = .tb c i ∨ r = .ring c i ∨ r = .acc c → c < s.chans.length)
    (hr : ∀ c i, r = .ring c i → i < (s.chan c).ring.length)
    (hs : ∀ i, r = .scr i → i < s.scr.length) :
    getBuf (setBuf s r b) r = b := by
  cases r with
  | tb c i =>
    have h := hc c i (.inl rfl)
    simp only [getBuf, setBuf, chan_setChan_self _ _ _ h]
    split <;> rfl
  | ring c i =>
    have h := hc c i (.inr (.inl rfl))
    simp [getBuf, setBuf, chan_setChan_self _ _ _ h, hr c i rfl]
  | acc c =>
    have h := hc c 0 (.inr (.inr rfl))
    simp [getBuf, setBuf, chan_setChan_self _ _ _ h]
  | scr i => simp [getBuf, setBuf, hs i rfl]
  | coef c i => simp [refWritable] at hw
  | invalid => simp [refWritable] at hw

end Sys2Proof.Machine
end

