-- ==== Sys2Proof/Laws/Invariants.lean ====
section
/-! SUPPORT. What the invariants depend on: the engine's own fields, and nothing of the host's registers, the
port, the memory or the result. -/

namespace Sys2Proof.Machine

/-- The two states hold one engine. -/
structure SameEngine (s t : State) : Prop where
  fsm : t.fsm = s.fsm
  lat : t.lat = s.lat
  blockCounter : t.blockCounter = s.blockCounter
  bufSel : t.bufSel = s.bufSel
  chans : t.chans = s.chans
  scr : t.scr = s.scr
  tableSize : t.tableSize = s.tableSize
  spacing : t.spacing = s.spacing
  randvec : t.randvec = s.randvec
  plan : t.plan = s.plan

/-- One engine has one list of channels. -/
theorem SameEngine.chan {s t : State} (h : SameEngine s t) (c : Nat) : t.chan c = s.chan c := by
  simp [State.chan, h.chans]

/-- One engine has one number of channels. -/
theorem SameEngine.channels {s t : State} (h : SameEngine s t) : t.channels = s.channels := by
  simp [State.channels, h.lat]

/-- A channel's shape depends on the engine alone. -/
theorem ChannelInv.congr {s t : State} {c : Nat} (h : SameEngine s t) (i : ChannelInv s c) :
    ChannelInv t c := by
  constructor <;> simp only [h.chan, h.channels, h.lat, h.tableSize]
  · exact i.descIn
  · exact i.descOut
  · exact i.ditherOn
  · exact i.processed
  · exact i.coefNBlocks
  · exact i.coefCount
  · exact i.coefSize
  · exact i.cursor
  · exact i.max
  · exact i.tb0
  · exact i.tb1
  · exact i.acc
  · exact i.ringCount
  · exact i.ringSize

/-- The shape of a built engine depends on the engine alone. -/
theorem BuiltInv.congr {b : Config.Build} {s t : State} (h : SameEngine s t) (i : BuiltInv b s) : BuiltInv b t := by
  constructor <;>
    simp only [h.chan, h.channels, h.lat, h.tableSize, h.spacing, h.randvec, h.plan, h.scr]
  · exact i.blockLen
  · exact i.nBlocksLow
  · exact i.nBlocksHigh
  · exact i.channelsLow
  · exact i.channelsHigh
  · exact i.fmtIn
  · exact i.fmtOut
  · exact i.rate
  · exact i.spacing
  · exact i.tableSize
  · exact i.tableHigh
  · exact i.randvec
  · exact i.arena
  · exact i.inBytes
  · exact i.outBytes
  · exact i.plan
  · exact i.scrCount
  · exact i.scrSize
  · exact fun c hc => (i.channel c hc).congr h
  · exact i.unused

/-- The absence of an engine depends on the engine alone. -/
theorem NoEngineInv.congr {s t : State} (h : SameEngine s t) (i : NoEngineInv s) : NoEngineInv t := by
  constructor <;>
    simp only [h.chan, h.lat, h.tableSize, h.spacing, h.randvec, h.plan, h.scr, h.blockCounter, h.bufSel]
  · exact i.lat
  · exact i.chans
  · exact i.scr
  · exact i.randvec
  · exact i.tableSize
  · exact i.spacing
  · exact i.plan
  · exact i.blockCounter
  · exact i.bufSel

/-- The shape of the engine depends on the engine alone. -/
theorem EngineInv.congr {b : Config.Build} {s t : State} (h : SameEngine s t) (i : EngineInv b s) :
    EngineInv b t where
  chans := by rw [h.chans]; exact i.chans
  none := fun hu => (i.none (by rw [← h.fsm]; exact hu)).congr h
  built := fun hu => (i.built (by rw [← h.fsm]; exact hu)).congr h

/-! ## Deciding the shape of a given engine -/

/-- A channel number outside the list names an empty channel. -/
theorem chan_out (s : State) (c : Nat) (h : s.chans.length ≤ c) : s.chan c = .reset := by
  simp [State.chan, List.getD_eq_getElem?_getD, List.getElem?_eq_none h]

/-- The shape of a channel, as one decidable statement. -/
abbrev ChannelOk (s : State) (c : Nat) : Prop :=
  (s.chan c).descIn = sampleDesc s.lat.fmtIn s.channels c ∧
  (s.chan c).descOut = sampleDesc s.lat.fmtOut s.channels c ∧
  (s.chan c).ditherOn = (s.lat.applyDither && !fmtIsFloat s.lat.fmtOut.toNat) ∧
  (s.chan c).processed.toNat ≤ s.lat.nBlocks.toNat ∧
  (s.chan c).coefNBlocks.toNat ≤ s.lat.nBlocks.toNat ∧
  (s.chan c).coef.length = (s.chan c).coefNBlocks.toNat ∧
  (∀ b ∈ (s.chan c).coef, b.length = s.lat.size) ∧
  (s.chan c).dstate.cursor.toNat < s.tableSize.toNat ∧
  (s.chan c).ovf.max = formatMax (s.chan c).descOut ∧
  (s.chan c).tb0.length = s.lat.size ∧
  (s.chan c).tb1.length = s.lat.size ∧
  (s.chan c).acc.length = s.lat.size ∧
  (s.chan c).ring.length = s.lat.nBlocks.toNat ∧
  (∀ b ∈ (s.chan c).ring, b.length = s.lat.size)

/-- The shape of a built engine, as one decidable statement. -/
abbrev BuiltOk (b : Config.Build) (s : State) : Prop :=
  s.chans.length = b.maxChannels ∧ s.fsm ≠ .uninit ∧
  (∃ k : Nat, k < b.maxOrder ∧ b.minOrder ≤ k + 1 ∧ k + 1 ≤ b.maxOrder ∧ s.lat.blockLen.toNat = 2 ^ k) ∧
  1 ≤ s.lat.nBlocks.toNat ∧
  s.lat.nBlocks.toNat ≤ b.maxBlocks ∧
  1 ≤ s.channels ∧
  s.channels ≤ b.maxChannels ∧
  fmtValid s.lat.fmtIn.toNat = true ∧
  fmtValid s.lat.fmtOut.toNat = true ∧
  1 ≤ s.lat.rate.toNat ∧
  s.spacing.toNat = max s.lat.rate.toNat s.lat.blockLen.toNat ∧
  s.tableSize.toNat = s.channels * s.spacing.toNat ∧
  s.tableSize.toNat ≤ b.ditherTableMax ∧
  s.randvec.length = s.tableSize.toNat ∧
  s.lat.size * s.lat.prec.bytes * (s.channels * (s.lat.nBlocks.toNat + 3) + 4) ≤ b.arenaMaxBytes ∧
  s.lat.blockLen.toNat * s.channels * fmtBytes s.lat.fmtIn.toNat ≤ b.iobufMaxBytes ∧
  s.lat.blockLen.toNat * s.channels * fmtBytes s.lat.fmtOut.toNat ≤ b.iobufMaxBytes ∧
  (∀ inv inpl : Bool, planWord s.plan inv inpl = 0#32 ∨
    planWord s.plan inv inpl = BitVec.ofNat 32 (2 ^ s.lat.order)) ∧
  s.scr.length = 4 ∧
  (∀ x ∈ s.scr, x.length = s.lat.size) ∧
  (∀ c : Nat, c < s.channels → ChannelOk s c) ∧
  (∀ c : Nat, c < b.maxChannels → s.channels ≤ c → s.chan c = .reset)

/-- A channel found well shaped is. -/
theorem ChannelOk.inv {s : State} {c : Nat} (h : ChannelOk s c) : ChannelInv s c := by
  obtain ⟨h1, h2, h3, h4, h5, h6, h7, h8, h9, h10, h11, h12, h13, h14⟩ := h
  exact ⟨h1, h2, h3, h4, h5, h6, h7, h8, h9, h10, h11, h12, h13, h14⟩

/-- An engine found well shaped is. -/
theorem BuiltOk.inv {b : Config.Build} {s : State} (h : BuiltOk b s) : EngineInv b s := by
  obtain ⟨hl, hf, ⟨k, -, hk⟩, h1, h2, h3, h4, h5, h6, h7, h8, h9, h10, h11, h12, h13, h14, h15, h16, h17,
    hc, hu⟩ := h
  refine ⟨hl, fun hn => absurd hn hf, fun _ => ⟨⟨k, hk⟩, h1, h2, h3, h4, h5, h6, h7, h8, h9, h10, h11, h12,
    h13, h14, h15, h16, h17, fun c hlt => (hc c hlt).inv, fun c hle => ?_⟩⟩
  by_cases hm : c < b.maxChannels
  · exact hu c hm hle
  · exact chan_out s c (by omega)

end Sys2Proof.Machine
end

