-- ==== Sys2Proof/Laws/PerInstr.lean ====
section
/-! SUPPORT. Statements made for every instruction, one lemma per constructor. -/

namespace Sys2Proof.Laws.EncodeFields

/-- The fields of an instruction's command word are its opcode, its small operand and its mode, and the
reserved bits are 0 (`30_encoding.md` R101). -/
def Statement (i : Instr) : Prop :=
  i.wellFormed = true →
    opField (encode i) = i.opcode ∧ faField (encode i) = i.fa ∧ fbField (encode i) = i.fb ∧
      rsvField (encode i) = 0

/-- The fields of a word put together from its fields. -/
theorem fields (op fa fb : Nat) (h1 : op < 256) (h2 : fa < 16) (h3 : fb < 16) :
    opField (BitVec.ofNat 32 (op + fa * 256 + fb * 4096)) = op ∧
      faField (BitVec.ofNat 32 (op + fa * 256 + fb * 4096)) = fa ∧
      fbField (BitVec.ofNat 32 (op + fa * 256 + fb * 4096)) = fb ∧
      rsvField (BitVec.ofNat 32 (op + fa * 256 + fb * 4096)) = 0 := by
  simp only [opField, faField, fbField, rsvField, BitVec.toNat_ofNat]
  omega

theorem construct : Statement .construct := fun _ => fields 0x01 0 0 (by decide) (by decide) (by decide)
theorem setCoeff : Statement .setCoeff := fun _ => fields 0x02 0 0 (by decide) (by decide) (by decide)
theorem run : Statement .run := fun _ => fields 0x03 0 0 (by decide) (by decide) (by decide)
theorem reset : Statement .reset := fun _ => fields 0x04 0 0 (by decide) (by decide) (by decide)
theorem checkOverflows : Statement .checkOverflows :=
  fun _ => fields 0x05 0 0 (by decide) (by decide) (by decide)
theorem isInitialized : Statement .isInitialized :=
  fun _ => fields 0x06 0 0 (by decide) (by decide) (by decide)
theorem timeToFreq : Statement .timeToFreq := fun _ => fields 0x10 0 0 (by decide) (by decide) (by decide)
theorem freqToTime : Statement .freqToTime := fun _ => fields 0x11 0 0 (by decide) (by decide) (by decide)
theorem mixAndScaleIn (n : Nat) : Statement (.mixAndScaleIn n) :=
  fun h => fields 0x12 n 0 (by decide) (of_decide_eq_true h) (by decide)
theorem mixAndScaleOut (n : Nat) : Statement (.mixAndScaleOut n) :=
  fun h => fields 0x12 n 1 (by decide) (of_decide_eq_true h) (by decide)
theorem convolve : Statement .convolve := fun _ => fields 0x18 0 0 (by decide) (by decide) (by decide)
theorem convolveAdd : Statement .convolveAdd := fun _ => fields 0x19 0 0 (by decide) (by decide) (by decide)
theorem convolveInplace : Statement .convolveInplace :=
  fun _ => fields 0x1A 0 0 (by decide) (by decide) (by decide)
theorem diracConvolve : Statement .diracConvolve :=
  fun _ => fields 0x1B 0 0 (by decide) (by decide) (by decide)
theorem diracConvolveInplace : Statement .diracConvolveInplace :=
  fun _ => fields 0x1C 0 0 (by decide) (by decide) (by decide)
theorem coeffsToInternal (ch : Nat) : Statement (.coeffsToInternal ch) :=
  fun h => fields 0x20 ch 0 (by decide) (of_decide_eq_true h) (by decide)
theorem verify (n : Nat) : Statement (.verify n) :=
  fun h => fields 0x21 n 0 (by decide) (of_decide_eq_true h) (by decide)
theorem decodeSamples (ch : Nat) : Statement (.decodeSamples ch) :=
  fun h => fields 0x28 ch 0 (by decide) (of_decide_eq_true h) (by decide)
theorem encodeSamples (ch : Nat) : Statement (.encodeSamples ch) :=
  fun h => fields 0x29 ch 0 (by decide) (of_decide_eq_true h) (by decide)

end Sys2Proof.Laws.EncodeFields
end

