-- ==== Sys2Proof/Laws/Transform.lean ====
section
/-! SUPPORT. What the transform does to silence and to NaN: with a finite twiddle ROM zeros stay zeros, and with
any ROM a NaN in every pair of the first stage reaches every output. -/

namespace Sys2Proof.Machine

/-- A zero of either sign. -/
def IsZero (x : FReal) : Prop := ∃ neg : Bool, x = .fin neg 0

/-- A complex value whose real part is a NaN. -/
def ReNan (z : ComplexValue) : Prop := z.1 = .nan

/-- Zero rounds to zero. -/
theorem roundReal_zero (p : Prec) (neg : Bool) (x : Nat) : roundReal p neg x 0 = .fin neg 0 := by
  have h : roundMag p x 0 = 0 := by simp [roundMag, roundNearestEven]
  have h2 : ¬ Prec.tooLarge p ≤ 0 := by
    unfold Prec.tooLarge
    split <;> exact Nat.not_le_of_lt (Nat.two_pow_pos _)
  simp [roundReal, h, h2]

/-- A finite value times zero. -/
theorem IsZero.mul_left (p : Prec) (n : Bool) (m : Nat) {x : FReal} (h : IsZero x) :
    IsZero (fmul p (.fin n m) x) := by
  obtain ⟨b, rfl⟩ := h
  exact ⟨_, by simp [fmul, roundReal_zero]; rfl⟩

/-- Zero plus zero. -/
theorem IsZero.add (p : Prec) {x y : FReal} (hx : IsZero x) (hy : IsZero y) : IsZero (fadd p x y) := by
  obtain ⟨a, rfl⟩ := hx
  obtain ⟨b, rfl⟩ := hy
  exact ⟨a && b, by cases a <;> cases b <;> simp [fadd, signedUnits]⟩

/-- The negation of zero. -/
theorem IsZero.neg {x : FReal} (h : IsZero x) : IsZero (fneg x) := by
  obtain ⟨a, rfl⟩ := h
  exact ⟨!a, rfl⟩

/-- Zero minus zero. -/
theorem IsZero.sub (p : Prec) {x y : FReal} (hx : IsZero x) (hy : IsZero y) : IsZero (fsub p x y) :=
  hx.add p hy.neg

/-- Zero is finite. -/
theorem IsZero.finite {x : FReal} (h : IsZero x) : isFinite x = true := by
  obtain ⟨a, rfl⟩ := h
  rfl

/-- A ROM whose factors for a precision and an order are all finite: what a claim about silence assumes of it
(R143). -/
def FiniteRom (bp : Config.Build) (p : Prec) (o : Nat) : Prop :=
  ∀ k : Nat, isFinite (twiddle bp p o k).1 = true ∧ isFinite (twiddle bp p o k).2 = true

/-- A finite real is a sign and a magnitude. -/
theorem isFinite_fin {x : FReal} (h : isFinite x = true) : ∃ n m, x = .fin n m := by
  cases x <;> simp_all [isFinite]

/-- A factor of a butterfly is finite when the ROM is. -/
theorem FiniteRom.stage {bp : Config.Build} {p : Prec} {o : Nat} (h : FiniteRom bp p o) (inv : Bool) (k : Nat) :
    ∃ a m b n, stageTwiddle bp p o inv k = (.fin a m, .fin b n) := by
  obtain ⟨a, m, h1⟩ := isFinite_fin (h k).1
  obtain ⟨b, n, h2⟩ := isFinite_fin (h k).2
  unfold stageTwiddle
  cases inv
  · exact ⟨a, m, b, n, by simp [h1, h2]⟩
  · exact ⟨a, m, !b, n, by simp [h1, h2, fneg]⟩

/-- A butterfly of zeros. -/
theorem butterfly_zero (p : Prec) (a b : ComplexValue) (n m : Nat) (x y : Bool)
    (ha : IsZero a.1 ∧ IsZero a.2) (hb : IsZero b.1 ∧ IsZero b.2) :
    (IsZero (butterfly p a b (.fin x n, .fin y m)).1.1 ∧ IsZero (butterfly p a b (.fin x n, .fin y m)).1.2) ∧
    (IsZero (butterfly p a b (.fin x n, .fin y m)).2.1 ∧ IsZero (butterfly p a b (.fin x n, .fin y m)).2.2) := by
  have htr := (hb.1.mul_left p x n).sub p (hb.2.mul_left p y m)
  have hti := (hb.2.mul_left p x n).add p (hb.1.mul_left p y m)
  exact ⟨⟨ha.1.add p htr, ha.2.add p hti⟩, ⟨ha.1.sub p htr, ha.2.sub p hti⟩⟩

/-- A sum with a NaN on the left. -/
theorem fadd_nan_left (p : Prec) (x : FReal) : fadd p .nan x = .nan := by simp [fadd]

/-- A sum with a NaN on the right. -/
theorem fadd_nan_right (p : Prec) (x : FReal) : fadd p x .nan = .nan := by cases x <;> simp [fadd]

/-- A difference with a NaN. -/
theorem fsub_nan (p : Prec) (x y : FReal) (h : x = .nan ∨ y = .nan) : fsub p x y = .nan := by
  rcases h with rfl | rfl
  · simp [fsub, fadd_nan_left]
  · simp [fsub, fneg, fadd_nan_right]

/-- A product with a NaN on the right. -/
theorem fmul_nan_right (p : Prec) (x : FReal) : fmul p x .nan = .nan := by cases x <;> simp [fmul]

/-- A butterfly with a NaN in the real part of either input has one in the real part of both outputs. -/
theorem butterfly_nan (p : Prec) (a b w : ComplexValue) (h : ReNan a ∨ ReNan b) :
    ReNan (butterfly p a b w).1 ∧ ReNan (butterfly p a b w).2 := by
  unfold ReNan butterfly at *
  rcases h with h | h
  · simp [h, fadd_nan_left, fsub_nan]
  · simp [h, fmul_nan_right, fsub_nan, fadd_nan_right]

/-! ## Lists -/

/-- Element `i` of a list built over a range. -/
theorem cnth_map_range (n i : Nat) (f : Nat → ComplexValue) (h : i < n) : cnth ((List.range n).map f) i = f i := by
  simp [cnth, List.getD_eq_getElem?_getD, h]

/-- Element `i` of a list of reals built over a range. -/
theorem nth_map_range (n i : Nat) (f : Nat → FReal) (h : i < n) : nth ((List.range n).map f) i = f i := by
  simp [nth, List.getD_eq_getElem?_getD, h]

/-- A reversed number stays within its bits. -/
theorem bitrev_lt (o n : Nat) : bitrev o n < 2 ^ o := by
  induction o generalizing n with
  | zero => simp [bitrev]
  | succ o ih =>
    have h1 := ih (n / 2)
    have h2 : n % 2 < 2 := Nat.mod_lt _ (by omega)
    have h3 : n % 2 * 2 ^ o ≤ 1 * 2 ^ o := Nat.mul_le_mul_right _ (by omega)
    simp only [bitrev, Nat.pow_succ]
    omega

/-- The partner of a butterfly's upper input is inside the transform. -/
theorem partner_lt (o s i : Nat) (hs : 1 ≤ s) (hso : s ≤ o) (hi : i < 2 ^ o) (hj : i % 2 ^ s < 2 ^ (s - 1)) :
    i + 2 ^ (s - 1) < 2 ^ o := by
  have h1 : 2 ^ s = 2 * 2 ^ (s - 1) := by
    obtain ⟨t, rfl⟩ := Nat.exists_eq_add_of_le' hs
    simp [Nat.pow_succ, Nat.mul_comm]
  have h2 : 2 ^ o = 2 ^ s * 2 ^ (o - s) := by rw [← Nat.pow_add]; congr 1; omega
  have h3 : i / 2 ^ s < 2 ^ (o - s) := by
    rw [Nat.div_lt_iff_lt_mul (Nat.two_pow_pos s), Nat.mul_comm, ← h2]; exact hi
  have h4 : 2 ^ s * (i / 2 ^ s) + i % 2 ^ s = i := Nat.div_add_mod i (2 ^ s)
  have h5 : 2 ^ s * (i / 2 ^ s + 1) ≤ 2 ^ s * 2 ^ (o - s) := Nat.mul_le_mul_left _ h3
  rw [Nat.mul_add, Nat.mul_one] at h5
  omega

/-- One stage keeps a property that every butterfly of the stage keeps. -/
theorem fftStage_all (bp : Config.Build) (p : Prec) (o : Nat) (inv : Bool) (s : Nat) (P : ComplexValue → Prop)
    (hb : ∀ a b k, P a → P b → P (butterfly p a b (stageTwiddle bp p o inv k)).1 ∧
      P (butterfly p a b (stageTwiddle bp p o inv k)).2)
    (hs : 1 ≤ s) (hso : s ≤ o) (xs : List ComplexValue) (hx : ∀ i, i < 2 ^ o → P (cnth xs i)) :
    ∀ i, i < 2 ^ o → P (cnth (fftStage bp p o inv s xs) i) := by
  intro i hi
  unfold fftStage
  rw [cnth_map_range _ _ _ hi]
  dsimp only
  split
  · rename_i hj
    exact (hb _ _ _ (hx _ hi) (hx _ (partner_lt o s i hs hso hi hj))).1
  · exact (hb _ _ _ (hx _ (Nat.lt_of_le_of_lt (Nat.sub_le _ _) hi)) (hx _ hi)).2

/-- The stages together keep a property that every butterfly keeps. -/
theorem fftStages_all (bp : Config.Build) (p : Prec) (o : Nat) (inv : Bool) (P : ComplexValue → Prop)
    (hb : ∀ a b k, P a → P b → P (butterfly p a b (stageTwiddle bp p o inv k)).1 ∧
      P (butterfly p a b (stageTwiddle bp p o inv k)).2)
    (ks : List Nat) (hk : ∀ k ∈ ks, k < o) (xs : List ComplexValue) (hx : ∀ i, i < 2 ^ o → P (cnth xs i)) :
    ∀ i, i < 2 ^ o → P (cnth (ks.foldl (fun ys k => fftStage bp p o inv (k + 1) ys) xs) i) := by
  induction ks generalizing xs with
  | nil => exact hx
  | cons k ks ih =>
    simp only [List.foldl_cons]
    exact ih (fun j hj => hk j (by simp [hj])) _
      (fftStage_all bp p o inv (k + 1) P hb (by omega) (hk k (by simp)) xs hx)

/-- The transform keeps a property that every butterfly keeps. -/
theorem fft_all (bp : Config.Build) (p : Prec) (o : Nat) (inv : Bool) (P : ComplexValue → Prop)
    (hb : ∀ a b k, P a → P b → P (butterfly p a b (stageTwiddle bp p o inv k)).1 ∧
      P (butterfly p a b (stageTwiddle bp p o inv k)).2)
    (xs : List ComplexValue) (hx : ∀ i, i < 2 ^ o → P (cnth xs i)) :
    ∀ i, i < 2 ^ o → P (cnth (fft bp p o inv xs) i) := by
  refine fftStages_all bp p o inv P hb _ (by simp) _ (fun i hi => ?_)
  unfold bitReversed
  rw [cnth_map_range _ _ _ hi]
  exact hx _ (bitrev_lt o i)

/-- Silence transforms to silence when the ROM is finite. -/
theorem fft_zero (bp : Config.Build) (p : Prec) (o : Nat) (inv : Bool) (xs : List ComplexValue)
    (hw : FiniteRom bp p o)
    (hx : ∀ i, i < 2 ^ o → IsZero (cnth xs i).1 ∧ IsZero (cnth xs i).2) :
    ∀ i, i < 2 ^ o → IsZero (cnth (fft bp p o inv xs) i).1 ∧ IsZero (cnth (fft bp p o inv xs) i).2 := by
  refine fft_all bp p o inv (fun z => IsZero z.1 ∧ IsZero z.2) (fun a b k ha hb => ?_) xs hx
  obtain ⟨x, n, y, m, h⟩ := hw.stage inv k
  rw [h]
  exact butterfly_zero p a b n m x y ha hb

/-- A transform of at least two points whose inputs `i` and `i + N/2` are never both without a NaN in the real
part has a NaN in the real part of every output. -/
theorem fft_nan (bp : Config.Build) (p : Prec) (o : Nat) (inv : Bool) (xs : List ComplexValue)
    (hx : ∀ i, i < 2 ^ o → ReNan (cnth xs (2 ^ o + i)) ∨ ReNan (cnth xs (i + 2 ^ o))) :
    ∀ i, i < 2 ^ (o + 1) → ReNan (cnth (fft bp p (o + 1) inv xs) i) := by
  have hodd : ∀ i, i % 2 = 1 → ReNan (cnth (bitReversed (o + 1) xs) i) ∨ 2 ^ (o + 1) ≤ i := by
    intro i hi
    by_cases hl : i < 2 ^ (o + 1)
    · left
      unfold bitReversed
      rw [cnth_map_range _ _ _ hl]
      simp only [bitrev, hi, Nat.one_mul]
      rcases hx _ (bitrev_lt o (i / 2)) with h | h
      · exact h
      · rw [Nat.add_comm]; exact h
    · exact .inr (by omega)
  unfold fft
  rw [List.range_succ_eq_map, List.foldl_cons]
  refine fftStages_all bp p (o + 1) inv ReNan (fun a b k ha _ => butterfly_nan p a b _ (.inl ha)) _ ?_ _ ?_
  · simp
  · intro i hi
    unfold fftStage
    rw [cnth_map_range _ _ _ hi]
    dsimp only
    split
    · rename_i hj
      have hj' : i % 2 = 0 := by simpa using hj
      refine (butterfly_nan p _ _ _ (.inr ?_)).1
      have hp := partner_lt (o + 1) 1 i (by omega) (by omega) hi (by simpa using hj)
      rcases hodd (i + 1) (by omega) with h | h
      · simpa using h
      · simp at hp; omega
    · rename_i hj
      have hj' : i % 2 = 1 := by
        have : i % 2 < 2 := Nat.mod_lt _ (by omega)
        simp at hj
        omega
      refine (butterfly_nan p _ _ _ (.inr ?_)).2
      rcases hodd i hj' with h | h
      · exact h
      · omega

/-! ## Half-complex buffers -/

/-- The forward transform of silence. -/
theorem forwardReals_zero (bp : Config.Build) (p : Prec) (o : Nat) (xs : List FReal) (hw : FiniteRom bp p o)
    (hx : ∀ i, i < 2 ^ o → IsZero (nth xs i)) : ∀ x ∈ forwardReals bp p o xs, IsZero x := by
  have h := fft_zero bp p o false ((List.range (2 ^ o)).map fun n => (nth xs n, FReal.zero)) hw (by
    intro i hi
    rw [cnth_map_range _ _ _ hi]
    exact ⟨hx i hi, ⟨false, rfl⟩⟩)
  intro x hm
  unfold forwardReals at hm
  simp only [List.mem_map, List.mem_range] at hm
  obtain ⟨e, he, rfl⟩ := hm
  split
  · exact (h e he).1
  · exact (h _ (by omega)).2

/-- The forward transform of a block whose second half is NaN is NaN at element 0. -/
theorem forwardReals_nan (bp : Config.Build) (p : Prec) (o : Nat) (xs : List FReal)
    (hx : ∀ i, i < 2 ^ o → nth xs (2 ^ o + i) = .nan) : nth (forwardReals bp p (o + 1) xs) 0 = .nan := by
  have h := fft_nan bp p o false ((List.range (2 ^ (o + 1))).map fun n => (nth xs n, FReal.zero)) (by
    intro i hi
    left
    rw [cnth_map_range _ _ _ (by rw [Nat.pow_succ]; omega)]
    exact hx i hi) 0 (Nat.two_pow_pos _)
  unfold forwardReals
  rw [nth_map_range _ _ _ (Nat.two_pow_pos _)]
  simpa [ReNan] using h

/-- Element `e` of a list of zeros, or past it. -/
theorem nth_zero {xs : List FReal} (h : ∀ x ∈ xs, IsZero x) (e : Nat) : IsZero (nth xs e) := by
  unfold nth
  by_cases he : e < xs.length
  · rw [List.getD_eq_getElem?_getD, List.getElem?_eq_getElem he]
    exact h _ (List.getElem_mem he)
  · rw [List.getD_eq_getElem?_getD, List.getElem?_eq_none (by omega)]
    exact ⟨false, rfl⟩

/-- The inverse transform of silence. -/
theorem inverseReals_zero (bp : Config.Build) (p : Prec) (o : Nat) (hc : List FReal) (hw : FiniteRom bp p o)
    (hx : ∀ x ∈ hc, IsZero x) (i : Nat) (hi : i < 2 ^ o) : IsZero (nth (inverseReals bp p o hc) i) := by
  have h := fft_zero bp p o true (hermitian o hc) hw (by
    intro i hi
    unfold hermitian
    rw [cnth_map_range _ _ _ hi]
    dsimp only
    split
    · exact ⟨nth_zero hx _, ⟨false, rfl⟩⟩
    · split
      · exact ⟨nth_zero hx _, nth_zero hx _⟩
      · exact ⟨nth_zero hx _, (nth_zero hx _).neg⟩) i hi
  unfold inverseReals nth
  rw [List.getD_eq_getElem?_getD, List.getElem?_map]
  unfold cnth at h
  rw [List.getD_eq_getElem?_getD] at h
  cases hq : (fft bp p o true (hermitian o hc))[i]? with
  | none => exact ⟨false, rfl⟩
  | some z => simpa [hq] using h.1

/-- The inverse transform of a spectrum that is NaN throughout is NaN at every sample. -/
theorem inverseReals_nan (bp : Config.Build) (p : Prec) (o : Nat) (hc : List FReal)
    (hx : ∀ i, i < 2 ^ (o + 1) → nth hc i = .nan) (i : Nat) (hi : i < 2 ^ (o + 1)) :
    (cnth (fft bp p (o + 1) true (hermitian (o + 1) hc)) i).1 = .nan := by
  refine fft_nan bp p o true (hermitian (o + 1) hc) (fun i hi => .inl ?_) i hi
  unfold hermitian ReNan
  have hl : 2 ^ o + i < 2 ^ (o + 1) := by rw [Nat.pow_succ]; omega
  rw [cnth_map_range _ _ _ hl]
  dsimp only
  split
  · exact hx _ hl
  · split
    · exact hx _ hl
    · exact hx _ (by omega)

/-! ## Weighted re-ordering -/

/-- A buffer of zeros weighted by a finite number and re-ordered. -/
theorem mixOne_zero (p : Prec) (mode : MixMode) (n : Nat) (weight : FReal) (xs : List FReal)
    (hw : ∃ a m, cvt p weight = .fin a m) (hx : ∀ x ∈ xs, IsZero x) :
    ∀ x ∈ mixOne p mode n weight xs, IsZero x := by
  obtain ⟨a, m, hw⟩ := hw
  have hm : ∀ x ∈ mixed p n [cvt p weight] [xs], IsZero x := by
    intro x hx'
    unfold mixed at hx'
    simp only [List.mem_map, List.mem_range] at hx'
    obtain ⟨e, _, rfl⟩ := hx'
    simp only [List.map_cons, List.map_nil, List.zip_cons_cons, List.zip_nil_right, weightedSum,
      List.foldl_nil, hw]
    exact (nth_zero hx e).mul_left p a m
  intro x hx'
  unfold mixOne reorder reorderIn reorderOut at hx'
  cases mode
  all_goals
    simp only [List.mem_map, List.mem_range] at hx'
    obtain ⟨i, _, rfl⟩ := hx'
    repeat' split
    all_goals exact nth_zero hm _

/-- `DIRAC` of silence. -/
theorem dirac_zero (p : Prec) (o : Nat) (xs : List FReal)
    (hw : ∃ a m, cvt p (powerOfTwo (-(o : Int))) = .fin a m) (hx : ∀ x ∈ xs, IsZero x) :
    ∀ x ∈ dirac p o xs, IsZero x := by
  obtain ⟨a, m, hw⟩ := hw
  have hmul : ∀ {y : FReal}, IsZero y → ∀ n k, IsZero (fmul p y (.fin n k)) := by
    rintro y ⟨b, rfl⟩ n k
    exact ⟨_, by simp [fmul, roundReal_zero]; rfl⟩
  intro x hx'
  unfold dirac at hx'
  simp only [List.mem_map, List.mem_range, hw, fneg] at hx'
  obtain ⟨e, _, rfl⟩ := hx'
  split
  · exact hmul (nth_zero hx e) _ _
  · split
    · exact hmul (nth_zero hx e) _ _
    · exact hmul (nth_zero hx e) _ _

/-! ## Stored zeros -/

/-- A zero stored is a zero read back. -/
theorem unpack_pack_zero (p : Prec) (code : Nat) {x : FReal} (h : IsZero x) :
    IsZero (unpack p (pack p code x)) := by
  obtain ⟨n, rfl⟩ := h
  refine ⟨n, ?_⟩
  cases p <;> cases n <;>
    simp [pack, packNat, magnitudeBits, signWeight, unpack, unpackFields]

/-- A buffer of zeros stored is a buffer of zeros read back. -/
theorem stored_zero (p : Prec) (n ctr e : Nat) (xs : List FReal) (h : ∀ x ∈ xs, IsZero x) :
    ∀ x ∈ (fitTo n (packReals p ctr e xs)).map (unpack p), IsZero x := by
  induction n generalizing xs e with
  | zero => simp [fitTo]
  | succ n ih =>
    cases xs with
    | nil =>
      simp only [packReals, fitTo, List.map_cons, List.mem_cons]
      rintro x (rfl | hx)
      · exact ⟨false, by cases p <;> simp [unpack, unpackFields]⟩
      · exact ih e [] (by simp) x hx
    | cons y ys =>
      simp only [packReals, fitTo, List.map_cons, List.mem_cons]
      rintro x (rfl | hx)
      · exact unpack_pack_zero p _ (h y (by simp))
      · exact ih (e + 1) ys (fun z hz => h z (by simp [hz])) x hx

/-- What a store of reals to a buffer the state has room for reads back as. -/
theorem loadReals_storeReals (s : State) (r : BufRef) (xs : List FReal)
    (h : getBuf (setBuf s r (packReals s.lat.prec s.freeCtr 0 xs)) r = packReals s.lat.prec s.freeCtr 0 xs) :
    loadReals (storeReals s r xs) r =
      (fitTo s.lat.size (packReals s.lat.prec s.freeCtr 0 xs)).map (unpack s.lat.prec) := by
  have h2 : getBuf (storeReals s r xs) r = packReals s.lat.prec s.freeCtr 0 xs := by
    rw [← h]
    cases r <;> rfl
  simp [loadReals, h2]

/-! ## Silence and NaN through stores -/

/-- A NaN stored is a NaN read back, whatever its bits. -/
theorem unpack_pack_nan (p : Prec) (code : Nat) : unpack p (pack p code .nan) = .nan := by
  have hb : (if code % 2 = 1 then 1 else 0) ≤ 1 := by split <;> omega
  cases p
  · have hlt := Nat.mod_lt (code / 2) (show 0 < 2 ^ 23 - 1 by decide)
    have h : nanBits .p32 code = (if code % 2 = 1 then 1 else 0) * 2 ^ 31 + 2139095041
        + code / 2 % (2 ^ 23 - 1) := by
      simp only [nanBits, signWeight, infinityBits, Prec.digits]
      split <;> omega
    simp only [unpack, pack, packNat, h, BitVec.toNat_ofNat]
    generalize (if code % 2 = 1 then 1 else 0) = b at *
    generalize code / 2 % (2 ^ 23 - 1) = r at *
    unfold unpackFields
    rw [if_pos (by omega), if_neg (by omega)]
  · have hlt := Nat.mod_lt (code / 2) (show 0 < 2 ^ 52 - 1 by decide)
    have h : nanBits .p64 code = (if code % 2 = 1 then 1 else 0) * 2 ^ 63 + 9218868437227405313
        + code / 2 % (2 ^ 52 - 1) := by
      simp only [nanBits, signWeight, infinityBits, Prec.digits]
      split <;> omega
    simp only [unpack, pack, packNat, h, BitVec.toNat_ofNat]
    generalize (if code % 2 = 1 then 1 else 0) = b at *
    generalize code / 2 % (2 ^ 52 - 1) = r at *
    unfold unpackFields
    rw [if_pos (by omega), if_neg (by omega)]

/-- The state has room for a buffer: what is written is read back. -/
def Room (s : State) (r : BufRef) : Prop := ∀ b : Buf, getBuf (setBuf s r b) r = b

/-- The room for a buffer, as one decidable statement. -/
abbrev RoomOk (s : State) (r : BufRef) : Prop :=
  match r with
  | .tb c _ => c < s.chans.length
  | .ring c i => c < s.chans.length ∧ i < (s.chan c).ring.length
  | .acc c => c < s.chans.length
  | .scr i => i < s.scr.length
  | .coef _ _ => False
  | .invalid => False

/-- Room found is room. -/
theorem RoomOk.room {s : State} {r : BufRef} (h : RoomOk s r) : Room s r := by
  intro b
  cases r with
  | tb c i => exact getBuf_setBuf_self _ _ _ rfl (by simpa using h) (by simp) (by simp)
  | ring c i =>
    refine getBuf_setBuf_self _ _ _ rfl ?_ ?_ (by simp)
    · rintro d j (hd | hd | hd) <;> cases hd
      exact h.1
    · intro d j hd
      cases hd
      exact h.2
  | acc c => exact getBuf_setBuf_self _ _ _ rfl (by simpa using h) (by simp) (by simp)
  | scr i => exact getBuf_setBuf_self _ _ _ rfl (by simp) (by simp) (by simpa using h)
  | coef c i => exact h.elim
  | invalid => exact h.elim

/-- A buffer of zeros stored where there is room reads as zeros. -/
theorem silent_store (s : State) (r : BufRef) (xs : List FReal) (hr : Room s r) (h : ∀ x ∈ xs, IsZero x) :
    ∀ x ∈ loadReals (storeReals s r xs) r, IsZero x := by
  rw [loadReals_storeReals s r xs (hr _)]
  exact stored_zero _ _ _ _ _ h

/-- Element `e` of a store that is a NaN reads as a NaN. -/
theorem nan_store (s : State) (r : BufRef) (xs : List FReal) (hr : Room s r) (e : Nat) (he : e < s.lat.size)
    (hl : e < xs.length) (h : nth xs e = .nan) : nth (loadReals (storeReals s r xs) r) e = .nan := by
  rw [loadReals_storeReals s r xs (hr _)]
  have hx : xs[e] = .nan := by
    simpa [nth, List.getD_eq_getElem?_getD, List.getElem?_eq_getElem hl] using h
  have h1 := fitTo_getD s.lat.size (packReals s.lat.prec s.freeCtr 0 xs) e he
  rw [packReals_getD _ _ _ _ _ hl, hx] at h1
  have hlen : e < (fitTo s.lat.size (packReals s.lat.prec s.freeCtr 0 xs)).length := by
    rw [fitTo_length]; exact he
  unfold nth
  rw [List.getD_eq_getElem?_getD, List.getElem?_map, List.getElem?_eq_getElem hlen]
  rw [List.getD_eq_getElem?_getD, List.getElem?_eq_getElem hlen] at h1
  simp only [Option.getD_some] at h1
  simp [h1, unpack_pack_nan]

/-- A transform has as many outputs as points. -/
theorem fft_length (bp : Config.Build) (p : Prec) (o : Nat) (inv : Bool) (xs : List ComplexValue) :
    (fft bp p o inv xs).length = 2 ^ o := by
  have h : ∀ (ks : List Nat) (ys : List ComplexValue), ys.length = 2 ^ o →
      (ks.foldl (fun zs k => fftStage bp p o inv (k + 1) zs) ys).length = 2 ^ o := by
    intro ks
    induction ks with
    | nil => exact fun _ h => h
    | cons k ks ih => exact fun ys _ => ih _ (by simp [fftStage])
  exact h _ _ (by simp [bitReversed])

/-- A plan's creation leaves every buffer as it was. -/
theorem loadReals_usePlan (bp : Config.Build) (s : State) (inv inpl : Bool) (r : BufRef) :
    loadReals (usePlan bp s inv inpl) r = loadReals s r := by
  unfold usePlan logEvent
  dsimp only
  split
  · rfl
  · split <;> cases r <;> rfl

/-- A plan's creation leaves the room for every buffer. -/
theorem Room.usePlan {bp : Config.Build} {s : State} {r : BufRef} (h : Room s r) (inv inpl : Bool) :
    Room (usePlan bp s inv inpl) r := by
  intro b
  have h2 := h b
  unfold Machine.usePlan logEvent
  dsimp only
  split
  · exact h2
  · split <;> cases r <;> exact h2

/-- A transform of silence leaves silence when the ROM is finite. -/
theorem silent_transformed (bp : Config.Build) (s : State) (inv inpl : Bool) (dst src : BufRef)
    (hw : FiniteRom bp s.lat.prec s.lat.order) (hr : Room s dst) (h : ∀ x ∈ loadReals s src, IsZero x) :
    ∀ x ∈ loadReals (transformed bp s inv inpl dst src) dst, IsZero x := by
  unfold transformed
  refine silent_store _ _ _ (hr.usePlan inv inpl) ?_
  cases inv
  · exact forwardReals_zero bp _ _ _ hw fun i _ => nth_zero h i
  · intro x hx
    simp only [if_true] at hx
    obtain ⟨i, hi, rfl⟩ := List.getElem_of_mem hx
    have hi2 : i < 2 ^ s.lat.order := by simpa [inverseReals, fft_length] using hi
    have := inverseReals_zero bp s.lat.prec s.lat.order (loadReals s src) hw h i hi2
    unfold nth at this
    rwa [List.getD_eq_getElem?_getD, List.getElem?_eq_getElem hi] at this

/-- The product with a buffer of NaN is NaN. -/
theorem product_nan (p : Prec) (n : Nat) (a k : List FReal) (hk : ∀ e, e < 2 * n → nth k e = .nan) (e : Nat)
    (he : e < 2 * n) : nth (product p (2 * n) a k) e = .nan := by
  unfold product
  rw [nth_map_range _ _ _ he]
  split
  · rw [hk e he, fmul_nan_right]
  · have h1 := hk (2 * (e / 2)) (by omega)
    have h2 := hk (2 * (e / 2) + 1) (by omega)
    dsimp only [cmul, bin]
    split
    · rw [h1, h2, fmul_nan_right, fmul_nan_right]; exact fsub_nan _ _ _ (.inl rfl)
    · rw [h1, h2, fmul_nan_right, fmul_nan_right]; exact fadd_nan_left _ _

/-- A buffer of NaN weighted and re-ordered to the half-complex layout. -/
theorem mixOut_nan (p : Prec) (n : Nat) (w : FReal) (xs : List FReal) (h : ∀ e, e < 2 * n → nth xs e = .nan)
    (e : Nat) (he : e < 2 * n) : nth (mixOne p .output (2 * n) w xs) e = .nan := by
  have hm : ∀ i, i < 2 * n → nth (mixed p (2 * n) [cvt p w] [xs]) i = .nan := by
    intro i hi
    unfold mixed
    rw [nth_map_range _ _ _ hi]
    simp [weightedSum, h i hi, fmul_nan_right]
  unfold mixOne reorder reorderOut
  dsimp only
  rw [nth_map_range _ _ _ he]
  split
  · exact hm 0 (by omega)
  · split
    · exact hm 1 (by omega)
    · split
      · exact hm _ (by omega)
      · exact hm _ (by omega)

/-- A buffer of NaN weighted and re-ordered to the internal layout. -/
theorem mixIn_nan (p : Prec) (n : Nat) (w : FReal) (xs : List FReal) (h : nth xs 0 = .nan) (hn : 0 < n) :
    nth (mixOne p .input n w xs) 0 = .nan := by
  unfold mixOne reorder reorderIn mixed
  dsimp only
  rw [nth_map_range _ _ _ hn, if_pos rfl, nth_map_range _ _ _ hn]
  simp [weightedSum, h, fmul_nan_right]

end Sys2Proof.Machine
end

