-- ==== Sys2Proof/Laws/Silence.lean ====
section
/-! SUPPORT. What the steps of `RUN` leave to read, when step 7 stops a channel, and how a `RUN` ends. -/

namespace Sys2Proof.Machine

/-- A buffer reads as zeros. -/
def Silent (s : State) (r : BufRef) : Prop := ∀ x ∈ loadReals s r, IsZero x

/-- Counting a block leaves every buffer as it was. -/
theorem loadReals_runCount (s : State) (c : Nat) (r : BufRef) :
    loadReals (runCount s c) r = loadReals s r := by
  by_cases h : c < s.chans.length
  · have hg : getBuf (runCount s c) r = getBuf s r := by
      have hd : ∀ d, ((runCount s c).chan d).tb0 = (s.chan d).tb0 ∧ ((runCount s c).chan d).tb1 = (s.chan d).tb1 ∧
          ((runCount s c).chan d).ring = (s.chan d).ring ∧ ((runCount s c).chan d).acc = (s.chan d).acc ∧
          ((runCount s c).chan d).coef = (s.chan d).coef := by
        intro d
        unfold runCount
        by_cases hdc : d = c
        · subst hdc
          simp [chan_setChan_self _ _ _ h]
        · simp [chan_setChan_ne _ _ _ _ hdc]
      cases r with
      | tb d i => simp [getBuf, (hd d).1, (hd d).2.1]
      | ring d i => simp [getBuf, (hd d).2.2.1]
      | acc d => simp [getBuf, (hd d).2.2.2.1]
      | scr i => rfl
      | coef d i => simp [getBuf, (hd d).2.2.2.2]
      | invalid => rfl
    unfold loadReals
    rw [hg]
    rfl
  · unfold runCount
    rw [setChan_out _ _ _ (by omega)]

/-- The real parts of a list of complex values. -/
theorem nth_map_fst (xs : List ComplexValue) (e : Nat) (h : e < xs.length) :
    nth (xs.map fun z => z.1) e = (cnth xs e).1 := by
  unfold nth cnth
  rw [List.getD_eq_getElem?_getD, List.getD_eq_getElem?_getD, List.getElem?_map, List.getElem?_eq_getElem h]
  rfl

/-- Step 7 of `RUN` stops a channel exactly when the inspected sample is not finite. -/
theorem runChannel_stops (b : Config.Build) (k slot : Nat) (sel : Bool) (s : State) (c : Nat) (s5 : State)
    (h : (if ((runStore b sel slot (runCount (runInput b sel s c) c) c).chan c).coefNBlocks = 0#32
      then runDirac slot (runStore b sel slot (runCount (runInput b sel s c) c) c) c
      else runConvolve k slot (runStore b sel slot (runCount (runInput b sel s c) c) c) c) = s5) :
    (runChannel b k slot sel s c).2 =
      !isFinite (nth (loadReals (runOutput b s5 c) (.scr 0)) b.nonfiniteCheckIndex) := by
  unfold runChannel
  dsimp only
  rw [h]
  split <;> simp_all

/-- How a `RUN` ends: with 0 when no channel stops it, else with the code of step 7. -/
theorem runWith_result (b : Config.Build) (s : State) (hr : s.fsm = .ready)
    (hk : s.blockCounter.toNat ≠ 2 ^ 64 - 1) :
    (runWith b s).result =
      match (untilFailure (runChannel b s.blockCounter.toNat (s.blockCounter.toNat % s.lat.nBlocks.toNat)
        s.bufSel) (List.range s.channels) s).2 with
      | none => 0#32
      | some _ => ResultCode.eNonfinite.word := by
  unfold runWith
  rw [whenReady_pass _ _ hr, checked_pass]
  case h =>
    intro c hc
    rw [List.mem_singleton] at hc
    rw [hc]
    exact decide_eq_false hk
  unfold runEffect
  dsimp only
  split
  · rename_i h
    rw [h]
    rfl
  · rename_i h
    rw [h]
    rfl

end Sys2Proof.Machine
end

