-- ==== Sys2Proof/Tests/Slice0.lean ====
section
/-! SUPPORT. Tests. Expected values are the spec's own (its tables, its examples, `95_test_vectors.md`) or are
worked out by hand from its rules; and for every statement with hypotheses a theorem `witness_…` shows a
state and operands that meet them together. -/

namespace Sys2Proof.Tests

/-! One theorem is checked after the other: checked side by side, they take a thread each. -/
set_option Elab.async false

open Sys2Proof Sys2Proof.Machine

/-! ## Well-formedness: each check refuses -/

theorem test_wf_mixIn_refuses_16 : (Instr.mixAndScaleIn 16).wellFormed = false := by decide
theorem test_wf_mixOut_refuses_16 : (Instr.mixAndScaleOut 16).wellFormed = false := by decide
theorem test_wf_coeffs_refuses_16 : (Instr.coeffsToInternal 16).wellFormed = false := by decide
theorem test_wf_verify_refuses_16 : (Instr.verify 16).wellFormed = false := by decide
theorem test_wf_decode_refuses_16 : (Instr.decodeSamples 16).wellFormed = false := by decide
theorem test_wf_encode_refuses_99 : (Instr.encodeSamples 99).wellFormed = false := by decide
theorem test_wf_mixIn_takes_15 : (Instr.mixAndScaleIn 15).wellFormed = true := by decide

/-! ## Decoding: the words written out from R100 to R104, opcode in 7:0, `fa` in 11:8, `fb` in 15:12 -/

theorem test_decode_construct : decode 0x00000001#32 = .ok .construct := by rfl
theorem test_decode_setCoeff : decode 0x00000002#32 = .ok .setCoeff := by rfl
theorem test_decode_run : decode 0x00000003#32 = .ok .run := by rfl
theorem test_decode_reset : decode 0x00000004#32 = .ok .reset := by rfl
theorem test_decode_checkOverflows : decode 0x00000005#32 = .ok .checkOverflows := by rfl
theorem test_decode_isInitialized : decode 0x00000006#32 = .ok .isInitialized := by rfl
theorem test_decode_timeToFreq : decode 0x00000010#32 = .ok .timeToFreq := by rfl
theorem test_decode_freqToTime : decode 0x00000011#32 = .ok .freqToTime := by rfl
theorem test_decode_mixIn : decode 0x00000412#32 = .ok (.mixAndScaleIn 4) := by rfl
theorem test_decode_mixOut : decode 0x00001112#32 = .ok (.mixAndScaleOut 1) := by rfl
theorem test_decode_convolve : decode 0x00000018#32 = .ok .convolve := by rfl
theorem test_decode_convolveAdd : decode 0x00000019#32 = .ok .convolveAdd := by rfl
theorem test_decode_convolveInplace : decode 0x0000001A#32 = .ok .convolveInplace := by rfl
theorem test_decode_dirac : decode 0x0000001B#32 = .ok .diracConvolve := by rfl
theorem test_decode_diracInplace : decode 0x0000001C#32 = .ok .diracConvolveInplace := by rfl
theorem test_decode_coeffs : decode 0x00000320#32 = .ok (.coeffsToInternal 3) := by rfl
theorem test_decode_verify : decode 0x00000221#32 = .ok (.verify 2) := by rfl
theorem test_decode_decode : decode 0x00000128#32 = .ok (.decodeSamples 1) := by rfl
theorem test_decode_encode : decode 0x00000F29#32 = .ok (.encodeSamples 15) := by rfl

/-- Reserved words (R106): `rsv`, opcodes in the gaps, `fa`, `fb` and a mode that is none. -/
theorem test_decode_reserved :
    decode 0x00010003#32 = .error .reservedBits ∧ decode 0x80000001#32 = .error .reservedBits ∧
    decode 0x00000000#32 = .error .reservedOpcode ∧ decode 0x00000007#32 = .error .reservedOpcode ∧
    decode 0x000000FF#32 = .error .reservedOpcode ∧ decode 0x00000103#32 = .error .reservedOperand ∧
    decode 0x00001006#32 = .error .reservedOperand ∧ decode 0x00002112#32 = .error .reservedOperand ∧
    decode 0x00000110#32 = .error .reservedOperand ∧ decode 0x00001021#32 = .error .reservedOperand ∧
    decode 0x00001028#32 = .error .reservedOperand :=
  ⟨rfl, rfl, rfl, rfl, rfl, rfl, rfl, rfl, rfl, rfl, rfl⟩

theorem test_encode_words :
    encode (.mixAndScaleOut 4) = 0x00001412#32 ∧ encode (.coeffsToInternal 7) = 0x00000720#32 ∧
    encode .convolveInplace = 0x0000001A#32 := by decide

/-- A row's bits: the decoder reads them from a 32-bit word, and refuses a reserved one. -/
theorem test_table_word :
    decodeTableWord 32 0x1412 = some (.mixAndScaleOut 4) ∧ decodeTableWord 32 0x2112 = none := by decide

/-! ## Small states -/

/-- Raw configuration registers: `L = 4`, `B = 2`, binary32, two channels, 16-bit integer samples in and out,
rate 1 and no dither, so that `T = 8`. -/
def cfgA : CfgRegs := ⟨4#32, 2#32, 32#32, 2#32, 0x0102#32, 0x0102#32, 1#32, 0#32⟩

/-- An engine built with some configuration, in `INITIALIZED`. -/
def built (g : CfgRegs) : State := { buildEngine Config.build State.reset (latch g) with cfg := g }

/-- The engine of `cfgA`. -/
def fresh : State := built cfgA

/-- The binary32 bits of 1.0 to 8.0. -/
def ramp : Buf := [0x3F800000#64, 0x40000000#64, 0x40400000#64, 0x40800000#64, 0x40A00000#64, 0x40C00000#64,
  0x40E00000#64, 0x41000000#64]

/-- Eight times 2.0. -/
def twos : Buf := List.replicate 8 0x40000000#64

/-- The engine of `cfgA` in `READY`, three blocks into a stream: channel 0 has coefficients, a history and
overflow statistics that differ from its snapshot. -/
def demo : State :=
  { (fresh.setChan 0
      { fresh.chan 0 with
        coefNBlocks := 2#32, coef := [twos, ramp], ring := [ramp, twos], tb0 := ramp, acc := twos,
        processed := 2#32,
        ovf := { (fresh.chan 0).ovf with clips := 3#32, largestF := 0x40E0000000000000#64,
                                         largestI := 8192#32 } }) with
    fsm := .ready, blockCounter := 3#64, bufSel := true, scr := [ramp, twos, ramp, twos] }

/-- Operand registers with a destination, a source and a coefficient block. -/
def ops (dst src coef : Word) : OpRegs := { OpRegs.reset with dst := dst, src0 := src, coef := coef }

/-- The state one command leaves. -/
def after (i : Instr) (s : State) : State := unitStep Config.build s s.op i

theorem fresh_inv : EngineInv Config.build fresh := BuiltOk.inv (by decide +kernel)
theorem demo_inv : EngineInv Config.build demo := BuiltOk.inv (by decide +kernel)

/-- A build of one or two channels, at most two ring slots, a log of one record, and sample 3 inspected. -/
def small : Config.Build :=
  { Config.build with maxChannels := 2, maxBlocks := 2, logDepth := 1, cinMaxElems := 8, nonfiniteCheckIndex := 3 }

theorem small_legal : small.Legal where
  channels := by decide
  orders := by decide
  blocks := by decide
  table := by decide
  logs := by decide
  samples := by decide
  staging := by decide
  check := by decide
  log10 := Config.build_legal.log10

/-- The engine of `cfgA` in the small build, its coefficients about to be set with a NaN scale, its log full. -/
def tiny : State :=
  { buildEngine small (.resetWith small) (latch cfgA) with
    cfg := cfgA, arg := ⟨2#32, 2#32, 8#32, 0x7FF8000000000000#64⟩
    log := [⟨.planCreated, 0xFF#8, 2#8, 3#32, 0#64⟩] }

theorem tiny_inv : EngineInv small tiny := BuiltOk.inv (by decide +kernel)

theorem tiny_log : LogInv small tiny := ⟨by decide, by decide⟩

/-- `demo` with other operand registers. -/
def demoOp (o : OpRegs) : State := { demo with op := o }

theorem demoOp_inv (o : OpRegs) : EngineInv Config.build (demoOp o) := by
  have h : SameEngine demo (demoOp o) := ⟨rfl, rfl, rfl, rfl, rfl, rfl, rfl, rfl, rfl, rfl⟩
  exact demo_inv.congr h

/-! ## One step of each instruction -/

/-- Bytes listed in memory from an address on. -/
def bytesAt (a : Nat) (bs : List Byte) : Memory := bs.mapIdx fun i b => (a + i, b)

/-- The build with the twiddle factors of order 3 in binary32 (R143: `cos`, `-sin` of a quarter turn's halves,
rounded). -/
def testRom : Config.Build :=
  { Config.build with
    tw := fun _ _ k =>
      if k = 1 then (0x3F3504F3#64, 0xBF3504F3#64) else (0xBF3504F3#64, 0xBF3504F3#64) }

theorem testRom_legal : testRom.Legal where
  channels := Config.build_legal.channels
  orders := Config.build_legal.orders
  blocks := Config.build_legal.blocks
  table := Config.build_legal.table
  logs := Config.build_legal.logs
  samples := Config.build_legal.samples
  staging := Config.build_legal.staging
  check := Config.build_legal.check
  log10 := Config.build_legal.log10

/-- A ROM with an infinity and a NaN is read as it is (R143). -/
theorem test_rom_infinite :
    let b := { testRom with tw := fun _ _ k => (if k = 1 then 0x7F800000#64 else 0x7FC00000#64, 0xFF800000#64) }
    twiddle b .p32 3 1 = (.inf false, .inf true) ∧ twiddle b .p32 3 3 = (.nan, .inf true) ∧
      twiddle b .p32 3 2 = (.fin false 0, .fin true (2 ^ 1074)) ∧
      twiddle b .p32 3 0 = (.fin false (2 ^ 1074), .fin true 0) := by decide +kernel

/-- `CONSTRUCT` (R213): `T = C * max(rate, L)`, channel 1's cursor at the spacing, `max = 32767.0`, the table's
first bytes as R265 lists them. -/
theorem test_construct :
    let t := after .construct { State.reset with cfg := cfgA }
    t.fsm = .initialized ∧ t.result = 0#32 ∧ statusWord t = 1#32 ∧ t.tableSize = 8#32 ∧
      (t.chan 1).dstate.cursor = 4#32 ∧ (t.chan 1).ovf.max = 0x40DFFFC000000000#64 ∧
      t.randvec.take 4 = [0xAC#8, 0x1D#8, 0xBF#8, 0xC9#8] := by decide +kernel

/-- A `CONSTRUCT` with every register 0 (R212 row 1, R217): the engine is gone, one record. -/
theorem test_construct_fails :
    let t := after .construct { demo with cfg := .reset }
    t.fsm = .uninit ∧ t.result = 0xFFFFFFF8#32 ∧ t.resultAux = 0#32 ∧ statusWord t = 0x28#32 ∧
      (t.log.map fun r => logWord r 0#2) = [0xFF04#32] ∧ (t.log.map fun r => logWord r 1#2) = [0xFFFFFFF8#32] ∧
      (t.chan 0).ring = [] := by decide +kernel

/-- `SET_COEFF` with no coefficients (R215): `READY`, and every channel's set is freed. -/
theorem test_setCoeff_none :
    let t := after .setCoeff { demo with arg := ⟨0#32, 1#32, 8#32, 0#64⟩ }
    t.fsm = .ready ∧ t.result = 0#32 ∧ (t.chan 0).coef = [] ∧ (t.chan 0).coefNBlocks = 0#32 ∧
      (t.chan 0).ring = [ramp, twos] := by decide +kernel

/-- `SET_COEFF` with three blocks where `B` is 2 (R216): nothing happens. -/
theorem test_setCoeff_blocks :
    after .setCoeff { fresh with arg := ⟨1#32, 3#32, 8#32, 0#64⟩ } =
      { fresh with arg := ⟨1#32, 3#32, 8#32, 0#64⟩, result := 0xFFFFFFF4#32, resultAux := 3#32,
                   lastFail := true } := by decide +kernel

/-- An engine of one channel, `L = 4`, `B = 2`, binary32 in and out, with the coefficient blocks of
`95_test_vectors.md` for the coefficients 1, 0, 0, 0 and 0, 0, 0, 1, and the samples 1 to 4. -/
def floats : State :=
  let g : CfgRegs := ⟨4#32, 2#32, 32#32, 1#32, 0x0A04#32, 0x0A04#32, 1#32, 0#32⟩
  let s := built g
  { (s.setChan 0
      { s.chan 0 with
        coefNBlocks := 2#32
        coef :=
          [[0x3E000000#64, 0x3E000000#64, 0xBE000000#64, 0#64, 0x3E000000#64, 0#64, 0xBE000000#64, 0#64],
           [0x3E000000#64, 0xBE000000#64, 0x3DB504F3#64, 0x3DB504F3#64, 0#64, 0x3E000000#64, 0xBDB504F3#64,
            0x3DB504F3#64]] }) with
    fsm := .ready
    mem := bytesAt 0x10000000
      [0#8, 0#8, 0x80#8, 0x3F#8, 0#8, 0#8, 0#8, 0x40#8, 0#8, 0#8, 0x40#8, 0x40#8, 0#8, 0#8, 0x80#8, 0x40#8] }

/-- `RUN` (R220 to R229): the first block of the two-block stream of `95_test_vectors.md`. -/
theorem test_run :
    let t := runWith testRom floats
    t.result = 0#32 ∧ t.blockCounter = 1#64 ∧ t.bufSel = true ∧ (t.chan 0).processed = 1#32 ∧
      (List.range 16).map (readByte t <| 0x20000000 + ·) =
        [0#8, 0#8, 0x80#8, 0x3F#8, 0xFF#8, 0xFF#8, 0xFF#8, 0x3F#8, 0#8, 0#8, 0x40#8, 0x40#8, 0#8, 0#8, 0x80#8,
         0x40#8] := by decide +kernel

/-- `RUN` in `INITIALIZED` (R313): `E_STATE` with 1. -/
theorem test_run_state :
    after .run fresh = { fresh with result := 0xFFFFFFFB#32, resultAux := 1#32, lastFail := true } := by
  decide +kernel

/-- `RESET` (R230). -/
theorem test_reset :
    let t := after .reset demo
    t.fsm = .ready ∧ t.blockCounter = 0#64 ∧ t.bufSel = false ∧ (t.chan 0).processed = 0#32 ∧
      (t.chan 0).tb0 = zeroBuf 8 ∧ (t.chan 0).ovf = ⟨0#32, 0#64, 0#32, 0x40DFFFC000000000#64⟩ ∧
      (t.chan 0).ring = [ramp, twos] ∧ (t.chan 0).coef = [twos, ramp] ∧ (t.chan 1).dstate.cursor = 4#32 := by
  decide +kernel

/-- `CHECK_OVERFLOWS` after a change in one channel (R300): both are reported, channel 1 as `NEG_INF`. -/
theorem test_checkOverflows :
    let t := after .checkOverflows demo
    t.resultAux = 1#32 ∧ (t.chan 0).snap = ⟨3#32, 0x40E0000000000000#64, 8192#32⟩ ∧
      (t.log.map fun r => (r.ch, r.a)) = [(0#8, 3#32), (1#8, 0#32)] ∧
      (t.log.map fun r => r.sub).drop 1 = [1#8] := by decide +kernel

/-- The parameters are the build's (R10): a log of one record keeps one, a third channel is one too many. -/
theorem test_small_build :
    let t := checkOverflowsWith small demo
    t.log.length = 1 ∧ t.logLost = true ∧ (t.chan 1).snap = ⟨0#32, 0#64, 0#32⟩ ∧
      (constructWith small { State.reset with cfg := { cfgA with nChannels := 3#32 } }).result = 0xFFFFFFF8#32 ∧
      (constructWith small { State.reset with cfg := cfgA }).chans.length = 2 := by decide +kernel

/-- With nothing to report nothing changes but the result (R300). -/
theorem test_checkOverflows_quiet :
    after .checkOverflows { fresh with resultAux := 5#32, lastFail := true } = fresh := by decide +kernel

/-- `IS_INITIALIZED` (R231). -/
theorem test_isInitialized :
    (after .isInitialized demo).resultAux = 1#32 ∧ (after .isInitialized fresh).resultAux = 0#32 ∧
      (after .isInitialized State.reset).resultAux = 0#32 := by decide +kernel

/-- `TIME_TO_FREQ` of 1 to 8 (`95_test_vectors.md`), out of place. -/
theorem test_timeToFreq :
    let t := timeToFreqWith testRom (demoOp (ops 0x31000000#32 0x20000000#32 0#32))
    (t.chan 1).acc = [0x42100000#64, 0xC0800000#64, 0xC0800000#64, 0xC0800000#64, 0xC0800000#64, 0x3FD413CC#64,
      0x40800000#64, 0x411A827A#64] ∧ t.plan = ⟨8#32, 0#32, 0#32, 0#32⟩ ∧
      (t.log.map fun r => logWord r 0#2) = [0x0000FF01#32] := by decide +kernel

/-- `FREQ_TO_TIME` of an impulse at bin 0, in place (R148): a constant, not normalised. -/
theorem test_freqToTime :
    let s := { demoOp (ops 0x40000002#32 0x40000002#32 0#32) with
      scr := [ramp, twos, 0x40000000#64 :: List.replicate 7 0#64, twos] }
    let t := freqToTimeWith testRom s
    t.scr.getD 2 [] = twos ∧ t.plan = ⟨0#32, 0#32, 0#32, 8#32⟩ := by decide +kernel

/-- `MIX_AND_SCALE.IN` with one input of weight 0.5 (R151): 1..8 becomes 1,5,2,8,3,7,4,6 over 2. -/
theorem test_mixIn :
    let t := after (.mixAndScaleIn 1)
      (demoOp { ops 0x30000000#32 0x20000000#32 0#32 with scale0 := 0x3FE0000000000000#64 })
    (t.chan 0).acc = [0x3F000000#64, 0x40200000#64, 0x3F800000#64, 0x40800000#64, 0x3FC00000#64, 0x40600000#64,
      0x40000000#64, 0x40400000#64] := by decide +kernel

/-- Five inputs are one too many (R149, R105). -/
theorem test_mixIn_count :
    (after (.mixAndScaleIn 5) demo).result = 0xFFFFFFF4#32 ∧
      (after (.mixAndScaleIn 5) demo).resultAux = 5#32 := by decide +kernel

/-- `MIX_AND_SCALE.OUT` with two inputs, 1 * (1..8) + 0.5 * (all 2) (R152): 2..9 becomes 2,4,6,8,3,9,7,5. -/
theorem test_mixOut :
    let t := after (.mixAndScaleOut 2)
      (demoOp { ops 0x30000000#32 0x20000000#32 0#32 with
        src1 := 0x20000001#32, scale0 := 0x3FF0000000000000#64, scale1 := 0x3FE0000000000000#64 })
    (t.chan 0).acc = [0x40000000#64, 0x40800000#64, 0x40C00000#64, 0x41000000#64, 0x40400000#64, 0x41100000#64,
      0x40E00000#64, 0x40A00000#64] := by decide +kernel

/-- 1 to 8 as bins 1, 2, 3+4i, 5+6i, 7+8i, times bins 2, 2, 2+2i, 2+2i, 2+2i (R176). -/
def rampTwos : Buf := [0x40000000#64, 0x40800000#64, 0xC0000000#64, 0x41600000#64, 0xC0000000#64, 0x41B00000#64,
  0xC0000000#64, 0x41F00000#64]

/-- `CONVOLVE` (R171). -/
theorem test_convolve :
    ((after .convolve (demoOp (ops 0x30000000#32 0x20000000#32 0x50000000#32))).chan 0).acc = rampTwos := by
  decide +kernel

/-- A destination that is the source (R171, R318). -/
theorem test_convolve_alias :
    (after .convolve (demoOp (ops 0x30000000#32 0x30000000#32 0x50000000#32))).result = 0xFFFFFFEF#32 := by
  decide +kernel

/-- `CONVOLVE_ADD` (R172) onto an accumulator of twos. -/
theorem test_convolveAdd :
    ((after .convolveAdd (demoOp (ops 0x30000000#32 0x20000000#32 0x50000000#32))).chan 0).acc =
      [0x40800000#64, 0x40C00000#64, 0#64, 0x41800000#64, 0#64, 0x41C00000#64, 0#64, 0x42000000#64] := by
  decide +kernel

/-- `CONVOLVE_INPLACE` (R173). -/
theorem test_convolveInplace :
    ((after .convolveInplace (demoOp (ops 0x20000000#32 0#32 0x50000000#32))).chan 0).ring =
      [rampTwos, twos] := by decide +kernel

/-- 1 to 8 over 8, odd bins negated (R174). -/
def rampDirac : Buf := [0x3E000000#64, 0x3E800000#64, 0xBEC00000#64, 0xBF000000#64, 0x3F200000#64, 0x3F400000#64,
  0xBF600000#64, 0xBF800000#64]

/-- `DIRAC_CONVOLVE` (R174). -/
theorem test_diracConvolve :
    (after .diracConvolve (demoOp (ops 0x40000001#32 0x20000000#32 0#32))).scr.getD 1 [] = rampDirac := by
  decide +kernel

/-- `DIRAC_CONVOLVE_INPLACE` (R175), and that a coefficient block is not writable (R113). -/
theorem test_diracConvolveInplace :
    ((after .diracConvolveInplace (demoOp (ops 0x20000000#32 0#32 0#32))).chan 0).ring = [rampDirac, twos] ∧
      (after .diracConvolveInplace (demoOp (ops 0x50000001#32 0#32 0#32))).result = 0xFFFFFFF4#32 := by
  decide +kernel

/-- `COEFFS_TO_INTERNAL` of the coefficient 1.0 (`95_test_vectors.md`). -/
theorem test_coeffsToInternal :
    let t := coeffsToInternalWith testRom 0
      { demoOp { ops 0x40000002#32 0#32 0#32 with len := 1#32, scale0 := 0x3FF0000000000000#64 } with
        mem := bytesAt 0x40000000 [0#8, 0#8, 0x80#8, 0x3F#8] }
    t.result = 0#32 ∧ t.scr.getD 2 [] =
      [0x3E000000#64, 0x3E000000#64, 0xBE000000#64, 0#64, 0x3E000000#64, 0#64, 0xBE000000#64, 0#64] := by
  decide +kernel

/-- `COEFFS_TO_INTERNAL` into its own scratch buffer (R191). -/
theorem test_coeffsToInternal_alias :
    (after (.coeffsToInternal 0) (demoOp (ops 0x40000001#32 0#32 0#32))).result = 0xFFFFFFEF#32 := by
  decide +kernel

/-- `VERIFY` of a buffer with an infinity at element 3 (R192). -/
theorem test_verify :
    let s := { demoOp { ops 0#32 0x40000000#32 0#32 with src1 := 0x40000003#32 } with
      scr := [ramp, twos, ramp, [0#64, 0#64, 0#64, 0xFF800000#64, 0#64, 0#64, 0#64, 0#64]] }
    (after (.verify 1) s).resultAux = 1#32 ∧ (after (.verify 2) s).resultAux = 0#32 ∧
      (after (.verify 2) s).lastFail = false ∧
      ((after (.verify 2) s).log.map fun r => (logWord r 0#2, r.a)) = [(0x0001FF05#32, 3#32)] := by
  decide +kernel

/-- `DECODE` of channel 1 of two (`95_test_vectors.md`): 100, 200, 300, 400 over 32768, from element 2 on. -/
theorem test_decode_samples :
    let t := after (.decodeSamples 1)
      { demoOp { ops 0x40000002#32 0#32 0#32 with off := 2#32 } with
        mem := bytesAt 0x10000000 [0#8, 0x40#8, 0x64#8, 0#8, 0#8, 0xC0#8, 0xC8#8, 0#8, 0#8, 0x20#8, 0x2C#8, 1#8,
          0#8, 0x10#8, 0x90#8, 1#8] }
    t.scr.getD 2 [] = [0x3F800000#64, 0x40000000#64, 0x3B480000#64, 0x3BC80000#64, 0x3C160000#64, 0x3C480000#64,
      0x40E00000#64, 0x41000000#64] := by decide +kernel

/-- `ENCODE` of 0.5, 1.0, -1.0 and 1.5/32768 (`95_test_vectors.md`): the containers of channel 1, one clip, the
peaks. -/
theorem test_encode_samples :
    let s := { demoOp (ops 0#32 0x40000000#32 0#32) with
      scr := [[0x3F000000#64, 0x3F800000#64, 0xBF800000#64, 0x38400000#64, 0#64, 0#64, 0#64, 0#64], twos, twos,
        twos] }
    let t := after (.encodeSamples 1) s
    t.mem = [(0x20000002, 0#8), (0x20000003, 0x40#8), (0x20000006, 0xFF#8), (0x20000007, 0x7F#8),
      (0x2000000A, 0#8), (0x2000000B, 0x80#8), (0x2000000E, 2#8), (0x2000000F, 0#8)] ∧
      (t.chan 1).ovf = ⟨1#32, 0x40E0000000000000#64, 32768#32, 0x40DFFFC000000000#64⟩ := by decide +kernel

/-- `ENCODE` with dither (R261, `95_test_vectors.md`): four samples of 1/81920. -/
theorem test_encode_dither :
    let g : CfgRegs := ⟨4#32, 1#32, 32#32, 1#32, 0x0A04#32, 0x0102#32, 8#32, 1#32⟩
    let s := { built g with op := ops 0#32 0x40000002#32 0#32,
                            scr := [[], [], List.replicate 8 0x374CCCCD#64, []] }
    let t := after (.encodeSamples 0) s
    (t.mem.map fun x => x.2) = [0#8, 0#8, 1#8, 0#8, 0#8, 0#8, 1#8, 0#8] ∧ (t.chan 0).dstate.cursor = 4#32 := by
  decide +kernel

/-! ## The host port, the registers and the text forms -/

/-- A row's word put where the machine looks next runs as the first command after reset. -/
theorem test_first_command :
    step (State.reset.withFetchWord 32 0x00000006) = exec .isInitialized State.reset := by rfl

/-- `ID` reads `0x42464952`, and a write to it is ignored (R31). -/
theorem test_id : regValue State.reset (regAt Config.build 0x000) = 0x42464952#32 := by decide +kernel

/-- The debug window (R39): an element of a binary32 engine fills the low word. -/
theorem test_debug_window :
    let s := { demo with dbgBuf := 0x20000000#32, dbgIdx := 7#32 }
    regValue s (regAt Config.build 0x0C8) = 0x41000000#32 ∧ regValue s (regAt Config.build 0x0CC) = 0#32 := by
  decide +kernel

/-- The four reads of `LOG_POP` (R38, R116), and the record gone after the fourth. -/
theorem test_logPop :
    let s := { demo with log := [⟨.runNonfinite, 1#8, 0#8, 7#32, 0x123456789ABCDEF0#64⟩] }
    let s1 := hostRead Config.build s .b4 0x01C#32
    let s2 := hostRead Config.build s1 .b4 0x01C#32
    let s3 := hostRead Config.build s2 .b4 0x01C#32
    let s4 := hostRead Config.build s3 .b4 0x01C#32
    [s1, s2, s3, s4].map (·.readData) = [0x107#64, 7#64, 0x9ABCDEF0#64, 0x12345678#64] ∧ s4.log = [] ∧
      s3.log = s.log := by decide +kernel

/-- `CHECK_OVERFLOWS` as text (R118). -/
theorem test_reportLine :
    reportLine ⟨.overflowReport, 0#8, 0#8, 2#32, 0x400C2D3DA82B49DE#64⟩ = "overflow ch0: 2/+3.52" ∧
      reportLine ⟨.overflowReport, 1#8, 1#8, 0#32, 0#64⟩ = "overflow ch1: 0/-Inf" ∧
      reportLine ⟨.overflowReport, 7#8, 2#8, 12#32, 0#64⟩ = "overflow ch7: 12/-0.0" := by decide +kernel

/-- The folded operands of a statement (R119). -/
theorem test_assemble :
    assemble (.convolve (.acc 1) (.ring 1 3) (.coef 1 0)) =
      [.write .b4 0x060#32 0x31000000#64, .write .b4 0x064#32 0x21000003#64,
       .write .b4 0x074#32 0x51000000#64, .write .b4 0x008#32 0x18#64] := by decide +kernel

/-! ## Witnesses: decoding, the step, the whole machine -/

/-- `demo` about to serve some transactions. -/
def asked (ts : List HostTxn) : State := { demo with pending := ts }

theorem asked_inv (ts : List HostTxn) : EngineInv Config.build (asked ts) := by
  have h : SameEngine demo (asked ts) := ⟨rfl, rfl, rfl, rfl, rfl, rfl, rfl, rfl, rfl, rfl⟩
  exact demo_inv.congr h

/-- `demo` with other operand registers and bytes. -/
def demoMem (o : OpRegs) (m : Memory) : State := { demo with op := o, mem := m }

theorem demoMem_inv (o : OpRegs) (m : Memory) : EngineInv Config.build (demoMem o m) := by
  have h : SameEngine demo (demoMem o m) := ⟨rfl, rfl, rfl, rfl, rfl, rfl, rfl, rfl, rfl, rfl⟩
  exact demo_inv.congr h

theorem witness_DecodeOfEncode : (Instr.coeffsToInternal 15).wellFormed = true := by decide

theorem witness_EncodeOfDecode : decode 0x00001F12#32 = .ok (.mixAndScaleOut 15) := by rfl

theorem witness_ReservedWordsAreIllegal :
    reservedWord 0x00010001#32 = true ∧ reservedWord 0x0000002A#32 = true ∧
      reservedWord 0x00002012#32 = true ∧ reservedWord 0x00001012#32 = false ∧
      (asked [cmdTxn 0x00010001#32]).pending = [cmdTxn 0x00010001#32] := by decide +kernel

theorem witness_StepRunsDecoded :
    (asked [.write .b4 0x008#32 0x00000004#64]).pending = [.write .b4 0x008#32 0x00000004#64] ∧
      decode ((0x00000004#64 : Word64).extractLsb' 0 32) = .ok .reset ∧
      decodeTableWord 32 0x00000F29 = some (.encodeSamples 15) ∧ demo.pending = [] :=
  ⟨rfl, rfl, by decide, rfl⟩

/-- Every row of the table: illegal below the state it asks for, legal there. -/
theorem witness_IllegalStateRaises :
    legalIn .run fresh.fsm = false ∧ legalIn .setCoeff State.reset.fsm = false ∧
      legalIn .run demo.fsm = true ∧ ∃ t : State, exec .reset demo = .next t :=
  ⟨rfl, rfl, rfl, _, rfl⟩

theorem witness_FsmTransitions_construct :
    (∃ t : State, exec .construct fresh = .next t ∧ t.result = 0#32) ∧
      ∃ t : State, exec .construct State.reset = .next t ∧ t.result ≠ 0#32 :=
  ⟨⟨_, rfl, by decide +kernel⟩, ⟨_, rfl, by decide +kernel⟩⟩

theorem witness_FsmTransitions_setCoeff :
    (∃ t : State, exec .setCoeff { fresh with arg := ⟨0#32, 2#32, 0#32, 0#64⟩ } = .next t ∧
      t.result = 0#32) ∧
    (∃ t : State, exec .setCoeff { fresh with arg := ⟨0#32, 3#32, 0#32, 0#64⟩ } = .next t ∧
      t.result = ResultCode.eBadArg.word) ∧
    (∃ t : State, exec .setCoeff State.reset = .next t ∧ t.result = ResultCode.eState.word) :=
  ⟨⟨_, rfl, by decide +kernel⟩, ⟨_, rfl, by decide +kernel⟩, ⟨_, rfl, by decide +kernel⟩⟩

theorem witness_FsmTransitions_others :
    (∃ t : State, exec .convolve demo = .next t) ∧
      (∃ t : State, reservedWord 0x00000000#32 = true ∧ issue exec demo 0x00000000#32 = .next t) ∧
      ∃ t : State, step (asked [.hardReset]) = .next t :=
  ⟨⟨_, rfl⟩, ⟨_, rfl, rfl⟩, ⟨_, rfl⟩⟩

theorem witness_HardResetLeaves : (asked [.hardReset]).pending = .hardReset :: [] := by rfl

theorem witness_MemInvKept :
    ∃ t : State, MemInv { asked [.write .b8 0x10000004#32 0x0102030405060708#64] with
        mem := bytesAt 0x10000000 [1#8, 2#8] } ∧
      step { asked [.write .b8 0x10000004#32 0x0102030405060708#64] with
        mem := bytesAt 0x10000000 [1#8, 2#8] } = .next t :=
  ⟨_, rfl, rfl⟩

theorem witness_LogAndResultInvKept_builds :
    ∃ t : State, LogInv small tiny ∧ ResultInv tiny ∧ stepWith small tiny = .next t :=
  ⟨_, tiny_log, ⟨⟨.ok, rfl⟩, rfl⟩, rfl⟩

theorem witness_LogAndResultInvKept :
    ∃ t : State, LogInv Config.build (asked [.read .b4 0x01C#32]) ∧ ResultInv (asked [.read .b4 0x01C#32]) ∧
      step (asked [.read .b4 0x01C#32]) = .next t :=
  ⟨_, ⟨by decide, fun _ => rfl⟩, ⟨⟨.ok, rfl⟩, rfl⟩, rfl⟩

theorem witness_EngineInvKept :
    ∃ t : State, EngineInv Config.build (asked [cmdTxn 0x4#32]) ∧ step (asked [cmdTxn 0x4#32]) = .next t :=
  ⟨_, asked_inv _, rfl⟩

theorem witness_EngineInvKept_builds :
    ∃ t : State, small.Legal ∧ EngineInv small tiny ∧ stepWith small tiny = .next t :=
  ⟨_, small_legal, tiny_inv, rfl⟩

/-- The statistics of the demonstration engine are in range. -/
theorem demo_stats : StatsInv demo := by
  have hlen : demo.chans.length = 8 := by decide +kernel
  have h : ∀ c : Nat, c < 8 → isNan (unpack .p64 (demo.chan c).ovf.largestF) = false ∧
      (demo.chan c).ovf.largestF.getLsbD 63 = false ∧
      isNan (unpack .p64 (demo.chan c).snap.largestF) = false := by decide +kernel
  have ho : ∀ c : Nat, ¬c < 8 → demo.chan c = .reset := fun c hc => chan_out _ _ (by omega)
  refine ⟨fun c => ?_, fun c => ?_, fun c => ?_, by decide +kernel⟩
  · by_cases hc : c < 8
    · exact (h c hc).1
    · rw [ho c hc]; decide
  · by_cases hc : c < 8
    · exact (h c hc).2.1
    · rw [ho c hc]; decide
  · by_cases hc : c < 8
    · exact (h c hc).2.2
    · rw [ho c hc]; decide

theorem witness_StatsInvKept :
    ∃ t : State, EngineInv Config.build demo ∧ StatsInv demo ∧ step demo = .next t :=
  ⟨_, demo_inv, demo_stats, rfl⟩

theorem witness_CommandsKeepHostRegisters : ∃ t : State, exec .reset demo = .next t := ⟨_, rfl⟩

/-- An engine larger than `CONSTRUCT` ever makes, whose coefficient set would not fit (the premises of this
clause ask for no invariant). -/
def huge : State :=
  { fresh with
    lat := { fresh.lat with blockLen := 0x10000#32, nBlocks := 1024#32, nChannels := 8#4 }
    arg := ⟨8#32, 1024#32, 0#32, 0#64⟩ }

theorem witness_ErrorsLeaveTheState_alloc :
    ∃ t : State, exec .setCoeff huge = .next t ∧ t.result = ResultCode.eAlloc.word :=
  ⟨_, rfl, by decide +kernel⟩

theorem witness_ErrorsLeaveTheState :
    ∃ t : State, exec .convolve (demoOp (ops 0x30000000#32 0x30000000#32 0x50000000#32)) = .next t ∧
      t.result = ResultCode.eAlias.word := ⟨_, rfl, by decide +kernel⟩

theorem witness_WhoWritesWhat :
    (∃ t : State, exec .convolve demo = .next t) ∧ ∃ t : State, exec .setCoeff fresh = .next t :=
  ⟨⟨_, rfl⟩, ⟨_, rfl⟩⟩

theorem witness_CommandsWriteTheOutputBlock :
    let s : State := demoMem (ops 0#32 0x11000000#32 0#32) [(0x20000002, 1#8)]
    ∃ t : State, EngineInv Config.build s ∧ exec (.encodeSamples 1) s = .next t ∧
      readByte t 0x20000002 ≠ readByte s 0x20000002 :=
  ⟨_, demoMem_inv _ _, rfl, by decide +kernel⟩

/-! ## Witnesses: memory and registers -/

/-- The first and the last byte of a container, and the bytes on either side of it. -/
theorem witness_ContainerBytes :
    (0 < 4 ∧ 3 < 4) ∧ ((99 : Nat) < 100 ∨ 100 + 4 ≤ 99) ∧ ((104 : Nat) < 100 ∨ 100 + 4 ≤ 104) := by decide

/-- The last eight bytes of `OUTBUF`, and the first of `CIN[7]`. -/
theorem witness_ApertureReadBack :
    (asked [.write .b8 0x203FFFF8#32 7#64, .read .b8 0x203FFFF8#32]).pending =
        .write .b8 0x203FFFF8#32 7#64 :: .read .b8 0x203FFFF8#32 :: [] ∧
      (∀ i : Nat, i < AccessSize.b8.bytes → mapped Config.build ((0x203FFFF8#32 : Word).toNat + i) = true) ∧
      (∀ i : Nat, i < AccessSize.b1.bytes → mapped Config.build ((0x5C000000#32 : Word).toNat + i) = true) :=
  ⟨rfl, by decide, by decide⟩

/-- An odd address and a 64-bit access in the CSR region, its last byte; just above it and just above `INBUF`. -/
theorem witness_UnperformedAccess :
    ((0x022 : Nat) < 0x1000 ∧ ¬(AccessSize.b4 = .b4 ∧ 0x022 % 4 = 0)) ∧
      ((0xFFF : Nat) < 0x1000 ∧ ¬(AccessSize.b1 = .b4 ∧ 0xFFF % 4 = 0)) ∧
      (0x1000 ≤ (0x1000#32 : Word).toNat ∧
        ∀ i : Nat, i < AccessSize.b8.bytes → mapped Config.build ((0x1000#32 : Word).toNat + i) = false) ∧
      (∀ i : Nat, i < AccessSize.b1.bytes → mapped Config.build ((0x10400000#32 : Word).toNat + i) = false) ∧
      (asked [.read .b4 0x022#32]).pending = .read .b4 0x022#32 :: [] ∧
      (asked [.write .b4 0x022#32 1#64]).pending = .write .b4 0x022#32 1#64 :: [] :=
  ⟨by decide, by decide, by decide, by decide, rfl, rfl⟩

/-- A read-write register, a read-only one, and the last offset. -/
theorem witness_RegisterWrite :
    (0x09C < 0x1000 ∧ 0x09C % 4 = 0 ∧ 0x09C ≠ 0x008 ∧
      0x09C ∈ (List.range 16).map (0x060 + 4 * ·)) ∧
      (0x00C < 0x1000 ∧ 0x00C % 4 = 0 ∧ 0x00C ≠ 0x008) ∧ (0xFFC < 0x1000 ∧ 0xFFC % 4 = 0) := by decide

theorem witness_LogPop :
    let r : LogRecord := ⟨.runNonfinite, 1#8, 0#8, 7#32, 0#64⟩
    let s : State := asked [.read .b4 0x01C#32]
    (s.pending = .read .b4 0x01C#32 :: [] ∧ s.log = []) ∧
      ({ s with log := [r], logRd := 2#2 }.log = r :: [] ∧ (2#2 : BitVec 2) ≠ 3#2) ∧
      ({ s with log := [r], logRd := 3#2 }.log = r :: [] ∧ { s with log := [r], logRd := 3#2 }.logRd = 3#2) ∧
      (∃ t : State, exec .construct s = .next t) ∧ ¬(AccessSize.b4 = .b4 ∧ 0x018#32 = 0x01C#32) :=
  ⟨⟨rfl, rfl⟩, ⟨rfl, by decide⟩, ⟨rfl, rfl⟩, ⟨_, rfl⟩, by decide⟩

/-- A ready engine of two channels, with the debug window on the last element of a buffer. -/
theorem witness_StatusFields :
    let s : State := { demo with result := 0xFFFFFFEF#32, lastFail := true, logLost := true,
                                 dbgBuf := 0x50000001#32, dbgIdx := 7#32 }
    ResultInv s ∧ validId s s.dbgBuf = true ∧ s.dbgIdx.toNat < s.lat.size ∧ s.lat.prec = .p32 ∧ s.channels = 2 :=
  ⟨⟨⟨.eAlias, rfl⟩, rfl⟩, by decide +kernel⟩

/-- The window on no buffer, on the element after the last, and on an engine of binary64. -/
theorem witness_StatusFields_window :
    let s : State := { demo with dbgBuf := 0x50000001#32, dbgIdx := 8#32 }
    let w : State := { built { cfgA with precision := 64#32 } with dbgBuf := 0x40000003#32, dbgIdx := 7#32 }
    (ResultInv s ∧ s.lat.size ≤ s.dbgIdx.toNat) ∧
      (ResultInv { demo with dbgBuf := 0x60000000#32 } ∧
        validId { demo with dbgBuf := 0x60000000#32 } 0x60000000#32 = false) ∧
      ResultInv w ∧ validId w w.dbgBuf = true ∧ w.dbgIdx.toNat < w.lat.size ∧ w.lat.prec = .p64 :=
  ⟨⟨⟨⟨.ok, rfl⟩, rfl⟩, by decide +kernel⟩, ⟨⟨⟨.ok, rfl⟩, rfl⟩, by decide +kernel⟩, ⟨⟨.ok, rfl⟩, rfl⟩,
    by decide +kernel⟩

/-- The first and the last channel and the ends of the reserved ranges. -/
theorem witness_StatusFields_offsets :
    (0 < 8 ∧ 7 < 8) ∧ 0x0DC ≤ 0x0DC ∧ 0x0FC < 0x100 ∧ 0x300 ≤ 0x300 ∧ 0xFFC < 0x1000 ∧ 0xFFC % 4 = 0 := by
  decide

theorem witness_BufferIds :
    (15 < 16 ∧ 2 ^ 24 - 1 < 2 ^ 24) ∧ (0x0FFFFFFF#32 : Word).extractLsb' 28 4 = 0#4 ∧
      6 ≤ ((0x60000000#32 : Word).extractLsb' 28 4).toNat := by decide

/-! ## Witnesses: the multiplier and the transform engine -/

/-- The last ring slot, the last coefficient block and the last scratch buffer. -/
def opsC : OpRegs := ops 0x40000003#32 0x20000001#32 0x50000001#32

theorem witness_ConvolveResult :
    EngineInv Config.build (demoOp opsC) ∧ validId (demoOp opsC) (demoOp opsC).op.src0 = true ∧
      validId (demoOp opsC) (demoOp opsC).op.coef = true ∧
      writableId (demoOp opsC) (demoOp opsC).op.dst = true ∧
      (demoOp opsC).op.dst ≠ (demoOp opsC).op.src0 ∧ (demoOp opsC).op.dst ≠ (demoOp opsC).op.coef :=
  ⟨demoOp_inv _, by decide +kernel⟩

/-- The premises of `CONVOLVE` are those of `CONVOLVE_ADD`. -/
theorem witness_ConvolveAddResult :
    EngineInv Config.build (demoOp opsC) ∧ validId (demoOp opsC) (demoOp opsC).op.src0 = true ∧
      validId (demoOp opsC) (demoOp opsC).op.coef = true ∧
      writableId (demoOp opsC) (demoOp opsC).op.dst = true ∧
      (demoOp opsC).op.dst ≠ (demoOp opsC).op.src0 ∧ (demoOp opsC).op.dst ≠ (demoOp opsC).op.coef :=
  witness_ConvolveResult

theorem witness_ConvolveInplaceResult :
    EngineInv Config.build (demoOp opsC) ∧ writableId (demoOp opsC) (demoOp opsC).op.dst = true ∧
      validId (demoOp opsC) (demoOp opsC).op.coef = true ∧ (demoOp opsC).op.dst ≠ (demoOp opsC).op.coef :=
  ⟨demoOp_inv _, by decide +kernel⟩

theorem witness_DiracResult :
    EngineInv Config.build (demoOp opsC) ∧ validId (demoOp opsC) (demoOp opsC).op.src0 = true ∧
      writableId (demoOp opsC) (demoOp opsC).op.dst = true ∧ (demoOp opsC).op.dst ≠ (demoOp opsC).op.src0 :=
  ⟨demoOp_inv _, by decide +kernel⟩

/-- Four sources, one of them a coefficient block and one used twice. -/
def opsM : OpRegs :=
  { ops 0x30000000#32 0x20000001#32 0#32 with
    src1 := 0x50000001#32, src2 := 0x20000001#32, src3 := 0x11000001#32 }

theorem witness_MixInResult :
    EngineInv Config.build (demoOp opsM) ∧ (demoOp opsM).fsm ≠ .uninit ∧ 1 ≤ 4 ∧ 4 ≤ 4 ∧
      (∀ j : Nat, j < 4 → validId (demoOp opsM) ((demoOp opsM).op.sources.getD j 0#32) = true ∧
        (demoOp opsM).op.dst ≠ (demoOp opsM).op.sources.getD j 0#32) ∧
      writableId (demoOp opsM) (demoOp opsM).op.dst = true ∧ 1 ≤ 3 ∧ 3 < (demoOp opsM).lat.size / 2 :=
  ⟨demoOp_inv _, by decide +kernel⟩

/-- With one source, and the first and last index of the pairs. -/
theorem witness_MixOutResult :
    EngineInv Config.build (demoOp opsM) ∧ (demoOp opsM).fsm ≠ .uninit ∧ 1 ≤ 1 ∧ 1 ≤ 4 ∧
      (∀ j : Nat, j < 1 → validId (demoOp opsM) ((demoOp opsM).op.sources.getD j 0#32) = true ∧
        (demoOp opsM).op.dst ≠ (demoOp opsM).op.sources.getD j 0#32) ∧
      writableId (demoOp opsM) (demoOp opsM).op.dst = true ∧ 1 < (demoOp opsM).lat.size / 2 :=
  ⟨demoOp_inv _, by decide +kernel⟩

theorem witness_ReorderRoundTrip :
    1 ≤ 3 ∧ (List.replicate 6 FReal.nan).length = 2 * 3 ∧ 1 ≤ 2 ∧ 2 < 3 := by decide

theorem witness_TimeToFreqResult :
    EngineInv Config.build (demoOp opsC) ∧ validId (demoOp opsC) (demoOp opsC).op.src0 = true ∧
      writableId (demoOp opsC) (demoOp opsC).op.dst = true ∧ 1 ≤ 3 ∧ 3 < (demoOp opsC).lat.size / 2 :=
  ⟨demoOp_inv _, by decide +kernel⟩

/-- In place. -/
theorem witness_FreqToTimeResult :
    let s := demoOp (ops 0x10000001#32 0x10000001#32 0#32)
    EngineInv Config.build s ∧ validId s s.op.src0 = true ∧ writableId s s.op.dst = true :=
  ⟨demoOp_inv _, by decide +kernel⟩

theorem witness_FftIsTheSchedule :
    (List.replicate 8 (FReal.zero, FReal.nan)).length = 2 ^ 3 := by decide

/-! ## Witnesses: coefficients -/

/-- `COEFFS_TO_INTERNAL` of `len` elements with a scale. -/
def opsK (len : Word) (scale : Word64) : OpRegs :=
  { ops 0x40000002#32 0#32 0#32 with len := len, scale0 := scale }

/-- What `COEFFS_TO_INTERNAL` transforms, as the statement writes it. -/
def staged (s : State) (ch : Nat) : List ComplexValue :=
  (List.range s.lat.size).map fun e =>
    (if s.lat.blockLen.toNat ≤ e ∧ e < s.lat.blockLen.toNat + s.op.len.toNat then
        fmul s.lat.prec (cinRead s ch (s.op.off.toNat + (e - s.lat.blockLen.toNat)))
          (cvt s.lat.prec (unpack .p64 s.op.scale0))
      else FReal.zero, FReal.zero)

/-- The block of `COEFFS_TO_INTERNAL`, as the statement writes it. -/
def delivered (b : Config.Build) (s : State) (ch e : Nat) : FReal :=
  let n := s.lat.size
  let y := fft b s.lat.prec s.lat.order false (staged s ch)
  let spectrum : Nat → FReal := fun e => if e ≤ n / 2 then (cnth y e).1 else (cnth y (n - e)).2
  fmul s.lat.prec (oneOver s.lat.order)
    (spectrum (if e = 0 then 0 else if e = 1 then n / 2 else if e % 2 = 0 then e / 2 else n - e / 2))

/-- The last channel, a full block, the last offset that fits. -/
theorem witness_CoeffsToInternalResult :
    let b := Config.build
    let s := demoOp { opsK 4#32 0#64 with off := 0x3FFFFC#32 }
    b.Legal ∧ EngineInv b s ∧ s.fsm ≠ .uninit ∧ 1 < s.channels ∧ s.channels ≤ 2 ∧
      s.op.len.toNat ≤ s.lat.blockLen.toNat ∧ s.op.off.toNat + s.op.len.toNat = b.cinMaxElems ∧
      writableId s s.op.dst = true ∧ bufRef s.op.dst ≠ .scr 1 :=
  ⟨Config.build_legal, demoOp_inv _, by decide +kernel⟩

/-- One coefficient, 1.0, with the factors of `95_test_vectors.md`: every element is finite. -/
theorem witness_CoeffsToInternalResult_finite :
    let b := testRom
    let s := demoMem { opsK 1#32 0x3FF0000000000000#64 with off := 0#32 }
      (bytesAt 0x40000000 [0#8, 0#8, 0x80#8, 0x3F#8])
    (b.Legal ∧ EngineInv b s ∧ s.fsm ≠ .uninit ∧ 0 < s.channels ∧ s.op.len.toNat ≤ s.lat.blockLen.toNat ∧
      s.op.off.toNat + s.op.len.toNat ≤ b.cinMaxElems ∧ writableId s s.op.dst = true ∧
      bufRef s.op.dst ≠ .scr 1) ∧
    ∀ e : Nat, e < s.lat.size → isFinite (delivered b s 0 e) = true :=
  ⟨⟨testRom_legal, BuiltOk.inv (by decide +kernel), by decide +kernel⟩, by decide +kernel⟩

/-- With a NaN scale on a full block the first element is already not finite, whatever the ROM holds. -/
theorem witness_CoeffsToInternalResult_nonfinite :
    let b := Config.build
    let s := demoOp (opsK 4#32 0x7FF8000000000000#64)
    (b.Legal ∧ EngineInv b s ∧ s.fsm ≠ .uninit ∧ 0 < s.channels ∧ s.op.len.toNat ≤ s.lat.blockLen.toNat ∧
      s.op.off.toNat + s.op.len.toNat ≤ b.cinMaxElems ∧ writableId s s.op.dst = true ∧
      bufRef s.op.dst ≠ .scr 1) ∧
    0 < s.lat.size ∧ isFinite (delivered b s 0 0) = false ∧
    ∀ d : Nat, d < 0 → isFinite (delivered b s 0 d) = true := by
  intro b s
  refine ⟨⟨Config.build_legal, demoOp_inv _, by decide +kernel⟩, by decide +kernel, ?_,
    fun d hd => absurd hd (by omega)⟩
  have ho : s.lat.order = 2 + 1 := by decide +kernel
  have hs : s.lat.size = 8 := by decide +kernel
  have hl : s.lat.blockLen.toNat = 4 := rfl
  have hn : s.op.len.toNat = 4 := rfl
  have hc : cvt s.lat.prec (unpack .p64 s.op.scale0) = .nan := by decide +kernel
  have h := fft_nan b s.lat.prec 2 false (staged s 0) (by
    intro i hi
    left
    unfold staged ReNan
    rw [cnth_map_range _ _ _ (by omega), hl, hn, if_pos (by omega), hc, fmul_nan_right]) 0 (by omega)
  unfold delivered
  rw [ho]
  simp only [ReNan] at h
  simp [h, fmul_nan_right, isFinite]

/-- The staged coefficients of `SET_COEFF`. -/
def fresh1 (n cb len : Word) (scale : Word64) : State := { fresh with arg := ⟨n, cb, len, scale⟩ }

theorem fresh1_inv (n cb len : Word) (scale : Word64) : EngineInv Config.build (fresh1 n cb len scale) := by
  have h : SameEngine fresh (fresh1 n cb len scale) := ⟨rfl, rfl, rfl, rfl, rfl, rfl, rfl, rfl, rfl, rfl⟩
  exact fresh_inv.congr h

/-- Three sets offered to two channels, two blocks each, with the factors of `95_test_vectors.md`: coefficient 1.0
first in channel 0's set, 0 in channel 1's. -/
theorem witness_SetCoeffResult :
    let b := testRom
    let s : State := { fresh1 3#32 2#32 1#32 0x3FF0000000000000#64 with
      mem := bytesAt 0x40000000 [0#8, 0#8, 0x80#8, 0x3F#8] ++ bytesAt 0x44000000 [0#8, 0#8, 0#8, 0#8] }
    let nch := min s.arg.nCoeffs.toNat s.channels
    let cb := s.arg.coeffBlocks.toNat
    let l := s.lat.blockLen.toNat
    b.Legal ∧ EngineInv b s ∧ s.fsm ≠ .uninit ∧ 1 ≤ cb ∧ cb ≤ s.lat.nBlocks.toNat ∧
      s.arg.coeffLen.toNat ≤ b.cinMaxElems ∧ nch * cb * s.lat.size * s.lat.prec.bytes ≤ b.coefMaxBytes ∧
      (∀ c i : Nat, c < nch → i < cb → ∀ x ∈ c2iBlock b s c (i * l)
        (min l (s.arg.coeffLen.toNat - i * l)) s.arg.scale, isFinite x = true) ∧ nch = 2 := by
  intro b s nch cb l
  have h : ∀ c, c < 2 → ∀ i, i < 2 → ∀ x ∈ c2iBlock b s c (i * l)
      (min l (s.arg.coeffLen.toNat - i * l)) s.arg.scale, isFinite x = true := by decide +kernel
  exact ⟨testRom_legal, BuiltOk.inv (by decide +kernel), by decide +kernel, by decide +kernel, by decide +kernel,
    by decide +kernel, by decide +kernel, fun c i hc hi => h c hc i hi, by decide +kernel⟩

/-- No coefficients for no channel. -/
theorem witness_SetCoeffResult_none :
    let b := Config.build
    let s := fresh1 0#32 1#32 0x400000#32 0#64
    b.Legal ∧ EngineInv b s ∧ s.fsm ≠ .uninit ∧ 1 ≤ s.arg.coeffBlocks.toNat ∧
      s.arg.coeffBlocks.toNat ≤ s.lat.nBlocks.toNat ∧ s.arg.coeffLen.toNat ≤ b.cinMaxElems ∧
      min s.arg.nCoeffs.toNat s.channels = 0 :=
  ⟨Config.build_legal, fresh1_inv _ _ _ _, by decide +kernel⟩

/-- A block whose first element is a NaN fails at element 0. -/
theorem firstNonfinite_head (xs : List FReal) (h : nth xs 0 = .nan) (hl : 0 < xs.length) :
    firstNonfinite 0 xs = some 0 := by
  cases xs with
  | nil => simp at hl
  | cons x xs =>
    have hx : x = .nan := by simpa [nth] using h
    subst hx
    rfl

/-- A block of a NaN scale, its half filled with coefficients, has a NaN as its first element. -/
theorem c2i_nan (s : State) (c start : Nat) (scale : Word64) (ho : s.lat.order = 2 + 1)
    (hl : s.lat.blockLen.toNat = 4) (hs : s.lat.size = 8) (hc : cvt s.lat.prec (unpack .p64 scale) = .nan) :
    nth (c2iBlock Config.build s c start 4 scale) 0 = .nan := by
  unfold c2iBlock
  refine mixIn_nan _ _ _ _ ?_ (by omega)
  unfold c2iSpectrum
  rw [ho]
  refine forwardReals_nan _ _ _ _ fun i hi => ?_
  unfold c2iInput
  rw [nth_map_range _ _ _ (by omega), hl, if_pos (by omega), hc, fmul_nan_right]

/-- Each argument check at its boundary, in the build that runs and in a smaller one. -/
theorem witness_SetCoeffFailures_args :
    let b := Config.build
    let none := fresh1 1#32 0#32 0#32 0#64
    let many := fresh1 1#32 3#32 0#32 0#64
    let long := fresh1 1#32 2#32 0x400001#32 0#64
    let nine := fresh1 1#32 2#32 9#32 0#64
    (none.fsm ≠ .uninit ∧ none.arg.coeffBlocks.toNat = 0) ∧
    (many.fsm ≠ .uninit ∧ many.lat.nBlocks.toNat < many.arg.coeffBlocks.toNat) ∧
    (long.fsm ≠ .uninit ∧
      ¬(long.arg.coeffBlocks.toNat = 0 ∨ long.lat.nBlocks.toNat < long.arg.coeffBlocks.toNat) ∧
      b.cinMaxElems < long.arg.coeffLen.toNat) ∧
    (¬(nine.arg.coeffBlocks.toNat = 0 ∨ nine.lat.nBlocks.toNat < nine.arg.coeffBlocks.toNat) ∧
      small.cinMaxElems < nine.arg.coeffLen.toNat) ∧
    (huge.fsm ≠ .uninit ∧
      ¬(huge.arg.coeffBlocks.toNat = 0 ∨ huge.lat.nBlocks.toNat < huge.arg.coeffBlocks.toNat) ∧
      ¬b.cinMaxElems < huge.arg.coeffLen.toNat ∧
      b.coefMaxBytes < min huge.arg.nCoeffs.toNat huge.channels * huge.arg.coeffBlocks.toNat * huge.lat.size *
        huge.lat.prec.bytes) := by decide +kernel

/-- A NaN scale: the first block of channel 0 has a NaN. -/
theorem nan_scale_bad (s : State) (ho : s.lat.order = 2 + 1) (hl : s.lat.blockLen.toNat = 4)
    (hs : s.lat.size = 8) (ha : s.arg.coeffLen.toNat = 8) (hb : 1 ≤ s.arg.coeffBlocks.toNat)
    (hc : cvt s.lat.prec (unpack .p64 s.arg.scale) = .nan) :
    ∃ i : Nat, i < s.arg.coeffBlocks.toNat ∧ ∃ x ∈ c2iBlock Config.build s 0 (i * s.lat.blockLen.toNat)
      (min s.lat.blockLen.toNat (s.arg.coeffLen.toNat - i * s.lat.blockLen.toNat)) s.arg.scale,
      isFinite x = false := by
  refine ⟨0, hb, .nan, ?_, rfl⟩
  have h := c2i_nan s 0 (0 * s.lat.blockLen.toNat) s.arg.scale ho hl hs hc
  have h4 : min s.lat.blockLen.toNat (s.arg.coeffLen.toNat - 0 * s.lat.blockLen.toNat) = 4 := by omega
  rw [h4]
  have hlen : 0 < (c2iBlock Config.build s 0 (0 * s.lat.blockLen.toNat) 4 s.arg.scale).length := by
    simp only [c2iBlock, mixOne, reorder, reorderIn, List.length_map, List.length_range]
    omega
  unfold nth at h
  rw [List.getD_eq_getElem?_getD, List.getElem?_eq_getElem hlen, Option.getD_some] at h
  rw [← h]
  exact List.getElem_mem hlen

theorem witness_SetCoeffFailures_block :
    let b := Config.build
    let s := fresh1 2#32 2#32 8#32 0x7FF8000000000000#64
    let nch := min s.arg.nCoeffs.toNat s.channels
    let cb := s.arg.coeffBlocks.toNat
    let l := s.lat.blockLen.toNat
    let bad : Nat → Prop := fun c => ∃ i : Nat, i < cb ∧ ∃ x ∈ c2iBlock b s c (i * l)
      (min l (s.arg.coeffLen.toNat - i * l)) s.arg.scale, isFinite x = false
    s.fsm ≠ .uninit ∧ ¬(cb = 0 ∨ s.lat.nBlocks.toNat < cb) ∧ ¬b.cinMaxElems < s.arg.coeffLen.toNat ∧
      ¬b.coefMaxBytes < nch * cb * s.lat.size * s.lat.prec.bytes ∧ b.Legal ∧ EngineInv b s ∧ LogInv b s ∧
      0 < nch ∧ bad 0 ∧ ∀ d : Nat, d < 0 → ¬bad d := by
  intro b s nch cb l bad
  exact ⟨by decide +kernel, by decide +kernel, by decide +kernel, by decide +kernel, Config.build_legal,
    fresh1_inv _ _ _ _, ⟨by decide +kernel, fun _ => rfl⟩, by decide +kernel,
    nan_scale_bad s (by decide +kernel) (by decide +kernel) (by decide +kernel) (by decide +kernel)
      (by decide +kernel) (by decide +kernel), fun d hd => absurd hd (by omega)⟩

/-- A first block that is not finite fails its channel. -/
theorem preprocess_fails (op : Config.Build) (s : State) (c len e : Nat) (scale : Word64)
    (h : firstNonfinite 0 (c2iBlock op s c (0 * s.lat.blockLen.toNat)
      (blockCount s.lat.blockLen.toNat len 0) scale) = some e) :
    (preprocess op s c 1 len scale).2 = true := by
  simp only [preprocess, List.range_one, List.foldl_cons, List.foldl_nil, preprocessBlock, h, Bool.or_true]

/-- A channel that fails stops `SET_COEFF`. -/
theorem setCoeff_stops (op : Config.Build) (s : State) (len : Nat) (scale : Word64)
    (h : (preprocess op s 0 1 len scale).2 = true) :
    (untilFailure (setCoeffChannel op 1 len scale) (List.range 1) s).2 = some 0 := by
  simp only [List.range_one, untilFailure, setCoeffChannel, h, if_true]

/-- What a stopped `SET_COEFF` answers. -/
theorem setCoeffEffect_stops (op : Config.Build) (s : State) (c : Nat)
    (h : (untilFailure (setCoeffChannel op s.arg.coeffBlocks.toNat s.arg.coeffLen.toNat s.arg.scale)
      (List.range (coefChannels s)) { freeCoefs s with fsm := .initialized }).2 = some c) :
    (setCoeffEffect op s).result = ResultCode.ePreprocess.word := by
  unfold setCoeffEffect
  dsimp only
  split
  · rename_i hq
    rw [hq] at h
    cases h
  · rfl

/-- The same failure, as the transition to `INITIALIZED`. -/
theorem witness_FsmTransitions_preprocess :
    let s := fresh1 1#32 1#32 4#32 0x7FF8000000000000#64
    ∃ t : State, s.fsm ≠ .uninit ∧ exec .setCoeff s = .next t ∧ t.result = ResultCode.ePreprocess.word := by
  intro s
  refine ⟨setCoeffWith Config.build s, by decide +kernel, rfl, ?_⟩
  have h1 : setCoeffWith Config.build s = setCoeffEffect Config.build s := by
    unfold setCoeffWith
    rw [whenConstructed_pass _ _ (by decide +kernel), checked_pass _ _ (by decide +kernel),
      if_neg (by decide +kernel)]
  rw [h1]
  refine setCoeffEffect_stops _ _ 0 ?_
  have hb : s.arg.coeffBlocks.toNat = 1 := rfl
  have hc : coefChannels s = 1 := by decide +kernel
  rw [hb, hc]
  refine setCoeff_stops _ _ _ _ (preprocess_fails _ _ _ _ 0 _ (firstNonfinite_head _ ?_ ?_))
  · have hn : blockCount ({ freeCoefs s with fsm := .initialized } : State).lat.blockLen.toNat
        s.arg.coeffLen.toNat 0 = 4 := by decide +kernel
    rw [hn]
    exact c2i_nan _ _ _ _ (by decide +kernel) (by decide +kernel) (by decide +kernel) (by decide +kernel)
  · simp only [c2iBlock, mixOne, reorder, reorderIn, List.length_map, List.length_range]
    decide +kernel

theorem witness_VerifyResult :
    let s := demoOp { ops 0#32 0x40000000#32 0#32 with src1 := 0x50000002#32 }
    s.fsm ≠ .uninit ∧ 4 < 5 ∧ validId s (s.op.sources.getD 1 0#32) = false ∧
      ∀ i : Nat, i < 1 → validId s (s.op.sources.getD i 0#32) = true := by decide +kernel

theorem witness_VerifyResult_finite :
    let s := demoOp opsM
    s.fsm ≠ .uninit ∧ 1 ≤ 4 ∧ 4 ≤ 4 ∧ (∀ j : Nat, j < 4 → validId s (s.op.sources.getD j 0#32) = true) ∧
      ∀ j : Nat, j < 4 → ∀ e : Nat, e < s.lat.size →
        isFinite (elem s (bufRef (s.op.sources.getD j 0#32)) e) = true := by decide +kernel

/-- Element 7 of the second of two operands. -/
theorem witness_VerifyResult_nonfinite :
    let s : State := { demo with
      op := { ops 0#32 0x40000000#32 0#32 with src1 := 0x40000003#32 }
      scr := [ramp, twos, ramp, [0#64, 0#64, 0#64, 0#64, 0#64, 0#64, 0#64, 0xFF800000#64]] }
    s.fsm ≠ .uninit ∧ (∀ j : Nat, j < 2 → validId s (s.op.sources.getD j 0#32) = true) ∧ 1 < 2 ∧
      7 < s.lat.size ∧ isFinite (elem s (bufRef (s.op.sources.getD 1 0#32)) 7) = false ∧
      (∀ d : Nat, d < s.lat.size → isFinite (elem s (bufRef (s.op.sources.getD 0 0#32)) d) = true) ∧
      ∀ d : Nat, d < 7 → isFinite (elem s (bufRef (s.op.sources.getD 1 0#32)) d) = true := by decide +kernel

/-! ## Witnesses: the codec -/

/-- Each check of `DECODE` failing at its boundary, and all passing with the last offset that fits. -/
theorem witness_DecodeResult :
    let s : OpRegs → State := demoOp
    (∀ o, EngineInv Config.build (s o)) ∧ demo.fsm ≠ .uninit ∧ demo.channels ≤ 2 ∧ 1 < demo.channels ∧
      writableId (s (ops 0x50000000#32 0#32 0#32)) 0x50000000#32 = false ∧
      writableId (s (ops 0x11000001#32 0#32 0#32)) 0x11000001#32 = true ∧
      demo.lat.size < 5 + demo.lat.blockLen.toNat ∧ 4 + demo.lat.blockLen.toNat ≤ demo.lat.size ∧
      3 < demo.lat.blockLen.toNat ∧ (7 < demo.lat.size ∧ 3 + demo.lat.blockLen.toNat ≤ 7) :=
  ⟨demoOp_inv, by decide +kernel⟩

theorem witness_EncodeResult :
    let s : OpRegs → State := demoOp
    (∀ o, EngineInv Config.build (s o)) ∧ demo.fsm ≠ .uninit ∧ demo.channels ≤ 2 ∧ 1 < demo.channels ∧
      validId (s (ops 0#32 0x50000002#32 0#32)) 0x50000002#32 = false ∧
      validId (s (ops 0#32 0x50000001#32 0#32)) 0x50000001#32 = true ∧
      demo.lat.size < 5 + demo.lat.blockLen.toNat ∧ 4 + demo.lat.blockLen.toNat ≤ demo.lat.size ∧
      (demo.chan 1).ditherOn = false :=
  ⟨demoOp_inv, by decide +kernel⟩

/-- The narrowest and the widest integer format. -/
theorem witness_QuantiseLaw :
    let d : Nat → SampleDesc := fun n => { SampleDesc.reset with bytes := 4, sbits := n }
    (2 ≤ (d 2).sbits ∧ (d 2).sbits ≤ 32) ∧ 2 ≤ (d 32).sbits ∧ (d 32).sbits ≤ 32 := by decide

/-- At 16 bits: just above the top, just below the bottom, and the two ends of the range. -/
theorem witness_QuantiseLaw_range :
    ((2 ^ 15 - 1 : Int) * 2 ^ 1074 < signedUnits false (32767 * 2 ^ 1074 + 1) ∧
      signedUnits true (32768 * 2 ^ 1074 + 1) < (-(2 ^ 15) : Int) * 2 ^ 1074) ∧
    ((-(2 ^ 15) : Int) * 2 ^ 1074 ≤ signedUnits true (32768 * 2 ^ 1074) ∧
      signedUnits false (32767 * 2 ^ 1074) ≤ (2 ^ 15 - 1 : Int) * 2 ^ 1074) := by decide +kernel

/-- Peaks at both ends of what the trackers take. -/
theorem witness_QuantiseLaw_peaks :
    (IsReal .p64 (.fin true 0) ∧ FReal.fin true 0 ≠ .nan ∧ flt (.fin true 0) FReal.zero = false) ∧
      (IsReal .p64 (.inf false) ∧ FReal.inf false ≠ .nan ∧ flt (.inf false) FReal.zero = false) ∧
      2 ^ 31 ≤ 2 ^ 31 :=
  ⟨⟨⟨0x8000000000000000#64, by decide⟩, by decide, by decide⟩, ⟨⟨0x7FF0000000000000#64, by decide⟩, by decide,
    by decide⟩, by decide⟩

/-- An engine that dithers. -/
def dithering : State := built ⟨4#32, 1#32, 32#32, 1#32, 0x0A04#32, 0x0102#32, 8#32, 1#32⟩

theorem witness_DitheredSample :
    (dithering.chan 0).descOut.isFloat = false ∧ (dithering.chan 0).ditherOn = true ∧
      2 ≤ (dithering.chan 0).descOut.sbits ∧ (dithering.chan 0).descOut.sbits ≤ 32 ∧
      0 < dithering.tableSize.toNat := by decide +kernel

/-- Both ends of the range, at 24 bits in binary32 and at 32 bits in binary64. -/
theorem witness_IntegerRoundTrip :
    (fmtValid (0x183#13 : BitVec 13).toNat = true ∧ fmtIsFloat (0x183#13 : BitVec 13).toNat = false ∧
      fmtSbits (0x183#13 : BitVec 13).toNat ≤ 24 ∧
      (-(2 ^ (fmtSbits (0x183#13 : BitVec 13).toNat - 1)) : Int) ≤ -8388608 ∧
      (8388607 : Int) ≤ 2 ^ (fmtSbits (0x183#13 : BitVec 13).toNat - 1) - 1) ∧
    (fmtValid (0x204#13 : BitVec 13).toNat = true ∧ fmtIsFloat (0x204#13 : BitVec 13).toNat = false ∧
      (2147483647 : Int) ≤ 2 ^ (fmtSbits (0x204#13 : BitVec 13).toNat - 1) - 1) := by decide

theorem witness_DitherTable : 16 ≤ 48000 := by decide

/-! ## Witnesses: overflow tracker, construction, reset, aliasing, arithmetic -/

theorem witness_CheckOverflowsResult :
    EngineInv Config.build demo ∧ LogInv Config.build demo ∧ demo.fsm ≠ .uninit ∧ 0 < demo.channels ∧
      (demo.chan 0).ovf.clips ≠ (demo.chan 0).snap.clips :=
  ⟨demo_inv, ⟨by decide +kernel, fun _ => rfl⟩, by decide +kernel⟩

theorem witness_CheckOverflowsResult_quiet :
    EngineInv Config.build fresh ∧ LogInv Config.build fresh ∧ fresh.fsm ≠ .uninit ∧
      ¬∃ c : Nat, c < fresh.channels ∧ ((fresh.chan c).ovf.clips ≠ (fresh.chan c).snap.clips ∨
        (fresh.chan c).ovf.largestI ≠ (fresh.chan c).snap.largestI ∨
        feq (unpack .p64 (fresh.chan c).ovf.largestF) (unpack .p64 (fresh.chan c).snap.largestF) = false) :=
  ⟨fresh_inv, ⟨by decide +kernel, fun _ => rfl⟩, by decide +kernel⟩

/-- A silent float channel, an integer one whose peaks fit, and one that clipped just above its maximum. -/
theorem witness_PeakDbClasses :
    let ok : OvfRecord → Prop := fun o =>
      isNan (unpack .p64 o.largestF) = false ∧ o.largestF.getLsbD 63 = false ∧
        ∃ n : Nat, 1 ≤ n ∧ n ≤ 2 ^ 31 ∧ unpack .p64 o.max = .fin false (n * 2 ^ 1074) ∧
          (n = 1 ∨ o.largestF = 0#64 ∨ flt (unpack .p64 o.max) (unpack .p64 o.largestF) = true)
    Log10Laws Config.build.log10 ∧ ok ⟨0#32, 0#64, 0#32, 0x3FF0000000000000#64⟩ ∧
      ok ⟨0#32, 0#64, 32768#32, 0x40DFFFC000000000#64⟩ ∧
      ok ⟨1#32, 0x40DFFFC000000001#64, 0#32, 0x40DFFFC000000000#64⟩ :=
  ⟨Config.build_legal.log10, ⟨by decide, by decide, 1, by decide, by decide, by decide +kernel, .inl rfl⟩,
    ⟨by decide, by decide, 32767, by decide, by decide, by decide +kernel, .inr (.inl rfl)⟩,
    ⟨by decide, by decide, 32767, by decide, by decide, by decide +kernel, .inr (.inr (by decide +kernel))⟩⟩

/-- Both classes that carry no value have a record, and so has the one that does: an infinite peak. -/
theorem witness_PeakDbClasses_finite :
    let o : OvfRecord := ⟨1#32, 0x7FF0000000000000#64, 0#32, 0x3FF0000000000000#64⟩
    (peakDb Config.build ⟨0#32, 0#64, 0#32, 0x3FF0000000000000#64⟩).1 ≠ .finite ∧
      isNan (unpack .p64 o.largestF) = false ∧ o.largestF.getLsbD 63 = false ∧
      (peakDb Config.build o).1 = .finite ∧ flt (.fin false (2 ^ 1074)) (ratioOf o) = true := by
  intro o
  refine ⟨by decide +kernel, by decide, by decide, ?_, by decide +kernel⟩
  have hr : pack .p64 0 (fdiv64 (ovfPeak o) (unpack .p64 o.max)) = 0x7FF0000000000000#64 := by decide +kernel
  have hp : feq (ovfPeak o) FReal.zero = false := by decide +kernel
  have hl : log10 Config.build (fdiv64 (ovfPeak o) (unpack .p64 o.max)) = .inf false := by
    unfold log10
    rw [hr, Config.build_legal.log10.infinity]
    decide +kernel
  unfold peakDb
  dsimp only
  rw [hp, hl]
  decide +kernel

/-- At half of full scale the logarithm is negative, in every build. -/
theorem witness_PeakDbClasses_below (b : Config.Build) (h : Log10Laws b.log10) :
    let o : OvfRecord := ⟨0#32, 0x3FE0000000000000#64, 0#32, 0x3FF0000000000000#64⟩
    feq (peakOf o) FReal.zero = false ∧ flt (ratioOf o) (.fin false (2 ^ 1074)) = true ∧
      flt FReal.zero (unpack .p64 (pack .p64 0 (ratioOf o))) = true ∧
      flt (unpack .p64 (b.log10 (pack .p64 0 (ratioOf o)))) FReal.zero = true :=
  ⟨by decide +kernel, by decide +kernel, by decide +kernel, h.below _ (by decide +kernel) (by decide +kernel)⟩

/-- One channel too many, a block length above the largest, and one block too many. -/
theorem witness_ConstructFails :
    (Config.build.Legal ∧ 1 ≤ Config.build.logDepth) ∧ (small.Legal ∧ 1 ≤ small.logDepth) ∧
      constructError small { cfgA with nBlocks := 3#32 } = some (.eNBlocks, 3#32) ∧
    constructError Config.build { cfgA with nChannels := 9#32 } = some (.eChannels, 9#32) ∧
      constructError Config.build { cfgA with blockLen := 0x20000#32 } = some (.eBlockLen, 0x20000#32) ∧
      constructError Config.build { cfgA with nBlocks := 1025#32 } = some (.eNBlocks, 1025#32) :=
  ⟨⟨Config.build_legal, by decide⟩, ⟨small_legal, by decide⟩, by decide +kernel⟩

/-- The smallest engine and the largest of its block length. -/
theorem witness_ConstructSucceeds :
    Config.build.Legal ∧ small.Legal ∧ constructError small cfgA = none ∧
    constructError Config.build { cfgA with nBlocks := 1#32, nChannels := 1#32 } = none ∧
      constructError Config.build { cfgA with nBlocks := 1024#32, nChannels := 8#32, precision := 64#32 } = none :=
  ⟨Config.build_legal, small_legal, by decide +kernel⟩

theorem witness_BlockCounterNeverWraps :
    let s : State := { demo with blockCounter := 0xFFFFFFFFFFFFFFFF#64 }
    s.fsm = .ready ∧ s.blockCounter.toNat = 2 ^ 64 - 1 ∧ (∃ t : State, execWith Config.build .reset s = .next t) ∧
      ∃ t : State, execWith Config.build .construct s = .next t := ⟨rfl, rfl, ⟨_, rfl⟩, ⟨_, rfl⟩⟩

theorem witness_ResetResult :
    EngineInv Config.build demo ∧ demo.fsm ≠ .uninit ∧ 1 < demo.channels ∧ demo.channels ≤ 2 :=
  ⟨demo_inv, by decide +kernel⟩

/-- Ids one past the last ring slot and the last coefficient block, a coefficient block as destination, and the
numbers one past their ranges. -/
theorem witness_InvalidOperandsRaise :
    let s : OpRegs → State := demoOp
    demo.fsm ≠ .uninit ∧ validId (s (ops 0#32 0x20000002#32 0#32)) 0x20000002#32 = false ∧
      validId (s (ops 0#32 0x20000001#32 0x50000002#32)) 0x20000001#32 = true ∧
      validId (s (ops 0#32 0x20000001#32 0x50000002#32)) 0x50000002#32 = false ∧
      writableId (s (ops 0x50000001#32 0x20000001#32 0x50000001#32)) 0x50000001#32 = false ∧
      writableId (s (ops 0x40000003#32 0x20000001#32 0x50000002#32)) 0x40000003#32 = true ∧
      (4 < 5 ∧ 4 ≤ 4 ∧ demo.channels ≤ 2 ∧ 1 < demo.channels) ∧
      demo.lat.blockLen.toNat < (opsK 5#32 0#64).len.toNat ∧
      2 ^ 22 < ((0x3FFFFD#32 : Word).toNat + (opsK 4#32 0#64).len.toNat) := by decide +kernel

theorem witness_AliasLaw :
    let o : Word → OpRegs := fun dst => { ops dst 0x20000000#32 0x40000000#32 with src1 := 0x20000001#32 }
    demo.fsm ≠ .uninit ∧
      ([0x20000000#32, 0x40000000#32, 0x20000001#32, 0x40000001#32].all fun dst =>
        writableId (demoOp (o dst)) dst && validId (demoOp (o dst)) 0x20000000#32 &&
        validId (demoOp (o dst)) 0x40000000#32 && validId (demoOp (o dst)) 0x20000001#32) = true ∧
      ((o 0x20000000#32).dst = (o 0x20000000#32).src0 ∧ (o 0x40000000#32).dst = (o 0x40000000#32).coef ∧
        (o 0x20000001#32).dst = (o 0x20000001#32).sources.getD 1 0#32) ∧
      (1 < demo.channels ∧ (opsK 4#32 0#64).len.toNat ≤ demo.lat.blockLen.toNat) := by decide +kernel

theorem witness_AliasLaw_raised :
    ∃ t : State, exec (.mixAndScaleOut 2)
        (demoOp { ops 0x20000001#32 0x20000000#32 0#32 with src1 := 0x20000001#32 }) = .next t ∧
      t.result = 0xFFFFFFEF#32 := ⟨_, rfl, by decide +kernel⟩

theorem witness_RoundsToNearest : 2 ^ 24 - 1 < 2 ^ 24 ∧ 2 ^ 53 - 1 < 2 ^ 53 := by decide

theorem witness_ResultsAreReals : IsReal .p32 (.inf true) ∧ IsReal .p64 (.fin false 1) :=
  ⟨⟨0xFF800000#64, by decide⟩, ⟨1#64, by decide⟩⟩

/-! ## Witnesses: RUN -/

/-- A ready engine of one channel and one ring slot, `L = 4`, binary32, 16-bit samples, whose input block is
silence. -/
def quiet : State :=
  { built ⟨4#32, 1#32, 32#32, 1#32, 0x0102#32, 0x0102#32, 1#32, 0#32⟩ with
    fsm := .ready, mem := bytesAt 0x10000000 (List.replicate 8 0#8) }

theorem quiet_inv : EngineInv Config.build quiet := BuiltOk.inv (by decide +kernel)

/-- `quiet` with a coefficient block of NaN. -/
def broken : State :=
  quiet.setChan 0 { quiet.chan 0 with coefNBlocks := 1#32, coef := [List.replicate 8 0x7FC00000#64] }

theorem broken_inv : EngineInv Config.build broken := BuiltOk.inv (by decide +kernel)

/-- In the build that runs, step 7 passes on silence when the ROM is finite. -/
theorem quiet_passes (hw : FiniteRom Config.build .p32 3) :
    (runChannel Config.build 0 0 false quiet 0).2 = false := by
  let s3 := runInput Config.build false quiet 0
  let s4 := runStore Config.build false 0 (runCount s3 0) 0
  let s5 := runDirac 0 s4 0
  let s6 := runOutput Config.build s5 0
  have h3 : Silent s3 (.tb 0 0) := by
    refine silent_transformed Config.build _ false true (.tb 0 0) (.tb 0 0) hw
      (RoomOk.room (by decide +kernel)) ?_
    have hz : loadReals (storeRealsAt (storeRealsAt quiet (.tb 0 0) 4 (decodeBlock quiet 0)) (.tb 0 1) 0
        (decodeBlock quiet 0)) (.tb 0 0) = List.replicate 8 FReal.zero := by decide +kernel
    intro x hx
    have hx2 : x ∈ List.replicate 8 FReal.zero := by rw [← hz]; exact hx
    exact ⟨false, List.eq_of_mem_replicate hx2⟩
  have h4 : Silent s4 (.ring 0 0) := by
    refine silent_store (runCount s3 0) _ _ (RoomOk.room (by decide +kernel)) ?_
    refine mixOne_zero _ _ _ _ _ ⟨false, 2 ^ 1074, by decide +kernel⟩ ?_
    rw [loadReals_runCount]
    exact h3
  have h5 : Silent s5 (.ring 0 0) := by
    have he : s5 = storeReals s4 (.ring 0 0) (dirac s4.lat.prec s4.lat.order (loadReals s4 (.ring 0 0))) :=
      if_pos (by decide +kernel)
    rw [he]
    exact silent_store s4 _ _ (RoomOk.room (by decide +kernel))
      (dirac_zero _ _ _ ⟨false, 2 ^ 1071, by decide +kernel⟩ h4)
  have h6 : Silent s6 (.scr 0) := by
    have hl : (storeReals s5 (.scr 0) (mixOne s5.lat.prec .output s5.lat.size (unpack .p64 Config.build.outScale)
        (loadReals s5 (if s5.lat.nBlocks = 1#32 then .ring 0 0 else .acc 0)))).lat = quiet.lat := by decide +kernel
    refine silent_transformed Config.build _ true true (.scr 0) (.scr 0) (by rw [hl]; exact hw)
      (RoomOk.room (by decide +kernel)) ?_
    refine silent_store s5 _ _ (RoomOk.room (by decide +kernel)) ?_
    refine mixOne_zero _ _ _ _ _ ⟨false, 2 ^ 1074, by decide +kernel⟩ ?_
    exact h5
  have hf : isFinite (nth (loadReals s6 (.scr 0)) Config.build.nonfiniteCheckIndex) = true :=
    (nth_zero h6 _).finite
  have he : (if (s4.chan 0).coefNBlocks = 0#32 then runDirac 0 s4 0 else runConvolve 0 0 s4 0) = s5 :=
    if_pos (by decide +kernel)
  rw [runChannel_stops Config.build 0 0 false quiet 0 s5 he]
  exact congrArg Bool.not hf

/-- In the build that runs, `RUN` of silence succeeds when the ROM is finite. -/
theorem quiet_runs (hw : FiniteRom Config.build .p32 3) :
    ∃ t : State, exec .run quiet = .next t ∧ t.result = 0#32 := by
  refine ⟨runWith Config.build quiet, rfl, ?_⟩
  have hk : quiet.blockCounter.toNat = 0 := rfl
  have hc : quiet.channels = 1 := by decide +kernel
  have hs : quiet.bufSel = false := rfl
  have hu : (untilFailure (runChannel Config.build 0 0 false) (List.range 1) quiet).2 = none := by
    simp [List.range_one, untilFailure, quiet_passes hw]
  rw [runWith_result _ _ rfl (by decide), hk, hc, hs, Nat.zero_mod, hu]

theorem floats_inv : EngineInv testRom floats := BuiltOk.inv (by decide +kernel)

/-- The first block of the two-block stream of `95_test_vectors.md`. -/
theorem witness_RunSucceeds :
    testRom.Legal ∧ EngineInv testRom floats ∧ floats.fsm = .ready ∧ floats.blockCounter.toNat ≠ 2 ^ 64 - 1 ∧
      (untilFailure (runChannel testRom floats.blockCounter.toNat
        (floats.blockCounter.toNat % floats.lat.nBlocks.toNat) floats.bufSel) (List.range floats.channels)
        floats).2 = none ∧ 0 < floats.channels ∧ (floats.chan 0).ditherOn = false ∧
      3 < floats.lat.blockLen.toNat ∧ 1 < floats.lat.nBlocks.toNat :=
  ⟨testRom_legal, floats_inv, by decide +kernel⟩

theorem witness_BlockCounterNeverWraps_run :
    ∃ t : State, floats.fsm = .ready ∧ execWith testRom .run floats = .next t ∧ t.result = 0#32 :=
  ⟨_, rfl, rfl, test_run.1⟩

theorem witness_StreamCounters :
    (∃ t : State, Config.build.Legal ∧ execWith Config.build .construct fresh = .next t ∧ t.result = 0#32) ∧
    (∃ t : State, Config.build.Legal ∧ EngineInv Config.build demo ∧ demo.fsm ≠ .uninit ∧
      execWith Config.build .reset demo = .next t) ∧
    ∃ t : State, testRom.Legal ∧ EngineInv testRom floats ∧ StreamAt 0 floats ∧ floats.fsm = .ready ∧
      execWith testRom .run floats = .next t ∧ t.result = 0#32 :=
  ⟨⟨_, Config.build_legal, rfl, by decide +kernel⟩, ⟨_, Config.build_legal, demo_inv, by decide +kernel, rfl⟩,
    ⟨_, testRom_legal, floats_inv, ⟨rfl, rfl, by decide +kernel⟩, rfl, rfl, test_run.1⟩⟩

/-- The unit commands of the first block of that stream, in which one product is formed. -/
theorem floats_units : runUnits testRom floats =
    [({ OpRegs.reset with dst := 0x10000000#32, off := 4#32 }, .decodeSamples 0),
     ({ OpRegs.reset with dst := 0x10000001#32 }, .decodeSamples 0),
     (ops 0x10000000#32 0x10000000#32 0#32, .timeToFreq),
     ({ ops 0x20000000#32 0x10000000#32 0#32 with scale0 := 0x3FF0000000000000#64 }, .mixAndScaleIn 1),
     (ops 0x30000000#32 0x20000000#32 0x50000000#32, .convolve),
     ({ ops 0x40000000#32 0x30000000#32 0#32 with scale0 := 0x3FF0000000000000#64 }, .mixAndScaleOut 1),
     (ops 0x40000000#32 0x40000000#32 0#32, .freqToTime)] := by decide +kernel

theorem witness_RunIsItsUnitCommands :
    testRom.Legal ∧ EngineInv testRom floats ∧ floats.fsm = .ready ∧ floats.channels = 1 ∧
      floats.blockCounter.toNat ≠ 2 ^ 64 - 1 ∧
      isFinite (elem (unitSteps testRom floats (runUnits testRom floats)) (.scr 0)
        testRom.nonfiniteCheckIndex) = true :=
  ⟨testRom_legal, floats_inv, by decide +kernel⟩

/-- Step 7 stops on a block of NaN. -/
theorem broken_stops : (runChannel Config.build 0 0 false broken 0).2 = true := by
  let s3 := runInput Config.build false broken 0
  let s4 := runStore Config.build false 0 (runCount s3 0) 0
  let s5 := runConvolve 0 0 s4 0
  let m5 := storeReals s5 (.scr 0)
    (mixOne s5.lat.prec .output s5.lat.size (unpack .p64 Config.build.outScale) (loadReals s5 (.ring 0 0)))
  let s6 := runOutput Config.build s5 0
  have h8 : s4.lat.size = 8 := by decide +kernel
  have hk : ∀ e, e < 2 * 4 → nth (loadReals s4 (.coef 0 0)) e = .nan := by
    have : loadReals s4 (.coef 0 0) = List.replicate 8 .nan := by decide +kernel
    rw [this]
    decide
  have h5 : ∀ e, e < 2 * 4 → nth (loadReals s5 (.ring 0 0)) e = .nan := by
    intro e he
    have heq : s5 = storeReals s4 (.ring 0 0) (productOf s4 (.ring 0 0) (.coef 0 0)) :=
      if_pos (by decide +kernel)
    rw [heq]
    refine nan_store s4 _ _ (RoomOk.room (by decide +kernel)) e (by omega) ?_ ?_
    · simp only [productOf, product, List.length_map, List.length_range, h8]
      omega
    · unfold productOf
      rw [h8]
      exact product_nan _ 4 _ _ hk e he
  have h9 : s5.lat.size = 8 := by decide +kernel
  have hm : ∀ e, e < 2 * 4 → nth (loadReals m5 (.scr 0)) e = .nan := by
    intro e he
    refine nan_store s5 _ _ (RoomOk.room (by decide +kernel)) e (by omega) ?_ ?_
    · simp only [mixOne, reorder, reorderOut, List.length_map, List.length_range, h9]
      omega
    · rw [h9]
      exact mixOut_nan _ 4 _ _ h5 e he
  have h6 : nth (loadReals s6 (.scr 0)) 0 = .nan := by
    have hr : s6 = transformed Config.build m5 true true (.scr 0) (.scr 0) := by
      show runOutput Config.build s5 0 = _
      unfold runOutput
      dsimp only
      rw [if_pos (by decide +kernel)]
    have ho : m5.lat.order = 2 + 1 := by decide +kernel
    have hsz : (usePlan Config.build m5 true true).lat.size = 8 := by decide +kernel
    rw [hr]
    unfold transformed
    dsimp only
    refine nan_store (usePlan Config.build m5 true true) (.scr 0) _ (RoomOk.room (by decide +kernel)) 0
      (by omega) ?_ ?_
    · simp [inverseReals, fft_length]
    · rw [if_pos rfl, ho]
      have hn := nth_map_fst (fft Config.build m5.lat.prec (2 + 1) true
        (hermitian (2 + 1) (loadReals m5 (.scr 0)))) 0 (by rw [fft_length]; omega)
      exact hn.trans (inverseReals_nan Config.build m5.lat.prec 2 (loadReals m5 (.scr 0))
        (fun i hi => hm i (by omega)) 0 (by omega))
  have he : (if (s4.chan 0).coefNBlocks = 0#32 then runDirac 0 s4 0 else runConvolve 0 0 s4 0) = s5 :=
    if_neg (by decide +kernel)
  rw [runChannel_stops Config.build 0 0 false broken 0 s5 he]
  show (!isFinite (nth (loadReals s6 (.scr 0)) 0)) = true
  rw [h6]
  rfl

/-- No channel of the engine but channel 0 is asked. -/
theorem broken_run : (untilFailure (runChannel Config.build broken.blockCounter.toNat
    (broken.blockCounter.toNat % broken.lat.nBlocks.toNat) broken.bufSel) (List.range broken.channels)
    broken).2 = some 0 := by
  have hk : broken.blockCounter.toNat = 0 := rfl
  have hc : broken.channels = 1 := by decide +kernel
  have hs : broken.bufSel = false := rfl
  rw [hk, hc, hs, Nat.zero_mod]
  simp [List.range_one, untilFailure, broken_stops]

theorem witness_RunStoppedLeaves :
    ∃ t : State, EngineInv Config.build broken ∧ LogInv Config.build broken ∧ broken.fsm = .ready ∧
      exec .run broken = .next t ∧
      t.result = ResultCode.eNonfinite.word := by
  refine ⟨runWith Config.build broken, broken_inv, ⟨by decide +kernel, fun _ => rfl⟩, rfl, rfl, ?_⟩
  rw [runWith_result _ _ rfl (by decide +kernel), broken_run]


end Sys2Proof.Tests
end

section
/-! SUPPORT. What one step of a build can do, said once, and the step of the build with the defaults. -/

namespace Sys2Proof.Machine

/-! One theorem is checked after the other: checked side by side, they take a thread each. -/
set_option Elab.async false

/-! ## The build with the defaults -/

/-- `exec` is the executor of the build with the defaults. -/
theorem exec_eq_execWith (i : Instr) (s : State) : exec i s = execWith Config.build i s := by
  cases i <;> rfl

/-- `step` is the step of the build with the defaults. -/
theorem step_eq_stepWith (s : State) : step s = stepWith Config.build s := by
  have h : exec = execWith Config.build := funext fun i => funext fun t => exec_eq_execWith i t
  rw [step, stepWith, h]

/-! ## One step -/

/-- A step with nothing pending. -/
theorem nextEvent_idle (b : Config.Build) (ex : Executor) {s : State} (h : s.pending = []) :
    nextEvent b ex s = .next s := by simp [nextEvent, h]

/-- A step with a transaction pending carries it out. -/
theorem nextEvent_serve (b : Config.Build) (ex : Executor) {s : State} {txn : HostTxn} {rest : List HostTxn}
    (h : s.pending = txn :: rest) : nextEvent b ex s = serve b ex txn { s with pending := rest } := by
  simp [nextEvent, h]

/-- The low word of a 32-bit datum on the bus. -/
theorem loWord_setWidth (w : Word) : loWord (w.setWidth 64) = w := by
  apply BitVec.eq_of_toNat_eq
  simp only [loWord, BitVec.extractLsb'_toNat, BitVec.toNat_setWidth, Nat.shiftRight_zero]
  omega

/-- A write to `CMD` of a word that decodes executes the command. -/
theorem serve_command (b : Config.Build) (ex : Executor) (s : State) {data : Word64} {i : Instr}
    (h : decode (loWord data) = .ok i) : serve b ex (.write .b4 0x008#32 data) s = ex i s := by
  show issue ex s (loWord data) = ex i s
  rw [issue, h]

/-- What a property must survive to survive every step of a build: a transaction taken off the port, a command,
a reserved command word, a register write, a memory write, data put on the bus, a read of `LOG_POP`, a hardware
reset. -/
structure StepClosed (b : Config.Build) (P : State → Prop) : Prop where
  take : ∀ (s : State) (rest : List HostTxn), P s → P { s with pending := rest }
  command : ∀ (i : Instr) (s t : State), P s → execWith b i s = .next t → P t
  illegal : ∀ (s : State) (w : Word), P s → P (raise s .eIllegalCmd w)
  register : ∀ (s : State) (r : Reg) (w : Word), P s → P (regWrite s r w)
  memory : ∀ (s : State) (addr : Nat) (v : Byte), P s → P (writeByte s addr v)
  data : ∀ (s : State) (d : Word64), P s → P { s with readData := d }
  pop : ∀ s : State, P s → P (logPopEffect s)
  reset : ∀ s : State, P s → P (hardReset b s)

section
variable {b : Config.Build} {P : State → Prop}

/-- A write to the apertures keeps what every byte write keeps. -/
theorem StepClosed.apertureWrite (hc : StepClosed b P) {s : State} (hs : P s) (addr : Nat) (bs : List Byte) :
    P (apertureWrite b s addr bs) := by
  induction bs generalizing s addr with
  | nil => exact hs
  | cons v vs ih =>
    refine ih ?_ _
    split
    · exact hc.memory s addr v hs
    · exact hs

/-- A write to `CMD` executes a command or raises `E_ILLEGAL_CMD`. -/
theorem StepClosed.issue (hc : StepClosed b P) {s t : State} (hs : P s) {w : Word}
    (h : issue (execWith b) s w = .next t) : P t := by
  unfold Machine.issue at h
  split at h
  · exact hc.command _ s t hs h
  · cases h
    exact hc.illegal s w hs

/-- A host write. -/
theorem StepClosed.hostWrite (hc : StepClosed b P) {s t : State} (hs : P s) {size : AccessSize} {addr : Word}
    {data : Word64} (h : hostWrite b (execWith b) s size addr data = .next t) : P t := by
  unfold Machine.hostWrite at h
  split at h
  · split at h
    · unfold csrWrite at h
      split at h
      · exact hc.issue hs h
      · cases h
        exact hc.register s _ _ hs
    · cases h
      exact hs
  · cases h
    exact hc.apertureWrite hs _ _

/-- A host read. -/
theorem StepClosed.hostRead (hc : StepClosed b P) {s : State} (hs : P s) (size : AccessSize) (addr : Word) :
    P (hostRead b s size addr) := by
  unfold Machine.hostRead
  split
  · split
    · refine hc.data _ _ ?_
      unfold regReadEffect
      split
      · exact hc.pop s hs
      · exact hs
    · exact hc.data s _ hs
  · exact hc.data s _ hs

/-- A property closed under what a step can do is kept by every step. -/
theorem StepClosed.step (hc : StepClosed b P) {s t : State} (hs : P s) (h : stepWith b s = .next t) : P t := by
  unfold stepWith at h
  cases hp : s.pending with
  | nil =>
    rw [nextEvent_idle b _ hp] at h
    cases h
    exact hs
  | cons txn rest =>
    rw [nextEvent_serve b _ hp] at h
    have hs' := hc.take s rest hs
    cases txn with
    | write size addr data => exact hc.hostWrite hs' h
    | read size addr =>
      cases h
      exact hc.hostRead hs' size addr
    | hardReset =>
      cases h
      exact hc.reset _ hs'

end

/-! ## Commands -/

/-- A guarded command with checks has a property when the errors of an illegal state and of a failing check and
the effect of a legal command whose checks hold have it. -/
theorem whenConstructed_checked {P : State → Prop} {s effect : State} {cs : List Check}
    (hstate : P (raise s .eState 0#32)) (hfail : ∀ c ∈ cs, P (raise s c.code c.aux))
    (heffect : s.fsm ≠ .uninit → (∀ c ∈ cs, c.fails = false) → P effect) :
    P (whenConstructed s (checked s cs effect)) := by
  by_cases hf : s.fsm = .uninit
  · rw [whenConstructed_fail s _ hf]
    exact hstate
  · rw [whenConstructed_pass s _ hf]
    rcases checked_cases s cs effect with ⟨hpass, h⟩ | ⟨c, hc, -, h⟩
    · rw [h]
      exact heffect hf hpass
    · rw [h]
      exact hfail c hc

end Sys2Proof.Machine
end

section
/-! The statement that a step runs the decoded command of its build. -/

namespace Sys2Proof.Machine

/-! One theorem is checked after the other: checked side by side, they take a thread each. -/
set_option Elab.async false

/-- The binary64 bits of 1.0. -/
theorem unpack_one : unpack .p64 0x3FF0000000000000#64 = .fin false (2 ^ 1074) := by
  have h : unpack .p64 0x3FF0000000000000#64 = unpackFields .p64 false 1023 0 2047 := rfl
  rw [h, unpackFields, if_neg (by decide), if_neg (by decide)]
  simp only [Prec.digits, Prec.lsb, Nat.add_zero, Nat.add_one_sub_one, pow_zero, Nat.mul_one, ← pow_add,
    Nat.reduceAdd]

/-- A row's word that decodes, put at the port, is the command that the next step executes. -/
theorem nextEvent_withFetchWord (b : Config.Build) (ex : Executor) (s : State) {w : Nat} {i : Instr}
    (h : decodeTableWord 32 w = some i) : nextEvent b ex (s.withFetchWord 32 w) = ex i s := by
  have hd : decode (BitVec.ofNat 32 (w % 2 ^ 32)) = .ok i := by
    unfold decodeTableWord at h
    split at h
    · split at h
      · next hi => rw [hi, Option.some.inj h]
      · cases h
    · cases h
  have hp : (s.withFetchWord 32 w).pending =
      .write .b4 0x008#32 ((BitVec.ofNat 32 (w % 2 ^ 32)).setWidth 64) :: s.pending := rfl
  rw [nextEvent_serve b ex hp, serve_command b ex _ (by rw [loWord_setWidth]; exact hd)]
  rfl

/-- Settles O5: the first transaction at the port is carried out, and a write to `CMD` is its command. -/
theorem stepRunsDecoded : Obligations.StepRunsDecoded := by
  have hdecoded : ∀ (b : Config.Build) (ex : Executor) (s : State) (rest : List HostTxn) (data : Word64)
      (i : Instr), s.pending = HostTxn.write .b4 0x008#32 data :: rest →
        decode (data.extractLsb' 0 32) = .ok i → nextEvent b ex s = ex i { s with pending := rest } := by
    intro b ex s rest data i hp hd
    rw [nextEvent_serve b ex hp, serve_command b ex _ hd]
  refine ⟨fun s rest data i hp hd =>
      ⟨hdecoded _ _ s rest data i hp hd, fun b => hdecoded b _ s rest data i hp hd⟩,
    fun s w i hd => nextEvent_withFetchWord _ _ s hd,
    fun s hp => nextEvent_idle _ _ hp,
    fun i s => ⟨exec_eq_execWith i s, step_eq_stepWith s⟩, rfl, ?_⟩
  exact ⟨rfl, rfl, rfl, rfl, rfl, rfl, rfl, rfl, rfl, rfl, rfl, unpack_one, unpack_one, rfl⟩

end Sys2Proof.Machine
end

section
/-! SUPPORT. The shape of a built engine, with what its channels hold as coefficients left open: `SET_COEFF`
breaks and mends the coefficient sets alone, so that every other operation is treated once for both. -/

namespace Sys2Proof.Machine

/-! One theorem is checked after the other: checked side by side, they take a thread each. -/
set_option Elab.async false

/-! ## The shape -/

/-- What a latched configuration, its dither table and the limits of a build have to do with each other (R212,
R213). -/
structure ConfigInv (b : Config.Build) (l : Latched) (gap table : Word) (bytes : List Byte) : Prop where
  blockLen : ∃ k : Nat, b.minOrder ≤ k + 1 ∧ k + 1 ≤ b.maxOrder ∧ l.blockLen.toNat = 2 ^ k
  nBlocksLow : 1 ≤ l.nBlocks.toNat
  nBlocksHigh : l.nBlocks.toNat ≤ b.maxBlocks
  channelsLow : 1 ≤ l.nChannels.toNat
  channelsHigh : l.nChannels.toNat ≤ b.maxChannels
  fmtIn : fmtValid l.fmtIn.toNat = true
  fmtOut : fmtValid l.fmtOut.toNat = true
  rate : 1 ≤ l.rate.toNat
  spacing : gap.toNat = max l.rate.toNat l.blockLen.toNat
  tableSize : table.toNat = l.nChannels.toNat * gap.toNat
  tableHigh : table.toNat ≤ b.ditherTableMax
  randvec : bytes.length = table.toNat
  arena : l.size * l.prec.bytes * (l.nChannels.toNat * (l.nBlocks.toNat + 3) + 4) ≤ b.arenaMaxBytes
  inBytes : l.blockLen.toNat * l.nChannels.toNat * fmtBytes l.fmtIn.toNat ≤ b.iobufMaxBytes
  outBytes : l.blockLen.toNat * l.nChannels.toNat * fmtBytes l.fmtOut.toNat ≤ b.iobufMaxBytes

/-- Channel `c < C` of an engine, but for its coefficient set (R24, R25, R27, R28, R74). -/
structure ChannelShape (l : Latched) (tableSize c : Nat) (ch : Channel) : Prop where
  descIn : ch.descIn = sampleDesc l.fmtIn l.nChannels.toNat c
  descOut : ch.descOut = sampleDesc l.fmtOut l.nChannels.toNat c
  ditherOn : ch.ditherOn = (l.applyDither && !fmtIsFloat l.fmtOut.toNat)
  processed : ch.processed.toNat ≤ l.nBlocks.toNat
  cursor : ch.dstate.cursor.toNat < tableSize
  max : ch.ovf.max = formatMax ch.descOut
  tb0 : ch.tb0.length = l.size
  tb1 : ch.tb1.length = l.size
  acc : ch.acc.length = l.size
  ringCount : ch.ring.length = l.nBlocks.toNat
  ringSize : ∀ x ∈ ch.ring, x.length = l.size

/-- Blocks of a coefficient set: so many, each of `N` elements. -/
def CoefBlocks (l : Latched) (n : Nat) (coef : List Buf) : Prop :=
  coef.length = n ∧ ∀ x ∈ coef, x.length = l.size

/-- A coefficient set as large as it says (R26). -/
def CoefSet (l : Latched) (_ : Nat) (n : Word) (coef : List Buf) : Prop :=
  n.toNat ≤ l.nBlocks.toNat ∧ CoefBlocks l n.toNat coef

/-- A built engine with configuration `l`, whose channel `c` holds the coefficients that `K c` admits. -/
structure EngineShape (b : Config.Build) (l : Latched) (K : Nat → Word → List Buf → Prop) (s : State) : Prop where
  built : s.fsm ≠ .uninit
  lat : s.lat = l
  chans : s.chans.length = b.maxChannels
  config : ConfigInv b l s.spacing s.tableSize s.randvec
  plan : ∀ inv inpl : Bool, planWord s.plan inv inpl = 0#32 ∨
    planWord s.plan inv inpl = BitVec.ofNat 32 (2 ^ l.order)
  scrCount : s.scr.length = 4
  scrSize : ∀ x ∈ s.scr, x.length = l.size
  channel : ∀ c : Nat, c < l.nChannels.toNat → ChannelShape l s.tableSize.toNat c (s.chan c)
  coefs : ∀ c : Nat, c < l.nChannels.toNat → K c (s.chan c).coefNBlocks (s.chan c).coef
  unused : ∀ c : Nat, l.nChannels.toNat ≤ c → s.chan c = .reset

/-- A channel is well shaped when it and its coefficient set are. -/
theorem channelInv_iff (s : State) (c : Nat) :
    ChannelInv s c ↔ ChannelShape s.lat s.tableSize.toNat c (s.chan c) ∧
      CoefSet s.lat c (s.chan c).coefNBlocks (s.chan c).coef := by
  constructor
  · intro h
    exact ⟨⟨h.descIn, h.descOut, h.ditherOn, h.processed, h.cursor, h.max, h.tb0, h.tb1, h.acc, h.ringCount,
      h.ringSize⟩, h.coefNBlocks, h.coefCount, h.coefSize⟩
  · rintro ⟨h, hn, hcount, hsize⟩
    exact ⟨h.descIn, h.descOut, h.ditherOn, h.processed, hn, hcount, hsize, h.cursor, h.max, h.tb0, h.tb1, h.acc,
      h.ringCount, h.ringSize⟩

/-- A constructed engine is well shaped when it has the shape with complete coefficient sets. -/
theorem engineInv_iff_shape {b : Config.Build} {s : State} (hf : s.fsm ≠ .uninit) :
    EngineInv b s ↔ EngineShape b s.lat (CoefSet s.lat) s := by
  constructor
  · intro h
    have i := h.built hf
    exact ⟨hf, rfl, h.chans,
      ⟨i.blockLen, i.nBlocksLow, i.nBlocksHigh, i.channelsLow, i.channelsHigh, i.fmtIn, i.fmtOut, i.rate,
        i.spacing, i.tableSize, i.tableHigh, i.randvec, i.arena, i.inBytes, i.outBytes⟩,
      i.plan, i.scrCount, i.scrSize, fun c hc => ((channelInv_iff s c).1 (i.channel c hc)).1,
      fun c hc => ((channelInv_iff s c).1 (i.channel c hc)).2, i.unused⟩
  · intro h
    have i := h.config
    exact ⟨h.chans, fun hn => absurd hn hf, fun _ =>
      ⟨i.blockLen, i.nBlocksLow, i.nBlocksHigh, i.channelsLow, i.channelsHigh, i.fmtIn, i.fmtOut, i.rate,
        i.spacing, i.tableSize, i.tableHigh, i.randvec, i.arena, i.inBytes, i.outBytes, h.plan, h.scrCount,
        h.scrSize, fun c hc => (channelInv_iff s c).2 ⟨h.channel c hc, h.coefs c hc⟩, h.unused⟩⟩

/-- The shape is that of a well shaped engine. -/
theorem EngineShape.inv {b : Config.Build} {l : Latched} {s : State} (h : EngineShape b l (CoefSet l) s) :
    EngineInv b s := by
  obtain rfl := h.lat
  exact (engineInv_iff_shape h.built).2 h

/-- `N` is the power of two that the order says. -/
theorem ConfigInv.size_eq {b : Config.Build} {l : Latched} {sp t : Word} {r : List Byte}
    (h : ConfigInv b l sp t r) : l.size = 2 ^ l.order := by
  obtain ⟨k, -, -, hk⟩ := h.blockLen
  have hs : l.size = 2 ^ (k + 1) := by rw [Latched.size, hk, pow_succ, Nat.mul_comm]
  rw [Latched.order, hs, Nat.log2_two_pow]

/-- The places of two channels in the dither table are at least a byte apart. -/
theorem ConfigInv.spacing_pos {b : Config.Build} {l : Latched} {sp t : Word} {r : List Byte}
    (h : ConfigInv b l sp t r) : 0 < sp.toNat := by
  rw [h.spacing]
  exact Nat.lt_of_lt_of_le h.rate (Nat.le_max_left _ _)

/-- The dither table of an engine is not empty. -/
theorem ConfigInv.tableSize_pos {b : Config.Build} {l : Latched} {sp t : Word} {r : List Byte}
    (h : ConfigInv b l sp t r) : 0 < t.toNat := by
  rw [h.tableSize]
  exact Nat.mul_pos h.channelsLow h.spacing_pos

/-- The place of channel `c` in the dither table. -/
theorem ConfigInv.cursor_lt {b : Config.Build} {l : Latched} {sp t : Word} {r : List Byte}
    (h : ConfigInv b l sp t r) {c : Nat} (hc : c < l.nChannels.toNat) :
    (BitVec.ofNat 32 (c * sp.toNat)).toNat < t.toNat := by
  rw [BitVec.toNat_ofNat, h.tableSize]
  exact (Nat.mod_le _ _).trans_lt (Nat.mul_lt_mul_of_pos_right hc h.spacing_pos)

/-! ## As many elements as points -/

@[simp] theorem forwardReals_length (b : Config.Build) (p : Prec) (o : Nat) (xs : List FReal) :
    (forwardReals b p o xs).length = 2 ^ o := by simp [forwardReals]

@[simp] theorem inverseReals_length (b : Config.Build) (p : Prec) (o : Nat) (xs : List FReal) :
    (inverseReals b p o xs).length = 2 ^ o := by simp [inverseReals, fft_length]

@[simp] theorem reorder_length (mode : MixMode) (n : Nat) (xs : List FReal) : (reorder mode n xs).length = n := by
  cases mode <;> simp [reorder, reorderIn, reorderOut]

@[simp] theorem mixOne_length (p : Prec) (mode : MixMode) (n : Nat) (w : FReal) (xs : List FReal) :
    (mixOne p mode n w xs).length = n := by simp [mixOne]

@[simp] theorem mixResult_length (s : State) (mode : MixMode) (n : Nat) :
    (mixResult s mode n).length = s.lat.size := by simp [mixResult]

@[simp] theorem productOf_length (s : State) (a k : BufRef) : (productOf s a k).length = s.lat.size := by
  simp [productOf, product]

@[simp] theorem accumulated_length (s : State) (dst a k : BufRef) :
    (accumulated s dst a k).length = s.lat.size := by simp [accumulated, addReals]

@[simp] theorem dirac_length (p : Prec) (o : Nat) (xs : List FReal) : (dirac p o xs).length = 2 ^ o := by
  simp [dirac]

@[simp] theorem splice_length (n : Nat) (x : Buf) (off : Nat) (xs : Buf) : (splice n x off xs).length = n :=
  fitTo_length _ _

/-! ## Shared operations keep the shape -/

/-- A buffer of a channel below `C`, or one that belongs to no channel, or one no store reaches. -/
def InEngine (l : Latched) : BufRef → Prop
  | .tb c _ => c < l.nChannels.toNat
  | .ring c _ => c < l.nChannels.toNat
  | .acc c => c < l.nChannels.toNat
  | .scr _ => True
  | .coef _ _ => True
  | .invalid => True

/-- A plan word after one is replaced. -/
theorem planWord_setPlanWord (pl : PlanValid) (inv inpl inv' inpl' : Bool) (w : Word) :
    planWord (setPlanWord pl inv inpl w) inv' inpl' =
      if inv' = inv ∧ inpl' = inpl then w else planWord pl inv' inpl' := by
  cases inv <;> cases inpl <;> cases inv' <;> cases inpl' <;> rfl

/-- A valid id names a buffer of the engine. -/
theorem inEngine_of_valid {s : State} {id : Word} (h : validId s id = true) : InEngine s.lat (bufRef id) := by
  unfold validId at h
  cases hr : bufRef id <;> simp only [hr, refValid, Bool.and_eq_true, decide_eq_true_eq] at h
  case tb => exact h.1.2
  case ring => exact h.1.2
  case acc => exact h.2
  all_goals trivial

/-- A writable id names a buffer of the engine. -/
theorem inEngine_of_writable {s : State} {id : Word} (h : writableId s id = true) :
    InEngine s.lat (bufRef id) := by
  simp only [writableId, Bool.and_eq_true] at h
  exact inEngine_of_valid h.1

namespace EngineShape

variable {b : Config.Build} {l : Latched} {K : Nat → Word → List Buf → Prop} {s t : State}

/-- The shape depends on the engine alone. -/
theorem congr (h : SameEngine s t) (i : EngineShape b l K s) : EngineShape b l K t where
  built := by rw [h.fsm]; exact i.built
  lat := by rw [h.lat]; exact i.lat
  chans := by rw [h.chans]; exact i.chans
  config := by rw [h.spacing, h.tableSize, h.randvec]; exact i.config
  plan := by rw [h.plan]; exact i.plan
  scrCount := by rw [h.scr]; exact i.scrCount
  scrSize := by rw [h.scr]; exact i.scrSize
  channel := fun c hc => by rw [h.chan, h.tableSize]; exact i.channel c hc
  coefs := fun c hc => by rw [h.chan]; exact i.coefs c hc
  unused := fun c hc => by rw [h.chan]; exact i.unused c hc

/-- There are as many channels as configured. -/
theorem channels (i : EngineShape b l K s) : s.channels = l.nChannels.toNat := by rw [State.channels, i.lat]

/-- `N` is the power of two that the order says. -/
theorem size_eq (i : EngineShape b l K s) : l.size = 2 ^ l.order := i.config.size_eq

/-- A channel below `C` replaced by a well shaped one, the coefficients being what `K'` admits. -/
theorem setChanWith {K' : Nat → Word → List Buf → Prop} (i : EngineShape b l K s) {c : Nat} {ch : Channel}
    (hc : c < l.nChannels.toNat) (hch : ChannelShape l s.tableSize.toNat c ch)
    (hk : K' c ch.coefNBlocks ch.coef)
    (hkeep : ∀ d : Nat, d < l.nChannels.toNat → d ≠ c → K d (s.chan d).coefNBlocks (s.chan d).coef →
      K' d (s.chan d).coefNBlocks (s.chan d).coef) : EngineShape b l K' (s.setChan c ch) := by
  have hself : (s.setChan c ch).chan c = ch :=
    chan_setChan_self s c ch (by rw [i.chans]; exact hc.trans_le i.config.channelsHigh)
  refine ⟨i.built, i.lat, by rw [setChan_length, i.chans], i.config, i.plan, i.scrCount, i.scrSize,
    fun d hd => ?_, fun d hd => ?_, fun d hd => ?_⟩
  · by_cases hdc : d = c
    · rw [hdc, hself]
      exact hch
    · rw [chan_setChan_ne _ _ _ _ hdc]
      exact i.channel d hd
  · by_cases hdc : d = c
    · rw [hdc, hself]
      exact hk
    · rw [chan_setChan_ne _ _ _ _ hdc]
      exact hkeep d hd hdc (i.coefs d hd)
  · rw [chan_setChan_ne _ _ _ _ (by omega)]
    exact i.unused d hd

/-- A channel below `C` replaced by a well shaped one with the same coefficients. -/
theorem setChan (i : EngineShape b l K s) {c : Nat} {ch : Channel} (hc : c < l.nChannels.toNat)
    (hch : ChannelShape l s.tableSize.toNat c ch) (hn : ch.coefNBlocks = (s.chan c).coefNBlocks)
    (hcoef : ch.coef = (s.chan c).coef) : EngineShape b l K (s.setChan c ch) :=
  i.setChanWith hc hch (by rw [hn, hcoef]; exact i.coefs c hc) fun _ _ _ h => h

/-- A buffer of `N` elements stored. -/
theorem setBuf (i : EngineShape b l K s) {r : BufRef} {x : Buf} (hr : InEngine l r) (hx : x.length = l.size) :
    EngineShape b l K (setBuf s r x) := by
  cases r with
  | tb c j =>
    have ch := i.channel c hr
    simp only [Machine.setBuf]
    split
    · exact i.setChan hr { ch with tb0 := hx } rfl rfl
    · exact i.setChan hr { ch with tb1 := hx } rfl rfl
  | ring c j =>
    have ch := i.channel c hr
    refine i.setChan hr { ch with ringCount := ?_, ringSize := ?_ } rfl rfl
    · rw [List.length_set]
      exact ch.ringCount
    · intro y hy
      rcases List.mem_or_eq_of_mem_set hy with h | rfl
      · exact ch.ringSize y h
      · exact hx
  | acc c => exact i.setChan hr { i.channel c hr with acc := hx } rfl rfl
  | scr j =>
    refine { i with scrCount := ?_, scrSize := ?_ }
    · exact (List.length_set ..).trans i.scrCount
    · intro y hy
      rcases List.mem_or_eq_of_mem_set hy with h | rfl
      · exact i.scrSize y h
      · exact hx
  | coef c j => exact i
  | invalid => exact i

/-- Reals stored to a whole buffer. -/
theorem storeReals (i : EngineShape b l K s) {r : BufRef} {xs : List FReal} (hr : InEngine l r)
    (hx : xs.length = l.size) : EngineShape b l K (storeReals s r xs) := by
  have hsame : SameEngine (Machine.setBuf s r (packReals s.lat.prec s.freeCtr 0 xs)) (Machine.storeReals s r xs) :=
    ⟨rfl, rfl, rfl, rfl, rfl, rfl, rfl, rfl, rfl, rfl⟩
  exact (i.setBuf hr ((packReals_length _ _ _ _).trans hx)).congr hsame

/-- Reals stored to a part of a buffer. -/
theorem storeRealsAt (i : EngineShape b l K s) {r : BufRef} (hr : InEngine l r) (off : Nat) (xs : List FReal) :
    EngineShape b l K (storeRealsAt s r off xs) := by
  have hsame : SameEngine
      (Machine.setBuf s r (splice s.lat.size (getBuf s r) off (packReals s.lat.prec s.freeCtr off xs)))
      (Machine.storeRealsAt s r off xs) :=
    ⟨rfl, rfl, rfl, rfl, rfl, rfl, rfl, rfl, rfl, rfl⟩
  exact (i.setBuf hr (by rw [splice_length, i.lat])).congr hsame

/-- A log record. -/
theorem logEvent (i : EngineShape b l K s) (r : LogRecord) : EngineShape b l K (logEvent b s r) :=
  i.congr (by constructor <;> simp)

/-- The plan word of the latched order set. -/
theorem setPlan (i : EngineShape b l K s) (inv inpl : Bool) :
    EngineShape b l K { s with plan := (setPlanWord s.plan inv inpl
      (planWord s.plan inv inpl ||| BitVec.ofNat 32 (2 ^ s.lat.order))) } := by
  refine { i with plan := fun inv' inpl' => ?_ }
  rw [planWord_setPlanWord, i.lat]
  split
  · rcases i.plan inv inpl with h | h <;> simp [h]
  · exact i.plan inv' inpl'

/-- A plan used. -/
theorem usePlan (i : EngineShape b l K s) (inv inpl : Bool) : EngineShape b l K (usePlan b s inv inpl) := by
  rcases usePlan_cases b s inv inpl with ⟨-, h⟩ | ⟨-, h⟩
  · rw [h]
    exact i
  · rw [h]
    exact (i.setPlan inv inpl).logEvent _

/-- A transform. -/
theorem transformed (i : EngineShape b l K s) (inv inpl : Bool) {dst : BufRef} (src : BufRef)
    (hd : InEngine l dst) : EngineShape b l K (transformed b s inv inpl dst src) := by
  refine (i.usePlan inv inpl).storeReals hd ?_
  split <;> simp [i.lat, i.size_eq]

/-- A command that ends with an error. -/
theorem raise (i : EngineShape b l K s) (code : ResultCode) (aux : Word) : EngineShape b l K (raise s code aux) := by
  refine i.congr (t := Machine.raise s code aux) ?_
  constructor <;> rfl

/-- The counters of blocks and segments are no part of the shape. -/
theorem counters (i : EngineShape b l K s) (sel : Bool) (n : Word64) :
    EngineShape b l K { s with bufSel := sel, blockCounter := n } :=
  ⟨i.built, i.lat, i.chans, i.config, i.plan, i.scrCount, i.scrSize, i.channel, i.coefs, i.unused⟩

/-- A command that succeeds. -/
theorem succeed (i : EngineShape b l K s) (aux : Word) : EngineShape b l K (succeed s aux) := by
  refine i.congr (t := Machine.succeed s aux) ?_
  constructor <;> rfl

end EngineShape

end Sys2Proof.Machine
end

section
/-! SUPPORT. Every command keeps the shape of a built engine. -/

namespace Sys2Proof.Machine

/-! One theorem is checked after the other: checked side by side, they take a thread each. -/
set_option Elab.async false

/-! ## The encoders -/

/-- Quantisation keeps the maximum of the format. -/
@[simp] theorem quantise_max (d : SampleDesc) (o : OvfRecord) (u : FReal) : (quantise d o u).2.max = o.max := by
  unfold quantise ovfPeakF ovfPeakI ovfClip
  split_ifs <;> rfl

/-- The float encoder keeps the maximum of the format. -/
@[simp] theorem encodeFloat_max (d : SampleDesc) (code : Nat) (o : OvfRecord) (y : FReal) :
    (encodeFloat d code o y).2.max = o.max := by
  simp only [encodeFloat, ovfPeakF, ovfClip]
  split_ifs <;> rfl

/-- What encoding a sample does to its channel: the overflow record, whose maximum is kept, and the dither state,
whose cursor is kept or moves on within the table. -/
theorem encodeSample_channel (s : State) (c code : Nat) (y : FReal) :
    ∃ (o : OvfRecord) (d : DitherState),
      (encodeSample s c code y).2 = { s.chan c with ovf := o, dstate := d } ∧ o.max = (s.chan c).ovf.max ∧
      (d.cursor = (s.chan c).dstate.cursor ∨
        d.cursor = BitVec.ofNat 32 (((s.chan c).dstate.cursor.toNat + 1) % s.tableSize.toNat)) := by
  simp only [encodeSample]
  split
  · exact ⟨_, _, rfl, encodeFloat_max .., .inl rfl⟩
  · split
    · exact ⟨_, _, rfl, quantise_max .., .inl rfl⟩
    · exact ⟨_, _, rfl, quantise_max .., .inr rfl⟩

namespace EngineShape

variable {b : Config.Build} {l : Latched} {K : Nat → Word → List Buf → Prop} {s t : State}

/-- A container written to memory. -/
theorem putContainer (i : EngineShape b l K s) (addr width : Nat) (be : Bool) (u : Nat) :
    EngineShape b l K (putContainer s addr width be u) := by
  refine i.congr ?_
  unfold Machine.putContainer
  rw [writeBytes_eq]
  constructor <;> rfl

/-- The counter of free values is no part of the shape. -/
theorem freeCtr (i : EngineShape b l K s) (n : Nat) : EngineShape b l K { s with freeCtr := n } := by
  refine i.congr (t := { s with freeCtr := n }) ?_
  constructor <;> rfl

/-- A sample encoded. -/
theorem encodeSample (i : EngineShape b l K s) {c : Nat} (hc : c < l.nChannels.toNat) (code : Nat) (y : FReal) :
    EngineShape b l K (s.setChan c (encodeSample s c code y).2) := by
  obtain ⟨o, d, he, hmax, hcursor⟩ := encodeSample_channel s c code y
  have ch := i.channel c hc
  have hlt : d.cursor.toNat < s.tableSize.toNat := by
    rcases hcursor with h | h
    · rw [h]
      exact ch.cursor
    · rw [h, BitVec.toNat_ofNat]
      exact (Nat.mod_le _ _).trans_lt (Nat.mod_lt _ i.config.tableSize_pos)
  rw [he]
  exact i.setChan hc { ch with cursor := hlt, max := hmax.trans ch.max } rfl rfl

/-- A block encoded. -/
theorem encodeBlock (i : EngineShape b l K s) {c : Nat} (hc : c < l.nChannels.toNat) (off : Nat)
    (src : List FReal) : EngineShape b l K (encodeBlock s c off src) :=
  List.foldlRecOn (motive := EngineShape b l K) _ _ i fun _ it jy _ =>
    ((it.encodeSample hc _ jy.2).putContainer _ _ _ _).freeCtr _

/-! ## RUN -/

/-- Steps 1 and 2. -/
theorem runInput (i : EngineShape b l K s) (sel : Bool) {c : Nat} (hc : c < l.nChannels.toNat) :
    EngineShape b l K (runInput b sel s c) :=
  ((i.storeRealsAt (r := .tb c (segment sel)) hc _ _).storeRealsAt (r := .tb c (segment (!sel))) hc _ _).transformed
    _ _ _ hc

/-- Step 3. -/
theorem runCount (i : EngineShape b l K s) {c : Nat} (hc : c < l.nChannels.toNat) :
    EngineShape b l K (runCount s c) := by
  refine i.setChan hc { i.channel c hc with processed := ?_ } rfl rfl
  rw [BitVec.toNat_ofNat, i.lat]
  exact (Nat.mod_le _ _).trans (Nat.min_le_right _ _)

/-- Step 4. -/
theorem runStore (i : EngineShape b l K s) (sel : Bool) (slot : Nat) {c : Nat} (hc : c < l.nChannels.toNat) :
    EngineShape b l K (runStore b sel slot s c) :=
  i.storeReals (r := .ring c slot) hc (by rw [mixOne_length, i.lat])

/-- Step 5 without coefficients. -/
theorem runDirac (i : EngineShape b l K s) (slot : Nat) {c : Nat} (hc : c < l.nChannels.toNat) :
    EngineShape b l K (runDirac slot s c) := by
  have hlen : ∀ xs : List FReal, (dirac s.lat.prec s.lat.order xs).length = l.size := fun xs => by
    rw [dirac_length, i.lat, i.size_eq]
  unfold Machine.runDirac
  split
  · exact i.storeReals (r := .ring c 0) hc (hlen _)
  · exact i.storeReals (r := .acc c) hc (hlen _)

/-- Step 5 with coefficients. -/
theorem runConvolve (i : EngineShape b l K s) (k slot : Nat) {c : Nat} (hc : c < l.nChannels.toNat) :
    EngineShape b l K (runConvolve k slot s c) := by
  unfold Machine.runConvolve
  split
  · exact i.storeReals (r := .ring c 0) hc (by rw [productOf_length, i.lat])
  · refine List.foldlRecOn (motive := EngineShape b l K) _ _
      (i.storeReals (r := .acc c) hc (by rw [productOf_length, i.lat])) fun u iu j _ => ?_
    exact iu.storeReals (r := .acc c) hc (by rw [accumulated_length, iu.lat])

/-- Step 6. -/
theorem runOutput (i : EngineShape b l K s) (c : Nat) : EngineShape b l K (runOutput b s c) :=
  (i.storeReals (r := .scr 0) trivial (by rw [mixOne_length, i.lat])).transformed _ _ _ trivial

/-- The eight steps for a channel. -/
theorem runChannel (i : EngineShape b l K s) (k slot : Nat) (sel : Bool) {c : Nat} (hc : c < l.nChannels.toNat) :
    EngineShape b l K (runChannel b k slot sel s c).1 := by
  have i4 := ((i.runInput sel hc).runCount hc).runStore sel slot hc
  simp only [Machine.runChannel]
  generalize Machine.runStore b sel slot _ c = s4 at i4 ⊢
  have i6 : EngineShape b l K (Machine.runOutput b
      (if (s4.chan c).coefNBlocks = 0#32 then Machine.runDirac slot s4 c else Machine.runConvolve k slot s4 c) c) := by
    refine runOutput ?_ c
    split
    · exact i4.runDirac slot hc
    · exact i4.runConvolve k slot hc
  generalize Machine.runOutput b _ c = s6 at i6 ⊢
  split
  · exact i6.encodeBlock hc _ _
  · exact i6.logEvent _

end EngineShape

/-- A loop over channels that stops at a failure keeps what every turn keeps. -/
theorem untilFailure_keeps {P : State → Prop} {f : State → Nat → State × Bool} (cs : List Nat) {s : State}
    (hs : P s) (hf : ∀ (t : State) (c : Nat), c ∈ cs → P t → P (f t c).1) : P (untilFailure f cs s).1 := by
  induction cs generalizing s with
  | nil => exact hs
  | cons c cs ih =>
    have h1 := hf s c (by simp) hs
    simp only [untilFailure]
    split
    · exact h1
    · exact ih h1 fun t d hd => hf t d (by simp [hd])

namespace EngineShape

variable {b : Config.Build} {l : Latched} {K : Nat → Word → List Buf → Prop} {s t : State}

/-- The effect of `RUN`. -/
theorem runEffect (i : EngineShape b l K s) : EngineShape b l K (runEffect b s) := by
  have h : EngineShape b l K (untilFailure (Machine.runChannel b s.blockCounter.toNat
      (s.blockCounter.toNat % s.lat.nBlocks.toNat) s.bufSel) (List.range s.channels) s).1 :=
    untilFailure_keeps _ i fun u c hc iu => iu.runChannel _ _ _ (by rw [← i.channels]; exact List.mem_range.1 hc)
  simp only [Machine.runEffect]
  split
  · next heq =>
    rw [heq] at h
    exact (h.counters _ _).succeed _
  · next heq =>
    rw [heq] at h
    exact h.raise _ _

/-! ## RESET and CHECK_OVERFLOWS -/

/-- A channel after `RESET`. -/
theorem chan_resetEffect (s : State) (c : Nat) (hc : c < s.chans.length) : (resetEffect s).chan c =
    if c < s.channels then resetChannel s.lat.size s.spacing.toNat c (s.chan c) else s.chan c := by
  simp [State.chan, List.getD_eq_getElem?_getD, hc]

/-- The effect of `RESET`. -/
theorem resetEffect (i : EngineShape b l K s) : EngineShape b l K (resetEffect s) := by
  have hlt : ∀ {c : Nat}, c < l.nChannels.toNat → c < s.chans.length := fun hc => by
    rw [i.chans]; exact hc.trans_le i.config.channelsHigh
  have hreset : ∀ c, c < l.nChannels.toNat → (Machine.resetEffect s).chan c =
      resetChannel l.size s.spacing.toNat c (s.chan c) := fun c hc => by
    rw [chan_resetEffect s c (hlt hc), i.channels, if_pos hc, i.lat]
  refine ⟨i.built, i.lat, by simp [i.chans], i.config, i.plan, i.scrCount, i.scrSize, fun c hc => ?_,
    fun c hc => ?_, fun c hc => ?_⟩
  · have ch := i.channel c hc
    rw [hreset c hc]
    exact { ch with
      processed := Nat.zero_le _, cursor := i.config.cursor_lt hc, max := ch.max
      tb0 := List.length_replicate, tb1 := List.length_replicate }
  · rw [hreset c hc]
    exact i.coefs c hc
  · by_cases hm : c < s.chans.length
    · rw [chan_resetEffect s c hm, i.channels, if_neg (by omega)]
      exact i.unused c hc
    · exact chan_out _ c (by simpa using hm)

/-- A channel reported. -/
theorem reportChannel (i : EngineShape b l K s) {c : Nat} (hc : c < l.nChannels.toNat) :
    EngineShape b l K (reportChannel b s c) := by
  have ch := i.channel c hc
  refine logEvent (i.setChan (ch := { s.chan c with snap := snapshot (s.chan c).ovf }) hc ?_ rfl rfl) _
  exact { ch with }

/-! ## Preprocessing -/

/-- The scratch work of one block. -/
theorem c2iScratch (i : EngineShape b l K s) (c start n : Nat) (scale : Word64) :
    EngineShape b l K (c2iScratch b s c start n scale) := by
  refine (i.usePlan false true).storeReals (r := .scr 1) trivial ?_
  rw [c2iSpectrum, forwardReals_length, i.lat, i.size_eq]

/-- The finiteness scan of one block. -/
theorem c2iScan (i : EngineShape b l K s) (block : List FReal) : EngineShape b l K (c2iScan b s block) := by
  unfold Machine.c2iScan
  split
  · exact i
  · exact i.logEvent _

/-- The effect of `COEFFS_TO_INTERNAL`. -/
theorem coeffsToInternalEffect (i : EngineShape b l K s) (ch : Nat) (hd : InEngine l (bufRef s.op.dst)) :
    EngineShape b l K (coeffsToInternalEffect b s ch) := by
  have h := (((i.c2iScratch ch s.op.off.toNat s.op.len.toNat s.op.scale0).storeReals hd
    (xs := c2iBlock b s ch s.op.off.toNat s.op.len.toNat s.op.scale0)
    (by rw [c2iBlock, mixOne_length, i.lat])).c2iScan (c2iBlock b s ch s.op.off.toNat s.op.len.toNat s.op.scale0))
  simp only [Machine.coeffsToInternalEffect]
  split
  · exact h.succeed _
  · exact h.raise _ _

end EngineShape

end Sys2Proof.Machine
end

section
/-! SUPPORT. `SET_COEFF` and `CONSTRUCT`: the coefficient sets while they are loaded, and the shape of a new
engine. -/

namespace Sys2Proof.Machine

/-! One theorem is checked after the other: checked side by side, they take a thread each. -/
set_option Elab.async false

/-! ## SET_COEFF -/

/-- The coefficient sets while `SET_COEFF` loads channel `c` and has built `n` of its blocks (R193, R215): those
below are complete, that of `c` is not counted yet, those above are empty. -/
def CoefLoading (l : Latched) (c n d : Nat) (w : Word) (coef : List Buf) : Prop :=
  if d < c then CoefSet l d w coef else w = 0#32 ∧ CoefBlocks l (if d = c then n else 0) coef

/-- A freed coefficient set is one of which nothing is loaded. -/
theorem coefLoading_start (l : Latched) (d : Nat) : CoefLoading l 0 0 d 0#32 [] := by
  simp [CoefLoading, CoefBlocks]

/-- When no channel is being loaded every coefficient set is complete. -/
theorem CoefLoading.done {l : Latched} {c d : Nat} {w : Word} {coef : List Buf} (h : CoefLoading l c 0 d w coef) :
    CoefSet l d w coef := by
  unfold CoefLoading at h
  split at h
  · exact h
  · obtain ⟨rfl, hb⟩ := h
    rw [ite_self] at hb
    exact ⟨Nat.zero_le _, hb⟩

/-- A loop over the channels `a .. a+n-1` that stops at a failure: an invariant of the channels done holds at the
end, or what a failing turn leaves. -/
theorem untilFailure_range' {I : Nat → State → Prop} {Q : State → Prop} {f : State → Nat → State × Bool} {n : Nat}
    (a : Nat) {s : State} (hs : I a s)
    (hok : ∀ (t : State) (c : Nat), c < a + n → I c t → (f t c).2 = false → I (c + 1) (f t c).1)
    (hfail : ∀ (t : State) (c : Nat), c < a + n → I c t → (f t c).2 = true → Q (f t c).1) :
    ((untilFailure f (List.range' a n) s).2 = none ∧ I (a + n) (untilFailure f (List.range' a n) s).1) ∨
    ((untilFailure f (List.range' a n) s).2 ≠ none ∧ Q (untilFailure f (List.range' a n) s).1) := by
  induction n generalizing a s with
  | zero => exact .inl ⟨rfl, hs⟩
  | succ n ih =>
    rw [List.range'_succ]
    simp only [untilFailure]
    cases hr : (f s a).2 with
    | true => exact .inr ⟨by simp, hfail s a (by omega) hs hr⟩
    | false =>
      have h := ih (a + 1) (hok s a (by omega) hs hr) (fun t c hc => hok t c (by omega))
        (fun t c hc => hfail t c (by omega))
      rwa [Nat.add_assoc, Nat.add_comm 1 n] at h

/-- The same for the channels below `n`. -/
theorem untilFailure_range {I : Nat → State → Prop} {Q : State → Prop} {f : State → Nat → State × Bool} {n : Nat}
    {s : State} (hs : I 0 s) (hok : ∀ (t : State) (c : Nat), c < n → I c t → (f t c).2 = false → I (c + 1) (f t c).1)
    (hfail : ∀ (t : State) (c : Nat), c < n → I c t → (f t c).2 = true → Q (f t c).1) :
    ((untilFailure f (List.range n) s).2 = none ∧ I n (untilFailure f (List.range n) s).1) ∨
    ((untilFailure f (List.range n) s).2 ≠ none ∧ Q (untilFailure f (List.range n) s).1) := by
  rw [List.range_eq_range']
  simpa using untilFailure_range' (n := n) 0 hs (by simpa using hok) (by simpa using hfail)

/-- A channel after its coefficient set is freed. -/
theorem chan_freeCoefs (s : State) (c : Nat) : (freeCoefs s).chan c = freeCoef (s.chan c) := by
  simp only [State.chan, freeCoefs_chans, List.getD_eq_getElem?_getD, List.getElem?_map]
  cases s.chans[c]? <;> rfl

namespace EngineShape

variable {b : Config.Build} {l : Latched} {K : Nat → Word → List Buf → Prop} {s t : State}

/-- The coefficients may be described less exactly. -/
theorem mono {K' : Nat → Word → List Buf → Prop} (i : EngineShape b l K s)
    (h : ∀ c n coef, K c n coef → K' c n coef) : EngineShape b l K' s :=
  { i with coefs := fun c hc => h _ _ _ (i.coefs c hc) }

/-- The engine moved to another state than `UNINIT`. -/
theorem withFsm (i : EngineShape b l K s) {f : Fsm} (hf : f ≠ .uninit) : EngineShape b l K { s with fsm := f } :=
  ⟨hf, i.lat, i.chans, i.config, i.plan, i.scrCount, i.scrSize, i.channel, i.coefs, i.unused⟩

/-- Every coefficient set freed. -/
theorem freeCoefs {K' : Nat → Word → List Buf → Prop} (i : EngineShape b l K s) (h : ∀ c, K' c 0#32 []) :
    EngineShape b l K' (freeCoefs s) := by
  refine ⟨i.built, i.lat, by simp [i.chans], i.config, i.plan, i.scrCount, i.scrSize, fun c hc => ?_,
    fun c hc => ?_, fun c hc => ?_⟩
  · rw [chan_freeCoefs]
    have ch := i.channel c hc
    exact { ch with }
  · rw [chan_freeCoefs]
    exact h c
  · rw [chan_freeCoefs, i.unused c hc]
    rfl

/-- A block added to the channel that is being loaded. -/
theorem appendCoef {c n : Nat} (i : EngineShape b l (CoefLoading l c n) s) (hc : c < l.nChannels.toNat)
    {block : List FReal} (hx : block.length = l.size) :
    EngineShape b l (CoefLoading l c (n + 1)) (appendCoef s c block) := by
  refine freeCtr (i.setChanWith hc ?_ ?_ fun d _ hd h => ?_) _
  · have ch := i.channel c hc
    exact { ch with }
  · have hk := i.coefs c hc
    simp only [CoefLoading, lt_irrefl, if_false, if_true] at hk ⊢
    obtain ⟨hw, hcount, hsize⟩ := hk
    refine ⟨hw, by simp [hcount], fun x hx' => ?_⟩
    rcases List.mem_append.1 hx' with h | h
    · exact hsize x h
    · rw [List.mem_singleton.1 h, packReals_length, hx]
  · simpa [CoefLoading, hd] using h

/-- One turn of the loop of `PREPROCESS`. -/
theorem preprocessBlock {c n : Nat} (i : EngineShape b l (CoefLoading l c n) s) (hc : c < l.nChannels.toNat)
    (len : Nat) (scale : Word64) (j : Nat) :
    EngineShape b l (CoefLoading l c (n + 1)) (preprocessBlock b s c len scale j).1 := by
  have hblock : ∀ start m, (c2iBlock b s c start m scale).length = l.size := fun start m => by
    rw [c2iBlock, mixOne_length, i.lat]
  simp only [Machine.preprocessBlock]
  split
  · exact ((i.c2iScratch c _ _ scale).appendCoef hc (hblock _ _)).c2iScan _
  · exact (((i.c2iScratch c _ _ scale).appendCoef hc (hblock _ _)).c2iScan _).logEvent _

/-- The loop of `PREPROCESS` over `cb` blocks. -/
theorem preprocess {c : Nat} (i : EngineShape b l (CoefLoading l c 0) s) (hc : c < l.nChannels.toNat)
    (cb len : Nat) (scale : Word64) :
    EngineShape b l (CoefLoading l c cb) (preprocess b s c cb len scale).1 := by
  unfold Machine.preprocess
  induction cb with
  | zero => exact i
  | succ cb ih =>
    rw [List.range_succ, List.foldl_append]
    exact ih.preprocessBlock hc len scale cb

/-- A channel whose blocks are all built. -/
theorem setCoeffChannel {c cb : Nat} (i : EngineShape b l (CoefLoading l c 0) s) (hc : c < l.nChannels.toNat)
    (hcb : cb ≤ l.nBlocks.toNat) (len : Nat) (scale : Word64)
    (hok : (setCoeffChannel b cb len scale s c).2 = false) :
    EngineShape b l (CoefLoading l (c + 1) 0) (setCoeffChannel b cb len scale s c).1 := by
  have ip := i.preprocess hc cb len scale
  simp only [Machine.setCoeffChannel] at hok ⊢
  generalize Machine.preprocess b s c cb len scale = r at ip hok ⊢
  split at hok
  · next h => simp [h] at hok
  next h =>
  have hn : (BitVec.ofNat 32 cb).toNat = cb := by
    rw [BitVec.toNat_ofNat]
    exact Nat.mod_eq_of_lt (hcb.trans_lt l.nBlocks.isLt)
  rw [if_neg h]
  refine ip.setChanWith hc ?_ ?_ fun d _ hd hk => ?_
  · have ch := ip.channel c hc
    exact { ch with }
  · have hk := ip.coefs c hc
    simp only [CoefLoading, lt_irrefl, if_false, if_true] at hk
    simp only [CoefLoading, Nat.lt_succ_self, if_true, CoefSet, hn]
    exact ⟨hcb, hk.2⟩
  · have hlt : d < c + 1 ↔ d < c := by omega
    simpa [CoefLoading, hd, hlt] using hk

/-- A channel that failed. -/
theorem setCoeffChannel_failed {c cb : Nat} (i : EngineShape b l (CoefLoading l c 0) s)
    (hc : c < l.nChannels.toNat) (len : Nat) (scale : Word64)
    (hfail : (Machine.setCoeffChannel b cb len scale s c).2 = true) :
    EngineShape b l (fun _ _ _ => True) (Machine.setCoeffChannel b cb len scale s c).1 := by
  have ip := i.preprocess hc cb len scale
  simp only [Machine.setCoeffChannel] at hfail ⊢
  split at hfail
  · next h =>
    rw [if_pos h]
    exact ip.mono fun _ _ _ _ => trivial
  · cases hfail

/-- The effect of `SET_COEFF`. -/
theorem setCoeffEffect (i : EngineShape b l K s) (hcb : s.arg.coeffBlocks.toNat ≤ l.nBlocks.toNat) :
    EngineShape b l (CoefSet l) (setCoeffEffect b s) := by
  have hle : ∀ {c}, c < coefChannels s → c < l.nChannels.toNat := fun h =>
    h.trans_le ((Nat.min_le_right _ _).trans (by rw [i.channels]))
  have hloop := untilFailure_range (n := coefChannels s) (I := fun c => EngineShape b l (CoefLoading l c 0))
    (Q := EngineShape b l fun _ _ _ => True)
    (f := Machine.setCoeffChannel b s.arg.coeffBlocks.toNat s.arg.coeffLen.toNat s.arg.scale)
    ((i.freeCoefs (coefLoading_start l)).withFsm (f := .initialized) (by decide))
    (fun t c hc it hok => it.setCoeffChannel (hle hc) hcb _ _ hok)
    (fun t c hc it hfail => it.setCoeffChannel_failed (hle hc) _ _ hfail)
  simp only [Machine.setCoeffEffect]
  split
  · next heq =>
    rw [heq] at hloop
    obtain ⟨-, h⟩ | ⟨h, -⟩ := hloop
    · exact ((h.mono fun _ _ _ hk => hk.done).withFsm (by decide)).succeed _
    · exact absurd rfl h
  · next heq =>
    rw [heq] at hloop
    obtain ⟨h, -⟩ | ⟨-, h⟩ := hloop
    · cases h
    · exact ((h.freeCoefs fun c => ⟨Nat.zero_le _, rfl, by simp⟩).logEvent _).raise _ _

end EngineShape

/-! ## CONSTRUCT -/

/-- Configuration registers that pass the checks of `CONSTRUCT` (R212). -/
structure LegalConfig (b : Config.Build) (g : CfgRegs) : Prop where
  channelsLow : 1 ≤ g.nChannels.toNat
  channelsHigh : g.nChannels.toNat ≤ b.maxChannels
  fmtIn : fmtValid g.inFormat.toNat = true
  fmtOut : fmtValid g.outFormat.toNat = true
  dither : g.applyDither.toNat < 2
  rate : 1 ≤ g.sampleRate.toNat
  table : tableNeed g ≤ b.ditherTableMax
  precision : g.precision = 32#32 ∨ g.precision = 64#32
  blockLen : ∃ k : Nat, b.minOrder ≤ k + 1 ∧ k + 1 ≤ b.maxOrder ∧ g.blockLen.toNat = 2 ^ k
  nBlocksLow : 1 ≤ g.nBlocks.toNat
  nBlocksHigh : g.nBlocks.toNat ≤ b.maxBlocks
  arena : arenaBytes g ≤ b.arenaMaxBytes
  inBytes : g.blockLen.toNat * g.nChannels.toNat * fmtBytes g.inFormat.toNat ≤ b.iobufMaxBytes
  outBytes : g.blockLen.toNat * g.nChannels.toNat * fmtBytes g.outFormat.toNat ≤ b.iobufMaxBytes

/-- A list of checks that finds nothing. -/
theorem fails_of_firstFailure_none {cs : List Check} (h : firstFailure cs = none) : ∀ c ∈ cs, c.fails = false := by
  rcases firstFailure_cases cs with ⟨h1, -⟩ | ⟨_, _, _, -, -, -, h4⟩
  · exact h1
  · rw [h4] at h
    cases h

/-- The check of the block length passes exactly on the lengths of R212 (D12: `MIN_ORDER` is at least 3). -/
theorem blockLen_check {b : Config.Build} (hb : b.Legal) (n : Nat) :
    (!isPowerOfTwo n || decide (n < 2 ^ (b.minOrder - 1)) || decide (2 ^ (b.maxOrder - 1) < n)) = false ↔
      ∃ k : Nat, b.minOrder ≤ k + 1 ∧ k + 1 ≤ b.maxOrder ∧ n = 2 ^ k := by
  have hmin := hb.orders.1
  simp only [isPowerOfTwo, Bool.or_eq_false_iff, Bool.not_eq_false', Bool.and_eq_true, decide_eq_true_eq,
    decide_eq_false_iff_not, not_lt]
  constructor
  · rintro ⟨⟨⟨-, hpow⟩, hlow⟩, hhigh⟩
    rw [← hpow] at hlow hhigh
    have h1 := (Nat.pow_le_pow_iff_right (by omega)).1 hlow
    have h2 := (Nat.pow_le_pow_iff_right (by omega)).1 hhigh
    exact ⟨n.log2, by omega, by omega, hpow.symm⟩
  · rintro ⟨k, hlow, hhigh, rfl⟩
    exact ⟨⟨⟨(Nat.two_pow_pos k).ne', by rw [Nat.log2_two_pow]⟩, Nat.pow_le_pow_right (by omega) (by omega)⟩,
      Nat.pow_le_pow_right (by omega) (by omega)⟩

/-- What the checks of `CONSTRUCT` let pass. -/
theorem legalConfig_of_checks {b : Config.Build} (hb : b.Legal) {g : CfgRegs}
    (h : firstFailure (constructChecks b g) = none) : LegalConfig b g := by
  have hall := fails_of_firstFailure_none h
  simp only [constructChecks, List.forall_mem_cons, List.not_mem_nil, false_imp_iff, implies_true, and_true,
    blockLen_check hb] at hall
  obtain ⟨hc, hin, hout, hd, hr, ht, hp, hl, hn, ha, hib, hob⟩ := hall
  simp only [Bool.or_eq_false_iff, Bool.and_eq_false_iff, Bool.not_eq_false', decide_eq_false_iff_not, not_lt,
    not_le, not_not] at hc hin hout hd hr ht hp hn ha hib hob
  refine ⟨by omega, hc.2, hin, hout, hd, ?_, ht, hp, hl, ?_, hn.2, ha, hib, hob⟩
  · rw [Nat.one_le_iff_ne_zero]
    exact fun h0 => hr (BitVec.eq_of_toNat_eq h0)
  · rw [Nat.one_le_iff_ne_zero]
    exact fun h0 => hn.1 (BitVec.eq_of_toNat_eq h0)

/-- A valid format word has 13 bits. -/
theorem fmtValid_lt {w : Nat} (h : fmtValid w = true) : w < 2 ^ 13 := by
  simp only [fmtValid, Bool.and_eq_true, decide_eq_true_eq] at h
  omega

/-- As many table bytes as asked for. -/
theorem ditherTable_length (seed : Word) (n : Nat) : (ditherTable seed n).length = n := by
  have h : ∀ (n : Nat) (t : Taus), (randTable n t).length = n := by
    intro n
    induction n with
    | zero => exact fun _ => rfl
    | succ n ih => exact fun t => by rw [randTable, List.length_cons, ih]
  exact h n _

namespace LegalConfig

variable {b : Config.Build} {g : CfgRegs}

/-- The latched number of channels. -/
theorem latch_nChannels (h : LegalConfig b g) (hb : b.Legal) : (latch g).nChannels.toNat = g.nChannels.toNat := by
  have h1 := h.channelsHigh
  have h2 := hb.channels.2
  simp only [latch, BitVec.toNat_ofNat]
  omega

/-- The latched input format. -/
theorem latch_fmtIn (h : LegalConfig b g) : (latch g).fmtIn.toNat = g.inFormat.toNat := by
  simp only [latch, BitVec.toNat_ofNat]
  exact Nat.mod_eq_of_lt (fmtValid_lt h.fmtIn)

/-- The latched output format. -/
theorem latch_fmtOut (h : LegalConfig b g) : (latch g).fmtOut.toNat = g.outFormat.toNat := by
  simp only [latch, BitVec.toNat_ofNat]
  exact Nat.mod_eq_of_lt (fmtValid_lt h.fmtOut)

/-- The size of a latched real. -/
theorem latch_bytes (h : LegalConfig b g) : (latch g).prec.bytes = realSize g.precision.toNat := by
  rcases h.precision with hp | hp <;> simp [latch, realSize, hp, Prec.bytes]

/-- The distance of the channels in the dither table fits its register. -/
theorem spacing_toNat (g : CfgRegs) :
    (BitVec.ofNat 32 (spacingOf (latch g))).toNat = max g.sampleRate.toNat g.blockLen.toNat := by
  rw [BitVec.toNat_ofNat]
  exact Nat.mod_eq_of_lt (max_lt g.sampleRate.isLt g.blockLen.isLt)

/-- The size of the dither table fits its register. -/
theorem tableSize_toNat (h : LegalConfig b g) (hb : b.Legal) :
    (BitVec.ofNat 32 ((latch g).nChannels.toNat * spacingOf (latch g))).toNat =
      g.nChannels.toNat * max g.sampleRate.toNat g.blockLen.toNat := by
  rw [BitVec.toNat_ofNat, h.latch_nChannels hb]
  exact Nat.mod_eq_of_lt (h.table.trans_lt hb.table)

/-- A latched legal configuration and its dither table. -/
theorem configInv (h : LegalConfig b g) (hb : b.Legal) (seed : Word) :
    ConfigInv b (latch g) (BitVec.ofNat 32 (spacingOf (latch g)))
      (BitVec.ofNat 32 ((latch g).nChannels.toNat * spacingOf (latch g)))
      (ditherTable seed ((latch g).nChannels.toNat * spacingOf (latch g))) := by
  have hc := h.latch_nChannels hb
  have ht := h.tableSize_toNat hb
  exact {
    blockLen := h.blockLen
    nBlocksLow := h.nBlocksLow
    nBlocksHigh := h.nBlocksHigh
    channelsLow := hc ▸ h.channelsLow
    channelsHigh := hc ▸ h.channelsHigh
    fmtIn := h.latch_fmtIn ▸ h.fmtIn
    fmtOut := h.latch_fmtOut ▸ h.fmtOut
    rate := h.rate
    spacing := spacing_toNat g
    tableSize := by rw [ht, hc, spacing_toNat]
    tableHigh := by rw [ht]; exact h.table
    randvec := by rw [ditherTable_length, ht, hc]; rfl
    arena := by rw [h.latch_bytes, hc]; exact h.arena
    inBytes := by rw [hc, h.latch_fmtIn]; exact h.inBytes
    outBytes := by rw [hc, h.latch_fmtOut]; exact h.outBytes }

end LegalConfig

/-- A channel of a new engine. -/
theorem chan_buildEngine (b : Config.Build) (s : State) (l : Latched) {c : Nat} (hc : c < b.maxChannels) :
    (buildEngine b s l).chan c = if c < l.nChannels.toNat then freshChannel l c else .reset := by
  simp [State.chan, List.getD_eq_getElem?_getD, hc]

/-- A new engine with no plan has the shape. -/
theorem EngineShape.buildEngine {b : Config.Build} {s : State} {l : Latched}
    (h : ConfigInv b l (BitVec.ofNat 32 (spacingOf l)) (BitVec.ofNat 32 (l.nChannels.toNat * spacingOf l))
      (ditherTable b.ditherSeed (l.nChannels.toNat * spacingOf l))) (hp : s.plan = .reset) :
    EngineShape b l (CoefSet l) (buildEngine b s l) := by
  have hfresh : ∀ c, c < l.nChannels.toNat → (Machine.buildEngine b s l).chan c = freshChannel l c := fun c hc => by
    rw [chan_buildEngine b s l (hc.trans_le h.channelsHigh), if_pos hc]
  have hspacing : (BitVec.ofNat 32 (spacingOf l)).toNat = spacingOf l := h.spacing
  refine ⟨by simp, rfl, by simp, h, fun inv inpl => .inl ?_, by simp, ?_, fun c hc => ?_, fun c hc => ?_,
    fun c hc => ?_⟩
  · rw [buildEngine_plan, hp]
    cases inv <;> cases inpl <;> rfl
  · intro x hx
    rw [List.eq_of_mem_replicate hx]
    exact List.length_replicate
  · rw [hfresh c hc]
    have hcursor := h.cursor_lt hc
    rw [hspacing] at hcursor
    exact {
      descIn := rfl, descOut := rfl, ditherOn := rfl, processed := Nat.zero_le _, cursor := hcursor, max := rfl
      tb0 := List.length_replicate, tb1 := List.length_replicate, acc := List.length_replicate
      ringCount := List.length_replicate
      ringSize := fun x hx => by rw [List.eq_of_mem_replicate hx]; exact List.length_replicate }
  · rw [hfresh c hc]
    exact ⟨Nat.zero_le _, rfl, fun x hx => by cases hx⟩
  · by_cases hm : c < b.maxChannels
    · rw [chan_buildEngine b s l hm, if_neg (by omega)]
    · exact chan_out _ c (by simpa using hm)

end Sys2Proof.Machine
end

section
/-! The statement that every step keeps the engine well shaped. -/

namespace Sys2Proof.Machine

/-! One theorem is checked after the other: checked side by side, they take a thread each. -/
set_option Elab.async false

/-! ## No engine -/

/-- A torn-down engine is well shaped. -/
theorem noEngine_inv (b : Config.Build) (s : State) : EngineInv b (noEngine b s) := by
  have hchan : ∀ c, (noEngine b s).chan c = .reset := fun c => by
    simp only [State.chan, noEngine_chans, List.getD_eq_getElem?_getD, List.getElem?_replicate]
    split <;> rfl
  exact ⟨by simp, fun _ => ⟨rfl, hchan, rfl, rfl, rfl, rfl, rfl, rfl, rfl⟩, fun h => absurd rfl h⟩

/-! ## Commands -/

/-- `CONSTRUCT` leaves a well shaped engine or none. -/
theorem EngineInv.construct {b : Config.Build} (hb : b.Legal) (s : State) : EngineInv b (constructWith b s) := by
  unfold constructWith
  split
  · exact (noEngine_inv b s).congr (by constructor <;> simp)
  · next hchecks =>
    have hcfg := (legalConfig_of_checks hb hchecks).configInv hb b.ditherSeed
    exact ((EngineShape.buildEngine hcfg rfl).succeed _).inv

section
variable {b : Config.Build} {s : State}

/-- An error leaves the engine as it is. -/
theorem EngineInv.raise (h : EngineInv b s) (code : ResultCode) (aux : Word) : EngineInv b (raise s code aux) :=
  h.congr (by constructor <;> rfl)

/-- A success leaves the engine as it is. -/
theorem EngineInv.succeed (h : EngineInv b s) (aux : Word) : EngineInv b (succeed s aux) :=
  h.congr (by constructor <;> rfl)

/-- A guarded command keeps the engine well shaped when its effect on a built engine does. -/
theorem EngineInv.guarded (h : EngineInv b s) {cs : List Check} {effect : State}
    (heffect : EngineShape b s.lat (CoefSet s.lat) s → (∀ c ∈ cs, c.fails = false) →
      EngineShape b s.lat (CoefSet s.lat) effect) : EngineInv b (whenConstructed s (checked s cs effect)) :=
  whenConstructed_checked (h.raise _ _) (fun c _ => h.raise c.code c.aux) fun hf hpass =>
    (heffect ((engineInv_iff_shape hf).1 h) hpass).inv

/-- A guarded command without checks. -/
theorem EngineInv.guardedOnly (h : EngineInv b s) {effect : State}
    (heffect : EngineShape b s.lat (CoefSet s.lat) s → EngineShape b s.lat (CoefSet s.lat) effect) :
    EngineInv b (whenConstructed s effect) :=
  h.guarded (cs := []) fun i _ => heffect i

/-- A destination that passed its check is a buffer of the engine. -/
theorem inEngine_of_checks {cs : List Check} (hpass : ∀ c ∈ cs, c.fails = false) {id : Word}
    (hid : checkWritable s id ∈ cs) : InEngine s.lat (bufRef id) :=
  inEngine_of_writable (by simpa [checkWritable] using hpass _ hid)

/-- A channel that passed its check is a channel of the engine. -/
theorem channel_of_checks {cs : List Check} (hpass : ∀ c ∈ cs, c.fails = false) {ch : Nat}
    (hch : checkChannel s ch ∈ cs) : ch < s.lat.nChannels.toNat := by
  have h := of_decide_eq_false (hpass _ hch)
  exact Nat.lt_of_not_le h

/-- `MIX_AND_SCALE` keeps the engine well shaped. -/
theorem EngineInv.mixAndScale (h : EngineInv b s) (mode : MixMode) (n : Nat) :
    EngineInv b (mixAndScale s mode n) :=
  h.guarded fun i hpass =>
    (i.storeReals (inEngine_of_checks hpass (by simp [mixChecks])) (mixResult_length s mode n)).succeed _

/-- `VERIFY` keeps the engine well shaped. -/
theorem EngineInv.verify (h : EngineInv b s) (n : Nat) : EngineInv b (verifyWith b n s) := by
  refine h.guarded fun i _ => ?_
  split
  · exact (i.logEvent _).succeed _
  · exact i.succeed _

/-- `CHECK_OVERFLOWS` keeps the engine well shaped. -/
theorem EngineInv.checkOverflows (h : EngineInv b s) : EngineInv b (checkOverflowsWith b s) := by
  refine h.guardedOnly fun i => ?_
  split
  · refine EngineShape.succeed (List.foldlRecOn _ _ i fun t it c hc => it.reportChannel ?_) _
    exact List.mem_range.1 hc
  · exact i.succeed _

/-- `SET_COEFF` keeps the engine well shaped. -/
theorem EngineInv.setCoeff (h : EngineInv b s) : EngineInv b (setCoeffWith b s) := by
  refine h.guarded fun i hpass => ?_
  split
  · exact (i.logEvent _).raise _ _
  · refine i.setCoeffEffect ?_
    simp only [setCoeffChecks, List.forall_mem_cons, Bool.or_eq_false_iff, decide_eq_false_iff_not, not_lt] at hpass
    exact hpass.1.2

/-- `RUN` keeps the engine well shaped. -/
theorem EngineInv.run (h : EngineInv b s) : EngineInv b (runWith b s) := by
  unfold runWith
  by_cases hr : s.fsm = .ready
  · rw [whenReady_pass s _ hr]
    rcases checked_cases s _ (runEffect b s) with ⟨-, he⟩ | ⟨c, -, -, he⟩
    · rw [he]
      exact ((engineInv_iff_shape (by rw [hr]; decide)).1 h).runEffect.inv
    · rw [he]
      exact h.raise _ _
  · rw [whenReady_fail s _ hr]
    exact h.raise _ _

/-- Every command keeps the engine well shaped. -/
theorem EngineInv.command (hb : b.Legal) (i : Instr) {t : State} (h : EngineInv b s) (he : execWith b i s = .next t) :
    EngineInv b t := by
  cases i <;> cases he
  case construct => exact .construct hb s
  case setCoeff => exact h.setCoeff
  case run => exact h.run
  case reset => exact h.guardedOnly fun i => i.resetEffect.succeed _
  case checkOverflows => exact h.checkOverflows
  case isInitialized => exact h.succeed _
  case timeToFreq =>
    exact h.guarded fun i hpass => (i.transformed _ _ _ (inEngine_of_checks hpass (by simp))).succeed _
  case freqToTime =>
    exact h.guarded fun i hpass => (i.transformed _ _ _ (inEngine_of_checks hpass (by simp))).succeed _
  case mixAndScaleIn n => exact h.mixAndScale .input n
  case mixAndScaleOut n => exact h.mixAndScale .output n
  case convolve =>
    exact h.guarded fun i hpass =>
      (i.storeReals (inEngine_of_checks hpass (by simp [convolveChecks])) (productOf_length s _ _)).succeed _
  case convolveAdd =>
    exact h.guarded fun i hpass =>
      (i.storeReals (inEngine_of_checks hpass (by simp [convolveChecks])) (accumulated_length s _ _ _)).succeed _
  case convolveInplace =>
    exact h.guarded fun i hpass =>
      (i.storeReals (inEngine_of_checks hpass (by simp)) (productOf_length s _ _)).succeed _
  case diracConvolve =>
    exact h.guarded fun i hpass =>
      (i.storeReals (inEngine_of_checks hpass (by simp)) (by rw [dirac_length, i.size_eq])).succeed _
  case diracConvolveInplace =>
    exact h.guarded fun i hpass =>
      (i.storeReals (inEngine_of_checks hpass (by simp)) (by rw [dirac_length, i.size_eq])).succeed _
  case coeffsToInternal ch =>
    exact h.guarded fun i hpass =>
      i.coeffsToInternalEffect ch (inEngine_of_checks hpass (by simp [coeffsToInternalChecks]))
  case verify n => exact h.verify n
  case decodeSamples ch =>
    exact h.guarded fun i hpass =>
      (i.storeRealsAt (inEngine_of_checks hpass (by simp)) _ _).succeed _
  case encodeSamples ch =>
    exact h.guarded fun i hpass =>
      (i.encodeBlock (channel_of_checks hpass (by simp)) _ _).succeed _

end

/-! ## Steps -/

/-- A write to a register is no write to the engine. -/
theorem regWrite_sameEngine (s : State) (r : Reg) (w : Word) : SameEngine s (regWrite s r w) := by
  cases r <;> constructor <;> rfl

/-- A read of `LOG_POP` leaves the engine as it is. -/
theorem logPopEffect_sameEngine (s : State) : SameEngine s (logPopEffect s) := by
  unfold logPopEffect
  split
  · constructor <;> rfl
  · split <;> constructor <;> rfl

/-- Whatever a step can do keeps the engine well shaped. -/
theorem engineInv_stepClosed {b : Config.Build} (hb : b.Legal) : StepClosed b (EngineInv b) where
  take := fun s rest h => h.congr (t := { s with pending := rest }) (by constructor <;> rfl)
  command := fun i _ _ h he => h.command hb i he
  illegal := fun _ _ h => h.raise _ _
  register := fun s r w h => h.congr (regWrite_sameEngine s r w)
  memory := fun s addr v h => h.congr (t := writeByte s addr v) (by constructor <;> rfl)
  data := fun s d h => h.congr (t := { s with readData := d }) (by constructor <;> rfl)
  pop := fun s h => h.congr (logPopEffect_sameEngine s)
  reset := fun s _ => (noEngine_inv b s).congr (by constructor <;> rfl)

/-- Settles O13: what a step can do is a command or leaves the engine as it is; every command keeps the shape of
a built engine (`EngineShape`), the coefficient sets being followed apart while `SET_COEFF` loads them. -/
theorem engineInvKept : Obligations.EngineInvKept := by
  refine ⟨fun s t h hstep => ?_, fun b s t hb h hstep => (engineInv_stepClosed hb).step h hstep⟩
  rw [step_eq_stepWith] at hstep
  exact (engineInv_stepClosed Config.build_legal).step h hstep

end Sys2Proof.Machine
end

section
/-! The log FIFO and the result registers through every step. -/

namespace Sys2Proof.Machine

/-! One theorem is checked after the other: checked side by side, they take a thread each. -/
set_option Elab.async false

/-! ## The result registers -/

/-- Only success has the word 0 (R114). -/
theorem ResultCode.word_ne_zero {code : ResultCode} (h : code ≠ .ok) : code.word ≠ 0#32 := by
  cases code
  case ok => exact absurd rfl h
  all_goals decide

/-- The result registers agree after an error. -/
theorem resultInv_raise (s : State) {code : ResultCode} (aux : Word) (h : code ≠ .ok) :
    ResultInv (raise s code aux) :=
  ⟨⟨code, rfl⟩, (decide_eq_true (ResultCode.word_ne_zero h)).symm⟩

/-- The result registers agree after a success. -/
theorem resultInv_succeed (s : State) (aux : Word) : ResultInv (succeed s aux) := ⟨⟨.ok, rfl⟩, rfl⟩

/-- The result invariant depends on the result registers alone. -/
theorem ResultInv.congr {s t : State} (h : ResultInv s) (hr : t.result = s.result)
    (hf : t.lastFail = s.lastFail) : ResultInv t :=
  ⟨by rw [hr]; exact h.code, by rw [hr, hf]; exact h.lastFail⟩

/-! ## The log FIFO -/

/-- Containers go to memory. -/
@[simp] theorem putContainer_log (s : State) (addr width : Nat) (be : Bool) (u : Nat) :
    (putContainer s addr width be u).log = s.log := by rw [putContainer, writeBytes_eq]

/-- Containers go to memory. -/
@[simp] theorem putContainer_logRd (s : State) (addr width : Nat) (be : Bool) (u : Nat) :
    (putContainer s addr width be u).logRd = s.logRd := by rw [putContainer, writeBytes_eq]

namespace LogInv

variable {b : Config.Build} {s t : State}

/-- The log invariant depends on the records and the read position alone. -/
theorem congr (h : LogInv b s) (hl : t.log = s.log) (hr : t.logRd = s.logRd) : LogInv b t :=
  ⟨by rw [hl]; exact h.depth, by rw [hl, hr]; exact h.empty⟩

/-- A record offered to the FIFO. -/
theorem logEvent (h : LogInv b s) (r : LogRecord) : LogInv b (logEvent b s r) := by
  refine ⟨logEvent_depth b s r h.depth, fun hnil => ?_⟩
  rcases logEvent_cases b s r with ⟨-, he⟩ | ⟨-, he⟩
  · rw [he] at hnil
    exact absurd hnil (List.append_ne_nil_of_right_ne_nil _ (List.cons_ne_nil r []))
  · rw [he] at hnil ⊢
    exact h.empty hnil

/-- A read of `LOG_POP`. -/
theorem logPopEffect (h : LogInv b s) : LogInv b (logPopEffect s) := by
  refine ⟨logPopEffect_depth b s h.depth, ?_⟩
  unfold Machine.logPopEffect
  split
  · exact h.empty
  · next hl =>
    split
    · exact fun _ => rfl
    · exact fun hnil => absurd (hl.symm.trans hnil) (List.cons_ne_nil _ _)

/-- Reals stored. -/
theorem storeReals (h : LogInv b s) (r : BufRef) (xs : List FReal) : LogInv b (storeReals s r xs) :=
  h.congr (storeReals_log s r xs) (storeReals_logRd s r xs)

/-- A plan used. -/
theorem usePlan (h : LogInv b s) (inv inpl : Bool) : LogInv b (usePlan b s inv inpl) := by
  rcases usePlan_cases b s inv inpl with ⟨-, he⟩ | ⟨-, he⟩
  · rw [he]
    exact h
  · rw [he]
    refine logEvent ?_ _
    exact h.congr rfl rfl

/-- A transform. -/
theorem transformed (h : LogInv b s) (inv inpl : Bool) (dst src : BufRef) :
    LogInv b (transformed b s inv inpl dst src) := (h.usePlan inv inpl).storeReals _ _

/-- A block encoded. -/
theorem encodeBlock (h : LogInv b s) (c off : Nat) (src : List FReal) : LogInv b (encodeBlock s c off src) :=
  List.foldlRecOn (motive := LogInv b) _ _ h fun _ ht _ _ =>
    ht.congr (putContainer_log ..) (putContainer_logRd ..)

/-- The eight steps of `RUN` for a channel. -/
theorem runChannel (h : LogInv b s) (k slot : Nat) (sel : Bool) (c : Nat) :
    LogInv b (runChannel b k slot sel s c).1 := by
  have hin : LogInv b (runInput b sel s c) :=
    LogInv.transformed (h.congr (by simp) (by simp)) _ _ _ _
  have h4 : LogInv b (runStore b sel slot (runCount (runInput b sel s c) c) c) :=
    LogInv.storeReals (s := runCount (runInput b sel s c) c) (hin.congr rfl rfl) _ _
  simp only [Machine.runChannel]
  generalize runStore b sel slot _ c = s4 at h4 ⊢
  have h5 : LogInv b (if (s4.chan c).coefNBlocks = 0#32 then runDirac slot s4 c else runConvolve k slot s4 c) := by
    split
    · unfold runDirac
      split <;> exact h4.storeReals _ _
    · unfold runConvolve
      split
      · exact h4.storeReals _ _
      · exact List.foldlRecOn (motive := LogInv b) _ _ (h4.storeReals _ _) fun _ ht _ _ => ht.storeReals _ _
  have h6 : LogInv b (runOutput b
      (if (s4.chan c).coefNBlocks = 0#32 then runDirac slot s4 c else runConvolve k slot s4 c) c) :=
    (h5.storeReals _ _).transformed _ _ _ _
  generalize runOutput b _ c = s6 at h6 ⊢
  split
  · exact h6.encodeBlock _ _ _
  · exact h6.logEvent _

/-- The work of `C2I` on one block. -/
theorem c2iScratch (h : LogInv b s) (c start n : Nat) (scale : Word64) :
    LogInv b (c2iScratch b s c start n scale) := (h.usePlan false true).storeReals _ _

/-- The finiteness scan of one block. -/
theorem c2iScan (h : LogInv b s) (block : List FReal) : LogInv b (c2iScan b s block) := by
  unfold Machine.c2iScan
  split
  · exact h
  · exact h.logEvent _

/-- One turn of the loop of `PREPROCESS`. -/
theorem preprocessBlock (h : LogInv b s) (c len : Nat) (scale : Word64) (j : Nat) :
    LogInv b (preprocessBlock b s c len scale j).1 := by
  have hscan : ∀ start n block, LogInv b (Machine.c2iScan b
      (appendCoef (Machine.c2iScratch b s c start n scale) c block) block) := fun start n block => by
    refine c2iScan ?_ block
    exact (h.c2iScratch c start n scale).congr rfl rfl
  simp only [Machine.preprocessBlock]
  split
  · exact hscan _ _ _
  · exact (hscan _ _ _).logEvent _

/-- One turn of the loop of `SET_COEFF`. -/
theorem setCoeffChannel (h : LogInv b s) (cb len : Nat) (scale : Word64) (c : Nat) :
    LogInv b (setCoeffChannel b cb len scale s c).1 := by
  have hp : LogInv b (preprocess b s c cb len scale).1 :=
    List.foldlRecOn (motive := fun acc : State × Bool => LogInv b acc.1) _ _ h
      fun _ ht j _ => ht.preprocessBlock c len scale j
  simp only [Machine.setCoeffChannel]
  split
  · exact hp
  · exact hp.congr rfl rfl

end LogInv

/-! ## Commands -/

/-- How every command leaves the log and the result registers. -/
structure EndsWell (b : Config.Build) (t : State) : Prop where
  log : LogInv b t
  result : ResultInv t

section
variable {b : Config.Build} {s : State}

/-- A success. -/
theorem LogInv.succeed (h : LogInv b s) (aux : Word) : EndsWell b (succeed s aux) :=
  ⟨h.congr rfl rfl, resultInv_succeed s aux⟩

/-- An error. -/
theorem LogInv.raise (h : LogInv b s) {code : ResultCode} (aux : Word) (hc : code ≠ .ok) :
    EndsWell b (raise s code aux) := ⟨h.congr rfl rfl, resultInv_raise s aux hc⟩

/-- A guarded command. -/
theorem LogInv.guarded (h : LogInv b s) {cs : List Check} {effect : State} (hcode : ∀ c ∈ cs, c.code ≠ .ok)
    (heffect : EndsWell b effect) : EndsWell b (whenConstructed s (checked s cs effect)) :=
  whenConstructed_checked (h.raise _ (by decide)) (fun c hc => h.raise _ (hcode c hc)) fun _ _ => heffect

/-- A guarded command without checks. -/
theorem LogInv.guardedOnly (h : LogInv b s) {effect : State} (heffect : EndsWell b effect) :
    EndsWell b (whenConstructed s effect) :=
  h.guarded (cs := []) (fun _ hc => by cases hc) heffect

/-- No check of an id fails with the code of success. -/
theorem checkValid_code (s : State) (ids : List Word) : ∀ c ∈ ids.map (checkValid s), c.code ≠ .ok := by
  simp [checkValid]

/-- No check of `MIX_AND_SCALE` fails with the code of success. -/
theorem mixChecks_code (s : State) (n : Nat) : ∀ c ∈ mixChecks s n, c.code ≠ .ok := by
  simp only [mixChecks, List.forall_mem_cons, List.forall_mem_append]
  exact ⟨by simp, checkValid_code s _, by simp [checkWritable]⟩

/-- No check of `VERIFY` fails with the code of success. -/
theorem verifyChecks_code (s : State) (n : Nat) : ∀ c ∈ verifyChecks s n, c.code ≠ .ok := by
  simp only [verifyChecks, List.forall_mem_cons]
  exact ⟨by simp, checkValid_code s _⟩

/-- A torn-down engine has an empty log. -/
theorem noEngine_logInv (b : Config.Build) (s : State) : LogInv b (noEngine b s) :=
  ⟨Nat.zero_le _, fun _ => rfl⟩

/-- No check of `CONSTRUCT` fails with the code of success. -/
theorem constructChecks_code (b : Config.Build) (g : CfgRegs) : ∀ c ∈ constructChecks b g, c.code ≠ .ok := by
  simp [constructChecks]

/-- `CONSTRUCT`. -/
theorem endsWell_construct (b : Config.Build) (s : State) : EndsWell b (constructWith b s) := by
  have hlog := noEngine_logInv b s
  unfold constructWith
  rcases firstFailure_cases (constructChecks b s.cfg) with ⟨-, h⟩ | ⟨pre, c, post, hcs, -, -, h⟩
  · rw [h]
    refine LogInv.succeed ?_ _
    exact hlog.congr rfl rfl
  · rw [h]
    exact (hlog.logEvent _).raise _ (constructChecks_code b s.cfg c (by rw [hcs]; simp))

/-- `SET_COEFF`. -/
theorem LogInv.setCoeff (h : LogInv b s) : EndsWell b (setCoeffWith b s) := by
  refine h.guarded (by simp [setCoeffChecks]) ?_
  split
  · exact (h.logEvent _).raise _ (by decide)
  · have hloop := untilFailure_keeps (P := LogInv b)
      (f := Machine.setCoeffChannel b s.arg.coeffBlocks.toNat s.arg.coeffLen.toNat s.arg.scale)
      (s := { freeCoefs s with fsm := .initialized }) (List.range (coefChannels s)) (h.congr rfl rfl)
      fun t c _ ht => ht.setCoeffChannel _ _ _ c
    simp only [setCoeffEffect]
    split
    · next heq =>
      rw [heq] at hloop
      refine LogInv.succeed ?_ _
      exact hloop.congr rfl rfl
    · next heq =>
      rw [heq] at hloop
      refine LogInv.raise (LogInv.logEvent ?_ _) _ (by decide)
      exact hloop.congr rfl rfl

/-- `RUN`. -/
theorem LogInv.run (h : LogInv b s) : EndsWell b (runWith b s) := by
  have hloop := untilFailure_keeps (P := LogInv b)
    (f := Machine.runChannel b s.blockCounter.toNat (s.blockCounter.toNat % s.lat.nBlocks.toNat) s.bufSel)
    (List.range s.channels) h fun t c _ ht => ht.runChannel _ _ _ c
  have heffect : EndsWell b (runEffect b s) := by
    simp only [runEffect]
    split
    · next heq =>
      rw [heq] at hloop
      refine LogInv.succeed ?_ _
      exact hloop.congr rfl rfl
    · next heq =>
      rw [heq] at hloop
      exact hloop.raise _ (by decide)
  unfold runWith
  by_cases hr : s.fsm = .ready
  · rw [whenReady_pass s _ hr]
    rcases checked_cases s _ (runEffect b s) with ⟨-, he⟩ | ⟨c, hc, -, he⟩
    · rw [he]
      exact heffect
    · obtain rfl := List.mem_singleton.1 hc
      rw [he]
      exact h.raise (code := .eCounter) _ (by decide)
  · rw [whenReady_fail s _ hr]
    exact h.raise _ (by decide)

/-- `CHECK_OVERFLOWS`. -/
theorem LogInv.checkOverflows (h : LogInv b s) : EndsWell b (checkOverflowsWith b s) := by
  refine h.guardedOnly ?_
  split
  · refine LogInv.succeed (List.foldlRecOn (motive := LogInv b) _ _ h fun t ht c _ => ?_) _
    refine LogInv.logEvent ?_ _
    exact ht.congr rfl rfl
  · exact h.succeed _

/-- `MIX_AND_SCALE`. -/
theorem LogInv.mixAndScale (h : LogInv b s) (mode : MixMode) (n : Nat) : EndsWell b (mixAndScale s mode n) :=
  h.guarded (mixChecks_code s n) ((h.storeReals _ _).succeed _)

/-- `COEFFS_TO_INTERNAL`. -/
theorem LogInv.coeffsToInternal (h : LogInv b s) (ch : Nat) : EndsWell b (coeffsToInternalWith b ch s) := by
  have hscan := ((h.c2iScratch ch s.op.off.toNat s.op.len.toNat s.op.scale0).storeReals (bufRef s.op.dst)
    (c2iBlock b s ch s.op.off.toNat s.op.len.toNat s.op.scale0)).c2iScan
    (c2iBlock b s ch s.op.off.toNat s.op.len.toNat s.op.scale0)
  refine h.guarded (by simp [coeffsToInternalChecks, checkWritable]) ?_
  simp only [coeffsToInternalEffect]
  split
  · exact hscan.succeed _
  · exact hscan.raise _ (by decide)

/-- `VERIFY`. -/
theorem LogInv.verify (h : LogInv b s) (n : Nat) : EndsWell b (verifyWith b n s) := by
  refine h.guarded (verifyChecks_code s n) ?_
  split
  · exact (h.logEvent _).succeed _
  · exact h.succeed _

/-- Every command keeps the log FIFO within its depth and leaves the result registers in agreement. -/
theorem LogInv.command (i : Instr) {t : State} (h : LogInv b s) (he : execWith b i s = .next t) :
    EndsWell b t := by
  cases i <;> cases he
  case construct => exact endsWell_construct b s
  case setCoeff => exact h.setCoeff
  case run => exact h.run
  case reset =>
    refine h.guardedOnly (LogInv.succeed ?_ _)
    exact h.congr rfl rfl
  case checkOverflows => exact h.checkOverflows
  case isInitialized => exact h.succeed _
  case timeToFreq =>
    exact h.guarded (by simp [checkValid, checkWritable]) ((h.transformed _ _ _ _).succeed _)
  case freqToTime =>
    exact h.guarded (by simp [checkValid, checkWritable]) ((h.transformed _ _ _ _).succeed _)
  case mixAndScaleIn n => exact h.mixAndScale .input n
  case mixAndScaleOut n => exact h.mixAndScale .output n
  case convolve =>
    exact h.guarded (by simp [convolveChecks, checkValid, checkWritable]) ((h.storeReals _ _).succeed _)
  case convolveAdd =>
    exact h.guarded (by simp [convolveChecks, checkValid, checkWritable]) ((h.storeReals _ _).succeed _)
  case convolveInplace =>
    exact h.guarded (by simp [checkValid, checkWritable]) ((h.storeReals _ _).succeed _)
  case diracConvolve =>
    exact h.guarded (by simp [checkValid, checkWritable]) ((h.storeReals _ _).succeed _)
  case diracConvolveInplace =>
    exact h.guarded (by simp [checkWritable]) ((h.storeReals _ _).succeed _)
  case coeffsToInternal ch => exact h.coeffsToInternal ch
  case verify n => exact h.verify n
  case decodeSamples ch =>
    refine h.guarded (by simp [checkChannel, checkWritable, checkOffset]) (LogInv.succeed ?_ _)
    exact h.congr (storeRealsAt_log ..) (storeRealsAt_logRd ..)
  case encodeSamples ch =>
    exact h.guarded (by simp [checkChannel, checkValid, checkOffset]) ((h.encodeBlock _ _ _).succeed _)

end

/-! ## Steps -/

/-- A write to a register leaves the log and the result registers as they are. -/
theorem regWrite_log_result (s : State) (r : Reg) (w : Word) :
    (regWrite s r w).log = s.log ∧ (regWrite s r w).logRd = s.logRd ∧ (regWrite s r w).result = s.result ∧
      (regWrite s r w).lastFail = s.lastFail := by
  cases r <;> exact ⟨rfl, rfl, rfl, rfl⟩

/-- A read of `LOG_POP` leaves the result registers as they are. -/
theorem logPopEffect_result (s : State) :
    (logPopEffect s).result = s.result ∧ (logPopEffect s).lastFail = s.lastFail := by
  unfold logPopEffect
  split
  · exact ⟨rfl, rfl⟩
  · split <;> exact ⟨rfl, rfl⟩

/-- Whatever a step can do keeps the log FIFO and the agreement of the result registers. -/
theorem endsWell_stepClosed (b : Config.Build) : StepClosed b (EndsWell b) where
  take := fun _ _ h => ⟨h.log.congr rfl rfl, h.result.congr rfl rfl⟩
  command := fun i _ _ h he => h.log.command i he
  illegal := fun _ w h => h.log.raise w (by decide)
  register := fun s r w h => by
    obtain ⟨hl, hrd, hr, hf⟩ := regWrite_log_result s r w
    exact ⟨h.log.congr hl hrd, h.result.congr hr hf⟩
  memory := fun _ _ _ h => ⟨h.log.congr rfl rfl, h.result.congr rfl rfl⟩
  data := fun _ _ h => ⟨h.log.congr rfl rfl, h.result.congr rfl rfl⟩
  pop := fun s h => by
    obtain ⟨hr, hf⟩ := logPopEffect_result s
    exact ⟨h.log.logPopEffect, h.result.congr hr hf⟩
  reset := fun _ _ => ⟨⟨Nat.zero_le _, fun _ => rfl⟩, ⟨⟨.ok, rfl⟩, rfl⟩⟩

/-- Settles O12: every command keeps the log FIFO and ends by writing the result registers, which nothing else
writes but a hardware reset. -/
theorem logAndResultInvKept : Obligations.LogAndResultInvKept := by
  have hkept : ∀ (b : Config.Build) (s t : State), LogInv b s → ResultInv s → stepWith b s = .next t →
      LogInv b t ∧ ResultInv t := fun b s t hl hr hstep => by
    obtain ⟨hl', hr'⟩ := (endsWell_stepClosed b).step ⟨hl, hr⟩ hstep
    exact ⟨hl', hr'⟩
  refine ⟨fun s t hl hr hstep => ?_, hkept⟩
  rw [step_eq_stepWith] at hstep
  exact hkept Config.build s t hl hr hstep

end Sys2Proof.Machine
end

section
/-! Rounding is to the nearest value of the precision. -/

namespace Sys2Proof.Machine

/-! One theorem is checked after the other: checked side by side, they take a thread each. -/
set_option Elab.async false

/-! ## Rounding to a multiple of a power of two -/

/-- Rounding to an integer goes down to it by at most a half or up to it by at most a half. -/
theorem roundNearestEven_cases (m q : Nat) :
    (roundNearestEven m q = m / 2 ^ q ∧ 2 * (m % 2 ^ q) ≤ 2 ^ q) ∨
    (roundNearestEven m q = m / 2 ^ q + 1 ∧ 2 ^ q ≤ 2 * (m % 2 ^ q)) := by
  simp only [roundNearestEven]
  split
  · next h => exact .inr ⟨rfl, by omega⟩
  · next h => exact .inl ⟨rfl, by omega⟩

/-- No multiple of `2^q` is nearer to `m` than its rounding. -/
theorem roundNearestEven_nearest (m q n : Nat) :
    (((roundNearestEven m q * 2 ^ q : Nat) : Int) - m).natAbs ≤ (((n * 2 ^ q : Nat) : Int) - m).natAbs := by
  have hcases := roundNearestEven_cases m q
  have hdiv := Nat.div_add_mod' m (2 ^ q)
  have hmod := Nat.mod_lt m (Nat.two_pow_pos q)
  have hn : n * 2 ^ q ≤ m / 2 ^ q * 2 ^ q ∨ m / 2 ^ q * 2 ^ q + 2 ^ q ≤ n * 2 ^ q := by
    rcases Nat.lt_or_ge (m / 2 ^ q) n with h | h
    · exact .inr (by rw [← Nat.succ_mul]; exact Nat.mul_le_mul_right _ h)
    · exact .inl (Nat.mul_le_mul_right _ h)
  rcases hcases with ⟨hr, hle⟩ | ⟨hr, hle⟩
  · rw [hr]
    omega
  · rw [hr, Nat.succ_mul]
    omega

/-- Rounding to an integer below a bound stays up to the bound. -/
theorem roundNearestEven_le {m q n : Nat} (h : m < n * 2 ^ q) : roundNearestEven m q ≤ n := by
  have hlt := (Nat.div_lt_iff_lt_mul (Nat.two_pow_pos q)).2 h
  rcases roundNearestEven_cases m q with ⟨hr, -⟩ | ⟨hr, -⟩ <;> omega

/-! ## Rounding to the digits of a precision -/

/-- A precision has a digit. -/
theorem Prec.digits_pos (p : Prec) : 1 ≤ Prec.digits p := by cases p <;> decide

/-- The place of the last digit that rounding a magnitude keeps. -/
def roundPlace (p : Prec) (x m : Nat) : Nat := max (Prec.lsb p + x) (m.log2 + 1 - Prec.digits p)

/-- A rounded magnitude is an integer times the place of its last digit. -/
theorem roundMag_eq (p : Prec) (x m : Nat) :
    roundMag p x m = roundNearestEven m (roundPlace p x m) * 2 ^ (roundPlace p x m - x) := rfl

/-- The place of the last digit is not below that of the smallest number. -/
theorem lsb_le_roundPlace (p : Prec) (x m : Nat) : Prec.lsb p + x ≤ roundPlace p x m := le_max_left _ _

/-- A rounded magnitude at the scale of the exact one. -/
theorem roundMag_mul (p : Prec) (x m : Nat) :
    roundMag p x m * 2 ^ x = roundNearestEven m (roundPlace p x m) * 2 ^ roundPlace p x m := by
  have h := lsb_le_roundPlace p x m
  rw [roundMag_eq, Nat.mul_assoc, ← pow_add, Nat.sub_add_cancel (by omega)]

/-- The digits kept are no more than the precision has, but for a carry out of the leading one. -/
theorem roundNearestEven_le_digits (p : Prec) (x m : Nat) :
    roundNearestEven m (roundPlace p x m) ≤ 2 ^ Prec.digits p := by
  refine roundNearestEven_le ?_
  have hq : m.log2 + 1 ≤ Prec.digits p + roundPlace p x m := by
    have := le_max_right (Prec.lsb p + x) (m.log2 + 1 - Prec.digits p)
    simp only [roundPlace]
    omega
  calc m < 2 ^ (m.log2 + 1) := Nat.lt_log2_self
    _ ≤ 2 ^ (Prec.digits p + roundPlace p x m) := Nat.pow_le_pow_right (by omega) hq
    _ = _ := pow_add _ _ _

/-- A rounded magnitude has at most the digits of the precision. -/
theorem roundMag_digits (p : Prec) (x m : Nat) :
    ∃ k e : Nat, k < 2 ^ Prec.digits p ∧ roundMag p x m = k * 2 ^ (Prec.lsb p + e) := by
  have hplace := lsb_le_roundPlace p x m
  obtain ⟨e, he⟩ : ∃ e, roundPlace p x m - x = Prec.lsb p + e := ⟨_, (Nat.add_sub_of_le (by omega)).symm⟩
  rw [roundMag_eq, he]
  rcases (roundNearestEven_le_digits p x m).lt_or_eq with hlt | heq
  · exact ⟨_, e, hlt, rfl⟩
  · have hd := Prec.digits_pos p
    refine ⟨2 ^ (Prec.digits p - 1), e + 1, Nat.pow_lt_pow_right (by omega) (by omega), ?_⟩
    rw [heq, ← pow_add, ← pow_add]
    congr 1
    omega

/-- No magnitude with the digits of the precision is nearer to the exact one than the rounded magnitude: it is a
multiple of the last place, or it lies below the leading digit, which is such a multiple. -/
theorem roundMag_nearest (p : Prec) (x m k e : Nat) (hk : k < 2 ^ Prec.digits p) :
    (((roundMag p x m * 2 ^ x : Nat) : Int) - m).natAbs ≤
      (((k * 2 ^ (Prec.lsb p + e) * 2 ^ x : Nat) : Int) - m).natAbs := by
  rw [roundMag_mul, Nat.mul_assoc, ← pow_add]
  by_cases he : roundPlace p x m ≤ Prec.lsb p + e + x
  · have hmul : k * 2 ^ (Prec.lsb p + e + x) =
        k * 2 ^ (Prec.lsb p + e + x - roundPlace p x m) * 2 ^ roundPlace p x m := by
      rw [Nat.mul_assoc, ← pow_add, Nat.sub_add_cancel he]
    rw [hmul]
    exact roundNearestEven_nearest m _ _
  · have hd := Prec.digits_pos p
    have hplace : roundPlace p x m = m.log2 + 1 - Prec.digits p := by
      simp only [roundPlace] at he ⊢
      omega
    have hm : m ≠ 0 := by
      rintro rfl
      simp [hplace] at he
      omega
    have hlead : 2 ^ (Prec.digits p - 1) * 2 ^ roundPlace p x m = 2 ^ m.log2 := by
      rw [← pow_add]
      congr 1
      omega
    have hbelow : k * 2 ^ (Prec.lsb p + e + x) ≤ 2 ^ m.log2 := by
      calc k * 2 ^ (Prec.lsb p + e + x) ≤ 2 ^ Prec.digits p * 2 ^ (Prec.lsb p + e + x) :=
            Nat.mul_le_mul_right _ hk.le
        _ = 2 ^ (Prec.digits p + (Prec.lsb p + e + x)) := (pow_add _ _ _).symm
        _ ≤ 2 ^ m.log2 := Nat.pow_le_pow_right (by omega) (by omega)
    have hself := Nat.log2_self_le hm
    have hnear := roundNearestEven_nearest m (roundPlace p x m) (2 ^ (Prec.digits p - 1))
    rw [hlead] at hnear
    omega

/-- Settles O59: `roundMag` keeps the digits from `roundPlace` on (`roundMag_digits`), and nothing with so many digits
is nearer (`roundMag_nearest`). -/
theorem roundsToNearest : Obligations.RoundsToNearest := by
  intro p x m
  have hdigits := roundMag_digits p x m
  have hnearest := roundMag_nearest p x m
  push_cast at hnearest
  cases p
  · exact ⟨hdigits, hnearest⟩
  · exact ⟨hdigits, hnearest⟩

end Sys2Proof.Machine
end

section
/-! The values of a precision: the results of the primitives are among them, and their bits are read back. -/

namespace Sys2Proof.Machine

/-! One theorem is checked after the other: checked side by side, they take a thread each. -/
set_option Elab.async false

/-! ## Bits and fields -/

/-- The biased exponent of infinities and NaNs: all ones. -/
def Prec.top : Prec → Nat
  | .p32 => 255
  | .p64 => 2047

/-- There is an exponent of finite numbers. -/
theorem Prec.two_le_top (p : Prec) : 2 ≤ Prec.top p := by cases p <;> decide

/-- The leading digit is worth half of all that a precision's digits can hold. -/
theorem Prec.two_pow_digits (p : Prec) : 2 ^ Prec.digits p = 2 * 2 ^ (Prec.digits p - 1) := by cases p <;> rfl

/-- The first power of two that is too large, by the digits and the largest exponent of a precision. -/
theorem Prec.tooLarge_eq (p : Prec) :
    Prec.tooLarge p = 2 ^ Prec.digits p * 2 ^ (Prec.lsb p + (Prec.top p - 2)) := by
  rw [← pow_add]
  cases p <;> exact congrArg (HPow.hPow 2) rfl

/-- The bits put together from a sign, a biased exponent and a fraction are read as these fields. -/
theorem unpack_fields (p : Prec) (neg : Bool) (e f : Nat) (he : e ≤ Prec.top p)
    (hf : f < 2 ^ (Prec.digits p - 1)) :
    unpack p (BitVec.ofNat 64 ((if neg then signWeight p else 0) + (e * 2 ^ (Prec.digits p - 1) + f))) =
      unpackFields p neg e f (Prec.top p) := by
  have hsign : ∀ w : Nat, (if neg then w else 0) = neg.toNat * w := fun w => by cases neg <;> simp
  have hneg : decide (neg.toNat = 1) = neg := by cases neg <;> rfl
  have hle : neg.toNat ≤ 1 := Bool.toNat_le neg
  rw [hsign]
  cases p
  · simp only [Prec.top, Prec.digits] at he hf
    simp only [unpack, signWeight, Prec.digits, Prec.top, BitVec.toNat_ofNat]
    generalize hN : (neg.toNat * 2 ^ 31 + (e * 2 ^ (24 - 1) + f)) % 2 ^ 64 % 2 ^ 32 = N
    have h1 : N / 2 ^ 31 = neg.toNat := by omega
    have h2 : N / 2 ^ 23 % 256 = e := by omega
    have h3 : N % 2 ^ 23 = f := by omega
    rw [h1, h2, h3, hneg]
  · simp only [Prec.top, Prec.digits] at he hf
    simp only [unpack, signWeight, Prec.digits, Prec.top, BitVec.toNat_ofNat]
    generalize hN : (neg.toNat * 2 ^ 63 + (e * 2 ^ (53 - 1) + f)) % 2 ^ 64 = N
    have h1 : N / 2 ^ 63 = neg.toNat := by omega
    have h2 : N / 2 ^ 52 % 2048 = e := by omega
    have h3 : N % 2 ^ 52 = f := by omega
    rw [h1, h2, h3, hneg]

/-- Any bits are a sign, a biased exponent and a fraction. -/
theorem unpack_eq_fields (p : Prec) (x : Word64) :
    ∃ (neg : Bool) (e f : Nat), e ≤ Prec.top p ∧ f < 2 ^ (Prec.digits p - 1) ∧
      unpack p x = unpackFields p neg e f (Prec.top p) := by
  cases p
  · exact ⟨_, _, _, Nat.le_of_lt_succ (Nat.mod_lt _ (by decide)), Nat.mod_lt _ (by decide), rfl⟩
  · exact ⟨_, _, _, Nat.le_of_lt_succ (Nat.mod_lt _ (by decide)), Nat.mod_lt _ (by decide), rfl⟩

/-! ## Magnitudes of a precision -/

/-- A magnitude of a precision: so many digits, and an exponent below that of the infinities. -/
def IsMagnitude (p : Prec) (m : Nat) : Prop :=
  ∃ c e : Nat, c < 2 ^ Prec.digits p ∧ e + 2 ≤ Prec.top p ∧ m = c * 2 ^ e * 2 ^ Prec.lsb p

/-- A magnitude of a precision has a leading digit in its first place, unless it is subnormal. -/
theorem IsMagnitude.normal {p : Prec} {m : Nat} (h : IsMagnitude p m) :
    ∃ c e : Nat, c < 2 ^ Prec.digits p ∧ e + 2 ≤ Prec.top p ∧ m = c * 2 ^ e * 2 ^ Prec.lsb p ∧
      (e = 0 ∨ 2 ^ (Prec.digits p - 1) ≤ c) := by
  obtain ⟨c, e, hc, he, hm⟩ := h
  induction e generalizing c with
  | zero => exact ⟨c, 0, hc, he, hm, .inl rfl⟩
  | succ e ih =>
    by_cases hn : 2 ^ (Prec.digits p - 1) ≤ c
    · exact ⟨c, e + 1, hc, he, hm, .inr hn⟩
    · have htwo := Prec.two_pow_digits p
      refine ih (2 * c) (by omega) (by omega) ?_
      rw [hm, pow_succ]
      ring

/-- The exponent and fraction bits of `c * 2^e` units of the smallest number. -/
theorem magnitudeBits_eq (p : Prec) {c e : Nat} (hc : c < 2 ^ Prec.digits p)
    (h : e = 0 ∨ 2 ^ (Prec.digits p - 1) ≤ c) :
    magnitudeBits p (c * 2 ^ e * 2 ^ Prec.lsb p) = e * 2 ^ (Prec.digits p - 1) + c := by
  have hd := Prec.digits_pos p
  have hlog : (c * 2 ^ e).log2 - (Prec.digits p - 1) = e := by
    by_cases hc0 : c = 0
    · obtain rfl : e = 0 := h.resolve_right (by rw [hc0]; exact (Nat.two_pow_pos _).not_ge)
      simp [hc0]
    have hm : c * 2 ^ e ≠ 0 := Nat.mul_ne_zero hc0 (Nat.two_pow_pos _).ne'
    have hupper : (c * 2 ^ e).log2 < Prec.digits p + e := by
      rw [Nat.log2_lt hm, pow_add]
      exact Nat.mul_lt_mul_of_pos_right hc (Nat.two_pow_pos _)
    rcases h with rfl | hn
    · omega
    · have hlower : Prec.digits p - 1 + e ≤ (c * 2 ^ e).log2 := by
        rw [Nat.le_log2 hm, pow_add]
        exact Nat.mul_le_mul_right _ hn
      omega
  simp only [magnitudeBits]
  rw [Nat.mul_div_cancel _ (Nat.two_pow_pos _), hlog, Nat.mul_div_cancel _ (Nat.two_pow_pos _)]

/-- A finite value of a precision is read back from its bits. -/
theorem unpack_pack_fin {p : Prec} (neg : Bool) {m : Nat} (h : IsMagnitude p m) (code : Nat) :
    unpack p (pack p code (.fin neg m)) = .fin neg m := by
  obtain ⟨c, e, hc, he, rfl, hn⟩ := h.normal
  have htwo := Prec.two_pow_digits p
  simp only [pack, packNat]
  rw [magnitudeBits_eq p hc hn]
  by_cases hsub : c < 2 ^ (Prec.digits p - 1)
  · obtain rfl : e = 0 := hn.resolve_right (by omega)
    rw [unpack_fields p neg 0 c (Nat.zero_le _) hsub, unpackFields, if_neg (by omega), if_pos rfl, pow_zero,
      Nat.mul_one]
  · have hbits : e * 2 ^ (Prec.digits p - 1) + c =
        (e + 1) * 2 ^ (Prec.digits p - 1) + (c - 2 ^ (Prec.digits p - 1)) := by
      rw [Nat.succ_mul]
      omega
    rw [hbits, unpack_fields p neg (e + 1) _ (by omega) (by omega), unpackFields, if_neg (by omega),
      if_neg (Nat.succ_ne_zero e), Nat.add_sub_of_le (by omega), Nat.add_sub_cancel]

/-- An infinity is read back from its bits. -/
theorem unpack_pack_inf (p : Prec) (neg : Bool) (code : Nat) : unpack p (pack p code (.inf neg)) = .inf neg := by
  have hbits : infinityBits p = Prec.top p * 2 ^ (Prec.digits p - 1) + 0 := by cases p <;> rfl
  simp only [pack, packNat]
  rw [hbits, unpack_fields p neg (Prec.top p) 0 le_rfl (Nat.two_pow_pos _), unpackFields, if_pos rfl, if_pos rfl]

/-! ## Values of a precision -/

/-- Every precision has a NaN. -/
theorem isReal_nan (p : Prec) : IsReal p .nan := ⟨_, unpack_pack_nan p 0⟩

/-- Every precision has the infinities. -/
theorem isReal_inf (p : Prec) (neg : Bool) : IsReal p (.inf neg) := ⟨_, unpack_pack_inf p neg 0⟩

/-- The finite values of a precision are its magnitudes with either sign. -/
theorem isReal_fin_iff (p : Prec) (neg : Bool) (m : Nat) : IsReal p (.fin neg m) ↔ IsMagnitude p m := by
  constructor
  · rintro ⟨x, hx⟩
    obtain ⟨s, e, f, he, hf, h⟩ := unpack_eq_fields p x
    have htwo := Prec.two_pow_digits p
    have htop := Prec.two_le_top p
    rw [h, unpackFields] at hx
    split at hx
    · split at hx <;> cases hx
    · split at hx
      · cases hx
        exact ⟨f, 0, by omega, htop, by rw [pow_zero, Nat.mul_one]⟩
      · cases hx
        exact ⟨_, e - 1, by omega, by omega, rfl⟩
  · exact fun h => ⟨_, unpack_pack_fin neg h 0⟩

/-- A value of a precision is read back from its bits, whichever NaN a NaN is stored as. -/
theorem unpack_pack {p : Prec} {x : FReal} (h : IsReal p x) (code : Nat) : unpack p (pack p code x) = x := by
  cases x with
  | nan => exact unpack_pack_nan p code
  | inf neg => exact unpack_pack_inf p neg code
  | fin neg m => exact unpack_pack_fin neg ((isReal_fin_iff p neg m).1 h) code

/-- Zero is a value of every precision. -/
theorem isReal_zero (p : Prec) (neg : Bool) : IsReal p (.fin neg 0) :=
  (isReal_fin_iff p neg 0).2 ⟨0, 0, Nat.two_pow_pos _, Prec.two_le_top p, by simp⟩

/-! ## The primitives -/

/-- A magnitude with the digits of a precision that is not too large is one of the precision. -/
theorem isMagnitude_of_lt {p : Prec} {k e : Nat} (hk : k < 2 ^ Prec.digits p)
    (h : k * 2 ^ (Prec.lsb p + e) < Prec.tooLarge p) : IsMagnitude p (k * 2 ^ (Prec.lsb p + e)) := by
  have htop := Prec.two_le_top p
  have hsplit : ∀ c i, c * 2 ^ (Prec.lsb p + i) = c * 2 ^ i * 2 ^ Prec.lsb p := fun c i => by
    rw [Nat.add_comm, pow_add, Nat.mul_assoc]
  by_cases he : e + 2 ≤ Prec.top p
  · exact ⟨k, e, hk, he, hsplit k e⟩
  · have hshift : k * 2 ^ (Prec.lsb p + e) =
        k * 2 ^ (e - (Prec.top p - 2)) * 2 ^ (Prec.lsb p + (Prec.top p - 2)) := by
      rw [Nat.mul_assoc, ← pow_add]
      congr 2
      omega
    rw [hshift, Prec.tooLarge_eq] at h
    exact ⟨_, Prec.top p - 2, Nat.lt_of_mul_lt_mul_right h, by omega, by rw [hshift, hsplit]⟩

/-- A rounded value is a value of the precision. -/
theorem isReal_roundReal (p : Prec) (neg : Bool) (x m : Nat) : IsReal p (roundReal p neg x m) := by
  obtain ⟨k, e, hk, hr⟩ := roundMag_digits p x m
  simp only [roundReal]
  split
  · exact isReal_inf p neg
  · next h =>
    rw [hr] at h ⊢
    exact (isReal_fin_iff p neg _).2 (isMagnitude_of_lt hk (Nat.lt_of_not_le h))

/-- A sum is a value of the precision, whatever the operands. -/
theorem isReal_fadd (p : Prec) (a b : FReal) : IsReal p (fadd p a b) := by
  cases a with
  | nan => exact isReal_nan p
  | inf x =>
    cases b with
    | nan => exact isReal_nan p
    | inf y =>
      simp only [fadd]
      split
      · exact isReal_inf p x
      · exact isReal_nan p
    | fin y n => exact isReal_inf p x
  | fin x m =>
    cases b with
    | nan => exact isReal_nan p
    | inf y => exact isReal_inf p y
    | fin y n =>
      simp only [fadd]
      split
      · exact isReal_zero p _
      · exact isReal_roundReal p _ _ _

/-- A product is a value of the precision, whatever the operands. -/
theorem isReal_fmul (p : Prec) (a b : FReal) : IsReal p (fmul p a b) := by
  cases a with
  | nan => exact isReal_nan p
  | inf x =>
    cases b with
    | nan => exact isReal_nan p
    | inf y => exact isReal_inf p _
    | fin y n =>
      simp only [fmul]
      split
      · exact isReal_nan p
      · exact isReal_inf p _
  | fin x m =>
    cases b with
    | nan => exact isReal_nan p
    | inf y =>
      simp only [fmul]
      split
      · exact isReal_nan p
      · exact isReal_inf p _
    | fin y n => exact isReal_roundReal p _ _ _

/-- A quotient is a binary64 value, whatever the operands. -/
theorem isReal_fdiv64 (a b : FReal) : IsReal .p64 (fdiv64 a b) := by
  cases a with
  | nan => exact isReal_nan _
  | inf x =>
    cases b with
    | nan => exact isReal_nan _
    | inf y => exact isReal_nan _
    | fin y n => exact isReal_inf _ _
  | fin x m =>
    cases b with
    | nan => exact isReal_nan _
    | inf y => exact isReal_zero _ _
    | fin y n =>
      simp only [fdiv64]
      split
      · split
        · exact isReal_nan _
        · exact isReal_inf _ _
      · exact isReal_roundReal _ _ _ _

/-- A narrowed value is a value of the precision. -/
theorem isReal_cvt (p : Prec) (a : FReal) : IsReal p (cvt p a) := by
  cases a with
  | nan => exact isReal_nan p
  | inf x => exact isReal_inf p x
  | fin x m => exact isReal_roundReal p _ _ _

/-- The sign of a value of a precision does not matter. -/
theorem isReal_neg_abs {p : Prec} {a : FReal} (h : IsReal p a) : IsReal p (fneg a) ∧ IsReal p (fabs a) := by
  cases a with
  | nan => exact ⟨h, h⟩
  | inf x => exact ⟨isReal_inf p _, isReal_inf p _⟩
  | fin x m =>
    have hm := (isReal_fin_iff p x m).1 h
    exact ⟨(isReal_fin_iff p _ m).2 hm, (isReal_fin_iff p _ m).2 hm⟩

/-- Settles O60: every result is special, exact with a sign changed, or rounded by `roundReal`; the bits of a value
are its normal form's fields. -/
theorem resultsAreReals : Obligations.ResultsAreReals :=
  ⟨fun p a b _ => ⟨isReal_fadd p a b, isReal_fadd p a (fneg b), isReal_fmul p a b, isReal_cvt p a,
      isReal_roundReal p _ _ _, isReal_fdiv64 a b, isReal_neg_abs⟩,
    fun _ _ code h => unpack_pack h code⟩

end Sys2Proof.Machine
end

section
/-! `CONSTRUCT`: the first failing row of its table, and the engine it leaves. -/

namespace Sys2Proof.Machine

/-! One theorem is checked after the other: checked side by side, they take a thread each. -/
set_option Elab.async false

/-! ## The checks -/

/-- The lengths of R212 for the orders of a build. -/
theorem blockLen_mem {b : Config.Build} (n : Nat) :
    n ∈ (((List.range b.maxOrder).filter fun k => b.minOrder ≤ k + 1).map fun k => 2 ^ k) ↔
      ∃ k : Nat, b.minOrder ≤ k + 1 ∧ k + 1 ≤ b.maxOrder ∧ n = 2 ^ k := by
  simp only [List.mem_map, List.mem_filter, List.mem_range, decide_eq_true_eq]
  constructor
  · rintro ⟨k, ⟨hlt, hmin⟩, rfl⟩
    exact ⟨k, hmin, hlt, rfl⟩
  · rintro ⟨k, hmin, hlt, rfl⟩
    exact ⟨k, ⟨hlt, hmin⟩, rfl⟩

/-- A register is 0 when its number is. -/
theorem word_eq_zero_iff (w : Word) : w = 0#32 ↔ w.toNat = 0 :=
  ⟨fun h => by rw [h]; rfl, fun h => BitVec.eq_of_toNat_eq h⟩

/-- The size of a real by the precision register. -/
theorem realSize_eq (w : Word) : realSize w.toNat = if w = 64#32 then 8 else 4 := by
  have h : w.toNat = 64 ↔ w = 64#32 := ⟨fun h => BitVec.eq_of_toNat_eq h, fun h => by rw [h]; rfl⟩
  simp only [realSize, h]

/-- The checks of `CONSTRUCT` find the first failing row of the table of R212, row by row. -/
theorem firstFailure_constructChecks {b : Config.Build} (hb : b.Legal) (g : CfgRegs) :
    firstFailure (constructChecks b g) = constructError b g := by
  have hblockLen := not_congr ((blockLen_check hb g.blockLen.toNat).trans (blockLen_mem _).symm)
  rw [Bool.not_eq_false] at hblockLen
  have harena : arenaBytes g = 2 * g.blockLen.toNat * (if g.precision = 64#32 then 8 else 4) *
      (g.nChannels.toNat * (g.nBlocks.toNat + 3) + 4) := by rw [arenaBytes, realSize_eq]
  simp only [constructChecks, firstFailure, constructError]
  refine if_congr (by simp) rfl <| if_congr (by simp) rfl <| if_congr (by simp) rfl <|
    if_congr ?dither rfl <| if_congr ?rate rfl <| if_congr decide_eq_true_iff rfl <| if_congr (by simp) rfl <|
    if_congr hblockLen rfl <| if_congr ?blocks rfl <| if_congr ?arena rfl <|
    if_congr decide_eq_true_iff rfl <| if_congr decide_eq_true_iff rfl rfl
  case dither => rw [decide_eq_true_iff]; omega
  case rate => rw [decide_eq_true_iff, word_eq_zero_iff]
  case blocks => simp only [Bool.or_eq_true, decide_eq_true_iff, word_eq_zero_iff]
  case arena => rw [decide_eq_true_iff, harena]

/-! ## A failed construction -/

/-- How an error ends a command. -/
theorem ends_raise (s : State) {code : ResultCode} (aux : Word) (h : code ≠ .ok) :
    Ends (raise s code aux) code aux := ⟨rfl, rfl, (decide_eq_true h).symm⟩

/-- How a success ends a command. -/
theorem ends_succeed (s : State) (aux : Word) : Ends (succeed s aux) .ok aux := ⟨rfl, rfl, rfl⟩

/-- `CONSTRUCT` of the build with the defaults. -/
theorem exec_construct {b : Config.Build} {s t : State} (h : execWith b .construct s = .next t)
    (hb : b = Config.build) : exec .construct s = .next t := by
  rw [exec_eq_execWith, ← hb, h]

/-- No buffer exists in `UNINIT`. -/
theorem validId_uninit {s : State} (h : s.fsm = .uninit) (id : Word) : validId s id = false := by
  unfold validId
  cases bufRef id <;> simp [refValid, h]

/-- A record offered to an empty FIFO that can hold one. -/
theorem logEvent_empty {b : Config.Build} {s : State} (r : LogRecord) (hd : 1 ≤ b.logDepth) (h : s.log = []) :
    logEvent b s r = { s with log := [r] } := by
  rcases logEvent_cases b s r with ⟨-, he⟩ | ⟨hfull, -⟩
  · rw [he, h]
    rfl
  · rw [h, List.length_nil] at hfull
    omega

/-- Settles O48: `firstFailure_constructChecks` is the table; the state is then the torn-down engine with one
record. -/
theorem constructFails : Obligations.ConstructFails := by
  intro b s code aux hb hdepth herror
  have hfirst : firstFailure (constructChecks b s.cfg) = some (code, aux) := by
    rw [firstFailure_constructChecks hb, herror]
  have hcode : code ≠ .ok := by
    rcases firstFailure_cases (constructChecks b s.cfg) with ⟨-, h⟩ | ⟨pre, c, post, hcs, -, -, h⟩
    · rw [h] at hfirst
      cases hfirst
    · rw [h] at hfirst
      cases hfirst
      exact constructChecks_code b s.cfg c (by rw [hcs]; simp)
  have hlog := logEvent_empty (s := noEngine b s) (constructFailRecord code) hdepth rfl
  have hexec : execWith b .construct s =
      .next (raise { noEngine b s with log := [constructFailRecord code] } code aux) := by
    simp only [execWith, constructWith, hfirst, hlog]
  have hnone : NoEngineInv (raise { noEngine b s with log := [constructFailRecord code] } code aux) :=
    ((noEngine_inv b s).none rfl).congr (by constructor <;> rfl)
  exact ⟨_, hexec, exec_construct hexec, ends_raise _ aux hcode, rfl, hnone, rfl, rfl, rfl,
    ⟨rfl, rfl, rfl, rfl, rfl⟩, ⟨rfl, rfl, rfl⟩, readByte_congr rfl rfl, validId_uninit rfl⟩

/-! ## A new engine -/

/-- A value of the precision is not changed by rounding. -/
theorem roundReal_exact {p : Prec} (neg : Bool) {m : Nat} (h : IsMagnitude p m) : roundReal p neg 0 m = .fin neg m := by
  obtain ⟨c, e, hc, he, hm⟩ := h
  have hmul : m = c * 2 ^ (Prec.lsb p + e) := by rw [hm, Nat.add_comm, pow_add, Nat.mul_assoc]
  have hmag : roundMag p 0 m = m := by
    have hnear := roundMag_nearest p 0 m c e hc
    rw [pow_zero, Nat.mul_one, Nat.mul_one, ← hmul] at hnear
    omega
  have hlt : m < Prec.tooLarge p := by
    rw [hmul, Prec.tooLarge_eq]
    exact Nat.mul_lt_mul_of_lt_of_le hc (Nat.pow_le_pow_right (by omega) (by omega)) (Nat.two_pow_pos _)
  simp only [roundReal, hmag]
  exact if_neg (by omega)

/-- A small power of two is a binary64 value. -/
theorem isMagnitude_pow {e : Nat} (h : e ≤ 2045) : IsMagnitude .p64 (2 ^ e) :=
  ⟨1, e, by decide, Nat.add_le_add_right h 2, by simp [Prec.lsb]⟩

/-- 1.0 is a binary64 value. -/
theorem isMagnitude_one : IsMagnitude .p64 (2 ^ 1074) := isMagnitude_pow (Nat.le_of_ble_eq_true rfl)

/-- An integer of at most 53 digits is a binary64 value. -/
theorem isMagnitude_int {n : Nat} (h : n < 2 ^ 53) : IsMagnitude .p64 (n * 2 ^ 1074) :=
  ⟨n, 1074, h, by decide, by rw [Prec.lsb, pow_zero, Nat.mul_one]⟩

/-- The significant bits of a valid format. -/
theorem fmtSbits_of_valid {w : Nat} (h : fmtValid w = true) :
    1 ≤ fmtSbits w ∧ (fmtIsFloat w = false → fmtSbits w ≤ 32) := by
  simp only [fmtValid, Bool.and_eq_true] at h
  obtain ⟨-, h⟩ := h
  split at h
  · next hf =>
    simp only [Bool.and_eq_true, Bool.or_eq_true, decide_eq_true_eq] at h
    exact ⟨by omega, fun hn => by rw [hn] at hf; cases hf⟩
  · simp only [Bool.and_eq_true, decide_eq_true_eq] at h
    omega

/-- Bit 11 of a format word says float. -/
theorem fmtIsFloat_eq (w : Nat) : fmtIsFloat w = w.testBit 11 := by
  rw [Nat.testBit_eq_decide_div_mod_eq]
  rfl

/-- Bit 12 of a format word says big-endian. -/
theorem fmtBigEndian_eq (w : Nat) : fmtBigEndian w = w.testBit 12 := by
  rw [Nat.testBit_eq_decide_div_mod_eq]
  rfl

/-- The scale of a descriptor (R24). -/
theorem unpack_scale (fmt : BitVec 13) (n c : Nat) (h : fmtValid fmt.toNat = true) :
    unpack .p64 (sampleDesc fmt n c).scale =
      if fmtIsFloat fmt.toNat then .fin false (2 ^ 1074) else .fin false (2 ^ (1074 - (fmtSbits fmt.toNat - 1))) := by
  obtain ⟨hlow, hhigh⟩ := fmtSbits_of_valid h
  simp only [sampleDesc]
  split
  · exact unpack_pack_fin false isMagnitude_one 0
  · next hf =>
    have hexp : (1074 + -((fmtSbits fmt.toNat : Int) - 1)).toNat = 1074 - (fmtSbits fmt.toNat - 1) := by
      have := hhigh (by simpa using hf)
      omega
    rw [powerOfTwo, hexp]
    exact unpack_pack_fin false (isMagnitude_pow (by omega)) 0

/-- A descriptor is what R24 says of the bits of its format word. -/
theorem sampleDesc_describedBy (fmt : BitVec 13) (n c : Nat) (h : fmtValid fmt.toNat = true) :
    DescribedBy (sampleDesc fmt n c) fmt.toNat n c where
  bytes := rfl
  sbits := rfl
  isFloat := fmtIsFloat_eq _
  bigEndian := fmtBigEndian_eq _
  offset := rfl
  stride := rfl
  scale := by rw [unpack_scale fmt n c h, fmtIsFloat_eq]; rfl

/-- The maximum of a format (R28). -/
theorem unpack_formatMax {d : SampleDesc} (h : d.isFloat = false → d.sbits ≤ 32) : unpack .p64 (formatMax d) =
    if d.isFloat then .fin false (2 ^ 1074) else .fin false ((2 ^ (d.sbits - 1) - 1) * 2 ^ 1074) := by
  unfold formatMax
  by_cases hf : d.isFloat = true
  · rw [if_pos hf, if_pos hf]
    exact unpack_pack_fin false isMagnitude_one 0
  · have hbits := h (by simpa using hf)
    have hint : (2 : Int) ^ (d.sbits - 1) - 1 = ((2 ^ (d.sbits - 1) - 1 : Nat) : Int) := by
      push_cast [Nat.cast_sub (Nat.two_pow_pos (d.sbits - 1))]
      rfl
    have hlt : 2 ^ (d.sbits - 1) - 1 < 2 ^ 53 :=
      (Nat.sub_le _ _).trans_lt (Nat.pow_lt_pow_right (by decide) (by omega))
    have hneg : ∀ k : Nat, decide ((k : Int) < 0) = false := fun k => decide_eq_false (by omega)
    rw [if_neg hf, if_neg hf, hint, i2f64, i2f, hneg, Int.natAbs_natCast,
      roundReal_exact false (isMagnitude_int hlt)]
    exact unpack_pack_fin false (isMagnitude_int hlt) 0

/-- The latched dither switch. -/
theorem LegalConfig.latch_applyDither {b : Config.Build} {g : CfgRegs} (h : LegalConfig b g) :
    (latch g).applyDither = decide (g.applyDither = 1#32) := by
  have hone : g.applyDither.toNat % 2 = 1 ↔ g.applyDither = 1#32 := by
    have hlt := h.dither
    constructor
    · exact fun h1 => BitVec.eq_of_toNat_eq (show g.applyDither.toNat = 1 by omega)
    · exact fun h1 => by rw [h1]; rfl
  simp only [latch, hone]

/-- The place of channel `c` in the dither table fits its register. -/
theorem LegalConfig.cursor_toNat {b : Config.Build} {g : CfgRegs} (h : LegalConfig b g) (hb : b.Legal) {c : Nat}
    (hc : c < g.nChannels.toNat) :
    (BitVec.ofNat 32 (c * spacingOf (latch g))).toNat = c * max g.sampleRate.toNat g.blockLen.toNat := by
  rw [BitVec.toNat_ofNat]
  refine Nat.mod_eq_of_lt (lt_of_le_of_lt ?_ hb.table)
  exact (Nat.mul_le_mul_right _ hc.le).trans h.table

/-- Settles O49: the checks are the table of R212, and what passes them is latched without loss (`LegalConfig`). -/
theorem constructSucceeds : Obligations.ConstructSucceeds := by
  intro b s hb hnone g n c0 spacing zeros dithered
  have hfirst : firstFailure (constructChecks b s.cfg) = none := by rw [firstFailure_constructChecks hb, hnone]
  have hcfg : LegalConfig b g := legalConfig_of_checks hb hfirst
  have hexec : execWith b .construct s = .next (succeed (buildEngine b (noEngine b s) (latch g)) 0#32) := by
    simp only [execWith, constructWith, hfirst]
    rfl
  have hc0 : (latch g).nChannels.toNat = c0 := hcfg.latch_nChannels hb
  have hin := hcfg.latch_fmtIn
  have hout := hcfg.latch_fmtOut
  have hchan : ∀ c, c < c0 →
      (succeed (buildEngine b (noEngine b s) (latch g)) 0#32).chan c = freshChannel (latch g) c := fun c hc => by
    have h := chan_buildEngine b (noEngine b s) (latch g) (hc.trans_le hcfg.channelsHigh)
    rw [if_pos (by rw [hc0]; exact hc)] at h
    exact h
  refine ⟨_, hexec, exec_construct hexec, ends_succeed _ _, rfl, rfl, rfl, rfl, hc0, hin, hout, rfl,
    hcfg.latch_applyDither, hcfg.tableSize_toNat hb, LegalConfig.spacing_toNat g, ?table, rfl, rfl, rfl, ?channels,
    rfl, rfl, rfl, rfl, ⟨rfl, rfl, rfl, rfl, rfl⟩, ⟨rfl, rfl, rfl⟩, readByte_congr rfl rfl⟩
  case table =>
    rw [succeed_randvec, buildEngine_randvec, hc0]
    rfl
  case channels =>
    intro c hc
    have hdescIn : DescribedBy (freshChannel (latch g) c).descIn g.inFormat.toNat c0 c := by
      rw [← hin, ← hc0]
      exact sampleDesc_describedBy _ _ c (by rw [hin]; exact hcfg.fmtIn)
    have hdescOut : DescribedBy (freshChannel (latch g) c).descOut g.outFormat.toNat c0 c := by
      rw [← hout, ← hc0]
      exact sampleDesc_describedBy _ _ c (by rw [hout]; exact hcfg.fmtOut)
    have hmax := unpack_formatMax (d := (freshChannel (latch g) c).descOut) fun hf =>
      (fmtSbits_of_valid (by rw [hout]; exact hcfg.fmtOut)).2 hf
    rw [hdescOut.isFloat, hdescOut.sbits] at hmax
    have hdither : (freshChannel (latch g) c).ditherOn = (dithered && !g.outFormat.toNat.testBit 11) := by
      rw [← hdescOut.isFloat]
      exact congrArg (· && !(freshChannel (latch g) c).descOut.isFloat) hcfg.latch_applyDither
    rw [hchan c hc]
    exact ⟨rfl, rfl, rfl, rfl, rfl, rfl, hdescIn, hdescOut, hdither, hcfg.cursor_toNat hb hc, rfl, rfl, rfl, rfl,
      rfl, hmax, rfl⟩

end Sys2Proof.Machine
end

section
/-! SUPPORT. The overflow record of a channel while a sample is encoded (R290 to R292). -/

namespace Sys2Proof.Machine

/-! One theorem is checked after the other: checked side by side, they take a thread each. -/
set_option Elab.async false

/-! ## Peaks -/

/-- A magnitude of binary32 is one of binary64. -/
theorem IsMagnitude.widen {p : Prec} {m : Nat} (h : IsMagnitude p m) : IsMagnitude .p64 m := by
  obtain ⟨c, e, hc, he, hm⟩ := h
  have hdigits : Prec.digits p ≤ Prec.digits .p64 := by cases p <;> decide
  have hexp : Prec.top p + Prec.lsb p ≤ Prec.top .p64 := by cases p <;> decide
  refine ⟨c, e + Prec.lsb p, hc.trans_le (Nat.pow_le_pow_right (by decide) hdigits), by omega, ?_⟩
  rw [hm, pow_add, ← Nat.mul_assoc, show Prec.lsb .p64 = 0 from rfl, pow_zero, Nat.mul_one]

/-- A binary32 value is a binary64 value (R12: widening is exact). -/
theorem IsReal.widen {p : Prec} {x : FReal} (h : IsReal p x) : IsReal .p64 x := by
  cases x with
  | nan => exact isReal_nan _
  | inf neg => exact isReal_inf _ neg
  | fin neg m => exact (isReal_fin_iff _ neg m).2 ((isReal_fin_iff p neg m).1 h).widen

/-- The bits of a float peak: of a binary64 value that is neither a NaN nor negative (R28). -/
def IsPeak (w : Word64) : Prop := isNan (unpack .p64 w) = false ∧ w.getLsbD 63 = false

/-- `+0.0` is a peak. -/
theorem isPeak_zero : IsPeak 0#64 := ⟨rfl, rfl⟩

/-- Fields without a sign are those of a NaN, of `+infinity` or of a finite number without a sign. -/
theorem unpackFields_unsigned (p : Prec) (e f top : Nat) :
    unpackFields p false e f top = .nan ∨ unpackFields p false e f top = .inf false ∨
      ∃ m : Nat, unpackFields p false e f top = .fin false m := by
  unfold unpackFields
  split
  · split
    · exact .inr (.inl rfl)
    · exact .inl rfl
  · split <;> exact .inr (.inr ⟨_, rfl⟩)

/-- A peak is `+infinity` or finite without a sign. -/
theorem IsPeak.cases {w : Word64} (h : IsPeak w) :
    unpack .p64 w = .inf false ∨ ∃ m : Nat, unpack .p64 w = .fin false m := by
  obtain ⟨hnan, hsign⟩ := h
  have hneg : decide (w.toNat / 2 ^ 63 = 1) = false := by
    rw [BitVec.getLsbD, Nat.testBit_eq_decide_div_mod_eq, decide_eq_false_iff_not] at hsign
    exact decide_eq_false (by omega)
  have hfields : unpack .p64 w = unpackFields .p64 false (w.toNat / 2 ^ 52 % 2048) (w.toNat % 2 ^ 52) 2047 := by
    rw [unpack, hneg]
  rw [hfields] at hnan ⊢
  rcases unpackFields_unsigned .p64 (w.toNat / 2 ^ 52 % 2048) (w.toNat % 2 ^ 52) 2047 with h | h
  · rw [h] at hnan
    cases hnan
  · exact h

/-- Bits below the sign are those of a positive number. -/
theorem getLsbD_sign_of_lt {n : Nat} (h : n < 2 ^ 63) : (BitVec.ofNat 64 n).getLsbD 63 = false := by
  rw [BitVec.getLsbD_ofNat, Nat.testBit_lt_two_pow h, Bool.and_false]

/-- The exponent and fraction bits of a binary64 magnitude lie below the sign. -/
theorem magnitudeBits_lt {m : Nat} (h : IsMagnitude .p64 m) : magnitudeBits .p64 m < 2 ^ 63 := by
  obtain ⟨c, e, hc, he, rfl, hn⟩ := h.normal
  rw [magnitudeBits_eq .p64 hc hn]
  simp only [Prec.digits, Prec.top] at hc he ⊢
  omega

/-- Positive binary64 values are stored as peaks. -/
theorem isPeak_pack {x : FReal} (hx : IsReal .p64 x) (h : x = .inf false ∨ ∃ m : Nat, x = .fin false m)
    (code : Nat) : IsPeak (pack .p64 code x) := by
  refine ⟨?_, getLsbD_sign_of_lt ?_⟩
  · rw [unpack_pack hx]
    rcases h with rfl | ⟨m, rfl⟩ <;> rfl
  · rcases h with rfl | ⟨m, rfl⟩
    · simp [packNat, infinityBits]
    · simpa [packNat] using magnitudeBits_lt ((isReal_fin_iff _ false m).1 hx)

/-- What is above a value without a sign has no sign. -/
theorem positive_of_flt {a x : FReal} (ha : a = .inf false ∨ ∃ m : Nat, a = .fin false m) (h : flt a x = true) :
    x = .inf false ∨ ∃ m : Nat, x = .fin false m := by
  rcases ha with rfl | ⟨m, rfl⟩
  · cases x <;> cases h
  · cases x with
    | nan => cases h
    | inf neg => cases neg <;> cases h; exact .inl rfl
    | fin neg n =>
      cases neg with
      | false => exact .inr ⟨n, rfl⟩
      | true =>
        simp only [flt, signedUnits, decide_eq_true_eq] at h
        simp at h
        omega

/-! ## What an encoder does to the record -/

/-- The largest integer peak of a format (R292): `2^(S-1)`, and none for a float format. -/
def peakLimit (d : SampleDesc) : Nat := if d.isFloat then 0 else 2 ^ (d.sbits - 1)

/-- What encoding a sample of format `d` keeps of an overflow record: the maximum of the format, a float peak that
is one, and an integer peak within the limit of the format. -/
structure RecordStep (d : SampleDesc) (o o' : OvfRecord) : Prop where
  max : o'.max = o.max
  peak : IsPeak o.largestF → IsPeak o'.largestF
  limit : o.largestI.toNat ≤ peakLimit d → o'.largestI.toNat ≤ peakLimit d

namespace RecordStep

variable {d : SampleDesc} {o o' : OvfRecord}

/-- A clip counted (R290). -/
theorem clip (d : SampleDesc) (o : OvfRecord) : RecordStep d o (ovfClip o) := ⟨rfl, id, id⟩

/-- A float peak offered (R291). -/
theorem peakF (h : RecordStep d o o') {x : FReal} (hx : IsReal .p64 x) : RecordStep d o (ovfPeakF o' x) := by
  unfold ovfPeakF
  split
  · next hlt => exact ⟨h.max, fun hp => isPeak_pack hx (positive_of_flt (h.peak hp).cases hlt) 0, h.limit⟩
  · exact h

/-- An integer peak offered (R292). -/
theorem peakI (h : RecordStep d o o') {a : Nat} (ha : a ≤ peakLimit d) : RecordStep d o (ovfPeakI o' a) := by
  unfold ovfPeakI
  split
  · refine ⟨h.max, h.peak, fun _ => ?_⟩
    rw [BitVec.toNat_ofNat]
    exact (Nat.mod_le _ _).trans ha
  · exact h

end RecordStep

/-- A value within the range of a format rounds to an integer within it (R259). -/
theorem floorHalf_natAbs_le {d : SampleDesc} {u : FReal} (hnan : isNan u = false)
    (hhigh : greaterThanInt u (sampleMax d) = false) (hlow : lessThanInt u (sampleMin d) = false) :
    (floorHalf u).natAbs ≤ 2 ^ (d.sbits - 1) := by
  cases u with
  | nan => cases hnan
  | inf neg => cases neg <;> cases hhigh; cases hlow
  | fin neg m =>
    have hhigh : ¬sampleMax d * 2 ^ 1074 < signedUnits neg m := of_decide_eq_false hhigh
    have hlow : ¬signedUnits neg m < sampleMin d * 2 ^ 1074 := of_decide_eq_false hlow
    have hpow : ((2 : Int) ^ (d.sbits - 1)) = ((2 ^ (d.sbits - 1) : Nat) : Int) := by push_cast; rfl
    rw [sampleMax, hpow] at hhigh
    rw [sampleMin, hpow] at hlow
    generalize 2 ^ (d.sbits - 1) = n at hhigh hlow ⊢
    simp only [floorHalf]
    generalize signedUnits neg m = v at hhigh hlow ⊢
    omega

/-- Quantisation (R259). -/
theorem recordStep_quantise {d : SampleDesc} (hd : d.isFloat = false) (o : OvfRecord) {u : FReal}
    (hu : IsReal .p64 u) : RecordStep d o (quantise d o u).2 := by
  have hclip := RecordStep.clip d o
  unfold quantise
  split
  · exact hclip
  · next hnan =>
    split
    · exact hclip.peakF hu
    · next hhigh =>
      split
      · exact hclip.peakF (isReal_neg_abs hu).1
      · next hlow =>
        refine RecordStep.peakI ⟨rfl, id, id⟩ ?_
        rw [peakLimit, hd, if_neg Bool.false_ne_true]
        exact floorHalf_natAbs_le (by simpa using hnan) (by simpa using hhigh) (by simpa using hlow)

/-- The float encoder (R257). -/
theorem recordStep_encodeFloat (d : SampleDesc) (code : Nat) (o : OvfRecord) {y : FReal} (hy : IsReal .p64 y) :
    RecordStep d o (encodeFloat d code o y).2 := by
  simp only [encodeFloat]
  split
  · exact .clip d o
  · refine RecordStep.peakF ?_ (isReal_neg_abs hy).2
    split
    · exact .clip d o
    · exact ⟨rfl, id, id⟩

/-- Encoding a sample writes the overflow record and the dither state of its channel. -/
theorem encodeSample_recordStep (s : State) (c code : Nat) {y : FReal} (hy : IsReal .p64 y) :
    ∃ (o : OvfRecord) (t : DitherState), (encodeSample s c code y).2 = { s.chan c with ovf := o, dstate := t } ∧
      RecordStep (s.chan c).descOut (s.chan c).ovf o := by
  simp only [encodeSample]
  split
  · exact ⟨_, _, rfl, recordStep_encodeFloat _ _ _ hy⟩
  · next hd =>
    have hd : (s.chan c).descOut.isFloat = false := by simpa using hd
    split
    · exact ⟨_, _, rfl, recordStep_quantise hd _ (isReal_fmul _ _ _).widen⟩
    · exact ⟨_, _, rfl, recordStep_quantise hd _ (isReal_fadd _ _ _).widen⟩

/-- An element of a buffer is a value of binary64, whatever the precision. -/
theorem isReal_loadReals (s : State) (r : BufRef) (e : Nat) : IsReal .p64 (nth (loadReals s r) e) := by
  unfold nth
  rw [List.getD_eq_getElem?_getD]
  cases he : (loadReals s r)[e]? with
  | none => exact isReal_zero _ _
  | some x =>
    obtain ⟨w, -, hw⟩ := List.mem_map.1 (List.mem_of_getElem? he)
    exact IsReal.widen ⟨w, hw⟩

end Sys2Proof.Machine
end

section
/-! SUPPORT. What a command can write, said once: every command is a sequence of updates (`Update`), each of a class
of state, and every claim about what commands keep is a claim about single updates. -/

namespace Sys2Proof.Machine

/-! One theorem is checked after the other: checked side by side, they take a thread each. -/
set_option Elab.async false

/-! ## Updates -/

/-- The classes of state that commands write, each by some commands only. -/
inductive WriteClass where
  /-- The result registers, the plan bits, the log and the buffers of the arena. -/
  | work
  /-- The coefficient sets (R26), with `fsm`. -/
  | coefs
  /-- `block_counter`, `buf_sel` and `processed` (R25). -/
  | counters
  /-- The overflow records (R28) and the dither states (R27), sample by sample. -/
  | samples
  /-- The bytes of the apertures (R70). -/
  | memory
  /-- The snapshots (R28). -/
  | snapshots
  /-- What `RESET` clears (R230). -/
  | reset
  /-- What `CONSTRUCT` tears down and builds (R211, R213). -/
  | construct

/-- What an update of a class does to a channel. -/
inductive ChannelUpdate : WriteClass → Channel → Channel → Prop where
  | keep (w : WriteClass) (ch : Channel) : ChannelUpdate w ch ch
  | buffers {ch ch' : Channel} (h : ch'.book = ch.book) : ChannelUpdate .work ch ch'
  | coefs (ch : Channel) (n : Word) (coef : List Buf) :
      ChannelUpdate .coefs ch { ch with coefNBlocks := n, coef := coef }
  | processed (ch : Channel) (n : Word) : ChannelUpdate .counters ch { ch with processed := n }
  | sample {ch : Channel} {o : OvfRecord} (t : DitherState) (h : RecordStep ch.descOut ch.ovf o) :
      ChannelUpdate .samples ch { ch with ovf := o, dstate := t }
  | snapshot (ch : Channel) : ChannelUpdate .snapshots ch { ch with snap := snapshot ch.ovf }
  | reset (size spacing c : Nat) (ch : Channel) : ChannelUpdate .reset ch (resetChannel size spacing c ch)

/-- One update of a class of state. -/
inductive Update (b : Config.Build) : WriteClass → State → State → Prop where
  | channels {w : WriteClass} {s : State} {cs : List Channel} (hlen : cs.length = s.chans.length)
      (h : ∀ c : Nat, ChannelUpdate w (s.chan c) ({ s with chans := cs }.chan c)) :
      Update b w s { s with chans := cs }
  | scratch (s : State) (scr : List Buf) (n : Nat) : Update b .work s { s with scr := scr, freeCtr := n }
  | plan (s : State) (p : PlanValid) : Update b .work s { s with plan := p }
  | log (s : State) (r : LogRecord) : Update b .work s (logEvent b s r)
  | result (s : State) (r aux : Word) (fail : Bool) :
      Update b .work s { s with result := r, resultAux := aux, lastFail := fail }
  | fsm (s : State) (f : Fsm) : Update b .coefs s { s with fsm := f }
  | counters {w : WriteClass} (hw : w = .counters ∨ w = .reset) (s : State) (sel : Bool) (n : Word64) :
      Update b w s { s with bufSel := sel, blockCounter := n }
  | memory (s : State) (m : Memory) : Update b .memory s { s with mem := m }
  | tearDown (s : State) : Update b .construct s (noEngine b s)
  | build (s : State) (l : Latched) : Update b .construct s (buildEngine b s l)

/-- The channel replaced. -/
theorem Update.channel {b : Config.Build} {w : WriteClass} {s : State} {c : Nat} {ch : Channel}
    (h : ChannelUpdate w (s.chan c) ch) : Update b w s (s.setChan c ch) := by
  refine .channels (setChan_length s c ch) fun d => ?_
  change ChannelUpdate w (s.chan d) ((s.setChan c ch).chan d)
  by_cases hd : d = c
  · subst hd
    by_cases hl : d < s.chans.length
    · rwa [chan_setChan_self s d ch hl]
    · rw [setChan_out s d ch (by omega)]
      exact .keep _ _
  · rw [chan_setChan_ne s c d ch hd]
    exact .keep _ _

/-- A buffer of the arena stored. -/
theorem Update.buffer {b : Config.Build} (s : State) (r : BufRef) (x : Buf) : Update b .work s (setBuf s r x) := by
  cases r with
  | tb c i => exact .channel (.buffers (by split <;> rfl))
  | ring c i => exact .channel (.buffers rfl)
  | acc c => exact .channel (.buffers rfl)
  | scr i => exact .scratch s _ _
  | coef c i => exact .scratch s _ _
  | invalid => exact .scratch s _ _

/-- A sequence of updates of given classes, the work state being open to every command. -/
def Writes (b : Config.Build) (K : List WriteClass) : State → State → Prop :=
  Relation.ReflTransGen fun s t => ∃ w : WriteClass, (w = .work ∨ w ∈ K) ∧ Update b w s t

namespace Writes

variable {b : Config.Build} {K : List WriteClass} {s t u : State}

/-- Nothing written. -/
theorem refl (b : Config.Build) (K : List WriteClass) (s : State) : Writes b K s s := Relation.ReflTransGen.refl

/-- An update of an open class after a sequence. -/
theorem update {w : WriteClass} (h : Writes b K s t) (hw : w ∈ K) (hu : Update b w t u) : Writes b K s u :=
  h.tail ⟨w, .inr hw, hu⟩

/-- An update of the work state after a sequence. -/
theorem work (h : Writes b K s t) (hu : Update b .work t u) : Writes b K s u := h.tail ⟨_, .inl rfl, hu⟩

/-- What every single update keeps is kept. -/
theorem keeps {P : State → Prop} (h : Writes b K s t) (hs : P s)
    (hP : ∀ (w : WriteClass) (u v : State), w = .work ∨ w ∈ K → Update b w u v → P u → P v) : P t := by
  induction h with
  | refl => exact hs
  | tail _ hu ih =>
    obtain ⟨w, hw, hu⟩ := hu
    exact hP w _ _ hw hu ih

/-! ## Shared operations -/

/-- An error. -/
theorem raise (h : Writes b K s t) (code : ResultCode) (aux : Word) : Writes b K s (raise t code aux) :=
  h.work (.result t _ _ _)

/-- A success. -/
theorem succeed (h : Writes b K s t) (aux : Word) : Writes b K s (succeed t aux) := h.work (.result t _ _ _)

/-- A log record. -/
theorem logEvent (h : Writes b K s t) (r : LogRecord) : Writes b K s (logEvent b t r) := h.work (.log t r)

/-- The counter of free values. -/
theorem freeCtr (h : Writes b K s t) (n : Nat) : Writes b K s { t with freeCtr := n } := h.work (.scratch t t.scr n)

/-- Reals stored to a buffer. -/
theorem storeReals (h : Writes b K s t) (r : BufRef) (xs : List FReal) : Writes b K s (storeReals t r xs) :=
  (h.work (.buffer t r _)).freeCtr _

/-- Reals stored to a part of a buffer. -/
theorem storeRealsAt (h : Writes b K s t) (r : BufRef) (off : Nat) (xs : List FReal) :
    Writes b K s (storeRealsAt t r off xs) := (h.work (.buffer t r _)).freeCtr _

/-- A plan used. -/
theorem usePlan (h : Writes b K s t) (inv inpl : Bool) : Writes b K s (usePlan b t inv inpl) := by
  rcases usePlan_cases b t inv inpl with ⟨-, he⟩ | ⟨-, he⟩
  · rw [he]
    exact h
  · rw [he]
    exact (h.work (.plan t _)).logEvent _

/-- A transform. -/
theorem transformed (h : Writes b K s t) (inv inpl : Bool) (dst src : BufRef) :
    Writes b K s (transformed b t inv inpl dst src) := (h.usePlan inv inpl).storeReals _ _

/-- A container written to memory. -/
theorem putContainer (h : Writes b K s t) (hm : .memory ∈ K) (addr width : Nat) (be : Bool) (u : Nat) :
    Writes b K s (putContainer t addr width be u) := by
  unfold Machine.putContainer
  rw [writeBytes_eq]
  exact h.update hm (.memory t _)

/-- A block encoded. -/
theorem encodeBlock (h : Writes b K s t) (he : .samples ∈ K) (hm : .memory ∈ K) (c off : Nat) {src : List FReal}
    (hsrc : ∀ e : Nat, IsReal .p64 (nth src e)) : Writes b K s (encodeBlock t c off src) := by
  refine List.foldlRecOn (motive := Writes b K s) _ _ h fun u hu jy hjy => ?_
  have hreal : IsReal .p64 jy.2 := by
    obtain ⟨j, -, rfl⟩ := List.mem_map.1 hjy
    exact hsrc _
  obtain ⟨o, d, hch, hstep⟩ := encodeSample_recordStep u c (Config.nanCode u.freeCtr jy.1) hreal
  refine ((hu.update he (.channel ?_)).putContainer hm _ _ _ _).freeCtr _
  rw [hch]
  exact .sample d hstep

/-! ## RUN -/

/-- Steps 5 and 6 of `RUN` for a channel. -/
theorem runProductOutput (h : Writes b K s t) (k slot c : Nat) : Writes b K s
    (runOutput b (if (t.chan c).coefNBlocks = 0#32 then runDirac slot t c else runConvolve k slot t c) c) := by
  refine Writes.transformed (Writes.storeReals ?_ _ _) _ _ _ _
  split
  · unfold runDirac
    split <;> exact h.storeReals _ _
  · unfold runConvolve
    split
    · exact h.storeReals _ _
    · exact List.foldlRecOn (motive := Writes b K s) _ _ (h.storeReals _ _) fun _ hu _ _ => hu.storeReals _ _

/-- The eight steps of `RUN` for a channel. -/
theorem runChannel (h : Writes b K s t) (hc : .counters ∈ K) (he : .samples ∈ K) (hm : .memory ∈ K) (k slot : Nat)
    (sel : Bool) (c : Nat) : Writes b K s (runChannel b k slot sel t c).1 := by
  have hin : Writes b K s (runInput b sel t c) := ((h.storeRealsAt _ _ _).storeRealsAt _ _ _).transformed _ _ _ _
  have hcount : Writes b K s (runCount (runInput b sel t c) c) := hin.update hc (.channel (.processed _ _))
  have hstore : Writes b K s (runStore b sel slot (runCount (runInput b sel t c) c) c) := hcount.storeReals _ _
  have hprod := hstore.runProductOutput k slot c
  simp only [Machine.runChannel]
  generalize runOutput b _ c = s6 at hprod ⊢
  split
  · exact hprod.encodeBlock he hm _ _ (isReal_loadReals _ _)
  · exact hprod.logEvent _

/-- The effect of `RUN`. -/
theorem runEffect (hc : .counters ∈ K) (he : .samples ∈ K) (hm : .memory ∈ K) (s : State) :
    Writes b K s (runEffect b s) := by
  have hloop := untilFailure_keeps (P := Writes b K s)
    (f := Machine.runChannel b s.blockCounter.toNat (s.blockCounter.toNat % s.lat.nBlocks.toNat) s.bufSel)
    (List.range s.channels) (refl b K s) fun u c _ hu => hu.runChannel hc he hm _ _ _ c
  simp only [Machine.runEffect]
  split
  · next heq =>
    rw [heq] at hloop
    exact (hloop.update hc (.counters (.inl rfl) _ _ _)).succeed _
  · next heq =>
    rw [heq] at hloop
    exact hloop.raise _ _

/-! ## Coefficients -/

/-- The scratch work of one block. -/
theorem c2iScratch (h : Writes b K s t) (c start n : Nat) (scale : Word64) :
    Writes b K s (c2iScratch b t c start n scale) := (h.usePlan false true).storeReals _ _

/-- The finiteness scan of one block. -/
theorem c2iScan (h : Writes b K s t) (block : List FReal) : Writes b K s (c2iScan b t block) := by
  unfold Machine.c2iScan
  split
  · exact h
  · exact h.logEvent _

/-- The effect of `COEFFS_TO_INTERNAL`. -/
theorem coeffsToInternalEffect (s : State) (ch : Nat) : Writes b K s (coeffsToInternalEffect b s ch) := by
  have h := (((refl b K s).c2iScratch ch s.op.off.toNat s.op.len.toNat s.op.scale0).storeReals (bufRef s.op.dst)
    (c2iBlock b s ch s.op.off.toNat s.op.len.toNat s.op.scale0)).c2iScan
    (c2iBlock b s ch s.op.off.toNat s.op.len.toNat s.op.scale0)
  simp only [Machine.coeffsToInternalEffect]
  split
  · exact h.succeed _
  · exact h.raise _ _

/-- A block added to a coefficient set. -/
theorem appendCoef (h : Writes b K s t) (hk : .coefs ∈ K) (c : Nat) (block : List FReal) :
    Writes b K s (appendCoef t c block) := (h.update hk (.channel (.coefs (t.chan c) _ _))).freeCtr _

/-- Every coefficient set freed. -/
theorem freeCoefs (h : Writes b K s t) (hk : .coefs ∈ K) : Writes b K s (freeCoefs t) := by
  refine h.update hk (.channels (by simp) fun c => ?_)
  have hc := chan_freeCoefs t c
  exact hc ▸ .coefs (t.chan c) _ _

/-- One turn of the loop of `SET_COEFF`. -/
theorem setCoeffChannel (h : Writes b K s t) (hk : .coefs ∈ K) (cb len : Nat) (scale : Word64) (c : Nat) :
    Writes b K s (setCoeffChannel b cb len scale t c).1 := by
  have hp : Writes b K s (preprocess b t c cb len scale).1 := by
    refine List.foldlRecOn (motive := fun acc : State × Bool => Writes b K s acc.1) _ _ h fun acc hu i _ => ?_
    have hblock := fun start n block =>
      ((Writes.c2iScratch hu c start n scale).appendCoef hk c block).c2iScan block
    simp only [preprocessBlock]
    split
    · exact hblock _ _ _
    · exact (hblock _ _ _).logEvent _
  simp only [Machine.setCoeffChannel]
  split
  · exact hp
  · exact hp.update hk (.channel (.coefs _ _ _))

/-- The effect of `SET_COEFF`. -/
theorem setCoeffEffect (hk : .coefs ∈ K) (s : State) : Writes b K s (setCoeffEffect b s) := by
  have hloop := untilFailure_keeps (P := Writes b K s)
    (f := Machine.setCoeffChannel b s.arg.coeffBlocks.toNat s.arg.coeffLen.toNat s.arg.scale)
    (List.range (coefChannels s)) (((refl b K s).freeCoefs hk).update hk (.fsm _ .initialized))
    fun u c _ hu => hu.setCoeffChannel hk _ _ _ c
  simp only [Machine.setCoeffEffect]
  split
  · next heq =>
    rw [heq] at hloop
    exact (hloop.update hk (.fsm _ _)).succeed _
  · next heq =>
    rw [heq] at hloop
    exact ((hloop.freeCoefs hk).logEvent _).raise _ _

/-! ## RESET and CONSTRUCT -/

/-- The effect of `RESET`. -/
theorem resetEffect (hk : .reset ∈ K) (s : State) : Writes b K s (resetEffect s) := by
  suffices hchans : Writes b K s { s with chans := (Machine.resetEffect s).chans } from
    hchans.update hk (.counters (.inr rfl) _ false 0#64)
  refine (refl b K s).update hk (.channels List.length_mapIdx fun c => ?_)
  change ChannelUpdate .reset (s.chan c) ((Machine.resetEffect s).chan c)
  by_cases hc : c < s.chans.length
  · rw [EngineShape.chan_resetEffect s c hc]
    split
    · exact .reset _ _ _ _
    · exact .keep _ _
  · rw [chan_out s c (by omega), chan_out _ c (by simpa using hc)]
    exact .keep _ _

/-- `CONSTRUCT`. -/
theorem construct (hk : .construct ∈ K) (s : State) : Writes b K s (constructWith b s) := by
  have hdown := (refl b K s).update hk (.tearDown s)
  unfold constructWith
  split
  · exact (hdown.logEvent _).raise _ _
  · exact (hdown.update hk (.build _ _)).succeed _

/-! ## Commands -/

/-- A guarded command. -/
theorem guarded {cs : List Check} {effect : State} (h : Writes b K s effect) :
    Writes b K s (whenConstructed s (checked s cs effect)) :=
  whenConstructed_checked ((refl b K s).raise _ _) (fun _ _ => (refl b K s).raise _ _) fun _ _ => h

/-- A guarded command without checks. -/
theorem guardedOnly {effect : State} (h : Writes b K s effect) : Writes b K s (whenConstructed s effect) :=
  h.guarded (cs := [])

/-- `RUN`. -/
theorem run (hc : .counters ∈ K) (he : .samples ∈ K) (hm : .memory ∈ K) (s : State) : Writes b K s (runWith b s) := by
  unfold runWith whenReady
  split
  · rcases checked_cases s _ (Machine.runEffect b s) with ⟨-, h⟩ | ⟨c, -, -, h⟩
    · rw [h]
      exact runEffect hc he hm s
    · rw [h]
      exact (refl b K s).raise _ _
  · exact (refl b K s).raise _ _

end Writes

/-- The classes of state that a command writes besides the work state. -/
def classesOf : Instr → List WriteClass
  | .construct => [.construct]
  | .setCoeff => [.coefs]
  | .run => [.counters, .samples, .memory]
  | .reset => [.reset]
  | .checkOverflows => [.snapshots]
  | .encodeSamples _ => [.samples, .memory]
  | _ => []

/-- What each command writes. -/
theorem writes_of_exec {b : Config.Build} {i : Instr} {s t : State} (h : execWith b i s = .next t) :
    Writes b (classesOf i) s t := by
  have start : Writes b (classesOf i) s s := .refl _ _ _
  cases i <;> cases h
  case construct => exact .construct (by simp [classesOf]) s
  case setCoeff =>
    refine Writes.guarded ?_
    split
    · exact (start.logEvent _).raise _ _
    · exact .setCoeffEffect (by simp [classesOf]) s
  case run => exact .run (by simp [classesOf]) (by simp [classesOf]) (by simp [classesOf]) s
  case reset =>
    refine Writes.guardedOnly (Writes.succeed ?_ _)
    exact .resetEffect (by simp [classesOf]) s
  case checkOverflows =>
    refine Writes.guardedOnly ?_
    split
    · refine Writes.succeed (List.foldlRecOn (motive := Writes b _ s) _ _ start fun u hu c _ => ?_) _
      exact (hu.update (by simp [classesOf]) (.channel (.snapshot _))).logEvent _
    · exact start.succeed _
  case isInitialized => exact start.succeed _
  case timeToFreq => exact Writes.guarded ((start.transformed _ _ _ _).succeed _)
  case freqToTime => exact Writes.guarded ((start.transformed _ _ _ _).succeed _)
  case mixAndScaleIn n => exact Writes.guarded ((start.storeReals _ _).succeed _)
  case mixAndScaleOut n => exact Writes.guarded ((start.storeReals _ _).succeed _)
  case convolve => exact Writes.guarded ((start.storeReals _ _).succeed _)
  case convolveAdd => exact Writes.guarded ((start.storeReals _ _).succeed _)
  case convolveInplace => exact Writes.guarded ((start.storeReals _ _).succeed _)
  case diracConvolve => exact Writes.guarded ((start.storeReals _ _).succeed _)
  case diracConvolveInplace => exact Writes.guarded ((start.storeReals _ _).succeed _)
  case coeffsToInternal ch => exact Writes.guarded (.coeffsToInternalEffect s ch)
  case verify n =>
    refine Writes.guarded ?_
    split
    · exact (start.logEvent _).succeed _
    · exact start.succeed _
  case decodeSamples ch => exact Writes.guarded ((start.storeRealsAt _ _ _).succeed _)
  case encodeSamples ch =>
    refine Writes.guarded (Writes.succeed ?_ _)
    exact start.encodeBlock (by simp [classesOf]) (by simp [classesOf]) _ _ (isReal_loadReals _ _)

end Sys2Proof.Machine
end

section
/-! What commands keep: the host's side, each class of state but by its own commands, the ranges of the overflow
statistics. -/

namespace Sys2Proof.Machine

/-! One theorem is checked after the other: checked side by side, they take a thread each. -/
set_option Elab.async false

/-! ## The host's side -/

/-- Registers kept twice. -/
theorem SameHostRegs.trans {s t u : State} (h : SameHostRegs s t) (h' : SameHostRegs t u) : SameHostRegs s u :=
  ⟨h'.cfg.trans h.cfg, h'.arg.trans h.arg, h'.op.trans h.op, h'.dbgBuf.trans h.dbgBuf, h'.dbgIdx.trans h.dbgIdx⟩

/-- The port kept twice. -/
theorem SamePort.trans {s t u : State} (h : SamePort s t) (h' : SamePort t u) : SamePort s u :=
  ⟨h'.pending.trans h.pending, h'.readData.trans h.readData, h'.powerOns.trans h.powerOns⟩

/-- No update is one of the host's registers. -/
theorem Update.sameHostRegs {b : Config.Build} {w : WriteClass} {s t : State} (h : Update b w s t) :
    SameHostRegs s t := by
  cases h <;> constructor <;> simp

/-- No update is one of the port. -/
theorem Update.samePort {b : Config.Build} {w : WriteClass} {s t : State} (h : Update b w s t) : SamePort s t := by
  cases h <;> constructor <;> simp

/-- Commands leave the host's side alone. -/
theorem Writes.sameHostSide {b : Config.Build} {K : List WriteClass} {s t : State} (h : Writes b K s t) :
    SameHostRegs s t ∧ SamePort s t :=
  h.keeps (P := fun u => SameHostRegs s u ∧ SamePort s u) ⟨⟨rfl, rfl, rfl, rfl, rfl⟩, ⟨rfl, rfl, rfl⟩⟩
    fun _ _ _ _ hu ⟨hregs, hport⟩ => ⟨hregs.trans hu.sameHostRegs, hport.trans hu.samePort⟩

/-- Settles O15: a command is a sequence of updates (`writes_of_exec`), and none is on the host's side. -/
theorem commandsKeepHostRegisters : Obligations.CommandsKeepHostRegisters := by
  intro i s t h
  rw [exec_eq_execWith] at h
  exact (writes_of_exec h).sameHostSide

/-! ## Which class holds what -/

/-- The part of a channel that `CONSTRUCT` alone writes (R24, R28). -/
def Channel.setup (ch : Channel) : SampleDesc × SampleDesc × Bool × Word64 :=
  (ch.descIn, ch.descOut, ch.ditherOn, ch.ovf.max)

/-- The coefficient set of a channel (R26). -/
def Channel.coefSet (ch : Channel) : Word × List Buf := (ch.coefNBlocks, ch.coef)

/-- What the encoders write of a channel (R27, R28). -/
def Channel.encoder (ch : Channel) : OvfRecord × DitherState := (ch.ovf, ch.dstate)

/-- The part of the engine that `CONSTRUCT` alone writes (R23, R27). -/
def State.setup (s : State) : Latched × Word × Word × List Byte := (s.lat, s.tableSize, s.spacing, s.randvec)

/-- The engine's own counters (R25). -/
def State.counters (s : State) : Word64 × Bool := (s.blockCounter, s.bufSel)

namespace ChannelUpdate

variable {w : WriteClass} {ch ch' : Channel}

/-- What a channel holds besides its buffers is a function of its book. -/
theorem of_book {α : Type} (F : Channel → α) (hF : ∀ x : Channel, F x.book = F x) (h : ch'.book = ch.book) :
    F ch' = F ch := by rw [← hF ch', h, hF ch]

/-- Updates keep the setup of a channel. -/
theorem setup_eq (h : ChannelUpdate w ch ch') : ch'.setup = ch.setup := by
  cases h with
  | buffers h => exact of_book _ (fun _ => rfl) h
  | sample t h => rw [Channel.setup, h.max]; rfl
  | keep | coefs | processed | snapshot | reset => rfl

/-- Updates keep the count of blocks, but for those of its classes. -/
theorem processed_eq (h : ChannelUpdate w ch ch') (hc : w ≠ .counters) (hr : w ≠ .reset) :
    ch'.processed = ch.processed := by
  cases h with
  | buffers h => exact of_book _ (fun _ => rfl) h
  | keep | coefs | sample | snapshot => rfl
  | processed => exact absurd rfl hc
  | reset => exact absurd rfl hr

/-- Updates keep the coefficient set, but for those of its class. -/
theorem coefSet_eq (h : ChannelUpdate w ch ch') (hw : w ≠ .coefs) : ch'.coefSet = ch.coefSet := by
  cases h with
  | buffers h => exact of_book _ (fun _ => rfl) h
  | keep | processed | sample | snapshot | reset => rfl
  | coefs => exact absurd rfl hw

/-- Updates keep the overflow record and the dither state, but for those of their classes. -/
theorem encoder_eq (h : ChannelUpdate w ch ch') (hs : w ≠ .samples) (hr : w ≠ .reset) :
    ch'.encoder = ch.encoder := by
  cases h with
  | buffers h => exact of_book _ (fun _ => rfl) h
  | keep | coefs | processed | snapshot => rfl
  | sample => exact absurd rfl hs
  | reset => exact absurd rfl hr

/-- Updates keep the snapshot, but for those of its classes. -/
theorem snap_eq (h : ChannelUpdate w ch ch') (hs : w ≠ .snapshots) (hr : w ≠ .reset) : ch'.snap = ch.snap := by
  cases h with
  | buffers h => exact of_book _ (fun _ => rfl) h
  | keep | coefs | processed | sample => rfl
  | snapshot => exact absurd rfl hs
  | reset => exact absurd rfl hr

end ChannelUpdate

namespace Update

variable {b : Config.Build} {w : WriteClass} {s t : State}

/-- Every channel sees an update of the class, unless the engine is torn down or built. -/
theorem chan (h : Update b w s t) (hw : w ≠ .construct) (c : Nat) : ChannelUpdate w (s.chan c) (t.chan c) := by
  cases h with
  | channels hlen h => exact h c
  | log _ r =>
    have hc : (logEvent b s r).chan c = s.chan c := by rw [State.chan, logEvent_chans]; rfl
    rw [hc]
    exact .keep _ _
  | tearDown | build => exact absurd rfl hw
  | _ => exact .keep _ _

/-- Updates keep the configuration and the dither table, but for those of their class. -/
theorem setup_eq (h : Update b w s t) (hw : w ≠ .construct) : t.setup = s.setup := by
  cases h with
  | tearDown | build => exact absurd rfl hw
  | log _ r => simp [State.setup]
  | _ => rfl

/-- Updates keep the counters, but for those of their classes. -/
theorem counters_eq (h : Update b w s t) (hc : w ≠ .counters) (hr : w ≠ .reset) (hw : w ≠ .construct) :
    t.counters = s.counters := by
  cases h with
  | tearDown | build => exact absurd rfl hw
  | counters h => exact (h.elim hc hr).elim
  | log _ r => simp [State.counters]
  | _ => rfl

/-- Updates keep the bytes of the apertures, but for those of their class. -/
theorem mem_eq (h : Update b w s t) (hw : w ≠ .memory) : t.mem = s.mem := by
  cases h with
  | memory => exact absurd rfl hw
  | log _ r => exact logEvent_mem ..
  | _ => rfl

end Update

/-- No update is of a class that is not open. -/
theorem ne_of_closed {K : List WriteClass} {w w' : WriteClass} (hw : w = .work ∨ w ∈ K) (h : w' ∉ K)
    (hwork : w' ≠ .work) : w ≠ w' := by
  rintro rfl
  exact hw.elim hwork h

namespace Writes

variable {b : Config.Build} {K : List WriteClass} {s t : State}

/-- A part of the state that no update of an open class writes is kept. -/
theorem same {α : Type} (F : State → α) (h : Writes b K s t)
    (hF : ∀ (w : WriteClass) (u v : State), w = .work ∨ w ∈ K → Update b w u v → F v = F u) : F t = F s :=
  h.keeps (P := fun u => F u = F s) rfl fun w u v hw hu hs => (hF w u v hw hu).trans hs

/-- A part of a channel that no update of an open class writes is kept, unless an engine is built. -/
theorem same_chan {α : Type} (F : Channel → α) (h : Writes b K s t) (hK : .construct ∉ K)
    (hF : ∀ (w : WriteClass) (ch ch' : Channel), w = .work ∨ w ∈ K → ChannelUpdate w ch ch' → F ch' = F ch)
    (c : Nat) : F (t.chan c) = F (s.chan c) :=
  h.same (fun u => F (u.chan c)) fun w _ _ hw hu => hF w _ _ hw (hu.chan (ne_of_closed hw hK nofun) c)

/-- The configuration, the dither table and the setup of each channel are kept unless an engine is built. -/
theorem setup_eq (h : Writes b K s t) (hK : .construct ∉ K) :
    t.setup = s.setup ∧ ∀ c : Nat, (t.chan c).setup = (s.chan c).setup :=
  ⟨h.same _ fun _ _ _ hw hu => hu.setup_eq (ne_of_closed hw hK nofun),
    h.same_chan _ hK fun _ _ _ _ hu => hu.setup_eq⟩

/-- The counters are kept unless a command of theirs writes them. -/
theorem counters_eq (h : Writes b K s t) (hc : .counters ∉ K) (hr : .reset ∉ K) (hK : .construct ∉ K) :
    t.counters = s.counters ∧ ∀ c : Nat, (t.chan c).processed = (s.chan c).processed :=
  ⟨h.same _ fun _ _ _ hw hu =>
      hu.counters_eq (ne_of_closed hw hc nofun) (ne_of_closed hw hr nofun) (ne_of_closed hw hK nofun),
    h.same_chan _ hK fun _ _ _ hw hu => hu.processed_eq (ne_of_closed hw hc nofun) (ne_of_closed hw hr nofun)⟩

/-- The coefficient sets are kept unless a command of theirs writes them. -/
theorem coefSet_eq (h : Writes b K s t) (hc : .coefs ∉ K) (hK : .construct ∉ K) (c : Nat) :
    (t.chan c).coefSet = (s.chan c).coefSet :=
  h.same_chan _ hK (fun _ _ _ hw hu => hu.coefSet_eq (ne_of_closed hw hc nofun)) c

/-- The overflow records and dither states are kept unless a command of theirs writes them. -/
theorem encoder_eq (h : Writes b K s t) (hs : .samples ∉ K) (hr : .reset ∉ K) (hK : .construct ∉ K) (c : Nat) :
    (t.chan c).encoder = (s.chan c).encoder :=
  h.same_chan _ hK (fun _ _ _ hw hu => hu.encoder_eq (ne_of_closed hw hs nofun) (ne_of_closed hw hr nofun)) c

/-- The snapshots are kept unless a command of theirs writes them. -/
theorem snap_eq (h : Writes b K s t) (hs : .snapshots ∉ K) (hr : .reset ∉ K) (hK : .construct ∉ K) (c : Nat) :
    (t.chan c).snap = (s.chan c).snap :=
  h.same_chan _ hK (fun _ _ _ hw hu => hu.snap_eq (ne_of_closed hw hs nofun) (ne_of_closed hw hr nofun)) c

/-- Every byte reads as before unless a command writes bytes. -/
theorem sameMemory (h : Writes b K s t) (hm : .memory ∉ K) : SameMemory s t :=
  readByte_congr (h.same _ fun _ _ _ hw hu => hu.mem_eq (ne_of_closed hw hm nofun)) h.sameHostSide.2.powerOns

end Writes

/-- Settles O17: each part of the state belongs to classes (`Update`, `ChannelUpdate`), and each command writes its own
classes only (`classesOf`). -/
theorem whoWritesWhat : Obligations.WhoWritesWhat := by
  intro i s t h
  rw [exec_eq_execWith] at h
  have hwrites := writes_of_exec h
  have hconstruct : i ≠ .construct → .construct ∉ classesOf i := by cases i <;> simp [classesOf]
  have hreset : i ≠ .reset → .reset ∉ classesOf i := by cases i <;> simp [classesOf]
  have hcounters : i ≠ .run → .counters ∉ classesOf i := by cases i <;> simp [classesOf]
  have hcoefs : i ≠ .setCoeff → .coefs ∉ classesOf i := by cases i <;> simp [classesOf]
  have hsnaps : i ≠ .checkOverflows → .snapshots ∉ classesOf i := by cases i <;> simp [classesOf]
  have hsamples : i ≠ .run → (∀ ch : Nat, i ≠ .encodeSamples ch) → .samples ∉ classesOf i := by
    cases i <;> simp [classesOf]
  have hmemory : i ≠ .run → (∀ ch : Nat, i ≠ .encodeSamples ch) → .memory ∉ classesOf i := by
    cases i <;> simp [classesOf]
  refine ⟨fun hcon => ?setup, fun hrun hres hcon => ?counters, fun hset hcon c => ?coefs,
    fun hrun henc hres hcon c => ?encoder, fun hchk hres hcon c => ?snaps, fun hrun henc => ?memory⟩
  case setup =>
    obtain ⟨hs, hchan⟩ := hwrites.setup_eq (hconstruct hcon)
    simp only [State.setup, Channel.setup, Prod.mk.injEq] at hs hchan
    obtain ⟨hlat, htable, hspacing, hbytes⟩ := hs
    exact ⟨hlat, htable, hspacing, hbytes, hchan⟩
  case counters =>
    obtain ⟨hs, hchan⟩ := hwrites.counters_eq (hcounters hrun) (hreset hres) (hconstruct hcon)
    obtain ⟨hblock, hsel⟩ := Prod.mk.inj hs
    exact ⟨hblock, hsel, hchan⟩
  case coefs => exact Prod.mk.inj (hwrites.coefSet_eq (hcoefs hset) (hconstruct hcon) c)
  case encoder => exact Prod.mk.inj (hwrites.encoder_eq (hsamples hrun henc) (hreset hres) (hconstruct hcon) c)
  case snaps => exact hwrites.snap_eq (hsnaps hchk) (hreset hres) (hconstruct hcon) c
  case memory => exact hwrites.sameMemory (hmemory hrun henc)

/-! ## The overflow statistics -/

/-- The peaks of a channel are peaks, and its integer peak is within the limit of its format (R291, R292). -/
structure ChannelStats (ch : Channel) : Prop where
  largestF : IsPeak ch.ovf.largestF
  snapF : isNan (unpack .p64 ch.snap.largestF) = false
  largestI : ch.ovf.largestI.toNat ≤ peakLimit ch.descOut

/-- A channel without an engine has no peaks. -/
theorem channelStats_reset : ChannelStats .reset := ⟨isPeak_zero, isPeak_zero.1, Nat.zero_le _⟩

/-- A channel of a new engine has no peaks. -/
theorem channelStats_fresh (l : Latched) (c : Nat) : ChannelStats (freshChannel l c) :=
  ⟨isPeak_zero, isPeak_zero.1, Nat.zero_le _⟩

/-- An update of a channel keeps its statistics in their ranges. -/
theorem ChannelStats.update {w : WriteClass} {ch ch' : Channel} (h : ChannelStats ch) (hu : ChannelUpdate w ch ch') :
    ChannelStats ch' := by
  cases hu with
  | keep => exact h
  | buffers hbook =>
    have hovf := ChannelUpdate.of_book Channel.ovf (fun _ => rfl) hbook
    have hsnap := ChannelUpdate.of_book Channel.snap (fun _ => rfl) hbook
    have hdesc := ChannelUpdate.of_book Channel.descOut (fun _ => rfl) hbook
    exact ⟨hovf ▸ h.largestF, hsnap ▸ h.snapF, by rw [hovf, hdesc]; exact h.largestI⟩
  | coefs => exact ⟨h.largestF, h.snapF, h.largestI⟩
  | processed => exact ⟨h.largestF, h.snapF, h.largestI⟩
  | sample t hstep => exact ⟨hstep.peak h.largestF, h.snapF, hstep.limit h.largestI⟩
  | snapshot => exact ⟨h.largestF, h.largestF.1, h.largestI⟩
  | reset => exact ⟨isPeak_zero, isPeak_zero.1, Nat.zero_le _⟩

/-- The statistics of every channel are in their ranges. -/
def ChannelsStats (s : State) : Prop := ∀ c : Nat, ChannelStats (s.chan c)

/-- The channels are all that the statistics depend on. -/
theorem ChannelsStats.congr {s t : State} (h : ChannelsStats s) (hc : t.chans = s.chans) : ChannelsStats t :=
  fun c => by rw [State.chan, hc]; exact h c

/-- A channel without an engine. -/
theorem chan_noEngine (b : Config.Build) (s : State) (c : Nat) : (noEngine b s).chan c = .reset :=
  ((noEngine_inv b s).none rfl).chans c

/-- Every update keeps the statistics in their ranges; a new engine has none. -/
theorem ChannelsStats.update {b : Config.Build} {w : WriteClass} {s t : State} (h : ChannelsStats s)
    (hu : Update b w s t) : ChannelsStats t := by
  by_cases hw : w = .construct
  · subst hw
    cases hu with
    | channels _ hch => exact fun c => (h c).update (hch c)
    | counters hw => rcases hw with hw | hw <;> cases hw
    | tearDown => exact fun c => by rw [chan_noEngine]; exact channelStats_reset
    | build _ l =>
      intro c
      by_cases hc : c < b.maxChannels
      · rw [chan_buildEngine b s l hc]
        split
        · exact channelStats_fresh l c
        · exact channelStats_reset
      · rw [chan_out _ c (by simpa using hc)]
        exact channelStats_reset
  · exact fun c => (h c).update (hu.chan hw c)

/-- Whatever a step can do keeps the statistics in their ranges. -/
theorem channelsStats_stepClosed (b : Config.Build) : StepClosed b ChannelsStats where
  take := fun _ _ h => h.congr rfl
  command := fun _ _ _ h he => (writes_of_exec he).keeps h fun _ _ _ _ hu hs => hs.update hu
  illegal := fun _ _ h => h.congr rfl
  register := fun s r w h => h.congr (regWrite_sameEngine s r w).chans
  memory := fun _ _ _ h => h.congr rfl
  data := fun _ _ h => h.congr rfl
  pop := fun s h => h.congr (logPopEffect_sameEngine s).chans
  reset := fun s _ => by
    have hnone : ChannelsStats (noEngine b s) := fun c => by rw [chan_noEngine]; exact channelStats_reset
    exact hnone.congr rfl

/-- A channel below `C` has the output format of the engine, and the others are empty. -/
theorem EngineInv.chan_cases {b : Config.Build} {s : State} (h : EngineInv b s) (c : Nat) :
    (c < s.channels ∧ (s.chan c).descOut = sampleDesc s.lat.fmtOut s.channels c) ∨
    (s.channels ≤ c ∧ s.chan c = .reset) := by
  by_cases hf : s.fsm = .uninit
  · have hnone := h.none hf
    refine .inr ⟨?_, hnone.chans c⟩
    rw [State.channels, hnone.lat]
    exact Nat.zero_le c
  · have hbuilt := h.built hf
    by_cases hc : c < s.channels
    · exact .inl ⟨hc, (hbuilt.channel c hc).descOut⟩
    · exact .inr ⟨by omega, hbuilt.unused c (by omega)⟩

/-- In a well shaped engine the invariant of the statistics is that of its channels. -/
theorem statsInv_iff {b : Config.Build} {s : State} (h : EngineInv b s) : StatsInv s ↔ ChannelsStats s := by
  constructor
  · intro i c
    rcases h.chan_cases c with ⟨hc, hd⟩ | ⟨-, hreset⟩
    · refine ⟨⟨i.largestF c, i.largestFSign c⟩, i.snapF c, ?_⟩
      rw [hd]
      exact i.largestI c hc
    · rw [hreset]
      exact channelStats_reset
  · intro i
    refine ⟨fun c => (i c).largestF.1, fun c => (i c).largestF.2, fun c => (i c).snapF, fun c hc => ?_⟩
    rcases h.chan_cases c with ⟨-, hd⟩ | ⟨hle, -⟩
    · have hlimit := (i c).largestI
      rw [hd] at hlimit
      exact hlimit
    · omega

/-- Settles O14: encoding a sample offers positive binary64 values to the float peak and integers of the format to the
other (`RecordStep`); every other update copies a peak, keeps it or clears it. -/
theorem statsInvKept : Obligations.StatsInvKept := by
  intro s t hengine hstats hstep
  have hengine' := engineInvKept.1 s t hengine hstep
  rw [statsInv_iff hengine] at hstats
  rw [statsInv_iff hengine']
  rw [step_eq_stepWith] at hstep
  exact (channelsStats_stepClosed _).step hstats hstep

end Sys2Proof.Machine
end

section
/-! A hardware reset and the invariants after it. -/

namespace Sys2Proof.Machine

/-! One theorem is checked after the other: checked side by side, they take a thread each. -/
set_option Elab.async false

/-- No channel of the state after a hardware reset has anything. -/
theorem chan_hardReset (b : Config.Build) (s : State) (c : Nat) : (hardReset b s).chan c = .reset :=
  chan_noEngine b s c

/-- Settles O9: a hardware reset leaves `State.resetWith` but for the model's own fields. -/
theorem hardResetLeaves : Obligations.HardResetLeaves := by
  intro s rest hp
  have hstep : step s = .next (hardReset Config.build { s with pending := rest }) := nextEvent_serve _ _ hp
  refine ⟨_, hstep, rfl, rfl, rfl, rfl, rfl, rfl, rfl, rfl, rfl, rfl, ?latched, rfl, rfl, rfl, rfl, ?channels, rfl,
    rfl, rfl, rfl, fun _ => rfl, validId_uninit rfl, rfl⟩
  case latched =>
    intro off hoff
    simp only [List.mem_cons, List.not_mem_nil, or_false] at hoff
    rcases hoff with rfl | rfl | rfl <;> rfl
  case channels =>
    intro c
    rw [chan_hardReset]
    exact ⟨rfl, rfl, rfl, rfl, rfl⟩

/-- Settles O10: after reset there is no engine, no record and no peak. -/
theorem invariantsAtReset : Obligations.InvariantsAtReset := by
  have hengine : EngineInv Config.build State.reset :=
    (noEngine_inv Config.build State.reset).congr (by constructor <;> rfl)
  refine ⟨reset_mem_wf, ⟨Nat.zero_le _, fun _ => rfl⟩, ⟨⟨.ok, rfl⟩, rfl⟩, hengine, (statsInv_iff hengine).2 ?_⟩
  intro c
  rw [show State.reset.chan c = .reset from chan_noEngine _ State.reset c]
  exact channelStats_reset

end Sys2Proof.Machine
end

section
/-! The register file: where each register is, what a write to one changes and what the reads of the others return. -/

namespace Sys2Proof.Machine

/-! One theorem is checked after the other: checked side by side, they take a thread each. -/
set_option Elab.async false

/-! ## Words of a 64-bit quantity -/

@[simp] theorem loWord_joinWords (hi lo : Word) : loWord (joinWords hi lo) = lo := by
  rw [loWord, joinWords, BitVec.extractLsb'_append_eq_of_add_le (by decide), BitVec.extractLsb'_eq_self]

@[simp] theorem hiWord_joinWords (hi lo : Word) : hiWord (joinWords hi lo) = hi := by
  rw [hiWord, joinWords, BitVec.extractLsb'_append_eq_of_le (by decide), BitVec.extractLsb'_eq_self]

@[simp] theorem loWord_withLo (x : Word64) (w : Word) : loWord (withLo x w) = w := loWord_joinWords _ _
@[simp] theorem hiWord_withLo (x : Word64) (w : Word) : hiWord (withLo x w) = hiWord x := hiWord_joinWords _ _
@[simp] theorem loWord_withHi (x : Word64) (w : Word) : loWord (withHi x w) = loWord x := loWord_joinWords _ _
@[simp] theorem hiWord_withHi (x : Word64) (w : Word) : hiWord (withHi x w) = w := hiWord_joinWords _ _

/-! ## Where the registers are -/

/-- The offset of a global register (R31, R33 to R36); of no meaning for the others. -/
def Reg.offset : Reg → Nat
  | .id => 0x000
  | .version => 0x004
  | .cmd => 0x008
  | .status => 0x00C
  | .result => 0x010
  | .resultAux => 0x014
  | .logCount => 0x018
  | .logPop => 0x01C
  | .cfgBlockLen => 0x020
  | .cfgNBlocks => 0x024
  | .cfgPrecision => 0x028
  | .cfgNChannels => 0x02C
  | .cfgInFormat => 0x030
  | .cfgOutFormat => 0x034
  | .cfgSampleRate => 0x038
  | .cfgApplyDither => 0x03C
  | .argNCoeffs => 0x040
  | .argCoeffBlocks => 0x044
  | .argCoeffLen => 0x048
  | .argScaleLo => 0x050
  | .argScaleHi => 0x054
  | .opDst => 0x060
  | .opSrc0 => 0x064
  | .opSrc1 => 0x068
  | .opSrc2 => 0x06C
  | .opSrc3 => 0x070
  | .opCoef => 0x074
  | .opOff => 0x078
  | .opLen => 0x07C
  | .opScale0Lo => 0x080
  | .opScale0Hi => 0x084
  | .opScale1Lo => 0x088
  | .opScale1Hi => 0x08C
  | .opScale2Lo => 0x090
  | .opScale2Hi => 0x094
  | .opScale3Lo => 0x098
  | .opScale3Hi => 0x09C
  | .blockCounterLo => 0x0A0
  | .blockCounterHi => 0x0A4
  | .bufSel => 0x0A8
  | .ditherTableSize => 0x0AC
  | .planValidFwdOop => 0x0B0
  | .planValidFwdInp => 0x0B4
  | .planValidInvOop => 0x0B8
  | .planValidInvInp => 0x0BC
  | .dbgBuf => 0x0C0
  | .dbgIdx => 0x0C4
  | .dbgDataLo => 0x0C8
  | .dbgDataHi => 0x0CC
  | .latBlockLen => 0x0D0
  | .latNBlocks => 0x0D4
  | .latMisc => 0x0D8
  | .chan _ _ => 0
  | .reserved => 0

/-- A global register stands at its offset. -/
theorem globalRegAt_offset (off : Nat) : globalRegAt off = .reserved ∨ (globalRegAt off).offset = off := by
  unfold globalRegAt
  split <;> simp [Reg.offset]

/-- What stands at an offset: nothing, a word of a channel, or the register of that offset. -/
theorem regAt_offset (b : Config.Build) (off : Nat) :
    regAt b off = .reserved ∨ (∃ (c : Nat) (r : ChanReg), regAt b off = .chan c r) ∨ (regAt b off).offset = off := by
  unfold regAt
  split
  · rcases globalRegAt_offset off with h | h
    · exact .inl h
    · exact .inr (.inr h)
  · split
    · exact .inr (.inl ⟨_, _, rfl⟩)
    · exact .inl rfl

/-! ## The registers the host writes -/

/-- The `CFG_*` registers (R33). -/
def Reg.isCfg : Reg → Bool
  | .cfgBlockLen | .cfgNBlocks | .cfgPrecision | .cfgNChannels | .cfgInFormat | .cfgOutFormat | .cfgSampleRate
  | .cfgApplyDither => true
  | _ => false

/-- The `ARG_*` registers (R34). -/
def Reg.isArg : Reg → Bool
  | .argNCoeffs | .argCoeffBlocks | .argCoeffLen | .argScaleLo | .argScaleHi => true
  | _ => false

/-- The `OP_*` registers (R35). -/
def Reg.isOp : Reg → Bool
  | .opDst | .opSrc0 | .opSrc1 | .opSrc2 | .opSrc3 | .opCoef | .opOff | .opLen | .opScale0Lo | .opScale0Hi
  | .opScale1Lo | .opScale1Hi | .opScale2Lo | .opScale2Hi | .opScale3Lo | .opScale3Hi => true
  | _ => false

/-- The address of the debug window (R36). -/
def Reg.isDbg : Reg → Bool
  | .dbgBuf | .dbgIdx => true
  | _ => false

/-- The read-write registers (R33 to R36). -/
def Reg.writable (r : Reg) : Bool := r.isCfg || r.isArg || r.isOp || r.isDbg

/-- The four groups of read-write registers. -/
def Reg.groups : List (Reg → Bool) := [Reg.isCfg, Reg.isArg, Reg.isOp, Reg.isDbg]

/-- A read-write register is of one of the groups. -/
theorem Reg.group_of_writable {r : Reg} (h : r.writable = true) : ∃ g ∈ Reg.groups, g r = true := by
  simpa [Reg.writable, Reg.groups, or_assoc] using h

/-- A register that is not read-write ignores a write. -/
theorem regWrite_readOnly (s : State) {r : Reg} (w : Word) (h : r.writable = false) : regWrite s r w = s := by
  cases r <;> cases h <;> rfl

/-- A read-write register reads back what was written. -/
theorem regValue_regWrite_self (s : State) {r : Reg} (w : Word) (h : r.writable = true) :
    regValue (regWrite s r w) r = w := by
  cases r <;> cases h <;> simp [regValue, regWrite]

/-- A write to a register is one to its own group of the host's registers. -/
theorem regWrite_eq (s : State) (r : Reg) (w : Word) : regWrite s r w =
    { s with cfg := if r.isCfg then (regWrite s r w).cfg else s.cfg
             arg := if r.isArg then (regWrite s r w).arg else s.arg
             op := if r.isOp then (regWrite s r w).op else s.op
             dbgBuf := if r.isDbg then (regWrite s r w).dbgBuf else s.dbgBuf
             dbgIdx := if r.isDbg then (regWrite s r w).dbgIdx else s.dbgIdx } := by
  cases r <;> rfl

/-- A read-write register keeps its value when a register that is not of its group is written. -/
theorem regValue_regWrite_otherGroup (s : State) {r r' : Reg} (w : Word) {g : Reg → Bool} (hg : g ∈ Reg.groups)
    (h' : g r' = true) (h : g r = false) : regValue (regWrite s r w) r' = regValue s r' := by
  simp only [Reg.groups, List.mem_cons, List.not_mem_nil, or_false] at hg
  rcases hg with rfl | rfl | rfl | rfl <;> rw [regWrite_eq, h] <;> cases r' <;> cases h' <;> rfl

/-- A read-write register keeps its value when another of its group is written: they are different fields, or
different words of one. -/
theorem regValue_regWrite_sameGroup (s : State) {r r' : Reg} (w : Word) {g : Reg → Bool} (hg : g ∈ Reg.groups)
    (h' : g r' = true) (h : g r = true) (hne : r' ≠ r) : regValue (regWrite s r w) r' = regValue s r' := by
  simp only [Reg.groups, List.mem_cons, List.not_mem_nil, or_false] at hg
  rcases hg with rfl | rfl | rfl | rfl <;> cases r <;> cases h <;> cases r' <;> cases h' <;>
    simp [regValue, regWrite] at hne ⊢

/-- A read-only register keeps its value when a register is written, but for the data of the debug window. -/
theorem regValue_regWrite_readOnly (s : State) (r : Reg) {r' : Reg} (w : Word) (h : r'.writable = false)
    (hlo : r' ≠ .dbgDataLo) (hhi : r' ≠ .dbgDataHi) : regValue (regWrite s r w) r' = regValue s r' := by
  rw [regWrite_eq]
  cases r' <;> cases h
  case dbgDataLo => exact absurd rfl hlo
  case dbgDataHi => exact absurd rfl hhi
  all_goals rfl

/-- A register keeps its value when another one is written, but for the data of the debug window. -/
theorem regValue_regWrite_ne (s : State) {r r' : Reg} (w : Word) (hne : r' ≠ r) (hlo : r' ≠ .dbgDataLo)
    (hhi : r' ≠ .dbgDataHi) : regValue (regWrite s r w) r' = regValue s r' := by
  cases hw : r'.writable with
  | false => exact regValue_regWrite_readOnly s r w hw hlo hhi
  | true =>
    obtain ⟨g, hg, h'⟩ := Reg.group_of_writable hw
    cases h : g r with
    | true => exact regValue_regWrite_sameGroup s w hg h' h hne
    | false => exact regValue_regWrite_otherGroup s w hg h' h

/-! ## Writes -/

/-- The offsets of the read-write registers (R33 to R36). -/
def readWriteOffsets : List Nat :=
  (List.range 8).map (0x020 + 4 * ·) ++ [0x040, 0x044, 0x048, 0x050, 0x054] ++
    (List.range 16).map (0x060 + 4 * ·) ++ [0x0C0, 0x0C4]

/-- Each read-write register stands at one of these offsets. -/
theorem offset_mem_readWrite {r : Reg} (h : r.writable = true) : r.offset ∈ readWriteOffsets := by
  cases r <;> cases h <;> decide

/-- A read-write register stands at its offset. -/
theorem offset_of_writable {b : Config.Build} {off : Nat} (h : (regAt b off).writable = true) :
    (regAt b off).offset = off := by
  rcases regAt_offset b off with hr | ⟨c, r, hr⟩ | hr
  · rw [hr] at h
    cases h
  · rw [hr] at h
    cases h
  · exact hr

/-- The read-write registers stand at the read-write offsets. -/
theorem writable_iff_mem (b : Config.Build) (off : Nat) :
    (regAt b off).writable = true ↔ off ∈ readWriteOffsets := by
  constructor
  · intro h
    rw [← offset_of_writable h]
    exact offset_mem_readWrite h
  · have hall : ∀ x ∈ readWriteOffsets, x < 0x100 ∧ (globalRegAt x).writable = true := by decide
    intro h
    obtain ⟨hlt, hw⟩ := hall off h
    rw [regAt, if_pos hlt]
    exact hw

/-- A write to a register other than `CMD`. -/
theorem csrWrite_register {b : Config.Build} (ex : Executor) (s : State) {off : Nat} (w : Word) (h : off ≠ 0x008) :
    csrWrite b ex s off w = .next (regWrite s (regAt b off) w) := by
  unfold csrWrite
  split
  · next hcmd =>
    rcases regAt_offset b off with hr | ⟨c, r, hr⟩ | hr <;> rw [hcmd] at hr
    · cases hr
    · cases hr
    · exact absurd hr.symm h
  · rfl

/-- Settles O22: a write to a register writes its own group (`regWrite_eq`), and no two read-write registers overlap
(`regValue_regWrite_ne`). -/
theorem registerWrite : Obligations.RegisterWrite := by
  intro s off w _ _ hcmd
  refine ⟨_, csrWrite_register exec s w hcmd, ⟨fun h => ?_, fun h => ?_⟩, fun off' hne hlo hhi => ?_, ?_⟩
  · exact regValue_regWrite_self s w ((writable_iff_mem _ off).2 h)
  · exact regWrite_readOnly s w (Bool.eq_false_iff.2 (mt (writable_iff_mem _ off).1 h))
  · cases hw : (regAt Config.build off).writable with
    | false => rw [regWrite_readOnly s w hw]
    | true =>
      have hoff := offset_of_writable hw
      have hat : ∀ r : Reg, r.offset ≠ off' → r ≠ .reserved → (∀ c q, r ≠ .chan c q) →
          regAt Config.build off' ≠ r := by
        rintro r hr hres hchan rfl
        rcases regAt_offset Config.build off' with h | ⟨c, q, h⟩ | h
        · exact hres h
        · exact hchan c q h
        · exact hr h
      refine regValue_regWrite_ne s w (hat _ (by omega) ?_ ?_) (hat _ hlo.symm nofun nofun)
        (hat _ hhi.symm nofun nofun)
      · intro hr
        rw [hr] at hw
        cases hw
      · intro c q hr
        rw [hr] at hw
        cases hw
  · rw [regWrite_eq]

end Sys2Proof.Machine
end

section
/-! Reads at the host port: `LOG_POP`, and the registers that can only be read. -/

namespace Sys2Proof.Machine

/-! One theorem is checked after the other: checked side by side, they take a thread each. -/
set_option Elab.async false

/-! ## LOG_POP -/

/-- A read of a register at an aligned offset. -/
theorem hostRead_register (b : Config.Build) (s : State) {addr : Word} (hlow : addr.toNat < 0x1000)
    (hal : addr.toNat % 4 = 0) : hostRead b s .b4 addr =
      { regReadEffect s (regAt b addr.toNat) with
        readData := (regValue s (regAt b addr.toNat)).setWidth 64 } := by
  have hcsr : inCsr addr.toNat = true := decide_eq_true hlow
  have hacc : csrAccess .b4 addr.toNat = true := by
    rw [csrAccess, decide_eq_true hal]
    rfl
  rw [hostRead, if_pos hcsr, if_pos hacc]

/-- A step that reads `LOG_POP`. -/
theorem step_logPop {s : State} {rest : List HostTxn} (hp : s.pending = .read .b4 0x01C#32 :: rest) :
    step s = .next { logPopEffect { s with pending := rest } with
      readData := (logPopValue { s with pending := rest }).setWidth 64 } := by
  have hread : step s = .next (hostRead Config.build { s with pending := rest } .b4 0x01C#32) :=
    nextEvent_serve _ _ hp
  rw [hread, hostRead_register _ _ (by decide) (by decide)]
  rfl

/-- The high word of a 64-bit quantity. -/
theorem hiWord_toNat (x : Word64) : (hiWord x).toNat = x.toNat / 2 ^ 32 := by
  rw [hiWord, BitVec.extractLsb'_toNat, Nat.shiftRight_eq_div_pow]
  omega

/-- The low word of a 64-bit quantity. -/
theorem loWord_toNat (x : Word64) : (loWord x).toNat = x.toNat % 2 ^ 32 := by
  rw [loWord, BitVec.extractLsb'_toNat, Nat.shiftRight_zero]

/-- A word of a record on the bus (R116). -/
theorem logWord_setWidth (r : LogRecord) (i : BitVec 2) : (logWord r i).setWidth 64 = BitVec.ofNat 64
    (if i = 0#2 then r.kind.code + r.ch.toNat * 2 ^ 8 + r.sub.toNat * 2 ^ 16
      else if i = 1#2 then r.a.toNat
      else if i = 2#2 then r.f.toNat % 2 ^ 32
      else r.f.toNat / 2 ^ 32) := by
  have hkind : r.kind.code < 8 := by cases r.kind <;> decide
  apply BitVec.eq_of_toNat_eq
  rw [BitVec.toNat_setWidth, BitVec.toNat_ofNat]
  unfold logWord
  split_ifs
  · rw [BitVec.toNat_ofNat]
    omega
  · rfl
  · rw [loWord_toNat]
  · rw [hiWord_toNat]

/-- `LOG_POP` stands at its offset alone. -/
theorem regAt_ne_logPop (b : Config.Build) {off : Nat} (h : off ≠ 0x01C) : regAt b off ≠ .logPop := by
  intro hr
  rcases regAt_offset b off with h' | ⟨c, r, h'⟩ | h' <;> rw [hr] at h'
  · cases h'
  · cases h'
  · exact h h'.symm

/-- Settles O23: the word and the effect of a read are `logWord` and `logPopEffect`; no other register has an effect. -/
theorem logPop : Obligations.LogPop := by
  refine ⟨fun s rest hp hl => ?empty, fun s rest r l hp hl => ?record, fun s t h => ?construct, fun _ => rfl,
    fun s size addr haddr => ?others⟩
  case empty =>
    rw [step_logPop hp]
    simp [logPopEffect, logPopValue, hl]
  case record =>
    intro word
    have hword : (logPopValue { s with pending := rest }).setWidth 64 = BitVec.ofNat 64 word := by
      simp only [logPopValue, hl]
      exact logWord_setWidth r s.logRd
    rw [step_logPop hp, hword]
    exact ⟨fun hrd => by simp [logPopEffect, hl, hrd], fun hrd => by simp [logPopEffect, hl, hrd]⟩
  case construct =>
    obtain rfl : constructWith Config.build s = t := by
      cases h
      rfl
    unfold constructWith
    split
    · rw [raise_logRd, logEvent_logRd, noEngine_logRd]
    · rw [succeed_logRd, buildEngine_logRd, noEngine_logRd]
  case others =>
    unfold hostRead
    split
    · split
      · next hacc =>
        have hne : regAt Config.build addr.toNat ≠ .logPop := by
          refine regAt_ne_logPop _ fun hoff => haddr ⟨?_, BitVec.eq_of_toNat_eq hoff⟩
          simp only [csrAccess, Bool.and_eq_true, decide_eq_true_eq] at hacc
          exact hacc.1
        have heffect : regReadEffect s (regAt Config.build addr.toNat) = s := by
          unfold regReadEffect
          split
          · next h => exact absurd h hne
          · rfl
        rw [heffect]
      · rfl
    · rfl

/-! ## Read-only registers -/

/-- What a read of an aligned offset puts on the bus. -/
theorem readData_register (b : Config.Build) (s : State) {off : Nat} (hlow : off < 0x1000) (hal : off % 4 = 0) :
    (hostRead b s .b4 (BitVec.ofNat 32 off)).readData = (regValue s (regAt b off)).setWidth 64 := by
  have hoff : (BitVec.ofNat 32 off).toNat = off := by
    rw [BitVec.toNat_ofNat]
    omega
  rw [hostRead_register b s (by rw [hoff]; exact hlow) (by rw [hoff]; exact hal), hoff]

/-- A word of the block of channel `c` (R37). -/
theorem regAt_chan (b : Config.Build) {c k : Nat} (hc : c < b.maxChannels) (hk : k < 0x40) :
    regAt b (0x100 + 0x40 * c + k) = .chan c (chanRegAt k) := by
  have hdiv : (0x100 + 0x40 * c + k - 0x100) / 0x40 = c := by omega
  have hmod : (0x100 + 0x40 * c + k - 0x100) % 0x40 = k := by omega
  rw [regAt, if_neg (by omega), hdiv, hmod, if_pos hc]

/-- The fields of `STATUS` (R32). -/
theorem statusWord_fields (s : State) : ((statusWord s).extractLsb' 0 2).toNat = s.fsm.code ∧
    (statusWord s).getLsbD 2 = false ∧ (statusWord s).getLsbD 3 = !s.log.isEmpty ∧
    (statusWord s).getLsbD 4 = s.logLost ∧ (statusWord s).getLsbD 5 = s.lastFail ∧
    (statusWord s).extractLsb' 6 26 = 0#26 := by
  unfold statusWord
  cases s.fsm <;> cases s.log.isEmpty <;> cases s.logLost <;> cases s.lastFail <;> decide

/-- The fields of `LAT_MISC` (R36). -/
theorem latMiscWord_fields (l : Latched) : ((latMiscWord l).extractLsb' 0 7).toNat = l.prec.bits ∧
    (latMiscWord l).getLsbD 7 = false ∧ (latMiscWord l).extractLsb' 8 4 = l.nChannels ∧
    (latMiscWord l).getLsbD 12 = l.applyDither ∧ (latMiscWord l).extractLsb' 13 19 = 0#19 := by
  have hall : ∀ n : BitVec 4, ∀ p : Nat, p = 32 ∨ p = 64 → ∀ d : Bool,
      ((BitVec.ofNat 32 (p + n.toNat * 256 + d.toNat * 4096)).extractLsb' 0 7).toNat = p ∧
      (BitVec.ofNat 32 (p + n.toNat * 256 + d.toNat * 4096)).getLsbD 7 = false ∧
      (BitVec.ofNat 32 (p + n.toNat * 256 + d.toNat * 4096)).extractLsb' 8 4 = n ∧
      (BitVec.ofNat 32 (p + n.toNat * 256 + d.toNat * 4096)).getLsbD 12 = d ∧
      (BitVec.ofNat 32 (p + n.toNat * 256 + d.toNat * 4096)).extractLsb' 13 19 = 0#19 := by
    rintro n p (rfl | rfl) d <;> revert n d <;> decide
  refine hall l.nChannels l.prec.bits ?_ l.applyDither
  cases l.prec
  · exact .inl rfl
  · exact .inr rfl

/-- The debug window shows an element of a buffer that exists. -/
theorem debugData_valid {s : State} (hv : validId s s.dbgBuf = true) (hi : s.dbgIdx.toNat < s.lat.size) :
    debugData s = shownBits s.lat.prec (elemBits s (bufRef s.dbgBuf) s.dbgIdx.toNat) := by
  simp only [debugData, hv, hi, decide_true, Bool.and_self, if_true]
  rfl

/-- The debug window shows 0 where there is no element. -/
theorem debugData_none {s : State} (h : validId s s.dbgBuf = false ∨ s.lat.size ≤ s.dbgIdx.toNat) :
    debugData s = 0#64 := by
  rw [debugData, if_neg]
  rw [Bool.and_eq_true, decide_eq_true_eq]
  rintro ⟨hv, hi⟩
  rcases h with h | h
  · rw [h] at hv
    cases hv
  · omega

/-- The last global register is `LAT_MISC`. -/
theorem Reg.offset_le (r : Reg) : r.offset ≤ 0x0D8 := by cases r <;> simp [Reg.offset]

/-- The registers named by reserved offsets (R39). -/
theorem regAt_reserved {off : Nat} (h : off = 0x04C ∨ off = 0x058 ∨ off = 0x05C ∨ (0x0DC ≤ off ∧ off < 0x100) ∨
    (0x300 ≤ off ∧ off < 0x1000)) : regAt Config.build off = .reserved := by
  rcases h with rfl | rfl | rfl | ⟨hlow, hhigh⟩ | ⟨hlow, -⟩
  · rfl
  · rfl
  · rfl
  · rw [regAt, if_pos hhigh]
    refine (globalRegAt_offset off).resolve_right fun hoff => ?_
    have hle := (globalRegAt off).offset_le
    omega
  · have hmax : Config.build.maxChannels = 8 := rfl
    rw [regAt, if_neg (by omega), if_neg (by rw [hmax]; omega)]

/-- Settles O24: each offset names its register (`readData_register`), whose value is the model's; the packed words
`STATUS` and `LAT_MISC` are taken apart in `statusWord_fields` and `latMiscWord_fields`. -/
theorem statusFields : Obligations.StatusFields := by
  intro s hresult Reads Reads2 live
  have reads : ∀ {off : Nat} {w : Word}, off < 0x1000 → off % 4 = 0 → regValue s (regAt Config.build off) = w →
      Reads off w := by
    rintro off w hlow hal rfl
    exact readData_register _ s hlow hal
  have reads2 : ∀ {off : Nat} {x : Word64}, off + 4 < 0x1000 → off % 4 = 0 →
      regValue s (regAt Config.build off) = loWord x → regValue s (regAt Config.build (off + 4)) = hiWord x →
      Reads2 off x := fun hlow hal hlo hhi =>
    ⟨reads (by omega) hal hlo, reads hlow (by omega) hhi⟩
  obtain ⟨hfsm, hbusy, hlog, hlost, hfail, hrest⟩ := statusWord_fields s
  obtain ⟨hprec, hbit7, hchannels, hdither, hhigh⟩ := latMiscWord_fields s.lat
  refine ⟨⟨statusWord s, reads (by decide) (by decide) rfl, hfsm, hbusy, ?log, hlost, hfail.trans hresult.lastFail,
      hrest⟩, reads (by decide) (by decide) rfl, reads (by decide) (by decide) rfl, reads (by decide) (by decide) rfl,
    reads (by decide) (by decide) rfl, reads (by decide) (by decide) rfl, reads (by decide) (by decide) rfl,
    reads2 (by decide) (by decide) rfl rfl, reads (by decide) (by decide) rfl, reads (by decide) (by decide) rfl,
    reads (by decide) (by decide) rfl, reads (by decide) (by decide) rfl, reads (by decide) (by decide) rfl,
    reads (by decide) (by decide) rfl, ⟨?shown, ?hidden⟩, reads (by decide) (by decide) rfl,
    reads (by decide) (by decide) rfl,
    ⟨latMiscWord s.lat, reads (by decide) (by decide) rfl, ?precision, hbit7, hchannels, hdither, hhigh⟩, ?channels,
    ?reserved⟩
  case log =>
    rw [hlog]
    cases s.log <;> rfl
  case shown =>
    intro hv hi
    have hdata := debugData_valid hv hi
    refine ⟨fun hp => ?_, fun hp => ?_⟩
    · rw [hp] at hdata
      exact reads2 (by decide) (by decide) (congrArg loWord hdata) (congrArg hiWord hdata)
    · rw [hp] at hdata
      have hlo := (congrArg loWord hdata).trans (loWord_joinWords _ _)
      have hhi := (congrArg hiWord hdata).trans (hiWord_joinWords _ _)
      exact ⟨reads (by decide) (by decide) hlo, reads (by decide) (by decide) hhi⟩
  case hidden =>
    intro h
    have hzero : debugData s = 0#64 := by
      refine debugData_none ?_
      rcases h with h | h | h
      · exact .inl (validId_uninit h _)
      · exact .inl h
      · exact .inr h
    exact reads2 (by decide) (by decide) (congrArg loWord hzero) (congrArg hiWord hzero)
  case precision =>
    rw [hprec]
    cases s.lat.prec <;> rfl
  case channels =>
    intro c hc base ch there
    have readsChan : ∀ {k : Nat} {w : Word}, k < 0x40 → k % 4 = 0 → regValue s (.chan c (chanRegAt k)) = w →
        Reads (base + k) w := fun hk hal hw =>
      reads (by omega) (by omega) (by rw [regAt_chan _ hc hk]; exact hw)
    have hreserved : regValue s (.chan c .reserved) = 0#32 := by simp [regValue, chanRegValue, unlessUninit]
    and_intros
    · exact readsChan (k := 0) (by decide) (by decide) rfl
    iterate 12 exact readsChan (by decide) (by decide) rfl
    iterate 3 exact readsChan (by decide) (by decide) hreserved
  case reserved =>
    intro off hal hoff
    exact reads (by omega) hal (by rw [regAt_reserved hoff]; rfl)

end Sys2Proof.Machine
end

section
/-! Host accesses to the apertures: performed where every byte is mapped, ignored where none is. -/

namespace Sys2Proof.Machine

/-! One theorem is checked after the other: checked side by side, they take a thread each. -/
set_option Elab.async false

variable {b : Config.Build}

/-! ## Sizes and regions -/

/-- An access has at least one byte. -/
theorem AccessSize.bytes_pos (size : AccessSize) : 0 < size.bytes := by cases size <;> decide

/-- Every aperture lies above the CSR region (R71). -/
theorem inbufBase_le_of_mapped {a : Nat} (h : mapped b a = true) : inbufBase ≤ a := by
  simp only [mapped, Bool.or_eq_true, Bool.and_eq_true, decide_eq_true_eq, List.any_eq_true] at h
  rcases h with (⟨h, -⟩ | ⟨h, -⟩) | ⟨c, -, h, -⟩
  · exact h
  · exact le_trans (by decide) h
  · refine le_trans ?_ h
    unfold inbufBase cinBase
    omega

/-- An access that begins in an aperture is none to the CSR region. -/
theorem inCsr_of_mapped {a : Nat} (h : mapped b a = true) : inCsr a = false := by
  have hbase := inbufBase_le_of_mapped h
  unfold inbufBase at hbase
  exact decide_eq_false (by omega)

/-! ## Accesses to mapped bytes -/

/-- Bytes written to mapped addresses are all performed (R78). -/
theorem apertureWrite_mapped (s : State) (addr : Nat) (bs : List Byte)
    (h : ∀ i : Nat, i < bs.length → mapped b (addr + i) = true) :
    apertureWrite b s addr bs = writeBytes s addr bs := by
  induction bs generalizing s addr with
  | nil => rfl
  | cons v vs ih =>
    have hhead : mapped b addr = true := h 0 (Nat.zero_lt_succ _)
    have htail : ∀ i : Nat, i < vs.length → mapped b (addr + 1 + i) = true := fun i hi => by
      rw [Nat.add_right_comm]
      exact h (i + 1) (Nat.succ_lt_succ hi)
    rw [apertureWrite, writeBytes, if_pos hhead, ih _ _ htail]

/-- A read of mapped addresses puts their bytes together (R77). -/
theorem apertureRead_mapped (s : State) (addr n : Nat) (h : ∀ i : Nat, i < n → mapped b (addr + i) = true) :
    apertureRead b s addr n = fromBytes (readBytes s addr n) := by
  refine congrArg fromBytes (List.map_congr_left fun i hi => ?_)
  exact if_pos (h i (List.mem_range.1 hi))

/-- A run of bytes is read back where it was written. -/
theorem readBytes_writeBytes (s : State) (addr : Nat) (bs : List Byte) :
    readBytes (writeBytes s addr bs) addr bs.length = bs := by
  refine List.ext_getElem (by simp [readBytes]) fun i _ hi => ?_
  simpa [readBytes] using readByte_writeBytes_get s addr bs i hi

/-- States with one memory and one power-on read alike, run by run. -/
theorem readBytes_congr {s t : State} (hm : t.mem = s.mem) (hp : t.powerOns = s.powerOns) (addr n : Nat) :
    readBytes t addr n = readBytes s addr n :=
  List.map_congr_left fun _ _ => readByte_congr hm hp _

section
variable {size : AccessSize} {addr : Word} (h : ∀ i : Nat, i < size.bytes → mapped b (addr.toNat + i) = true)
include h

/-- A host write to mapped bytes stores them. -/
theorem hostWrite_mapped (ex : Executor) (s : State) (data : Word64) :
    hostWrite b ex s size addr data = .next (writeBytes s addr.toNat (toBytes size.bytes data.toNat)) := by
  have hcsr : inCsr addr.toNat = false := inCsr_of_mapped (h 0 size.bytes_pos)
  rw [hostWrite, hcsr, if_neg Bool.false_ne_true,
    apertureWrite_mapped _ _ _ fun i hi => h i (by rwa [toBytes_length] at hi)]

/-- A host read of mapped bytes puts them on the bus. -/
theorem hostRead_mapped (s : State) : hostRead b s size addr =
    { s with readData := BitVec.ofNat 64 (fromBytes (readBytes s addr.toNat size.bytes)) } := by
  have hcsr : inCsr addr.toNat = false := inCsr_of_mapped (h 0 size.bytes_pos)
  rw [hostRead, hcsr, if_neg Bool.false_ne_true, apertureRead_mapped _ _ _ h]

end

/-- Settles O20: the bytes written are the bytes read (`readBytes_writeBytes`), a number's bytes give its low part
(`fromBytes_toBytes`), and a run of writes changes the memory alone (`writeBytes_eq`). -/
theorem apertureReadBack : Obligations.ApertureReadBack := by
  intro s rest size addr data hp hmapped
  generalize hbs : toBytes size.bytes data.toNat = bs
  have hlen : bs.length = size.bytes := hbs ▸ toBytes_length _ _
  generalize ht : writeBytes { s with pending := .read size addr :: rest } addr.toNat bs = t
  have hframe : t = { s with pending := .read size addr :: rest, mem := t.mem } := by
    rw [← ht]
    exact writeBytes_eq _ _ _
  have hwrite : step s = .next t := by
    rw [step, nextEvent_serve _ _ hp, serve, hostWrite_mapped hmapped, hbs, ht]
  have hread : step t = .next { t with
      pending := rest, readData := BitVec.ofNat 64 (fromBytes (readBytes t addr.toNat size.bytes)) } := by
    have hpending : t.pending = .read size addr :: rest := by rw [hframe]
    rw [step, nextEvent_serve _ _ hpending, serve, hostRead_mapped hmapped]
    rfl
  have hdata : fromBytes (readBytes t addr.toNat size.bytes) = data.toNat % 2 ^ (8 * size.bytes) := by
    rw [← ht, ← hlen, readBytes_writeBytes, hlen, ← hbs, fromBytes_toBytes, Nat.pow_mul]
  refine ⟨t, _, hwrite, hread, congrArg (BitVec.ofNat 64) hdata, fun x hx => ?_, ?_⟩
  · calc readByte { t with pending := rest, readData := _ } x
        = readByte t x := readByte_congr rfl rfl x
      _ = readByte { s with pending := .read size addr :: rest } x := by
        rw [← ht]
        exact readByte_writeBytes_ne _ _ _ _ (by rwa [hlen])
      _ = readByte s x := readByte_congr rfl rfl x
  · rw [hframe]

/-! ## Accesses that are not performed -/

/-- Bytes written outside every region are ignored (R71). -/
theorem apertureWrite_unmapped (s : State) (addr : Nat) (bs : List Byte)
    (h : ∀ i : Nat, i < bs.length → mapped b (addr + i) = false) : apertureWrite b s addr bs = s := by
  induction bs generalizing addr with
  | nil => rfl
  | cons v vs ih =>
    have hhead : mapped b addr = false := h 0 (Nat.zero_lt_succ _)
    have htail : ∀ i : Nat, i < vs.length → mapped b (addr + 1 + i) = false := fun i hi => by
      rw [Nat.add_right_comm]
      exact h (i + 1) (Nat.succ_lt_succ hi)
    rw [apertureWrite, hhead, if_neg Bool.false_ne_true, ih _ htail]

/-- Bytes that are all 0 make the number 0. -/
theorem fromBytes_zeros (n : Nat) : fromBytes (List.replicate n 0#8) = 0 := by
  induction n with
  | zero => rfl
  | succ n ih => simp [List.replicate_succ, fromBytes, ih]

/-- A read outside every region returns 0 (R71). -/
theorem apertureRead_unmapped (s : State) (addr n : Nat) (h : ∀ i : Nat, i < n → mapped b (addr + i) = false) :
    apertureRead b s addr n = 0 := by
  have hbytes : (List.range n).map (fun i => apertureByte b s (addr + i)) = List.replicate n 0#8 := by
    refine List.eq_replicate_iff.2 ⟨by rw [List.length_map, List.length_range], fun v hv => ?_⟩
    obtain ⟨i, hi, rfl⟩ := List.mem_map.1 hv
    rw [apertureByte, h i (List.mem_range.1 hi), if_neg Bool.false_ne_true]
  rw [apertureRead, hbytes, fromBytes_zeros]

/-- An access that is not performed: in the CSR region not an aligned 32-bit word, or outside every region. -/
def Unperformed (b : Config.Build) (size : AccessSize) (addr : Word) : Prop :=
  (inCsr addr.toNat = true ∧ csrAccess size addr.toNat = false) ∨
    (inCsr addr.toNat = false ∧ ∀ i : Nat, i < size.bytes → mapped b (addr.toNat + i) = false)

/-- A write that is not performed changes nothing. -/
theorem hostWrite_unperformed {size : AccessSize} {addr : Word} (h : Unperformed b size addr) (ex : Executor)
    (s : State) (data : Word64) : hostWrite b ex s size addr data = .next s := by
  rcases h with ⟨hcsr, hacc⟩ | ⟨hcsr, hout⟩
  · rw [hostWrite, if_pos hcsr, hacc, if_neg Bool.false_ne_true]
  · rw [hostWrite, hcsr, if_neg Bool.false_ne_true,
      apertureWrite_unmapped _ _ _ fun i hi => hout i (by rwa [toBytes_length] at hi)]

/-- A read that is not performed returns 0. -/
theorem hostRead_unperformed {size : AccessSize} {addr : Word} (h : Unperformed b size addr) (s : State) :
    hostRead b s size addr = { s with readData := 0#64 } := by
  rcases h with ⟨hcsr, hacc⟩ | ⟨hcsr, hout⟩
  · rw [hostRead, if_pos hcsr, hacc, if_neg Bool.false_ne_true]
  · rw [hostRead, hcsr, if_neg Bool.false_ne_true, apertureRead_unmapped _ _ _ hout]

/-- Settles O21: both kinds of access that are not performed leave the state as it is and put 0 on the bus. -/
theorem unperformedAccess : Obligations.UnperformedAccess := by
  intro s rest size addr data haccess
  have h : Unperformed Config.build size addr := by
    refine haccess.imp (fun ⟨hlow, hbad⟩ => ?_) fun ⟨hhigh, hout⟩ => ?_
    · refine ⟨decide_eq_true hlow, ?_⟩
      rw [csrAccess, ← Bool.decide_and]
      exact decide_eq_false hbad
    · exact ⟨decide_eq_false (by omega), hout⟩
  refine ⟨fun hp => ?_, fun hp => ?_⟩
  · rw [step, nextEvent_serve _ _ hp, serve, hostWrite_unperformed h]
  · rw [step, nextEvent_serve _ _ hp, serve, hostRead_unperformed h]

end Sys2Proof.Machine
end

section
/-! The bytes that commands write, said once: a command writes its memory byte by byte, and only bytes of sample
containers of `OUTBUF`. From it, the canonical form of the memory and the block of the output. -/

namespace Sys2Proof.Machine

/-! One theorem is checked after the other: checked side by side, they take a thread each. -/
set_option Elab.async false

/-! ## Memories that differ by byte writes -/

/-- The second memory is the first after a run of byte writes, all to addresses of `A`. -/
def ByteWrites (A : Nat → Prop) : Memory → Memory → Prop :=
  Relation.ReflTransGen fun m m' => ∃ (a : Nat) (v : Byte), A a ∧ m' = Memory.write m a v

namespace ByteWrites

variable {A : Nat → Prop} {m m' : Memory}

/-- Byte writes keep the canonical form. -/
theorem wf (h : ByteWrites A m m') (hm : Memory.wf m = true) : Memory.wf m' = true := by
  induction h with
  | refl => exact hm
  | tail _ hw ih =>
    obtain ⟨a, v, -, rfl⟩ := hw
    exact Memory.wf_write _ a v ih

/-- Byte writes leave every other address alone. -/
theorem read?_eq (h : ByteWrites A m m') {a : Nat} (ha : ¬A a) : Memory.read? m' a = Memory.read? m a := by
  induction h with
  | refl => rfl
  | tail _ hw ih =>
    obtain ⟨a', v, ha', rfl⟩ := hw
    have hne : a ≠ a' := fun he => ha (he ▸ ha')
    rw [Memory.read?_write_ne _ _ _ _ hne, ih]

/-- A run of bytes written at addresses of `A`. -/
theorem writeBytes {s : State} (h : ByteWrites A m s.mem) (addr : Nat) (bs : List Byte)
    (hA : ∀ i : Nat, i < bs.length → A (addr + i)) : ByteWrites A m (writeBytes s addr bs).mem := by
  induction bs generalizing s addr with
  | nil => exact h
  | cons v vs ih =>
    refine ih (s := writeByte s addr v) (h.tail ⟨addr, v, hA 0 (Nat.zero_lt_succ _), rfl⟩) (addr + 1) fun i hi => ?_
    rw [Nat.add_right_comm]
    exact hA (i + 1) (Nat.succ_lt_succ hi)

end ByteWrites

/-- A container has as many bytes as it is wide. -/
theorem containerBytes_length (be : Bool) (width u : Nat) : (containerBytes be width u).length = width := by
  cases be <;> simp [containerBytes, toBytes_length]

/-! ## Sample containers of `OUTBUF` -/

/-- A byte of the container of a sample of the block in `OUTBUF` (R72, R255). -/
def OutputByte (s : State) (a : Nat) : Prop :=
  ∃ c j i : Nat, c < s.channels ∧ j < s.lat.blockLen.toNat ∧ i < (s.chan c).descOut.bytes ∧
    a = outputAddr s c j + i

/-- What commands other than `CONSTRUCT` do with the output: its layout stays, and bytes of its containers are
written. -/
structure OutputWritten (s t : State) : Prop where
  lat : t.lat = s.lat
  descOut : ∀ c : Nat, (t.chan c).descOut = (s.chan c).descOut
  bytes : ByteWrites (OutputByte s) s.mem t.mem

/-- A command that writes no memory leaves it as it is. -/
theorem Writes.mem_eq {b : Config.Build} {K : List WriteClass} {s t : State} (h : Writes b K s t)
    (hm : .memory ∉ K) : t.mem = s.mem :=
  h.same State.mem fun _ _ _ hw hu => hu.mem_eq (ne_of_closed hw hm nofun)

/-- Steps 1 to 4 of `RUN` for a channel write the work state and the counters. -/
theorem Writes.runToStore {b : Config.Build} {K : List WriteClass} {s t : State} (h : Writes b K s t)
    (hc : .counters ∈ K) (slot : Nat) (sel : Bool) (c : Nat) :
    Writes b K s (runStore b sel slot (runCount (runInput b sel t c) c) c) := by
  have hin : Writes b K s (runInput b sel t c) := ((h.storeRealsAt _ _ _).storeRealsAt _ _ _).transformed _ _ _ _
  have hcount : Writes b K s (runCount (runInput b sel t c) c) := hin.update hc (.channel (.processed _ _))
  exact hcount.storeReals _ _

namespace OutputWritten

variable {b : Config.Build} {K : List WriteClass} {s t u : State}

/-- Nothing written. -/
theorem refl (s : State) : OutputWritten s s := ⟨rfl, fun _ => rfl, .refl⟩

/-- Writes to other state than the configuration and the memory. -/
theorem writes (h : OutputWritten s t) (hw : Writes b K t u) (hK : .construct ∉ K) (hm : .memory ∉ K) :
    OutputWritten s u := by
  obtain ⟨hs, hchan⟩ := hw.setup_eq hK
  exact ⟨(congrArg Prod.fst hs).trans h.lat,
    fun c => (congrArg (fun x => x.2.1) (hchan c)).trans (h.descOut c), hw.mem_eq hm ▸ h.bytes⟩

/-- An error. -/
theorem raise (h : OutputWritten s t) (code : ResultCode) (aux : Word) : OutputWritten s (raise t code aux) :=
  ⟨h.lat, h.descOut, h.bytes⟩

/-- A success. -/
theorem succeed (h : OutputWritten s t) (aux : Word) : OutputWritten s (succeed t aux) :=
  ⟨h.lat, h.descOut, h.bytes⟩

/-- The engine's own counters are no part of the output. -/
theorem counters (h : OutputWritten s t) (sel : Bool) (n : Word64) :
    OutputWritten s { t with bufSel := sel, blockCounter := n } :=
  ⟨h.lat, h.descOut, h.bytes⟩

/-- The container of a sample written. -/
theorem putContainer (h : OutputWritten s t) {c j : Nat} (hc : c < s.channels) (hj : j < s.lat.blockLen.toNat)
    (be : Bool) (x : Nat) :
    OutputWritten s (putContainer t (outputAddr s c j) (s.chan c).descOut.bytes be x) := by
  have hbytes := h.bytes.writeBytes (outputAddr s c j) (containerBytes be (s.chan c).descOut.bytes x)
    fun i hi => ⟨c, j, i, hc, hj, by rwa [containerBytes_length] at hi, rfl⟩
  refine ⟨?_, fun d => ?_, hbytes⟩
  all_goals rw [Machine.putContainer, writeBytes_eq]
  · exact h.lat
  · exact h.descOut d

/-- A turn of the loop of `ENCODE_BLOCK`. -/
theorem encodeStep (h : OutputWritten s t) {c : Nat} (hc : c < s.channels) {jy : Nat × FReal}
    (hj : jy.1 < s.lat.blockLen.toNat) (hy : IsReal .p64 jy.2) : OutputWritten s (encodeStep c t jy) := by
  obtain ⟨o, d, hch, hrec⟩ := encodeSample_recordStep t c (Config.nanCode t.freeCtr jy.1) hy
  have hsample : Writes Config.build [.samples] t
      (t.setChan c (encodeSample t c (Config.nanCode t.freeCtr jy.1) jy.2).2) := by
    refine (Writes.refl _ _ _).update (w := .samples) (by simp) (.channel ?_)
    rw [hch]
    exact .sample d hrec
  have hput := (h.writes hsample (by simp) (by simp)).putContainer hc hj (s.chan c).descOut.bigEndian
    (encodeSample t c (Config.nanCode t.freeCtr jy.1) jy.2).1
  have haddr : outputAddr t c jy.1 = outputAddr s c jy.1 := by rw [outputAddr, outputAddr, h.descOut c]
  simp only [Machine.encodeStep, haddr, h.descOut c]
  exact ⟨hput.lat, hput.descOut, hput.bytes⟩

/-- A block encoded. -/
theorem encodeBlock (h : OutputWritten s t) {c : Nat} (hc : c < s.channels) (off : Nat) {src : List FReal}
    (hsrc : ∀ e : Nat, IsReal .p64 (nth src e)) : OutputWritten s (encodeBlock t c off src) := by
  refine List.foldlRecOn (motive := OutputWritten s) _ _ h fun u hu jy hjy => ?_
  obtain ⟨j, hj, rfl⟩ := List.mem_map.1 hjy
  rw [h.lat] at hj
  exact hu.encodeStep hc (List.mem_range.1 hj) (hsrc _)

/-- The eight steps of `RUN` for a channel. -/
theorem runChannel (h : OutputWritten s t) (k slot : Nat) (sel : Bool) {c : Nat} (hc : c < s.channels) :
    OutputWritten s (runChannel b k slot sel t c).1 := by
  have hwork := ((Writes.refl b [.counters] t).runToStore (by simp) slot sel c).runProductOutput k slot c
  simp only [Machine.runChannel]
  generalize runOutput b _ c = s6 at hwork ⊢
  have h6 := h.writes hwork (by simp) (by simp)
  split
  · exact h6.encodeBlock hc _ (isReal_loadReals _ _)
  · exact h6.writes ((Writes.refl b [] s6).logEvent _) (by simp) (by simp)

/-- The effect of `RUN`. -/
theorem runEffect (b : Config.Build) (s : State) : OutputWritten s (runEffect b s) := by
  have hloop := untilFailure_keeps (P := OutputWritten s)
    (f := Machine.runChannel b s.blockCounter.toNat (s.blockCounter.toNat % s.lat.nBlocks.toNat) s.bufSel)
    (List.range s.channels) (refl s) fun u c hc hu => hu.runChannel _ _ _ (List.mem_range.1 hc)
  simp only [Machine.runEffect]
  split
  · next heq =>
    rw [heq] at hloop
    exact (hloop.counters _ _).succeed _
  · next heq =>
    rw [heq] at hloop
    exact hloop.raise _ _

/-- `RUN`. -/
theorem run (b : Config.Build) (s : State) : OutputWritten s (runWith b s) := by
  unfold runWith whenReady
  split
  · rcases checked_cases s _ (Machine.runEffect b s) with ⟨-, h⟩ | ⟨c, -, -, h⟩
    · rw [h]
      exact runEffect b s
    · rw [h]
      exact (refl s).raise _ _
  · exact (refl s).raise _ _

/-- `ENCODE`. -/
theorem encodeSamples {ch : Nat} (h : execEncodeSamples ch s = .next t) : OutputWritten s t := by
  cases h
  refine whenConstructed_checked ((refl s).raise _ _) (fun _ _ => (refl s).raise _ _) fun _ hpass => ?_
  have hch : ch < s.channels := channel_of_checks hpass (by simp)
  exact ((refl s).encodeBlock hch _ (isReal_loadReals _ _)).succeed _

end OutputWritten

/-! ## Commands -/

/-- The commands that write memory (R70). -/
theorem memory_mem_classesOf {i : Instr} (h : .memory ∈ classesOf i) :
    i = .run ∨ ∃ ch : Nat, i = .encodeSamples ch := by
  cases i <;> simp [classesOf] at h ⊢

/-- A command writes bytes of sample containers of `OUTBUF` and no others (R72). -/
theorem byteWrites_of_exec {b : Config.Build} {i : Instr} {s t : State} (h : execWith b i s = .next t) :
    ByteWrites (OutputByte s) s.mem t.mem := by
  by_cases hm : .memory ∈ classesOf i
  · rcases memory_mem_classesOf hm with rfl | ⟨ch, rfl⟩
    · cases h
      exact (OutputWritten.run b s).bytes
    · exact (OutputWritten.encodeSamples h).bytes
  · rw [(writes_of_exec h).mem_eq hm]
    exact .refl

/-! ## The canonical form -/

/-- A write to a register leaves the memory as it is. -/
theorem regWrite_mem (s : State) (r : Reg) (w : Word) : (regWrite s r w).mem = s.mem := by cases r <;> rfl

/-- A read of `LOG_POP` leaves the memory as it is. -/
theorem logPopEffect_mem (s : State) : (logPopEffect s).mem = s.mem := by
  unfold logPopEffect
  split
  · rfl
  · split <;> rfl

/-- Whatever a step can do keeps the canonical form of the memory. -/
theorem memInv_stepClosed (b : Config.Build) : StepClosed b MemInv where
  take := fun _ _ h => h
  command := fun _ _ _ h he => (byteWrites_of_exec he).wf h
  illegal := fun _ _ h => h
  register := fun s r w h => (congrArg Memory.wf (regWrite_mem s r w)).trans h
  memory := fun s addr v h => Memory.wf_write s.mem addr v h
  data := fun _ _ h => h
  pop := fun s h => (congrArg Memory.wf (logPopEffect_mem s)).trans h
  reset := fun _ _ => rfl

/-- Settles O11: a step writes the memory byte by byte (`byteWrites_of_exec`) or clears it, and a byte write keeps
the form (`Memory.wf_write`). -/
theorem memInvKept : Obligations.MemInvKept := by
  intro s t h hstep
  rw [step_eq_stepWith] at hstep
  exact (memInv_stepClosed Config.build).step h hstep

/-! ## The block of the output -/

/-- Sample `j` of channel `c` of a block of `l` samples of `n` channels lies within the block. -/
theorem sample_within_block {n l w c j i : Nat} (hc : c < n) (hj : j < l) (hi : i < w) :
    c * w + j * n * w + i < l * n * w := by
  calc c * w + j * n * w + i < (j * n + c + 1) * w := by linarith
    _ ≤ (j + 1) * n * w := Nat.mul_le_mul_right w (by linarith)
    _ ≤ l * n * w := Nat.mul_le_mul_right w (Nat.mul_le_mul_right n hj)

/-- In an engine that is well shaped the sample containers fill the block (R72). -/
theorem OutputByte.within_block {b : Config.Build} {s : State} {a : Nat} (h : OutputByte s a) (hs : EngineInv b s) :
    outbufBase ≤ a ∧ a < outbufBase + s.lat.blockLen.toNat * s.channels * fmtBytes s.lat.fmtOut.toNat := by
  obtain ⟨c, j, i, hc, hj, hi, rfl⟩ := h
  have hfsm : s.fsm ≠ .uninit := fun hf => by
    rw [State.channels, (hs.none hf).lat] at hc
    exact absurd hc (Nat.not_lt_zero c)
  rw [((hs.built hfsm).channel c hc).descOut] at hi
  rw [outputAddr, ((hs.built hfsm).channel c hc).descOut]
  have hlt := sample_within_block hc hj hi
  simp only [sampleOffset, sampleDesc] at hlt ⊢
  omega

/-- Settles O18: the bytes that a command writes are bytes of sample containers (`byteWrites_of_exec`), and these lie
within the block (`OutputByte.within_block`). -/
theorem commandsWriteTheOutputBlock : Obligations.CommandsWriteTheOutputBlock := by
  intro i s t a hs h hne
  rw [exec_eq_execWith] at h
  have hpower : t.powerOns = s.powerOns := (writes_of_exec h).sameHostSide.2.powerOns
  have hout : OutputByte s a := by
    by_contra hnot
    refine hne ?_
    rw [readByte, readByte, (byteWrites_of_exec h).read?_eq hnot, hpower]
  exact hout.within_block hs

end Sys2Proof.Machine
end

section
/-! The decoder and the encoder (`30_encoding.md` R100 to R106): the fields of a command word, the table of R100 as a
relation between fields and commands, the reserved words, and the statements about them. -/

namespace Sys2Proof.Machine

/-! One theorem is checked after the other: checked side by side, they take a thread each. -/
set_option Elab.async false

/-! ## The fields of a command -/

/-- Opcodes are 8-bit numbers. -/
theorem opcode_lt (i : Instr) : i.opcode < 256 := by cases i <;> simp [Instr.opcode]

/-- Modes are 4-bit numbers. -/
theorem fb_lt (i : Instr) : i.fb < 16 := by cases i <;> simp [Instr.fb]

/-- A command is well formed when its small operand fits `fa`. -/
theorem wellFormed_iff (i : Instr) : i.wellFormed = true ↔ i.fa < 16 := decide_eq_true_iff

/-- The fields of the word of a well-formed command are the command's. -/
theorem encode_fields (i : Instr) : Laws.EncodeFields.Statement i := fun h =>
  Laws.EncodeFields.fields i.opcode i.fa i.fb (opcode_lt i) ((wellFormed_iff i).1 h) (fb_lt i)

/-- A word is put together from its fields. -/
theorem word_eq_of_fields {w : Word} (h : rsvField w = 0) :
    BitVec.ofNat 32 (opField w + faField w * 256 + fbField w * 4096) = w := by
  apply BitVec.eq_of_toNat_eq
  simp only [opField, faField, fbField, rsvField, BitVec.toNat_ofNat] at h ⊢
  omega

/-! ## The table -/

/-- What a command with two zero operands decodes to. -/
theorem bothZero_eq_ok {i j : Instr} {fa fb : Nat} (h : bothZero i fa fb = .ok j) : j = i ∧ fa = 0 ∧ fb = 0 := by
  unfold bothZero at h
  split at h
  · next hz =>
    cases h
    exact ⟨rfl, hz⟩
  · cases h

/-- What a command with its operand in `fa` decodes to. -/
theorem fbZero_eq_ok {i j : Instr} {fb : Nat} (h : fbZero i fb = .ok j) : j = i ∧ fb = 0 := by
  unfold fbZero at h
  split at h
  · next hz =>
    cases h
    exact ⟨rfl, hz⟩
  · cases h

/-- What `MIX_AND_SCALE` decodes to, by its mode. -/
theorem mixMode_eq_ok {j : Instr} {n fb : Nat} (h : mixMode n fb = .ok j) :
    (j = .mixAndScaleIn n ∧ fb = 0) ∨ (j = .mixAndScaleOut n ∧ fb = 1) := by
  unfold mixMode at h
  split at h
  · next hz =>
    cases h
    exact .inl ⟨rfl, hz⟩
  · split at h
    · next ho =>
      cases h
      exact .inr ⟨rfl, ho⟩
    · cases h

/-- The row of a command in the table of R100. -/
theorem decodeFields_row (i : Instr) : decodeFields i.opcode i.fa i.fb = .ok i := by cases i <;> rfl

/-- Fields decode to a command exactly when they are its fields. -/
theorem decodeFields_eq_ok_iff {op fa fb : Nat} {i : Instr} :
    decodeFields op fa fb = .ok i ↔ i.opcode = op ∧ i.fa = fa ∧ i.fb = fb := by
  constructor
  · intro h
    unfold decodeFields at h
    split at h
    case h_9 =>
      rcases mixMode_eq_ok h with ⟨rfl, rfl⟩ | ⟨rfl, rfl⟩
      · exact ⟨rfl, rfl, rfl⟩
      · exact ⟨rfl, rfl, rfl⟩
    case h_15 | h_16 | h_17 | h_18 =>
      obtain ⟨rfl, rfl⟩ := fbZero_eq_ok h
      exact ⟨rfl, rfl, rfl⟩
    case h_19 => cases h
    all_goals
      obtain ⟨rfl, rfl, rfl⟩ := bothZero_eq_ok h
      exact ⟨rfl, rfl, rfl⟩
  · rintro ⟨rfl, rfl, rfl⟩
    exact decodeFields_row i

/-- A word decodes to a command exactly when the command is well formed and the word is its word. -/
theorem decode_eq_ok_iff {w : Word} {i : Instr} : decode w = .ok i ↔ i.wellFormed = true ∧ encode i = w := by
  constructor
  · intro h
    unfold decode at h
    split at h
    · cases h
    · next hr =>
      obtain ⟨hop, hfa, hfb⟩ := decodeFields_eq_ok_iff.1 h
      refine ⟨(wellFormed_iff i).2 ?_, ?_⟩
      · rw [hfa]
        exact Nat.mod_lt _ (by decide)
      · rw [encode, hop, hfa, hfb]
        exact word_eq_of_fields (not_not.1 hr)
  · rintro ⟨hwf, rfl⟩
    obtain ⟨hop, hfa, hfb, hrsv⟩ := encode_fields i hwf
    rw [decode, if_neg (not_not.2 hrsv), hop, hfa, hfb]
    exact decodeFields_row i

/-! ## The statements -/

/-- Settles O1: the fields of the command's word are its row of the table (`decode_eq_ok_iff`). -/
theorem decodeOfEncode : Obligations.DecodeOfEncode := fun _ h => decode_eq_ok_iff.2 ⟨h, rfl⟩

/-- Settles O2: the other direction of `decode_eq_ok_iff`. -/
theorem encodeOfDecode : Obligations.EncodeOfDecode := fun _ _ h => decode_eq_ok_iff.1 h

/-- Settles O4: each of the words is the word of its command. -/
theorem decodeTableWords : Obligations.DecodeTableWords :=
  ⟨decodeOfEncode .construct rfl, decodeOfEncode .run rfl, decodeOfEncode .freqToTime rfl,
    decodeOfEncode (.mixAndScaleIn 3) rfl, decodeOfEncode (.mixAndScaleOut 4) rfl,
    decodeOfEncode .convolveInplace rfl, decodeOfEncode (.coeffsToInternal 7) rfl,
    decodeOfEncode (.verify 2) rfl, decodeOfEncode (.encodeSamples 15) rfl⟩

/-! ## Reserved words -/

/-- The fields of a word, cut out of its bits. -/
theorem extract_fields (w : Word) : (w.extractLsb' 0 8).toNat = opField w ∧ (w.extractLsb' 8 4).toNat = faField w ∧
    (w.extractLsb' 12 4).toNat = fbField w ∧ (w.extractLsb' 16 16).toNat = rsvField w := by
  simp only [BitVec.extractLsb'_toNat, Nat.shiftRight_eq_div_pow, opField, faField, fbField, rsvField, true_and]
  have hw := w.isLt
  omega

/-- What R106 reserves among the words with `rsv = 0`, by opcode, `fa` and `fb`. -/
def ReservedFields (op fa fb : Nat) : Prop :=
  (op = 0x00 ∨ (0x07 ≤ op ∧ op ≤ 0x0F) ∨ (0x13 ≤ op ∧ op ≤ 0x17) ∨ (0x1D ≤ op ∧ op ≤ 0x1F) ∨
    (0x22 ≤ op ∧ op ≤ 0x27) ∨ 0x2A ≤ op) ∨
  (if op = 0x12 then 2 ≤ fb
    else if op = 0x20 ∨ op = 0x21 ∨ op = 0x28 ∨ op = 0x29 then fb ≠ 0
    else fa ≠ 0 ∨ fb ≠ 0)

/-- The reserved words by their fields. -/
theorem reservedWord_iff (w : Word) : reservedWord w = true ↔
    rsvField w ≠ 0 ∨ ReservedFields (opField w) (faField w) (fbField w) := by
  obtain ⟨hop, hfa, hfb, hrsv⟩ := extract_fields w
  simp only [reservedWord, hop, hfa, hfb, hrsv, ReservedFields]
  split
  · simp [or_assoc]
  · split <;> simp [or_assoc]

/-- No command has reserved fields. -/
theorem not_reservedFields (i : Instr) : ¬ ReservedFields i.opcode i.fa i.fb := by
  cases i <;> simp [ReservedFields, Instr.opcode, Instr.fa, Instr.fb]

/-- Fields that are not reserved decode. -/
theorem decodeFields_of_not_reserved {op fa fb : Nat} (h : ¬ ReservedFields op fa fb) :
    ∃ i : Instr, decodeFields op fa fb = .ok i := by
  unfold ReservedFields at h
  unfold decodeFields
  split
  case h_9 =>
    have hmode : fb < 2 := by simpa using h
    obtain rfl | rfl : fb = 0 ∨ fb = 1 := by omega
    · exact ⟨_, rfl⟩
    · exact ⟨_, rfl⟩
  case h_15 | h_16 | h_17 | h_18 =>
    obtain rfl : fb = 0 := by simpa using h
    exact ⟨_, rfl⟩
  case h_19 =>
    have hop := (not_or.1 h).1
    simp only [imp_false] at *
    omega
  all_goals
    obtain ⟨rfl, rfl⟩ : fa = 0 ∧ fb = 0 := by simpa using h
    exact ⟨_, rfl⟩

/-- A word that is not reserved decodes, and no other. -/
theorem reservedWord_eq_false_iff (w : Word) : reservedWord w = false ↔ ∃ i : Instr, decode w = .ok i := by
  rw [← Bool.not_eq_true, reservedWord_iff, not_or, not_not]
  constructor
  · rintro ⟨hrsv, hfields⟩
    rw [decode, if_neg (not_not.2 hrsv)]
    exact decodeFields_of_not_reserved hfields
  · rintro ⟨i, h⟩
    obtain ⟨hwf, rfl⟩ := decode_eq_ok_iff.1 h
    obtain ⟨hop, hfa, hfb, hrsv⟩ := encode_fields i hwf
    rw [hop, hfa, hfb]
    exact ⟨hrsv, not_reservedFields i⟩

/-- A write to `CMD` of a word that does not decode raises `E_ILLEGAL_CMD` with the word. -/
theorem serve_illegal (b : Config.Build) (ex : Executor) (s : State) {data : Word64}
    (h : ∀ i : Instr, decode (loWord data) ≠ .ok i) :
    serve b ex (.write .b4 0x008#32 data) s = .next (raise s .eIllegalCmd (loWord data)) := by
  show issue ex s (loWord data) = _
  unfold issue
  split
  · next i hi => exact absurd hi (h i)
  · rfl

/-- Settles O3: the words that do not decode are the reserved ones (`reservedWord_eq_false_iff`). -/
theorem reservedWordsAreIllegal : Obligations.ReservedWordsAreIllegal := by
  refine fun w => ⟨fun hw s rest hp => ?_, (reservedWord_eq_false_iff w).1⟩
  have hillegal : ∀ i : Instr, decode (loWord (w.setWidth 64)) ≠ .ok i := by
    intro i hi
    rw [loWord_setWidth] at hi
    rw [(reservedWord_eq_false_iff w).2 ⟨i, hi⟩] at hw
    cases hw
  have hserve := serve_illegal Config.build exec { s with pending := rest } hillegal
  rw [loWord_setWidth] at hserve
  exact (nextEvent_serve Config.build exec hp).trans hserve

end Sys2Proof.Machine
end

section
/-! Buffer ids (`30_encoding.md` R112, R113): the fields of an id, the buffer they name, and the statement about
them. -/

namespace Sys2Proof.Machine

/-! One theorem is checked after the other: checked side by side, they take a thread each. -/
set_option Elab.async false

/-! ## The fields of an id -/

/-- The space of a buffer id, bits 31:28 (R112). -/
def idSpace (id : Word) : Nat := (id.extractLsb' 28 4).toNat

/-- The channel of a buffer id, bits 27:24 (R112). -/
def idChan (id : Word) : Nat := (id.extractLsb' 24 4).toNat

/-- The index of a buffer id, bits 23:0 (R112). -/
def idIndex (id : Word) : Nat := (id.extractLsb' 0 24).toNat

/-- The space as the model reads it. -/
theorem idSpace_eq (id : Word) : idSpace id = id.toNat / 2 ^ 28 := by
  have h := id.isLt
  simp only [idSpace, BitVec.extractLsb'_toNat, Nat.shiftRight_eq_div_pow]
  omega

/-- The channel as the model reads it. -/
theorem idChan_eq (id : Word) : idChan id = id.toNat / 2 ^ 24 % 16 := by
  simp only [idChan, BitVec.extractLsb'_toNat, Nat.shiftRight_eq_div_pow, Nat.reducePow]

/-- The index as the model reads it. -/
theorem idIndex_eq (id : Word) : idIndex id = id.toNat % 2 ^ 24 := by
  simp only [idIndex, BitVec.extractLsb'_toNat, Nat.shiftRight_zero]

/-- The fields of an id put together from its fields. -/
theorem id_fields {space c i : Nat} (hs : space < 16) (hc : c < 16) (hi : i < 2 ^ 24) :
    idSpace (BitVec.ofNat 32 (space * 2 ^ 28 + c * 2 ^ 24 + i)) = space ∧
    idChan (BitVec.ofNat 32 (space * 2 ^ 28 + c * 2 ^ 24 + i)) = c ∧
    idIndex (BitVec.ofNat 32 (space * 2 ^ 28 + c * 2 ^ 24 + i)) = i := by
  simp only [idSpace_eq, idChan_eq, idIndex_eq, BitVec.toNat_ofNat]
  omega

/-! ## The buffer an id names -/

/-- The buffer that the fields of an id name (R112). -/
def refOfFields (space chan index : Nat) : BufRef :=
  match space with
  | 1 => .tb chan index
  | 2 => .ring chan index
  | 3 => if index = 0 then .acc chan else .invalid
  | 4 => if chan = 0 then .scr index else .invalid
  | 5 => .coef chan index
  | _ => .invalid

/-- An id names the buffer of its fields. -/
theorem bufRef_eq (id : Word) : bufRef id = refOfFields (idSpace id) (idChan id) (idIndex id) := by
  rw [idSpace_eq, idChan_eq, idIndex_eq]
  rfl

/-- An id put together from its fields names the buffer of these fields. -/
theorem bufRef_ofNat {n space c i : Nat} (hn : n = space * 2 ^ 28 + c * 2 ^ 24 + i) (hs : space < 16) (hc : c < 16)
    (hi : i < 2 ^ 24) : bufRef (BitVec.ofNat 32 n) = refOfFields space c i := by
  obtain ⟨hspace, hchan, hindex⟩ := id_fields hs hc hi
  rw [hn, bufRef_eq, hspace, hchan, hindex]

/-- The reserved spaces name no buffer. -/
theorem refOfFields_reserved {space : Nat} (h : space = 0 ∨ 6 ≤ space) (chan index : Nat) :
    refOfFields space chan index = .invalid := by
  unfold refOfFields
  split
  case h_6 => rfl
  all_goals omega

/-! ## Which ids are valid -/

/-- What the fields of a valid id are in an engine (R113). -/
def FieldsValid (s : State) (space chan index : Nat) : Prop :=
  (space = 1 ∧ chan < s.channels ∧ index < 2) ∨
  (space = 2 ∧ chan < s.channels ∧ index < s.lat.nBlocks.toNat) ∨
  (space = 3 ∧ chan < s.channels ∧ index = 0) ∨
  (space = 4 ∧ chan = 0 ∧ index < 4) ∨
  (space = 5 ∧ chan < s.channels ∧ index < (s.chan chan).coefNBlocks.toNat)

/-- The buffer that fields name exists exactly when the fields are valid and there is an engine. -/
theorem refValid_refOfFields (s : State) (space chan index : Nat) :
    refValid s (refOfFields space chan index) = true ↔ s.fsm ≠ .uninit ∧ FieldsValid s space chan index := by
  match space with
  | 1 | 2 | 5 => simp [refOfFields, refValid, FieldsValid, and_assoc]
  | 3 => by_cases h : index = 0 <;> simp [refOfFields, refValid, FieldsValid, h]
  | 4 => by_cases h : chan = 0 <;> simp [refOfFields, refValid, FieldsValid, h]
  | 0 => simp [refOfFields, refValid, FieldsValid]
  | n + 6 => simp [refOfFields, refValid, FieldsValid]

/-- A buffer that exists may be written but for the coefficients. -/
theorem refWritable_refOfFields {s : State} {space chan index : Nat} (h : FieldsValid s space chan index) :
    refWritable (refOfFields space chan index) = true ↔ space ≠ 5 := by
  rcases h with ⟨rfl, -⟩ | ⟨rfl, -⟩ | ⟨rfl, -, rfl⟩ | ⟨rfl, rfl, -⟩ | ⟨rfl, -⟩ <;> simp [refOfFields, refWritable]

/-- Which ids are valid (R113). -/
theorem validId_iff (s : State) (id : Word) : validId s id = true ↔
    s.fsm ≠ .uninit ∧ FieldsValid s (idSpace id) (idChan id) (idIndex id) := by
  rw [validId, bufRef_eq]
  exact refValid_refOfFields s _ _ _

/-- Which ids a command may write (R113). -/
theorem writableId_iff (s : State) (id : Word) :
    writableId s id = true ↔ validId s id = true ∧ idSpace id ≠ 5 := by
  rw [writableId, Bool.and_eq_true]
  refine and_congr_right fun hv => ?_
  rw [bufRef_eq]
  exact refWritable_refOfFields ((validId_iff s id).1 hv).2

/-- Settles O25: an id names the buffer of its fields (`bufRef_eq`), and these say whether it exists and may be
written (`validId_iff`, `writableId_iff`). -/
theorem bufferIds : Obligations.BufferIds := by
  refine ⟨fun c i hc hi => ⟨?tb, ?ring, ?acc, ?scr, ?coef⟩, fun id h => ?_,
    fun s id => ⟨validId_iff s id, writableId_iff s id⟩⟩
  case tb => exact bufRef_ofNat (space := 1) (by omega) (by decide) hc hi
  case ring => exact bufRef_ofNat (space := 2) (by omega) (by decide) hc hi
  case acc => exact bufRef_ofNat (space := 3) (i := 0) (by omega) (by decide) hc (by decide)
  case scr => exact bufRef_ofNat (space := 4) (c := 0) (by omega) (by decide) (by decide) hi
  case coef => exact bufRef_ofNat (space := 5) (by omega) (by decide) hc hi
  have hspace : idSpace id = 0 ∨ 6 ≤ idSpace id := h.imp_left fun h0 => by rw [idSpace, h0]; rfl
  rw [bufRef_eq]
  exact refOfFields_reserved hspace _ _

end Sys2Proof.Machine
end

section
/-! Operands that are out of range or not valid (`30_encoding.md` R105, R113, `60_exceptions.md` R315): the first
check that fails in a command's own list, and the statement that it is raised. -/

namespace Sys2Proof.Machine

/-! One theorem is checked after the other: checked side by side, they take a thread each. -/
set_option Elab.async false

/-! ## The first check that fails -/

/-- A first check that fails is found. -/
theorem firstFailure_cons_fail {c : Check} (cs : List Check) (h : c.fails = true) :
    firstFailure (c :: cs) = some (c.code, c.aux) := by simp [firstFailure, h]

/-- A first check that holds is passed over. -/
theorem firstFailure_cons_pass {c : Check} (cs : List Check) (h : c.fails = false) :
    firstFailure (c :: cs) = firstFailure cs := by simp [firstFailure, h]

/-- Checks that hold are passed over. -/
theorem firstFailure_append_pass {pre : List Check} (cs : List Check) (h : ∀ c ∈ pre, c.fails = false) :
    firstFailure (pre ++ cs) = firstFailure cs := by
  induction pre with
  | nil => rfl
  | cons c pre ih =>
    rw [List.forall_mem_cons] at h
    rw [List.cons_append, firstFailure_cons_pass _ h.1, ih h.2]

/-- What is found in the first part of a list is found in the list. -/
theorem firstFailure_append_fail {pre : List Check} (cs : List Check) {x : ResultCode × Word}
    (h : firstFailure pre = some x) : firstFailure (pre ++ cs) = some x := by
  induction pre with
  | nil => cases h
  | cons c pre ih =>
    by_cases hc : c.fails = true
    · rw [List.cons_append, firstFailure_cons_fail _ hc]
      rwa [firstFailure_cons_fail _ hc] at h
    · rw [Bool.not_eq_true] at hc
      rw [List.cons_append, firstFailure_cons_pass _ hc]
      exact ih (by rwa [firstFailure_cons_pass _ hc] at h)

/-! ## The checks of an id -/

/-- An id that is not valid is found. -/
theorem firstFailure_invalid {s : State} {id : Word} (cs : List Check) (h : validId s id = false) :
    firstFailure (checkValid s id :: cs) = some (.eBadArg, id) :=
  firstFailure_cons_fail cs (by simp [checkValid, h])

/-- A valid id is passed over. -/
theorem firstFailure_valid {s : State} {id : Word} (cs : List Check) (h : validId s id = true) :
    firstFailure (checkValid s id :: cs) = firstFailure cs :=
  firstFailure_cons_pass cs (by simp [checkValid, h])

/-- An id that is not writable is found. -/
theorem firstFailure_unwritable {s : State} {id : Word} (cs : List Check) (h : writableId s id = false) :
    firstFailure (checkWritable s id :: cs) = some (.eBadArg, id) :=
  firstFailure_cons_fail cs (by simp [checkWritable, h])

/-- A writable id is passed over. -/
theorem firstFailure_writable {s : State} {id : Word} (cs : List Check) (h : writableId s id = true) :
    firstFailure (checkWritable s id :: cs) = firstFailure cs :=
  firstFailure_cons_pass cs (by simp [checkWritable, h])

/-- The first id of a list that is not valid is found. -/
theorem firstFailure_ids {s : State} {ids : List Word} {j : Nat} (hj : j < ids.length)
    (hbad : validId s (ids.getD j 0#32) = false)
    (hgood : ∀ k : Nat, k < j → validId s (ids.getD k 0#32) = true) :
    firstFailure (ids.map (checkValid s)) = some (.eBadArg, ids.getD j 0#32) := by
  induction ids generalizing j with
  | nil => cases hj
  | cons id ids ih =>
    cases j with
    | zero => exact firstFailure_invalid _ hbad
    | succ j =>
      have hfirst : validId s id = true := hgood 0 j.succ_pos
      rw [List.map_cons, firstFailure_valid _ hfirst]
      exact ih (Nat.lt_of_succ_lt_succ hj) hbad fun k hk => hgood (k + 1) (Nat.succ_lt_succ hk)

/-! ## The sources of `MIX_AND_SCALE` -/

/-- There are as many sources as are asked for, up to four. -/
theorem length_take_sources (o : OpRegs) {n : Nat} (hn : n ≤ 4) : (o.sources.take n).length = n :=
  List.length_take_of_le hn

/-- A source that is asked for. -/
theorem getD_take_sources (o : OpRegs) {n j : Nat} (hj : j < n) :
    (o.sources.take n).getD j 0#32 = o.sources.getD j 0#32 := by
  simp only [List.getD_eq_getElem?_getD, List.getElem?_take_of_lt hj]

/-- One to four inputs pass the check of their number. -/
theorem mix_count_pass {n : Nat} (hn1 : 1 ≤ n) (hn : n ≤ 4) : (decide (n = 0) || decide (4 < n)) = false :=
  Bool.or_eq_false_iff.2 ⟨decide_eq_false (by omega), decide_eq_false (by omega)⟩

/-- The first source that is not valid is found (R149). -/
theorem firstFailure_mix_source {s : State} {n j : Nat} (hn : n ≤ 4) (hj : j < n)
    (hbad : validId s (s.op.sources.getD j 0#32) = false)
    (hgood : ∀ k : Nat, k < j → validId s (s.op.sources.getD k 0#32) = true) :
    firstFailure (mixChecks s n) = some (.eBadArg, s.op.sources.getD j 0#32) := by
  rw [mixChecks, firstFailure_cons_pass _ (mix_count_pass (by omega) hn), ← getD_take_sources s.op hj]
  refine firstFailure_append_fail _ (firstFailure_ids ?_ ?_ fun k hk => ?_)
  · rwa [length_take_sources s.op hn]
  · rwa [getD_take_sources s.op hj]
  · rw [getD_take_sources s.op (hk.trans hj)]
    exact hgood k hk

/-- With valid sources a destination that is not writable is found (R149). -/
theorem firstFailure_mix_dst {s : State} {n : Nat} (hn1 : 1 ≤ n) (hn : n ≤ 4)
    (hgood : ∀ j : Nat, j < n → validId s (s.op.sources.getD j 0#32) = true)
    (hdst : writableId s s.op.dst = false) : firstFailure (mixChecks s n) = some (.eBadArg, s.op.dst) := by
  have hsources : ∀ c ∈ (s.op.sources.take n).map (checkValid s), c.fails = false := by
    intro c hc
    obtain ⟨id, hid, rfl⟩ := List.mem_map.1 hc
    obtain ⟨j, hj, rfl⟩ := List.getElem_of_mem hid
    have hjn : j < n := by rwa [length_take_sources s.op hn] at hj
    have hv := hgood j hjn
    rw [← getD_take_sources s.op hjn, List.getD_eq_getElem _ _ hj] at hv
    exact congrArg not hv
  rw [mixChecks, firstFailure_cons_pass _ (mix_count_pass hn1 hn), firstFailure_append_pass _ hsources]
  exact firstFailure_unwritable _ hdst

/-! ## What the commands raise -/

/-- A command that checks a list and then has an effect, in an engine: the check found is raised and nothing else
happens. -/
theorem exec_raises {i : Instr} {s effect : State} {cs : List Check} {code : ResultCode} {w : Word}
    (hexec : exec i s = .next (whenConstructed s (checked s cs effect))) (hs : s.fsm ≠ .uninit)
    (h : firstFailure cs = some (code, w)) : exec i s = .next (raise s code w) := by
  rw [hexec, whenConstructed_pass s _ hs, checked, h]

/-- A command of one source and a destination. -/
theorem raises_source_dst {i : Instr} {s effect : State} {cs : List Check}
    (hexec : exec i s = .next
      (whenConstructed s (checked s (checkValid s s.op.src0 :: checkWritable s s.op.dst :: cs) effect)))
    (hs : s.fsm ≠ .uninit) :
    (validId s s.op.src0 = false → exec i s = .next (raise s .eBadArg s.op.src0)) ∧
    (validId s s.op.src0 = true → writableId s s.op.dst = false →
      exec i s = .next (raise s .eBadArg s.op.dst)) := by
  refine ⟨fun hsrc => exec_raises hexec hs (firstFailure_invalid _ hsrc), fun hsrc hdst => ?_⟩
  refine exec_raises hexec hs ?_
  rw [firstFailure_valid _ hsrc, firstFailure_unwritable _ hdst]

/-- A command with the checks of `CONVOLVE` (R171, R172). -/
theorem raises_convolve {i : Instr} {s effect : State}
    (hexec : exec i s = .next (whenConstructed s (checked s (convolveChecks s) effect))) (hs : s.fsm ≠ .uninit) :
    (validId s s.op.src0 = false → exec i s = .next (raise s .eBadArg s.op.src0)) ∧
    (validId s s.op.src0 = true → validId s s.op.coef = false →
      exec i s = .next (raise s .eBadArg s.op.coef)) ∧
    (validId s s.op.src0 = true → validId s s.op.coef = true → writableId s s.op.dst = false →
      exec i s = .next (raise s .eBadArg s.op.dst)) := by
  refine ⟨fun hsrc => ?_, fun hsrc hcoef => ?_, fun hsrc hcoef hdst => ?_⟩ <;>
    refine exec_raises hexec hs ?_ <;> rw [convolveChecks]
  · rw [firstFailure_invalid _ hsrc]
  · rw [firstFailure_valid _ hsrc, firstFailure_invalid _ hcoef]
  · rw [firstFailure_valid _ hsrc, firstFailure_valid _ hcoef, firstFailure_unwritable _ hdst]

/-- `CONVOLVE_INPLACE` (R173). -/
theorem raises_convolveInplace {s : State} (hs : s.fsm ≠ .uninit) :
    (writableId s s.op.dst = false → exec .convolveInplace s = .next (raise s .eBadArg s.op.dst)) ∧
    (writableId s s.op.dst = true → validId s s.op.coef = false →
      exec .convolveInplace s = .next (raise s .eBadArg s.op.coef)) := by
  refine ⟨fun hdst => exec_raises rfl hs (firstFailure_unwritable _ hdst),
    fun hdst hcoef => exec_raises rfl hs ?_⟩
  rw [firstFailure_writable _ hdst, firstFailure_invalid _ hcoef]

/-- `DIRAC_CONVOLVE_INPLACE` (R175). -/
theorem raises_diracConvolveInplace {s : State} (hs : s.fsm ≠ .uninit) (hdst : writableId s s.op.dst = false) :
    exec .diracConvolveInplace s = .next (raise s .eBadArg s.op.dst) :=
  exec_raises rfl hs (firstFailure_unwritable _ hdst)

/-- A command with the checks of `MIX_AND_SCALE` (R149). -/
theorem raises_mix {i : Instr} {s effect : State} {n : Nat}
    (hexec : exec i s = .next (whenConstructed s (checked s (mixChecks s n) effect))) (hs : s.fsm ≠ .uninit) :
    (n = 0 ∨ 4 < n → exec i s = .next (raise s .eBadArg (BitVec.ofNat 32 n))) ∧
    (∀ j : Nat, n ≤ 4 → j < n → validId s (s.op.sources.getD j 0#32) = false →
      (∀ k : Nat, k < j → validId s (s.op.sources.getD k 0#32) = true) →
        exec i s = .next (raise s .eBadArg (s.op.sources.getD j 0#32))) ∧
    (1 ≤ n → n ≤ 4 → (∀ j : Nat, j < n → validId s (s.op.sources.getD j 0#32) = true) →
      writableId s s.op.dst = false → exec i s = .next (raise s .eBadArg s.op.dst)) :=
  ⟨fun hn => exec_raises hexec hs (firstFailure_cons_fail _ (by simpa using hn)),
    fun _ hn hj hbad hgood => exec_raises hexec hs (firstFailure_mix_source hn hj hbad hgood),
    fun hn1 hn hgood hdst => exec_raises hexec hs (firstFailure_mix_dst hn1 hn hgood hdst)⟩

/-- `COEFFS_TO_INTERNAL` (R191). -/
theorem raises_coeffsToInternal {s : State} (hs : s.fsm ≠ .uninit) (ch : Nat) :
    (s.channels ≤ ch → exec (.coeffsToInternal ch) s = .next (raise s .eBadArg (BitVec.ofNat 32 ch))) ∧
    (ch < s.channels → s.lat.blockLen.toNat < s.op.len.toNat →
      exec (.coeffsToInternal ch) s = .next (raise s .eBadArg s.op.len)) ∧
    (ch < s.channels → s.op.len.toNat ≤ s.lat.blockLen.toNat → 2 ^ 22 < s.op.off.toNat + s.op.len.toNat →
      exec (.coeffsToInternal ch) s = .next (raise s .eBadArg s.op.off)) ∧
    (ch < s.channels → s.op.len.toNat ≤ s.lat.blockLen.toNat → s.op.off.toNat + s.op.len.toNat ≤ 2 ^ 22 →
      writableId s s.op.dst = false → exec (.coeffsToInternal ch) s = .next (raise s .eBadArg s.op.dst)) := by
  have hexec : exec (.coeffsToInternal ch) s = .next (whenConstructed s
      (checked s (coeffsToInternalChecks Config.build s ch) (coeffsToInternalEffect Config.build s ch))) := rfl
  have hmax : Config.build.cinMaxElems = 2 ^ 22 := rfl
  refine ⟨fun hch => ?_, fun hch hlen => ?_, fun hch hlen hoff => ?_, fun hch hlen hoff hdst => ?_⟩ <;>
    refine exec_raises hexec hs ?_ <;> rw [coeffsToInternalChecks, hmax]
  · exact firstFailure_cons_fail _ (decide_eq_true hch)
  · rw [firstFailure_cons_pass _ (decide_eq_false (Nat.not_le.2 hch)),
      firstFailure_cons_fail _ (decide_eq_true hlen)]
  · rw [firstFailure_cons_pass _ (decide_eq_false (Nat.not_le.2 hch)),
      firstFailure_cons_pass _ (decide_eq_false (Nat.not_lt.2 hlen)),
      firstFailure_cons_fail _ (decide_eq_true hoff)]
  · rw [firstFailure_cons_pass _ (decide_eq_false (Nat.not_le.2 hch)),
      firstFailure_cons_pass _ (decide_eq_false (Nat.not_lt.2 hlen)),
      firstFailure_cons_pass _ (decide_eq_false (Nat.not_lt.2 hoff)), firstFailure_unwritable _ hdst]

/-- Settles O57: each command raises what `firstFailure` finds in its own list of checks (`exec_raises`). -/
theorem invalidOperandsRaise : Obligations.InvalidOperandsRaise := by
  intro s hs
  obtain ⟨hdst, hcoef⟩ := raises_convolveInplace hs
  refine ⟨?sourceDst, ?convolve, fun h => ⟨hdst h, raises_diracConvolveInplace hs h⟩, hcoef, ?mix,
    raises_coeffsToInternal hs⟩
  case sourceDst =>
    rintro i (rfl | rfl | rfl)
    · exact raises_source_dst rfl hs
    · exact raises_source_dst rfl hs
    · exact raises_source_dst rfl hs
  case convolve =>
    rintro i (rfl | rfl)
    · exact raises_convolve rfl hs
    · exact raises_convolve rfl hs
  case mix =>
    rintro i n (rfl | rfl)
    · exact raises_mix rfl hs
    · exact raises_mix rfl hs

end Sys2Proof.Machine
end

section
/-! The transform and the loops of the schedule (`40_transform.md` R143 to R145): the bit-reversed copy, one stage as
the butterflies of its pairs one after another, and the statement that the two agree. -/

namespace Sys2Proof.Machine

/-! One theorem is checked after the other: checked side by side, they take a thread each. -/
set_option Elab.async false

/-! ## Lists and loops -/

/-- What a loop over `0 .. n-1` keeps, said of the number of turns done. -/
theorem foldl_range_induction {α : Type} {P : Nat → α → Prop} {f : α → Nat → α} {x : α} (n : Nat)
    (h0 : P 0 x) (hstep : ∀ (i : Nat) (y : α), i < n → P i y → P (i + 1) (f y i)) :
    P n ((List.range n).foldl f x) := by
  induction n with
  | zero => exact h0
  | succ n ih =>
    rw [List.range_succ, List.foldl_append]
    exact hstep n _ n.lt_succ_self (ih fun i y hi => hstep i y (Nat.lt_succ_of_lt hi))

/-- Lists are equal when their elements are. -/
theorem ext_getD {α : Type} {n : Nat} {d : α} {xs ys : List α} (hx : xs.length = n) (hy : ys.length = n)
    (h : ∀ i : Nat, i < n → xs.getD i d = ys.getD i d) : xs = ys := by
  refine List.ext_getElem (hx.trans hy.symm) fun i hi hi' => ?_
  have he := h i (hx ▸ hi)
  rwa [List.getD_eq_getElem _ _ hi, List.getD_eq_getElem _ _ hi'] at he

/-- Lists of complex values are equal when their elements are. -/
theorem cnth_ext {n : Nat} {xs ys : List ComplexValue} (hx : xs.length = n) (hy : ys.length = n)
    (h : ∀ i : Nat, i < n → cnth xs i = cnth ys i) : xs = ys := ext_getD hx hy h

/-- Lists of reals are equal when their elements are. -/
theorem nth_ext {n : Nat} {xs ys : List FReal} (hx : xs.length = n) (hy : ys.length = n)
    (h : ∀ i : Nat, i < n → nth xs i = nth ys i) : xs = ys := ext_getD hx hy h

/-- An element that was assigned. -/
theorem cnth_set_self {xs : List ComplexValue} {i : Nat} (z : ComplexValue) (h : i < xs.length) :
    cnth (xs.set i z) i = z := by simp [cnth, h]

/-- The other elements. -/
theorem cnth_set_ne (xs : List ComplexValue) {i j : Nat} (z : ComplexValue) (h : j ≠ i) :
    cnth (xs.set i z) j = cnth xs j := by simp [cnth, List.getD_eq_getElem?_getD, h.symm]

@[simp] theorem fftStage_length (b : Config.Build) (p : Prec) (o : Nat) (inverse : Bool) (s : Nat)
    (xs : List ComplexValue) : (fftStage b p o inverse s xs).length = 2 ^ o := by simp [fftStage]

@[simp] theorem bitReversed_length (o : Nat) (xs : List ComplexValue) : (bitReversed o xs).length = 2 ^ o := by
  simp [bitReversed]

/-! ## Bit reversal -/

/-- The spec's bit reversal is the model's. -/
theorem reverseBits_eq_bitrev (o n : Nat) : reverseBits o n = bitrev o n := by
  induction o generalizing n with
  | zero => rfl
  | succ o ih =>
    have hlater : ∀ j : Nat, n / 2 ^ (j + 1) % 2 * 2 ^ (o - (j + 1)) = n / 2 / 2 ^ j % 2 * 2 ^ (o - 1 - j) := by
      intro j
      rw [pow_succ', Nat.div_div_eq_div_mul, show o - (j + 1) = o - 1 - j by omega]
    rw [bitrev, ← ih (n / 2), reverseBits, reverseBits, List.range_succ_eq_map, List.map_cons, List.map_map,
      List.sum_cons]
    simp only [Function.comp_def, Nat.succ_eq_add_one, Nat.add_sub_cancel, hlater, pow_zero, Nat.div_one, Nat.sub_zero]

/-- The top bit becomes the lowest. -/
theorem bitrev_top (o : Nat) {d r : Nat} (hd : d < 2) (hr : r < 2 ^ o) :
    bitrev (o + 1) (d * 2 ^ o + r) = 2 * bitrev o r + d := by
  induction o generalizing r with
  | zero =>
    have hr0 : r = 0 := by simpa using hr
    simp [bitrev, hr0, Nat.mod_eq_of_lt hd]
  | succ o ih =>
    have hpow : d * 2 ^ (o + 1) = 2 * (d * 2 ^ o) := by rw [pow_succ']; ring
    have hmod : (d * 2 ^ (o + 1) + r) % 2 = r % 2 := by omega
    have hdiv : (d * 2 ^ (o + 1) + r) / 2 = d * 2 ^ o + r / 2 := by omega
    have hlow : bitrev (o + 1) r = r % 2 * 2 ^ o + bitrev o (r / 2) := rfl
    rw [bitrev, hmod, hdiv, ih (by rw [pow_succ] at hr; omega), hlow, pow_succ]
    ring

/-- Bit reversal undoes itself. -/
theorem bitrev_bitrev {o n : Nat} (h : n < 2 ^ o) : bitrev o (bitrev o n) = n := by
  induction o generalizing n with
  | zero => exact (Nat.lt_one_iff.1 h).symm
  | succ o ih =>
    have hhalf : n / 2 < 2 ^ o := by rw [pow_succ] at h; omega
    have hlow : bitrev (o + 1) n = n % 2 * 2 ^ o + bitrev o (n / 2) := rfl
    rw [hlow, bitrev_top o (Nat.mod_lt n Nat.two_pos) (bitrev_lt o _), ih hhalf]
    exact Nat.div_add_mod n 2

/-- The first loop of R145 after `n` turns: the inputs before `n` are at their bit-reversed places. -/
structure CopiedReversed (o : Nat) (xs : List ComplexValue) (n : Nat) (x : List ComplexValue) : Prop where
  length : x.length = 2 ^ o
  copied : ∀ m : Nat, m < n → cnth x (bitrev o m) = cnth xs m

/-- One more turn: no earlier input is at the place of this one. -/
theorem CopiedReversed.turn {o n : Nat} {xs x : List ComplexValue} (h : CopiedReversed o xs n x) (hn : n < 2 ^ o) :
    CopiedReversed o xs (n + 1) (x.set (reverseBits o n) (cnth xs n)) := by
  refine ⟨List.length_set.trans h.length, fun m hm => ?_⟩
  rw [reverseBits_eq_bitrev]
  rcases Nat.lt_succ_iff_lt_or_eq.1 hm with hlt | rfl
  · have hne : bitrev o m ≠ bitrev o n := fun he => by
      have heq := congrArg (bitrev o) he
      rw [bitrev_bitrev (hlt.trans hn), bitrev_bitrev hn] at heq
      exact hlt.ne heq
    rw [cnth_set_ne x _ hne]
    exact h.copied m hlt
  · exact cnth_set_self _ (h.length ▸ bitrev_lt o m)

/-- The first loop of R145 leaves the inputs in the bit-reversed order. -/
theorem bitReversal_loop (o : Nat) (xs : List ComplexValue) :
    (List.range (2 ^ o)).foldl (fun x n => x.set (reverseBits o n) (cnth xs n))
      (List.replicate (2 ^ o) (FReal.zero, FReal.zero)) = bitReversed o xs := by
  have hstart : CopiedReversed o xs 0 (List.replicate (2 ^ o) (FReal.zero, FReal.zero)) :=
    ⟨List.length_replicate, fun m hm => absurd hm m.not_lt_zero⟩
  have hall := foldl_range_induction (P := CopiedReversed o xs) (2 ^ o) hstart fun n x hn hx => hx.turn hn
  refine cnth_ext hall.length (bitReversed_length o xs) fun i hi => ?_
  have hi' := hall.copied (bitrev o i) (bitrev_lt o i)
  rw [bitrev_bitrev hi] at hi'
  rw [hi', bitReversed, cnth_map_range _ _ _ hi]

/-! ## One butterfly of a stage -/

/-- A factor of R143 is the model's. -/
theorem romEntry_eq_twiddle (b : Config.Build) (p : Prec) (o k : Nat) : romEntry b p o k = twiddle b p o k := rfl

/-- The upper element of a butterfly of stage `s + 1`. -/
theorem cnth_fftStage_upper (b : Config.Build) (p : Prec) {o s k j : Nat} (inverse : Bool) (xs : List ComplexValue)
    (hj : j < 2 ^ s) (hi : k * 2 ^ (s + 1) + j < 2 ^ o) :
    cnth (fftStage b p o inverse (s + 1) xs) (k * 2 ^ (s + 1) + j) =
      (butterfly p (cnth xs (k * 2 ^ (s + 1) + j)) (cnth xs (k * 2 ^ (s + 1) + j + 2 ^ s))
        (stageTwiddle b p o inverse (j * 2 ^ (o - (s + 1))))).1 := by
  have hmod : (k * 2 ^ (s + 1) + j) % 2 ^ (s + 1) = j := by
    rw [Nat.mul_add_mod_self_right, Nat.mod_eq_of_lt (by rw [pow_succ]; omega)]
  rw [fftStage, cnth_map_range _ _ _ hi]
  simp only [hmod, Nat.add_sub_cancel, if_pos hj]

/-- The lower element of a butterfly of stage `s + 1`. -/
theorem cnth_fftStage_lower (b : Config.Build) (p : Prec) {o s k j : Nat} (inverse : Bool) (xs : List ComplexValue)
    (hj : j < 2 ^ s) (hi : k * 2 ^ (s + 1) + j + 2 ^ s < 2 ^ o) :
    cnth (fftStage b p o inverse (s + 1) xs) (k * 2 ^ (s + 1) + j + 2 ^ s) =
      (butterfly p (cnth xs (k * 2 ^ (s + 1) + j)) (cnth xs (k * 2 ^ (s + 1) + j + 2 ^ s))
        (stageTwiddle b p o inverse (j * 2 ^ (o - (s + 1))))).2 := by
  have hmod : (k * 2 ^ (s + 1) + j + 2 ^ s) % 2 ^ (s + 1) = j + 2 ^ s := by
    rw [Nat.add_assoc, Nat.mul_add_mod_self_right, Nat.mod_eq_of_lt (by rw [pow_succ]; omega)]
  rw [fftStage, cnth_map_range _ _ _ hi]
  simp only [hmod, Nat.add_sub_cancel, if_neg (Nat.not_lt.2 (Nat.le_add_left _ _))]

/-- The assignment of a butterfly of stage `s + 1` is the model's butterfly put at its two elements. -/
theorem bflyAt_eq_set (b : Config.Build) (p : Prec) {o s : Nat} (inverse : Bool) (k j : Nat) (x : List ComplexValue)
    (hs : s < o) :
    bflyAt b p o inverse (2 ^ (s + 1)) (k * 2 ^ (s + 1)) j x =
      (x.set (k * 2 ^ (s + 1) + j)
        (butterfly p (cnth x (k * 2 ^ (s + 1) + j)) (cnth x (k * 2 ^ (s + 1) + j + 2 ^ s))
          (stageTwiddle b p o inverse (j * 2 ^ (o - (s + 1))))).1).set (k * 2 ^ (s + 1) + j + 2 ^ s)
        (butterfly p (cnth x (k * 2 ^ (s + 1) + j)) (cnth x (k * 2 ^ (s + 1) + j + 2 ^ s))
          (stageTwiddle b p o inverse (j * 2 ^ (o - (s + 1))))).2 := by
  have hhalf : 2 ^ (s + 1) / 2 = 2 ^ s := by rw [pow_succ, Nat.mul_div_cancel _ Nat.two_pos]
  have hstride : 2 ^ o / 2 ^ (s + 1) = 2 ^ (o - (s + 1)) := Nat.pow_div hs Nat.two_pos
  rw [bflyAt, hhalf, hstride, romEntry_eq_twiddle]
  rfl

/-! ## One stage -/

/-- The elements of the first `k` groups of `2^(s+1)`, and of the first `j` butterflies of the next one. -/
def StageDone (s k j i : Nat) : Prop :=
  i / 2 ^ (s + 1) < k ∨ i / 2 ^ (s + 1) = k ∧ i % 2 ^ s < j

/-- The elements of butterfly `j` of group `k`. -/
theorem butterfly_elements {s k j i : Nat} (hj : j < 2 ^ s) :
    i / 2 ^ (s + 1) = k ∧ i % 2 ^ s = j ↔ i = k * 2 ^ (s + 1) + j ∨ i = k * 2 ^ (s + 1) + j + 2 ^ s := by
  have hpow : 2 ^ (s + 1) = 2 * 2 ^ s := pow_succ' 2 s
  have hpos : 0 < 2 ^ (s + 1) := Nat.two_pow_pos _
  constructor
  · rintro ⟨hk, hm⟩
    have hsplit := Nat.div_add_mod' i (2 ^ (s + 1))
    have hlt := Nat.mod_lt i hpos
    have hmod : i % 2 ^ (s + 1) % 2 ^ s = j := by rw [Nat.mod_mod_of_dvd _ (pow_dvd_pow 2 s.le_succ), hm]
    rw [hk] at hsplit
    rcases Nat.lt_or_ge (i % 2 ^ (s + 1)) (2 ^ s) with hlow | hhigh
    · rw [Nat.mod_eq_of_lt hlow] at hmod
      omega
    · rw [Nat.mod_eq_sub_mod hhigh, Nat.mod_eq_of_lt (by omega)] at hmod
      omega
  · have hgroup : ∀ r : Nat, r < 2 ^ (s + 1) → (k * 2 ^ (s + 1) + r) / 2 ^ (s + 1) = k := fun r hr => by
      rw [Nat.mul_comm, Nat.mul_add_div hpos, Nat.div_eq_of_lt hr, Nat.add_zero]
    have hplace : (k * 2 ^ (s + 1) + j) % 2 ^ s = j := by
      rw [hpow, ← Nat.mul_assoc, Nat.mul_add_mod_self_right, Nat.mod_eq_of_lt hj]
    rintro (rfl | rfl)
    · exact ⟨hgroup j (by omega), hplace⟩
    · rw [Nat.add_mod_right, Nat.add_assoc]
      exact ⟨hgroup (j + 2 ^ s) (by omega), hplace⟩

/-- Stage `s + 1` of `x0` as far as it has been carried out: the elements of the butterflies done are the stage's,
the others are as they were. -/
structure StagePartly (b : Config.Build) (p : Prec) (o : Nat) (inverse : Bool) (s : Nat) (x0 : List ComplexValue)
    (k j : Nat) (x : List ComplexValue) : Prop where
  length : x.length = 2 ^ o
  done : ∀ i : Nat, i < 2 ^ o → StageDone s k j i → cnth x i = cnth (fftStage b p o inverse (s + 1) x0) i
  left : ∀ i : Nat, ¬StageDone s k j i → cnth x i = cnth x0 i

namespace StagePartly

variable {b : Config.Build} {p : Prec} {o s k j : Nat} {inverse : Bool} {x0 x : List ComplexValue}

/-- One more butterfly: its pair is disjoint from those done. -/
theorem bflyAt (h : StagePartly b p o inverse s x0 k j x) (hs : s < o) (hk : k < 2 ^ o / 2 ^ (s + 1))
    (hj : j < 2 ^ s) :
    StagePartly b p o inverse s x0 k (j + 1) (bflyAt b p o inverse (2 ^ (s + 1)) (k * 2 ^ (s + 1)) j x) := by
  have hpow : 2 ^ (s + 1) = 2 * 2 ^ s := pow_succ' 2 s
  have hroom : (k + 1) * 2 ^ (s + 1) ≤ 2 ^ o := (Nat.le_div_iff_mul_le (Nat.two_pow_pos _)).1 hk
  rw [Nat.add_mul, Nat.one_mul] at hroom
  have hnext : ∀ i : Nat, StageDone s k (j + 1) i ↔
      StageDone s k j i ∨ (i = k * 2 ^ (s + 1) + j ∨ i = k * 2 ^ (s + 1) + j + 2 ^ s) := fun i => by
    rw [← butterfly_elements hj, StageDone, StageDone]
    omega
  have hfresh : ∀ i : Nat, (i = k * 2 ^ (s + 1) + j ∨ i = k * 2 ^ (s + 1) + j + 2 ^ s) → cnth x i = cnth x0 i :=
    fun i hi => h.left i (by
      rw [← butterfly_elements hj] at hi
      rw [StageDone]
      omega)
  rw [bflyAt_eq_set b p inverse k j x hs, hfresh _ (.inl rfl), hfresh _ (.inr rfl)]
  have hother : ∀ i : Nat, ¬(i = k * 2 ^ (s + 1) + j ∨ i = k * 2 ^ (s + 1) + j + 2 ^ s) → ∀ y z : ComplexValue,
      cnth ((x.set (k * 2 ^ (s + 1) + j) y).set (k * 2 ^ (s + 1) + j + 2 ^ s) z) i = cnth x i := fun i hi y z => by
    rw [not_or] at hi
    rw [cnth_set_ne _ _ hi.2, cnth_set_ne _ _ hi.1]
  refine ⟨by simpa using h.length, fun i hi hd => ?_, fun i hd => ?_⟩
  · by_cases hpair : i = k * 2 ^ (s + 1) + j ∨ i = k * 2 ^ (s + 1) + j + 2 ^ s
    · rcases hpair with rfl | rfl
      · rw [cnth_fftStage_upper b p inverse x0 hj hi, cnth_set_ne _ _ (by have := Nat.two_pow_pos s; omega),
          cnth_set_self _ (h.length ▸ hi)]
      · rw [cnth_fftStage_lower b p inverse x0 hj hi, cnth_set_self _ (by rw [List.length_set, h.length]; exact hi)]
    · rw [hother i hpair]
      exact h.done i hi (((hnext i).1 hd).resolve_right hpair)
  · rw [hnext, not_or] at hd
    rw [hother i hd.2]
    exact h.left i hd.1

/-- A group whose butterflies are all done. -/
theorem group (h : StagePartly b p o inverse s x0 k (2 ^ s) x) : StagePartly b p o inverse s x0 (k + 1) 0 x := by
  have hiff : ∀ i : Nat, StageDone s (k + 1) 0 i ↔ StageDone s k (2 ^ s) i := fun i => by
    have hlt := Nat.mod_lt i (Nat.two_pow_pos s)
    rw [StageDone, StageDone]
    omega
  exact ⟨h.length, fun i hi hd => h.done i hi ((hiff i).1 hd), fun i hd => h.left i (mt (hiff i).2 hd)⟩

/-- The loop over the butterflies of a group. -/
theorem groupLoop (h : StagePartly b p o inverse s x0 k 0 x) (hs : s < o) (hk : k < 2 ^ o / 2 ^ (s + 1)) :
    StagePartly b p o inverse s x0 (k + 1) 0 ((List.range (2 ^ (s + 1) / 2)).foldl
      (fun x j => Machine.bflyAt b p o inverse (2 ^ (s + 1)) (k * 2 ^ (s + 1)) j x) x) := by
  rw [pow_succ, Nat.mul_div_cancel _ Nat.two_pos, ← pow_succ]
  exact group (foldl_range_induction (P := StagePartly b p o inverse s x0 k) _ h fun j y hj hy => hy.bflyAt hs hk hj)

end StagePartly

/-- The loops over the groups and the butterflies of a stage carry it out. -/
theorem stage_loops (b : Config.Build) (p : Prec) {o s : Nat} (inverse : Bool) {x : List ComplexValue} (hs : s < o)
    (hx : x.length = 2 ^ o) :
    (List.range (2 ^ o / 2 ^ (s + 1))).foldl (fun x k => (List.range (2 ^ (s + 1) / 2)).foldl
      (fun x j => bflyAt b p o inverse (2 ^ (s + 1)) (k * 2 ^ (s + 1)) j x) x) x =
      fftStage b p o inverse (s + 1) x := by
  have hstart : StagePartly b p o inverse s x 0 0 x :=
    ⟨hx, fun i _ hd => (by rcases hd with hd | ⟨-, hd⟩ <;> exact absurd hd (Nat.not_lt_zero _)),
      fun _ _ => rfl⟩
  have hall := foldl_range_induction (P := fun k => StagePartly b p o inverse s x k 0) _ hstart
    fun k y hk hy => hy.groupLoop hs hk
  refine cnth_ext hall.length (fftStage_length ..) fun i hi => hall.done i hi (.inl ?_)
  exact Nat.div_lt_div_of_lt_of_dvd (pow_dvd_pow 2 hs) hi

/-! ## The schedule -/

/-- Settles O35: the first loop is the bit-reversed copy (`bitReversal_loop`), and each turn of the loop over the
stages carries out one stage (`stage_loops`). -/
theorem fftIsTheSchedule : Obligations.FftIsTheSchedule := by
  intro b p o inverse xs _
  rw [fftLoops, bitReversal_loop]
  refine (foldl_range_induction
    (P := fun n (x : List ComplexValue) => x.length = 2 ^ o ∧
      (List.range n).foldl (fun ys k => fftStage b p o inverse (k + 1) ys) (bitReversed o xs) = x)
    o ⟨bitReversed_length o xs, rfl⟩ ?_).2
  rintro s x hs ⟨hx, hstages⟩
  rw [stage_loops b p inverse hs hx, List.range_succ, List.foldl_append, hstages]
  exact ⟨fftStage_length .., rfl⟩

end Sys2Proof.Machine
end

section
/-! SUPPORT. A unit command that stores one buffer of the arena: it runs when its checks hold, the buffer holds what
was stored, and nothing else but the plan bits and the log may differ. -/

namespace Sys2Proof.Machine

/-! One theorem is checked after the other: checked side by side, they take a thread each. -/
set_option Elab.async false

/-! ## Another buffer -/

/-- A part of a channel that the channel put in its place has as well. -/
theorem chan_setChan_part {α : Type} (F : Channel → α) {s : State} {c : Nat} {ch : Channel} (d : Nat)
    (h : d = c → F ch = F (s.chan c)) : F ((s.setChan c ch).chan d) = F (s.chan d) := by
  by_cases hd : d = c
  · subst hd
    by_cases hl : d < s.chans.length
    · rw [chan_setChan_self s d ch hl, h rfl]
    · rw [setChan_out s d ch (Nat.le_of_not_lt hl)]
  · rw [chan_setChan_ne s c d ch hd]

/-- A buffer that exists keeps its elements when another one is written. -/
theorem getBuf_setBuf_ne {u : State} (s : State) {r r' : BufRef} (x : Buf) (hr : refValid u r = true)
    (hr' : refValid u r' = true) (hne : r' ≠ r) : getBuf (setBuf s r x) r' = getBuf s r' := by
  cases r with
  | tb c i =>
    cases r' with
    | tb d j =>
      refine chan_setChan_part (fun ch => if j = 0 then ch.tb0 else ch.tb1) d fun hd => ?_
      have hij : j ≠ i := fun h => hne (by rw [hd, h])
      simp only [refValid, Bool.and_eq_true, decide_eq_true_eq] at hr hr'
      obtain ⟨-, hi⟩ := hr
      obtain ⟨-, hj⟩ := hr'
      obtain ⟨rfl, rfl⟩ | ⟨rfl, rfl⟩ : j = 0 ∧ i = 1 ∨ j = 1 ∧ i = 0 := by omega
      · rfl
      · rfl
    | ring d j => exact chan_setChan_part (fun ch => ch.ring.getD j []) d fun _ => by split <;> rfl
    | acc d => exact chan_setChan_part (fun ch => ch.acc) d fun _ => by split <;> rfl
    | coef d j => exact chan_setChan_part (fun ch => ch.coef.getD j []) d fun _ => by split <;> rfl
    | scr | invalid => rfl
  | ring c i =>
    cases r' with
    | tb d j => exact chan_setChan_part (fun ch => if j = 0 then ch.tb0 else ch.tb1) d fun _ => rfl
    | ring d j =>
      refine chan_setChan_part (fun ch => ch.ring.getD j []) d fun hd => ?_
      have hij : i ≠ j := fun h => hne (by rw [hd, h])
      simp only [List.getD_eq_getElem?_getD, List.getElem?_set_ne hij]
    | acc d => exact chan_setChan_part (fun ch => ch.acc) d fun _ => rfl
    | coef d j => exact chan_setChan_part (fun ch => ch.coef.getD j []) d fun _ => rfl
    | scr | invalid => rfl
  | acc c =>
    cases r' with
    | tb d j => exact chan_setChan_part (fun ch => if j = 0 then ch.tb0 else ch.tb1) d fun _ => rfl
    | ring d j => exact chan_setChan_part (fun ch => ch.ring.getD j []) d fun _ => rfl
    | acc d => exact chan_setChan_part (fun ch => ch.acc) d fun hd => absurd (congrArg BufRef.acc hd) hne
    | coef d j => exact chan_setChan_part (fun ch => ch.coef.getD j []) d fun _ => rfl
    | scr | invalid => rfl
  | scr i =>
    cases r' with
    | scr j =>
      have hij : i ≠ j := fun h => hne (by rw [h])
      simp only [getBuf, setBuf, List.getD_eq_getElem?_getD, List.getElem?_set_ne hij]
    | tb | ring | acc | coef | invalid => rfl
  | coef | invalid => rfl

/-! ## The buffer stored -/

/-- The state's arena: every buffer of `t` is that of `s`. -/
structure SameArena (s t : State) : Prop where
  chans : t.chans = s.chans
  scr : t.scr = s.scr

/-- Buffers are read from the arena. -/
theorem SameArena.getBuf {s t : State} (h : SameArena s t) (r : BufRef) : getBuf t r = getBuf s r := by
  cases r <;> simp only [Machine.getBuf, State.chan, h.chans, h.scr]

/-- Whether the state has room for a buffer depends on the arena alone. -/
theorem SameArena.roomOk {s t : State} (h : SameArena s t) {r : BufRef} (hr : RoomOk s r) : RoomOk t r := by
  cases r with
  | tb | ring | acc | scr => simpa only [RoomOk, State.chan, h.chans, h.scr] using hr
  | coef | invalid => exact hr.elim

/-- A plan's creation leaves the arena alone. -/
theorem sameArena_usePlan (b : Config.Build) (s : State) (inv inpl : Bool) : SameArena s (usePlan b s inv inpl) :=
  ⟨usePlan_chans .., usePlan_scr ..⟩

/-- There is an engine where a buffer exists. -/
theorem built_of_refValid {s : State} {r : BufRef} (h : refValid s r = true) : s.fsm ≠ .uninit := by
  intro hf
  cases r <;> simp [refValid, hf] at h

/-- An engine has room for every buffer that a unit command may write. -/
theorem EngineInv.roomOk {b : Config.Build} {s : State} (h : EngineInv b s) {r : BufRef} (hv : refValid s r = true)
    (hw : refWritable r = true) : RoomOk s r := by
  have i := h.built (built_of_refValid hv)
  have hchan : ∀ c : Nat, c < s.channels → c < s.chans.length := fun c hc => by
    rw [h.chans]
    exact hc.trans_le i.channelsHigh
  cases r <;> simp only [refValid, Bool.and_eq_true, decide_eq_true_eq] at hv
  case tb c j =>
    obtain ⟨⟨-, hc⟩, -⟩ := hv
    exact hchan c hc
  case ring c j =>
    obtain ⟨⟨-, hc⟩, hj⟩ := hv
    exact ⟨hchan c hc, (i.channel c hc).ringCount ▸ hj⟩
  case acc c =>
    obtain ⟨-, hc⟩ := hv
    exact hchan c hc
  case scr j =>
    obtain ⟨-, hj⟩ := hv
    exact hj.trans_eq i.scrCount.symm
  case coef => cases hw
  case invalid => cases hw

/-- A buffer stored is what the state then has there. -/
theorem getBuf_storeReals_self {s : State} {r : BufRef} (xs : List FReal) (hr : Room s r) :
    getBuf (storeReals s r xs) r = packReals s.lat.prec s.freeCtr 0 xs :=
  (SameArena.getBuf ⟨rfl, rfl⟩ r).trans (hr _)

/-- Each element of a store holds its real. -/
theorem stored_storeReals {s : State} {r : BufRef} {xs : List FReal} (hr : Room s r) {e : Nat} (he : e < xs.length) :
    Stored (storeReals s r xs) r e (nth xs e) := by
  refine ⟨Config.nanCode s.freeCtr (0 + e), ?_⟩
  rw [elemBits, getBuf_storeReals_self xs hr, packReals_getD _ _ _ _ _ he, storeReals_lat, nth,
    List.getD_eq_getElem _ _ he]

/-- Element `e` of a buffer as a real. -/
theorem nth_loadReals {s : State} (r : BufRef) {e : Nat} (he : e < s.lat.size) :
    nth (loadReals s r) e = elem s r e := by
  have hlen : e < (fitTo s.lat.size (getBuf s r)).length := (fitTo_length _ _).symm ▸ he
  rw [nth, loadReals, List.getD_eq_getElem _ _ (by rwa [List.length_map]), List.getElem_map, elem, elemBits,
    ← fitTo_getD s.lat.size (getBuf s r) e he, List.getD_eq_getElem _ _ hlen]

/-! ## The command -/

/-- A command of the work class alone leaves everything but the arena buffers it writes, the plan bits, the log and
the result registers. -/
theorem unitFrame_of_writes {b : Config.Build} {s t : State} {written : List BufRef} (h : Writes b [] s t)
    (hbuf : SameBuffersBut s t written) : UnitFrame s t written := by
  have hfsm : t.fsm = s.fsm := h.same _ fun w u v hw hu => by
    obtain rfl : w = .work := hw.resolve_right List.not_mem_nil
    cases hu with
    | log r => exact logEvent_fsm ..
    | _ => rfl
  have hbooks : SameBooks s t := h.same_chan Channel.book List.not_mem_nil fun w ch ch' hw hu => by
    obtain rfl : w = .work := hw.resolve_right List.not_mem_nil
    cases hu with
    | keep => rfl
    | buffers hbook => exact hbook
  obtain ⟨hregs, hport⟩ := h.sameHostSide
  obtain ⟨hsetup, -⟩ := h.setup_eq List.not_mem_nil
  obtain ⟨hcounters, -⟩ := h.counters_eq List.not_mem_nil List.not_mem_nil List.not_mem_nil
  simp only [State.setup, State.counters, Prod.mk.injEq] at hsetup hcounters
  obtain ⟨hlat, htable, hspacing, hvec⟩ := hsetup
  obtain ⟨hblock, hsel⟩ := hcounters
  exact ⟨hregs, hport, ⟨hfsm, hlat, hblock, hsel, htable, hspacing, hvec⟩, h.sameMemory List.not_mem_nil, hbooks,
    hbuf⟩

/-- A command whose checks hold, in an engine. -/
theorem exec_succeeds {i : Instr} {s effect : State} {cs : List Check}
    (hexec : exec i s = .next (whenConstructed s (checked s cs effect))) (hs : s.fsm ≠ .uninit)
    (hpass : ∀ c ∈ cs, c.fails = false) : exec i s = .next effect := by
  rw [hexec, whenConstructed_pass s _ hs, checked_pass s effect hpass]

/-- The checks of a valid source and a writable destination. -/
theorem source_dst_pass {s : State} {src dst : Word} (hsrc : validId s src = true) (hdst : writableId s dst = true) :
    ∀ c ∈ [checkValid s src, checkWritable s dst], c.fails = false := by
  simp [checkValid, checkWritable, hsrc, hdst]

/-- A unit command that stores reals to its destination, after at most a change of the plan bits and the log: how it
ends, what it leaves and what it stores. -/
theorem unit_store {b : Config.Build} {i : Instr} {s u : State} {xs : List FReal} (hs : EngineInv b s)
    (hdst : writableId s s.op.dst = true) (hu : SameArena s u) (hi : classesOf i = [])
    (hexec : exec i s = .next (succeed (storeReals u (bufRef s.op.dst) xs) 0#32)) :
    let t := succeed (storeReals u (bufRef s.op.dst) xs) 0#32
    Ends t .ok 0#32 ∧ UnitFrame s t [bufRef s.op.dst] ∧
      ∀ e : Nat, e < xs.length → Stored t (bufRef s.op.dst) e (nth xs e) := by
  obtain ⟨hv, hw⟩ := Bool.and_eq_true_iff.1 hdst
  rw [exec_eq_execWith] at hexec
  have hwrites := writes_of_exec hexec
  rw [hi] at hwrites
  refine ⟨ends_succeed _ _, unitFrame_of_writes hwrites fun r hr hne => ?_, fun e he => ?_⟩
  · rw [List.mem_singleton] at hne
    exact (SameArena.getBuf ⟨rfl, rfl⟩ r).trans ((getBuf_setBuf_ne u _ hv hr hne).trans (hu.getBuf r))
  · obtain ⟨code, hcode⟩ := stored_storeReals (hu.roomOk (hs.roomOk hv hw)).room he
    have hsame : SameArena (storeReals u (bufRef s.op.dst) xs) (succeed (storeReals u (bufRef s.op.dst) xs) 0#32) :=
      ⟨rfl, rfl⟩
    refine ⟨code, Eq.trans ?_ hcode⟩
    rw [elemBits, hsame.getBuf, elemBits]

/-- A store to the arena leaves the log. -/
theorem sameLog_store (s : State) (r : BufRef) (xs : List FReal) (aux : Word) :
    SameLog s (succeed (storeReals s r xs) aux) := ⟨storeReals_log .., storeReals_logRd .., storeReals_logLost ..⟩

/-- A store to the arena leaves the plan bits. -/
theorem plan_store (s : State) (r : BufRef) (xs : List FReal) (aux : Word) :
    (succeed (storeReals s r xs) aux).plan = s.plan := storeReals_plan ..

/-! ## The plan -/

/-- The order of an engine is within the limits of its build. -/
theorem EngineInv.order_le {b : Config.Build} {s : State} (h : EngineInv b s) (hf : s.fsm ≠ .uninit) :
    s.lat.order ≤ b.maxOrder := by
  obtain ⟨k, -, hk, hlen⟩ := (h.built hf).blockLen
  have hsize : s.lat.size = 2 ^ (k + 1) := by rw [Latched.size, hlen, pow_succ, Nat.mul_comm]
  rwa [Latched.order, hsize, Nat.log2_two_pow]

/-- `N = 2^o` in an engine. -/
theorem EngineInv.size_eq {b : Config.Build} {s : State} (h : EngineInv b s) (hf : s.fsm ≠ .uninit) :
    s.lat.size = 2 ^ s.lat.order := ((engineInv_iff_shape hf).1 h).config.size_eq

/-- A block has at least one sample. -/
theorem EngineInv.blockLen_pos {b : Config.Build} {s : State} (h : EngineInv b s) (hf : s.fsm ≠ .uninit) :
    0 < s.lat.blockLen.toNat := by
  obtain ⟨k, -, -, hlen⟩ := (h.built hf).blockLen
  exact hlen ▸ Nat.two_pow_pos k

/-- A record logged whatever the plan bits are. -/
theorem sameLog_logEvent_plan (b : Config.Build) (s : State) (p : PlanValid) (r : LogRecord) :
    SameLog (logEvent b s r) (logEvent b { s with plan := p } r) := by
  rcases logEvent_cases b s r with ⟨hl, h⟩ | ⟨hl, h⟩
  · rw [h, logEvent, if_pos hl]
    exact ⟨rfl, rfl, rfl⟩
  · rw [h, logEvent, if_neg (Nat.not_lt.2 hl)]
    exact ⟨rfl, rfl, rfl⟩

/-- The bits of a plan word with the bit of an order set. -/
theorem getLsbD_setOrder (w : Word) {o : Nat} (ho : o < 32) (i : Nat) :
    (w ||| BitVec.ofNat 32 (2 ^ o)).getLsbD i = (decide (i = o) || w.getLsbD i) := by
  rw [BitVec.getLsbD_or, BitVec.getLsbD_ofNat, Nat.testBit_two_pow, Bool.or_comm]
  congr 1
  by_cases h : i = o
  · simp [h, ho]
  · simp [h, Ne.symm h]

/-- What `use_plan` leaves is what R146 says, and what follows keeps the plan bits and the log. -/
theorem planUsed_of_usePlan {b : Config.Build} {s t : State} {inv inpl : Bool} (ho : s.lat.order < 32)
    (hplan : t.plan = (usePlan b s inv inpl).plan) (hlog : SameLog (usePlan b s inv inpl) t) :
    PlanUsed b s t inv inpl := by
  rcases usePlan_cases b s inv inpl with ⟨hbit, hu⟩ | ⟨hbit, hu⟩
  · rw [hu] at hplan hlog
    exact ⟨fun _ => ⟨hplan, hlog⟩, fun h => absurd (hbit.symm.trans h) (by decide)⟩
  · rw [hu] at hplan hlog
    rw [logEvent_plan] at hplan
    refine ⟨fun h => absurd (hbit.symm.trans h) (by decide),
      fun _ => ⟨fun i => ?_, fun inv' inpl' hne => ?_, ?_⟩⟩
    · rw [hplan, planWord_setPlanWord, if_pos ⟨rfl, rfl⟩, getLsbD_setOrder _ ho]
    · rw [hplan, planWord_setPlanWord, if_neg hne]
    · have hcreated := sameLog_logEvent_plan b s (setPlanWord s.plan inv inpl
        (planWord s.plan inv inpl ||| BitVec.ofNat 32 (2 ^ s.lat.order))) (planRecord inv inpl s.lat.order)
      exact ⟨hlog.log.trans hcreated.log, hlog.logRd.trans hcreated.logRd, hlog.logLost.trans hcreated.logLost⟩

end Sys2Proof.Machine
end

section
/-! `MIX_AND_SCALE` and the re-ordering (`40_transform.md` R149 to R152): where each element goes, the weighted sum as a
recursion over the inputs, and the statements about both modes. -/

namespace Sys2Proof.Machine

/-! One theorem is checked after the other: checked side by side, they take a thread each. -/
set_option Elab.async false

/-! ## The re-ordering -/

section
variable {m k : Nat} (xs : List FReal)

/-- The first element, half-complex to internal (R151). -/
theorem nth_reorderIn_zero (hm : 1 ≤ m) : nth (reorderIn (2 * m) xs) 0 = nth xs 0 := by
  rw [reorderIn, nth_map_range _ _ _ (by omega), if_pos rfl]

/-- The Nyquist bin, half-complex to internal (R151). -/
theorem nth_reorderIn_one (hm : 1 ≤ m) : nth (reorderIn (2 * m) xs) 1 = nth xs m := by
  rw [reorderIn, nth_map_range _ _ _ (by omega), if_neg Nat.one_ne_zero, if_pos rfl,
    Nat.mul_div_cancel_left m Nat.two_pos]

/-- A real part, half-complex to internal (R151). -/
theorem nth_reorderIn_even (hk : 1 ≤ k) (hkm : k < m) : nth (reorderIn (2 * m) xs) (2 * k) = nth xs k := by
  rw [reorderIn, nth_map_range _ _ _ (by omega), if_neg (by omega), if_neg (by omega), if_pos (by omega),
    Nat.mul_div_cancel_left k Nat.two_pos]

/-- An imaginary part, half-complex to internal (R151). -/
theorem nth_reorderIn_odd (hk : 1 ≤ k) (hkm : k < m) :
    nth (reorderIn (2 * m) xs) (2 * k + 1) = nth xs (2 * m - k) := by
  rw [reorderIn, nth_map_range _ _ _ (by omega), if_neg (by omega), if_neg (by omega), if_neg (by omega),
    show (2 * k + 1) / 2 = k by omega]

/-- The first element, internal to half-complex (R152). -/
theorem nth_reorderOut_zero (hm : 1 ≤ m) : nth (reorderOut (2 * m) xs) 0 = nth xs 0 := by
  rw [reorderOut, nth_map_range _ _ _ (by omega), if_pos rfl]

/-- The Nyquist bin, internal to half-complex (R152). -/
theorem nth_reorderOut_half (hm : 1 ≤ m) : nth (reorderOut (2 * m) xs) m = nth xs 1 := by
  rw [reorderOut, nth_map_range _ _ _ (by omega), if_neg (by omega), if_pos (by omega)]

/-- A real part, internal to half-complex (R152). -/
theorem nth_reorderOut_low (hk : 1 ≤ k) (hkm : k < m) : nth (reorderOut (2 * m) xs) k = nth xs (2 * k) := by
  rw [reorderOut, nth_map_range _ _ _ (by omega), if_neg (by omega), if_neg (by omega), if_pos (by omega)]

/-- An imaginary part, internal to half-complex (R152). -/
theorem nth_reorderOut_high (hk : 1 ≤ k) (hkm : k < m) :
    nth (reorderOut (2 * m) xs) (2 * m - k) = nth xs (2 * k + 1) := by
  rw [reorderOut, nth_map_range _ _ _ (by omega), if_neg (by omega), if_neg (by omega), if_neg (by omega),
    show 2 * m - (2 * m - k) = k by omega]

end

/-- A place of a half-complex buffer of `2m` elements is the first, the Nyquist bin's, a real part's or an imaginary
part's (R140). -/
theorem halfComplex_place {m i : Nat} (hi : i < 2 * m) :
    i = 0 ∨ i = m ∨ (1 ≤ i ∧ i < m) ∨ ∃ k : Nat, 1 ≤ k ∧ k < m ∧ i = 2 * m - k := by
  by_cases h : m < i
  · exact .inr (.inr (.inr ⟨2 * m - i, by omega, by omega, by omega⟩))
  · omega

/-- `reorder_out` undoes `reorder_in` (R152). -/
theorem reorderOut_reorderIn {m : Nat} {xs : List FReal} (hm : 1 ≤ m) (hx : xs.length = 2 * m) :
    reorderOut (2 * m) (reorderIn (2 * m) xs) = xs := by
  refine nth_ext (reorder_length .output _ _) hx fun i hi => ?_
  obtain rfl | rfl | ⟨hk, hkm⟩ | ⟨k, hk, hkm, rfl⟩ := halfComplex_place hi
  · rw [nth_reorderOut_zero _ hm, nth_reorderIn_zero _ hm]
  · rw [nth_reorderOut_half _ hm, nth_reorderIn_one _ hm]
  · rw [nth_reorderOut_low _ hk hkm, nth_reorderIn_even _ hk hkm]
  · rw [nth_reorderOut_high _ hk hkm, nth_reorderIn_odd _ hk hkm]

/-- Settles O32: the elements of `reorder_out` one by one, and each place of a half-complex buffer goes to its place in
the internal layout and back. -/
theorem reorderRoundTrip : Obligations.ReorderRoundTrip := by
  intro m xs hm hx
  exact ⟨nth_reorderOut_zero xs hm, nth_reorderOut_half xs hm,
    fun k hk hkm => ⟨nth_reorderOut_low xs hk hkm, nth_reorderOut_high xs hk hkm⟩, reorderOut_reorderIn hm hx⟩

/-! ## The weighted sum -/

/-- The product of one more input is added last (R150). -/
theorem weightedSum_append (p : Prec) {ts : List (FReal × FReal)} (hts : ts ≠ []) (u : FReal × FReal) :
    weightedSum p (ts ++ [u]) = fadd p (weightedSum p ts) (fmul p u.1 u.2) := by
  cases ts with
  | nil => exact absurd rfl hts
  | cons t ts => simp only [List.cons_append, weightedSum, List.foldl_append, List.foldl_cons, List.foldl_nil]

/-- Input `j` at element `e`, with its weight (R149). -/
def mixInput (s : State) (e j : Nat) : FReal × FReal :=
  (cvt s.lat.prec (unpack .p64 (s.op.scales.getD j 0#64)), elem s (bufRef (s.op.sources.getD j 0#32)) e)

/-- The weighted sum of the first inputs is R150's recursion. -/
theorem weightedSum_mixInput (s : State) (e n : Nat) :
    weightedSum s.lat.prec ((List.range n).map (mixInput s e)) = mixedElem s n e := by
  induction n with
  | zero => rfl
  | succ n ih =>
    cases n with
    | zero => rfl
    | succ n =>
      have hne : (List.range (n + 1)).map (mixInput s e) ≠ [] := by simp
      rw [List.range_succ, List.map_append, List.map_singleton, weightedSum_append _ hne, ih]
      rfl

/-- The weights and values of up to four inputs at an element, in input order. -/
theorem zip_inputs (s : State) {n e : Nat} (hn : n ≤ 4) (he : e < s.lat.size) :
    ((s.op.scales.take n).map fun w => cvt s.lat.prec (unpack .p64 w)).zip
      (((s.op.sources.take n).map fun id => loadReals s (bufRef id)).map fun xs => nth xs e) =
      (List.range n).map (mixInput s e) := by
  have hsources : (s.op.sources.take n).length = n := length_take_sources s.op hn
  have hscales : (s.op.scales.take n).length = n := List.length_take_of_le hn
  refine List.ext_getElem (by simp only [List.length_zip, List.length_map, hsources, hscales, List.length_range,
    min_self]) fun j hj _ => ?_
  have hjn : j < n := by simpa only [List.length_zip, List.length_map, hsources, hscales, min_self] using hj
  have hj4 : j < 4 := hjn.trans_le hn
  simp only [List.getElem_zip, List.getElem_map, List.getElem_take, List.getElem_range, nth_loadReals _ he, mixInput]
  rw [List.getD_eq_getElem s.op.scales _ hj4, List.getD_eq_getElem s.op.sources _ hj4]
  rfl

/-- `mixed(e)` (R150). -/
theorem nth_mixed (s : State) {n e : Nat} (hn : n ≤ 4) (he : e < s.lat.size) :
    nth (mixed s.lat.prec s.lat.size ((s.op.scales.take n).map fun w => cvt s.lat.prec (unpack .p64 w))
      ((s.op.sources.take n).map fun id => loadReals s (bufRef id))) e = mixedElem s n e := by
  rw [mixed, nth_map_range _ _ _ he, zip_inputs s hn he, weightedSum_mixInput]

/-! ## The commands -/

/-- One to four valid inputs and a writable destination that is none of them (R149). -/
structure MixOperands (s : State) (n : Nat) : Prop where
  one_le : 1 ≤ n
  le_four : n ≤ 4
  source : ∀ j : Nat, j < n → validId s (s.op.sources.getD j 0#32) = true ∧ s.op.dst ≠ s.op.sources.getD j 0#32
  dst : writableId s s.op.dst = true

/-- Such operands pass the checks. -/
theorem MixOperands.pass {s : State} {n : Nat} (h : MixOperands s n) : ∀ c ∈ mixChecks s n, c.fails = false := by
  have hin : ∀ id ∈ s.op.sources.take n, validId s id = true ∧ s.op.dst ≠ id := fun id hid => by
    obtain ⟨j, hj, rfl⟩ := List.getElem_of_mem hid
    have hjn : j < n := (length_take_sources s.op h.le_four) ▸ hj
    rw [← List.getD_eq_getElem _ 0#32 hj, getD_take_sources s.op hjn]
    exact h.source j hjn
  intro c hc
  rw [mixChecks, List.mem_cons, List.mem_append, List.mem_cons, List.mem_singleton] at hc
  obtain rfl | hc | rfl | rfl := hc
  · exact mix_count_pass h.one_le h.le_four
  · obtain ⟨id, hid, rfl⟩ := List.mem_map.1 hc
    obtain ⟨hvalid, -⟩ := hin id hid
    exact congrArg not hvalid
  · exact congrArg not h.dst
  · refine Bool.eq_false_iff.2 fun hmem => ?_
    obtain ⟨-, hne⟩ := hin _ (List.contains_iff_mem.1 hmem)
    exact hne rfl

/-- `MIX_AND_SCALE` in either mode: where the re-ordering puts element `e`, the destination holds the sum of element
`e`, and nothing else changes. -/
theorem mix_result {i : Instr} {s : State} {mode : MixMode} {n : Nat} (hexec : exec i s = .next (mixAndScale s mode n))
    (hi : classesOf i = []) (hs : EngineInv Config.build s) (hf : s.fsm ≠ .uninit) (h : MixOperands s n) :
    ∃ t : State, exec i s = .next t ∧ Ends t .ok 0#32 ∧ UnitFrame s t [bufRef s.op.dst] ∧ t.plan = s.plan ∧
      SameLog s t ∧ ∀ d e : Nat, d < s.lat.size → e < s.lat.size →
        (∀ xs : List FReal, nth (reorder mode s.lat.size xs) d = nth xs e) →
        Stored t (bufRef s.op.dst) d (mixedElem s n e) := by
  have hnext := exec_succeeds hexec hf h.pass
  obtain ⟨hends, hframe, hstored⟩ := unit_store hs h.dst ⟨rfl, rfl⟩ hi hnext
  refine ⟨_, hnext, hends, hframe, plan_store .., sameLog_store .., fun d e hd he hmove => ?_⟩
  have hd' := hstored d (by rwa [mixResult_length])
  rwa [mixResult, hmove, nth_mixed s h.le_four he] at hd'

/-- `N/2` is the block length. -/
theorem half_size (l : Latched) : l.size / 2 = l.blockLen.toNat := Nat.mul_div_cancel_left _ Nat.two_pos

/-- Settles O30: the elements of `reorder_in` one by one, each the sum of R150 (`mix_result`). -/
theorem mixInResult : Obligations.MixInResult := by
  intro s n hs hf hn1 hn hsrc hdst
  obtain ⟨t, hnext, hends, hframe, hplan, hlog, hput⟩ :=
    mix_result (i := .mixAndScaleIn n) (mode := .input) rfl rfl hs hf ⟨hn1, hn, hsrc, hdst⟩
  have hl : 1 ≤ s.lat.blockLen.toNat := hs.blockLen_pos hf
  have hsize : s.lat.size = 2 * s.lat.blockLen.toNat := rfl
  rw [half_size]
  refine ⟨t, hnext, hends, hframe, hplan, hlog, ?_, ?_, fun k hk hkm => ⟨?_, ?_⟩⟩
  · exact hput _ _ (by omega) (by omega) fun xs => nth_reorderIn_zero xs hl
  · exact hput _ _ (by omega) (by omega) fun xs => nth_reorderIn_one xs hl
  · exact hput _ _ (by omega) (by omega) fun xs => nth_reorderIn_even xs hk hkm
  · exact hput _ _ (by omega) (by omega) fun xs => nth_reorderIn_odd xs hk hkm

/-- Settles O31: the elements of `reorder_out` one by one, each the sum of R150 (`mix_result`). -/
theorem mixOutResult : Obligations.MixOutResult := by
  intro s n hs hf hn1 hn hsrc hdst
  obtain ⟨t, hnext, hends, hframe, hplan, hlog, hput⟩ :=
    mix_result (i := .mixAndScaleOut n) (mode := .output) rfl rfl hs hf ⟨hn1, hn, hsrc, hdst⟩
  have hl : 1 ≤ s.lat.blockLen.toNat := hs.blockLen_pos hf
  have hsize : s.lat.size = 2 * s.lat.blockLen.toNat := rfl
  rw [half_size]
  refine ⟨t, hnext, hends, hframe, hplan, hlog, ?_, ?_, fun k hk hkm => ⟨?_, ?_⟩⟩
  · exact hput _ _ (by omega) (by omega) fun xs => nth_reorderOut_zero xs hl
  · exact hput _ _ (by omega) (by omega) fun xs => nth_reorderOut_half xs hl
  · exact hput _ _ (by omega) (by omega) fun xs => nth_reorderOut_low xs hk hkm
  · exact hput _ _ (by omega) (by omega) fun xs => nth_reorderOut_high xs hk hkm

end Sys2Proof.Machine
end

section
/-! `TIME_TO_FREQ` and `FREQ_TO_TIME` (`40_transform.md` R146 to R148): the half-complex layout element by element, and
the statements about both commands. -/

namespace Sys2Proof.Machine

/-! One theorem is checked after the other: checked side by side, they take a thread each. -/
set_option Elab.async false

/-! ## The half-complex layout -/

/-- A real part of the half-complex output (R140, R147). -/
theorem nth_forwardReals_low (b : Config.Build) (p : Prec) {o k : Nat} (xs : List FReal) (hk : k ≤ 2 ^ o / 2)
    (hko : k < 2 ^ o) :
    nth (forwardReals b p o xs) k =
      (cnth (fft b p o false ((List.range (2 ^ o)).map fun n => (nth xs n, FReal.zero))) k).1 := by
  rw [forwardReals, nth_map_range _ _ _ hko, if_pos hk]

/-- An imaginary part of the half-complex output (R140, R147). -/
theorem nth_forwardReals_high (b : Config.Build) (p : Prec) {o k : Nat} (xs : List FReal) (hk : 1 ≤ k)
    (hko : k < 2 ^ o / 2) :
    nth (forwardReals b p o xs) (2 ^ o - k) =
      (cnth (fft b p o false ((List.range (2 ^ o)).map fun n => (nth xs n, FReal.zero))) k).2 := by
  rw [forwardReals, nth_map_range _ _ _ (by omega), if_neg (by omega), Nat.sub_sub_self (by omega)]

/-- The time samples that a buffer holds, as complex values (R147). -/
theorem timeInput_loadReals (s : State) (r : BufRef) :
    ((List.range s.lat.size).map fun n => (nth (loadReals s r) n, FReal.zero)) =
      (List.range s.lat.size).map fun n => (elem s r n, FReal.zero) :=
  List.map_congr_left fun n hn => by rw [nth_loadReals r (List.mem_range.1 hn)]

/-- The Hermitian spectrum that a half-complex buffer holds (R148). -/
theorem hermitian_loadReals {s : State} (r : BufRef) (h : s.lat.size = 2 ^ s.lat.order) :
    hermitian s.lat.order (loadReals s r) = (List.range s.lat.size).map fun i =>
      if i = 0 ∨ i = s.lat.size / 2 then (elem s r i, FReal.zero)
      else if i < s.lat.size / 2 then (elem s r i, elem s r (s.lat.size - i))
      else (elem s r (s.lat.size - i), fneg (elem s r i)) := by
  rw [hermitian, ← h]
  refine List.map_congr_left fun i hi => ?_
  have hlt : i < s.lat.size := List.mem_range.1 hi
  by_cases hreal : i = 0 ∨ i = s.lat.size / 2
  · simp only [if_pos hreal, nth_loadReals r hlt]
  · have hmirror : s.lat.size - i < s.lat.size := by omega
    simp only [if_neg hreal, nth_loadReals r hlt, nth_loadReals r hmirror]

/-! ## The commands -/

/-- A transform with valid operands: how it ends, what it leaves, the plan it uses and the reals it stores. -/
theorem transform_result {i : Instr} {s : State} {inv : Bool} {xs : List FReal}
    (hexec : exec i s = .next (whenConstructed s (checked s [checkValid s s.op.src0, checkWritable s s.op.dst]
      (succeed (storeReals (usePlan Config.build s inv (decide (s.op.dst = s.op.src0))) (bufRef s.op.dst) xs) 0#32))))
    (hi : classesOf i = []) (hs : EngineInv Config.build s) (hsrc : validId s s.op.src0 = true)
    (hdst : writableId s s.op.dst = true) :
    ∃ t : State, exec i s = .next t ∧ Ends t .ok 0#32 ∧ UnitFrame s t [bufRef s.op.dst] ∧
      PlanUsed Config.build s t inv (decide (s.op.dst = s.op.src0)) ∧
      ∀ e : Nat, e < xs.length → Stored t (bufRef s.op.dst) e (nth xs e) := by
  have hf : s.fsm ≠ .uninit := built_of_refValid hsrc
  have hnext := exec_succeeds hexec hf (source_dst_pass hsrc hdst)
  obtain ⟨hends, hframe, hstored⟩ := unit_store hs hdst (sameArena_usePlan ..) hi hnext
  have horder : s.lat.order < 32 := Nat.lt_succ_of_le ((hs.order_le hf).trans Config.build_legal.orders.2)
  exact ⟨_, hnext, hends, hframe, planUsed_of_usePlan horder (plan_store ..) (sameLog_store ..), hstored⟩

/-- Settles O33: `forwardReals` element by element, of the transform that O35 ties to the schedule. -/
theorem timeToFreqResult : Obligations.TimeToFreqResult := by
  intro s hs hsrc hdst y
  obtain ⟨t, hnext, hends, hframe, hplan, hstored⟩ := transform_result (i := .timeToFreq) (inv := false)
    (xs := forwardReals Config.build s.lat.prec s.lat.order (loadReals s (bufRef s.op.src0))) rfl rfl hs hsrc hdst
  have hf : s.fsm ≠ .uninit := built_of_refValid hsrc
  have hsize := hs.size_eq hf
  have hpos : 0 < s.lat.size := Nat.mul_pos Nat.two_pos (hs.blockLen_pos hf)
  have hy : fft Config.build s.lat.prec s.lat.order false ((List.range (2 ^ s.lat.order)).map fun n =>
      (nth (loadReals s (bufRef s.op.src0)) n, FReal.zero)) = y := by
    rw [← hsize, timeInput_loadReals]
  rw [forwardReals_length, ← hsize] at hstored
  refine ⟨t, hnext, hends, hframe, hplan, fun k hk => ?_, fun k hk hkn => ?_⟩
  · have hlow := hstored k (by omega)
    rwa [nth_forwardReals_low _ _ _ (hsize ▸ hk) (by omega), hy] at hlow
  · have hhigh := hstored (s.lat.size - k) (by omega)
    rwa [hsize, nth_forwardReals_high _ _ _ hk (hsize ▸ hkn), hy, ← hsize] at hhigh

/-- Settles O34: `inverseReals` is the real part of the transform of the Hermitian spectrum. -/
theorem freqToTimeResult : Obligations.FreqToTimeResult := by
  intro s hs hsrc hdst h n y
  obtain ⟨t, hnext, hends, hframe, hplan, hstored⟩ := transform_result (i := .freqToTime) (inv := true)
    (xs := inverseReals Config.build s.lat.prec s.lat.order (loadReals s (bufRef s.op.src0))) rfl rfl hs hsrc hdst
  have hsize := hs.size_eq (built_of_refValid hsrc)
  refine ⟨t, hnext, hends, hframe, hplan, fun e he => ?_⟩
  have helem := hstored e (by rw [inverseReals_length, ← hsize]; exact he)
  rwa [inverseReals, nth_map_fst _ _ (by rw [fft_length, ← hsize]; exact he), hermitian_loadReals _ hsize] at helem

end Sys2Proof.Machine
end

section
/-! The half-complex multiplier (`41_multiplier.md` R170 to R176): `PRODUCT` and `DIRAC` element by element, and the
statements about the five commands. -/

namespace Sys2Proof.Machine

/-! One theorem is checked after the other: checked side by side, they take a thread each. -/
set_option Elab.async false

/-! ## The product -/

/-- Element `e` of `PRODUCT` over its bins (R176), written over elements: a bin's two parts are neighbours (R141), so
both are within an even number of elements. -/
theorem nth_product (p : Prec) {m e : Nat} (a k : List FReal) {a' k' : Nat → FReal} (he : e < 2 * m)
    (ha : ∀ i : Nat, i < 2 * m → nth a i = a' i) (hk : ∀ i : Nat, i < 2 * m → nth k i = k' i) :
    nth (product p (2 * m) a k) e = productElem p a' k' e := by
  rw [product, nth_map_range _ _ _ he, productElem]
  by_cases hreal : e < 2
  · rw [if_pos hreal, ha e he, hk e he]
    obtain rfl | rfl : e = 0 ∨ e = 1 := by omega
    · rfl
    · rfl
  have hdc : e ≠ 0 := by omega
  have hnyquist : e ≠ 1 := by omega
  rw [if_neg hreal, if_neg hdc, if_neg hnyquist]
  by_cases heven : e % 2 = 0
  · have hbin : 2 * (e / 2) = e := by omega
    have hnext : e + 1 < 2 * m := by omega
    simp only [if_pos heven, cmul, bin, hbin, ha e he, hk e he, ha _ hnext, hk _ hnext]
  · have hbin : 2 * (e / 2) = e - 1 := by omega
    have hself : e - 1 + 1 = e := by omega
    have hprev : e - 1 < 2 * m := by omega
    simp only [if_neg heven, cmul, bin, hbin, hself, ha e he, hk e he, ha _ hprev, hk _ hprev]

/-- The product of two buffers of the state, element by element. -/
theorem nth_productOf (s : State) (a k : BufRef) {e : Nat} (he : e < s.lat.size) :
    nth (productOf s a k) e = productElem s.lat.prec (elem s a) (elem s k) e :=
  nth_product _ _ _ he (fun _ hi => nth_loadReals a hi) fun _ hi => nth_loadReals k hi

/-- The destination's element comes first in the sum (R172). -/
theorem nth_accumulated (s : State) (dst a k : BufRef) {e : Nat} (he : e < s.lat.size) :
    nth (accumulated s dst a k) e =
      fadd s.lat.prec (elem s dst e) (productElem s.lat.prec (elem s a) (elem s k) e) := by
  rw [accumulated, addReals, nth_map_range _ _ _ he, nth_loadReals dst he, nth_productOf s a k he]

/-! ## The dirac pass-through -/

/-- `1/N` is a number of either precision for every order a build may have. -/
theorem isMagnitude_oneOver (p : Prec) {o : Nat} (ho : o < 32) : IsMagnitude p (2 ^ (1074 - o)) := by
  have hlsb : Prec.lsb p ≤ 925 := by cases p <;> decide
  have htop : 1076 - Prec.lsb p ≤ Prec.top p := by cases p <;> decide
  refine ⟨1, 1074 - o - Prec.lsb p, Nat.one_lt_two_pow (Nat.one_le_iff_ne_zero.1 (Prec.digits_pos p)), by omega, ?_⟩
  rw [Nat.one_mul, ← pow_add, Nat.sub_add_cancel (by omega)]

/-- The factor of `DIRAC` is narrowed exactly. -/
theorem cvt_powerOfTwo_neg (p : Prec) {o : Nat} (ho : o < 32) : cvt p (powerOfTwo (-(o : Int))) = oneOver o := by
  have hexp : (1074 + -(o : Int)).toNat = 1074 - o := by omega
  rw [powerOfTwo, hexp]
  exact roundReal_exact false (isMagnitude_oneOver p ho)

/-- Element `e` of `DIRAC` (R174). -/
theorem nth_dirac (p : Prec) {o e : Nat} (xs : List FReal) (ho : o < 32) (he : e < 2 ^ o) :
    nth (dirac p o xs) e = fmul p (nth xs e) (diracFactor o e) := by
  rw [dirac, nth_map_range _ _ _ he, cvt_powerOfTwo_neg p ho, diracFactor]
  by_cases hreal : e < 2
  · simp only [if_pos hreal]
  · simp only [if_neg hreal]

/-- `DIRAC` of a buffer of an engine, element by element. -/
theorem EngineInv.nth_dirac_loadReals {s : State} (hs : EngineInv Config.build s) (hf : s.fsm ≠ .uninit) (r : BufRef)
    {e : Nat} (he : e < s.lat.size) :
    nth (dirac s.lat.prec s.lat.order (loadReals s r)) e =
      fmul s.lat.prec (elem s r e) (diracFactor s.lat.order e) := by
  have horder : s.lat.order < 32 := Nat.lt_succ_of_le ((hs.order_le hf).trans Config.build_legal.orders.2)
  rw [nth_dirac _ _ horder (hs.size_eq hf ▸ he), nth_loadReals r he]

/-! ## The checks -/

/-- Two valid operands and a writable destination that is neither of them (R171). -/
theorem convolve_pass {s : State} (hsrc : validId s s.op.src0 = true) (hcoef : validId s s.op.coef = true)
    (hdst : writableId s s.op.dst = true) (hne : s.op.dst ≠ s.op.src0) (hne' : s.op.dst ≠ s.op.coef) :
    ∀ c ∈ convolveChecks s, c.fails = false := by
  simp [convolveChecks, checkValid, checkWritable, hsrc, hcoef, hdst, hne, hne']

/-! ## The commands -/

/-- A command of the multiplier whose checks hold: how it ends, what it leaves, and the destination's elements, given
those of the list it stores. -/
theorem multiplier_result {i : Instr} {s : State} {cs : List Check} {xs : List FReal} {x : Nat → FReal}
    (hexec : exec i s = .next (whenConstructed s
      (checked s cs (succeed (storeReals s (bufRef s.op.dst) xs) 0#32))))
    (hi : classesOf i = []) (hs : EngineInv Config.build s) (hdst : writableId s s.op.dst = true)
    (hpass : ∀ c ∈ cs, c.fails = false) (hlen : xs.length = s.lat.size)
    (hx : ∀ e : Nat, e < s.lat.size → nth xs e = x e) :
    ∃ t : State, exec i s = .next t ∧ Ends t .ok 0#32 ∧ UnitFrame s t [bufRef s.op.dst] ∧ t.plan = s.plan ∧
      SameLog s t ∧ ∀ e : Nat, e < s.lat.size → Stored t (bufRef s.op.dst) e (x e) := by
  obtain ⟨hvalid, -⟩ := Bool.and_eq_true_iff.1 hdst
  have hnext := exec_succeeds hexec (built_of_refValid hvalid) hpass
  obtain ⟨hends, hframe, hstored⟩ := unit_store hs hdst ⟨rfl, rfl⟩ hi hnext
  exact ⟨_, hnext, hends, hframe, plan_store .., sameLog_store .., fun e he => hx e he ▸ hstored e (hlen ▸ he)⟩

/-- Settles O26: the list stored is `PRODUCT`, element by element (`nth_productOf`). -/
theorem convolveResult : Obligations.ConvolveResult := by
  intro s hs hsrc hcoef hdst hne hne'
  exact multiplier_result (i := .convolve) rfl rfl hs hdst (convolve_pass hsrc hcoef hdst hne hne')
    (productOf_length ..) fun _ he => nth_productOf s _ _ he

/-- Settles O27: the list stored is the sum with `PRODUCT`, element by element (`nth_accumulated`). -/
theorem convolveAddResult : Obligations.ConvolveAddResult := by
  intro s hs hsrc hcoef hdst hne hne'
  exact multiplier_result (i := .convolveAdd) rfl rfl hs hdst (convolve_pass hsrc hcoef hdst hne hne')
    (accumulated_length ..) fun _ he => nth_accumulated s _ _ _ he

/-- Settles O28: the list stored is `PRODUCT` of the buffer as it was before the command. -/
theorem convolveInplaceResult : Obligations.ConvolveInplaceResult := by
  intro s hs hdst hcoef hne
  refine multiplier_result (i := .convolveInplace) rfl rfl hs hdst ?_ (productOf_length ..) fun _ he =>
    nth_productOf s _ _ he
  simp [checkValid, checkWritable, hdst, hcoef, hne]

/-- Settles O29: the list stored is `DIRAC`, element by element, whose factor is exact in either precision
(`cvt_powerOfTwo_neg`). -/
theorem diracResult : Obligations.DiracResult := by
  refine ⟨fun s hs hsrc hdst hne => ?_, fun s hs hdst => ?_⟩
  · have hf : s.fsm ≠ .uninit := built_of_refValid hsrc
    refine multiplier_result (i := .diracConvolve) rfl rfl hs hdst ?_
      ((dirac_length ..).trans (hs.size_eq hf).symm) fun _ he => hs.nth_dirac_loadReals hf _ he
    simp [checkValid, checkWritable, hsrc, hdst, hne]
  · obtain ⟨hvalid, -⟩ := Bool.and_eq_true_iff.1 hdst
    have hf : s.fsm ≠ .uninit := built_of_refValid hvalid
    refine multiplier_result (i := .diracConvolveInplace) rfl rfl hs hdst ?_
      ((dirac_length ..).trans (hs.size_eq hf).symm) fun _ he => hs.nth_dirac_loadReals hf _ he
    simp [checkWritable, hdst]

end Sys2Proof.Machine
end

section
/-! The finiteness scan and `VERIFY` (`42_coeff_preprocessor.md` R190, R192): the first element that is not finite, in
one list and over the operands, and the statement about the command. -/

namespace Sys2Proof.Machine

/-! One theorem is checked after the other: checked side by side, they take a thread each. -/
set_option Elab.async false

/-! ## The scan -/

/-- The scan is the library's search, its places counted from `k`. -/
theorem firstNonfinite_eq_findIdx? (k : Nat) (xs : List FReal) :
    firstNonfinite k xs = (xs.findIdx? fun x => !isFinite x).map (· + k) := by
  induction xs generalizing k with
  | nil => rfl
  | cons x xs ih =>
    rw [firstNonfinite, List.findIdx?_cons, ih]
    cases isFinite x with
    | true =>
      simp only [Bool.not_true, Bool.false_eq_true, if_true, if_false, Option.map_map, Function.comp_def]
      congr 2
      funext i
      omega
    | false => simp

/-- From element 0 on the scan is the search. -/
theorem firstNonfinite_zero (xs : List FReal) : firstNonfinite 0 xs = xs.findIdx? fun x => !isFinite x := by
  rw [firstNonfinite_eq_findIdx?]
  exact Option.map_id'

/-- The scan finds nothing in a list of finite elements. -/
theorem firstNonfinite_eq_none_iff (xs : List FReal) :
    firstNonfinite 0 xs = none ↔ ∀ x ∈ xs, isFinite x = true := by
  simp [firstNonfinite_zero, List.findIdx?_eq_none_iff]

/-- Element `e` of a list of `n` reals is one of them. -/
theorem nth_eq_getElem {xs : List FReal} {e : Nat} (he : e < xs.length) : nth xs e = xs[e] :=
  List.getD_eq_getElem _ _ he

/-- The scan finds nothing where every element is finite. -/
theorem firstNonfinite_none {xs : List FReal} (h : ∀ e : Nat, e < xs.length → isFinite (nth xs e) = true) :
    firstNonfinite 0 xs = none := by
  rw [firstNonfinite_eq_none_iff]
  intro x hx
  obtain ⟨e, he, rfl⟩ := List.getElem_of_mem hx
  rw [← nth_eq_getElem he]
  exact h e he

/-- The scan finds the first element that is not finite. -/
theorem firstNonfinite_some {xs : List FReal} {e : Nat} (he : e < xs.length) (hbad : isFinite (nth xs e) = false)
    (hgood : ∀ d : Nat, d < e → isFinite (nth xs d) = true) : firstNonfinite 0 xs = some e := by
  rw [firstNonfinite_zero, List.findIdx?_eq_some_iff_getElem]
  refine ⟨he, ?_, fun d hd => ?_⟩
  · rw [← nth_eq_getElem he, hbad]
    rfl
  · rw [← nth_eq_getElem (hd.trans he), hgood d hd]
    decide

/-! ## The operands in order -/

/-- A buffer is read as `N` elements. -/
@[simp] theorem loadReals_length (s : State) (r : BufRef) : (loadReals s r).length = s.lat.size := by
  simp [loadReals, fitTo_length]

/-- No operand holds an element that is not finite. -/
theorem firstBad_none {s : State} {ids : List Word} (k : Nat)
    (h : ∀ id ∈ ids, firstNonfinite 0 (loadReals s (bufRef id)) = none) : firstBad s k ids = none := by
  induction ids generalizing k with
  | nil => rfl
  | cons id ids ih =>
    rw [List.forall_mem_cons] at h
    obtain ⟨hfirst, hrest⟩ := h
    simp only [firstBad, hfirst]
    exact ih (k + 1) hrest

/-- The first operand that holds such an element is found, with its first such element. -/
theorem firstBad_some {s : State} {ids : List Word} (k : Nat) {j e : Nat} (hj : j < ids.length)
    (hbad : firstNonfinite 0 (loadReals s (bufRef (ids.getD j 0#32))) = some e)
    (hgood : ∀ i : Nat, i < j → firstNonfinite 0 (loadReals s (bufRef (ids.getD i 0#32))) = none) :
    firstBad s k ids = some (k + j, e) := by
  induction ids generalizing k j with
  | nil => cases hj
  | cons id ids ih =>
    cases j with
    | zero =>
      rw [List.getD_cons_zero] at hbad
      simp only [firstBad, hbad, Nat.add_zero]
    | succ j =>
      have hfirst := hgood 0 j.succ_pos
      rw [List.getD_cons_zero] at hfirst
      simp only [firstBad, hfirst]
      rw [ih (k + 1) (Nat.lt_of_succ_lt_succ hj) hbad fun i hi => hgood (i + 1) (Nat.succ_lt_succ hi),
        Nat.add_assoc, Nat.add_comm 1 j]

/-! ## The command -/

/-- What `VERIFY` does once its checks hold (R192). -/
theorem verify_effect {s : State} {n : Nat} (hs : s.fsm ≠ .uninit) (hpass : ∀ c ∈ verifyChecks s n, c.fails = false) :
    (firstBad s 0 (s.op.sources.take n) = none → exec (.verify n) s = .next (succeed s 1#32)) ∧
    (∀ j e : Nat, firstBad s 0 (s.op.sources.take n) = some (j, e) →
      exec (.verify n) s = .next (succeed (logEvent Config.build s (nonfiniteRecord j e)) 0#32)) := by
  have hexec := exec_succeeds (i := .verify n) rfl hs hpass
  refine ⟨fun h => ?_, fun j e h => ?_⟩
  · rw [hexec, h]
  · rw [hexec, h]

/-- One to four valid sources pass the checks of `VERIFY`. -/
theorem verify_pass {s : State} {n : Nat} (hn1 : 1 ≤ n) (hn : n ≤ 4)
    (hsrc : ∀ j : Nat, j < n → validId s (s.op.sources.getD j 0#32) = true) :
    ∀ c ∈ verifyChecks s n, c.fails = false := by
  rw [verifyChecks, List.forall_mem_cons]
  refine ⟨mix_count_pass hn1 hn, fun c hc => ?_⟩
  obtain ⟨id, hid, rfl⟩ := List.mem_map.1 hc
  obtain ⟨j, hj, rfl⟩ := List.getElem_of_mem hid
  have hjn : j < n := length_take_sources s.op hn ▸ hj
  have hvalid := hsrc j hjn
  rw [← getD_take_sources s.op hjn, List.getD_eq_getElem _ _ hj] at hvalid
  exact congrArg not hvalid

/-- The first source that is not valid is found (R192). -/
theorem firstFailure_verify_source {s : State} {n j : Nat} (hn : n ≤ 4) (hj : j < n)
    (hbad : validId s (s.op.sources.getD j 0#32) = false)
    (hgood : ∀ k : Nat, k < j → validId s (s.op.sources.getD k 0#32) = true) :
    firstFailure (verifyChecks s n) = some (.eBadArg, s.op.sources.getD j 0#32) := by
  rw [verifyChecks, firstFailure_cons_pass _ (mix_count_pass (by omega) hn), ← getD_take_sources s.op hj]
  refine firstFailure_ids ?_ ?_ fun k hk => ?_
  · rwa [length_take_sources s.op hn]
  · rwa [getD_take_sources s.op hj]
  · rw [getD_take_sources s.op (hk.trans hj)]
    exact hgood k hk

/-- `VERIFY` finds nothing where every element of every source is finite. -/
theorem verify_finds_none {s : State} {n : Nat} (hn : n ≤ 4)
    (h : ∀ j e : Nat, j < n → e < s.lat.size → isFinite (elem s (bufRef (s.op.sources.getD j 0#32)) e) = true) :
    firstBad s 0 (s.op.sources.take n) = none := by
  refine firstBad_none 0 fun id hid => firstNonfinite_none fun e he => ?_
  obtain ⟨j, hj, rfl⟩ := List.getElem_of_mem hid
  have hjn : j < n := length_take_sources s.op hn ▸ hj
  rw [loadReals_length] at he
  rw [nth_loadReals _ he, ← List.getD_eq_getElem _ 0#32 hj, getD_take_sources s.op hjn]
  exact h j e hjn he

/-- `VERIFY` finds the first element that is not finite, sources in order and elements ascending. -/
theorem verify_finds_first {s : State} {n j e : Nat} (hn : n ≤ 4) (hj : j < n) (he : e < s.lat.size)
    (hbad : isFinite (elem s (bufRef (s.op.sources.getD j 0#32)) e) = false)
    (hgood : ∀ i d : Nat, (i < j ∧ d < s.lat.size) ∨ (i = j ∧ d < e) →
      isFinite (elem s (bufRef (s.op.sources.getD i 0#32)) d) = true) :
    firstBad s 0 (s.op.sources.take n) = some (j, e) := by
  have hlen : j < (s.op.sources.take n).length := (length_take_sources s.op hn).symm ▸ hj
  have hfound := firstBad_some (s := s) (e := e) 0 hlen ?_ fun i hi => ?_
  · rwa [Nat.zero_add] at hfound
  · rw [getD_take_sources s.op hj]
    refine firstNonfinite_some (by rwa [loadReals_length]) (by rwa [nth_loadReals _ he]) fun d hd => ?_
    rw [nth_loadReals _ (hd.trans he)]
    exact hgood j d (.inr ⟨rfl, hd⟩)
  · rw [getD_take_sources s.op (hi.trans hj)]
    refine firstNonfinite_none fun d hd => ?_
    rw [loadReals_length] at hd
    rw [nth_loadReals _ hd]
    exact hgood i d (.inl ⟨hi, hd⟩)

/-- Settles O37: the two answers of the command are told apart by what the scan of the sources finds. -/
theorem verifyResult : Obligations.VerifyResult := by
  intro s n hs src
  refine ⟨fun hn => ?count, fun j _ hn hj hbad hgood => ?source, fun hn1 hn hsrc => ?scan⟩
  case count => exact exec_raises (i := .verify n) rfl hs (firstFailure_cons_fail _ (by simpa using hn))
  case source => exact exec_raises (i := .verify n) rfl hs (firstFailure_verify_source hn hj hbad hgood)
  case scan =>
    obtain ⟨hnone, hsome⟩ := verify_effect hs (verify_pass hn1 hn hsrc)
    cases hscan : firstBad s 0 (s.op.sources.take n) with
    | none =>
      refine ⟨_, hnone hscan, fun _ => ⟨ends_succeed _ _, rfl⟩, fun j e hj he hbad hgood => ?_⟩
      have hfound := verify_finds_first hn hj he hbad hgood
      rw [hscan] at hfound
      cases hfound
    | some found =>
      refine ⟨_, hsome _ _ hscan, fun hfin => ?_, fun j e hj he hbad hgood => ?_⟩
      · have hnothing := verify_finds_none hn hfin
        rw [hscan] at hnothing
        cases hnothing
      · have hfound := verify_finds_first hn hj he hbad hgood
        rw [hscan] at hfound
        cases hfound
        exact ⟨ends_succeed _ _, rfl⟩

end Sys2Proof.Machine
end

section
/-! `COEFFS_TO_INTERNAL` (`42_coeff_preprocessor.md` R190, R191): the spectrum and the block element by element, and the
statement about the command. -/

namespace Sys2Proof.Machine

/-! One theorem is checked after the other: checked side by side, they take a thread each. -/
set_option Elab.async false

/-! ## The log -/

/-- Having the same log is reflexive. -/
theorem SameLog.refl (s : State) : SameLog s s := ⟨rfl, rfl, rfl⟩

/-- A log kept twice. -/
theorem SameLog.trans {s t u : State} (h : SameLog s t) (h' : SameLog t u) : SameLog s u :=
  ⟨h'.log.trans h.log, h'.logRd.trans h.logRd, h'.logLost.trans h.logLost⟩

/-- The same log takes the same record. -/
theorem SameLog.logEvent {s t : State} (h : SameLog s t) (b : Config.Build) (r : LogRecord) :
    SameLog (logEvent b s r) (logEvent b t r) := by
  obtain ⟨hlog, hrd, hlost⟩ := h
  unfold Machine.logEvent
  rw [hlog]
  split
  · exact ⟨rfl, hrd, hlost⟩
  · exact ⟨rfl, hrd, rfl⟩

/-! ## The arena -/

/-- An arena kept twice. -/
theorem SameArena.trans {s t u : State} (h : SameArena s t) (h' : SameArena t u) : SameArena s u :=
  ⟨h'.chans.trans h.chans, h'.scr.trans h.scr⟩

/-- A log record leaves the arena. -/
theorem sameArena_logEvent (b : Config.Build) (s : State) (r : LogRecord) : SameArena s (logEvent b s r) :=
  ⟨logEvent_chans .., logEvent_scr ..⟩

/-- Which buffers exist depends on the engine's state, its configuration and its channels. -/
theorem refValid_congr {s t : State} (hf : t.fsm = s.fsm) (hl : t.lat = s.lat) (hc : t.chans = s.chans) (r : BufRef) :
    refValid t r = refValid s r := by
  obtain ⟨⟩ := s
  obtain ⟨⟩ := t
  cases hf
  cases hl
  cases hc
  cases r <;> rfl

/-- What a buffer holds depends on the arena and the precision alone. -/
theorem Stored.congr {s t : State} {r : BufRef} {e : Nat} {x : FReal} (h : Stored s r e x) (ha : SameArena s t)
    (hl : t.lat = s.lat) : Stored t r e x := by
  rw [Stored, elemBits, ha.getBuf, hl]
  exact h

/-! ## The spectrum and the block -/

/-- A plan word has a bit for the order of an engine. -/
theorem EngineInv.order_lt {b : Config.Build} {s : State} (h : EngineInv b s) (hb : b.Legal) (hf : s.fsm ≠ .uninit) :
    s.lat.order < 32 := Nat.lt_succ_of_le ((h.order_le hf).trans hb.orders.2)

/-- The transform of `C2I` (R190): the scaled coefficients in the second half of the `N` points, `+0.0` elsewhere. -/
def c2iTransform (b : Config.Build) (s : State) (c start n : Nat) (scale : Word64) : List ComplexValue :=
  fft b s.lat.prec s.lat.order false ((List.range s.lat.size).map fun e =>
    (if s.lat.blockLen.toNat ≤ e ∧ e < s.lat.blockLen.toNat + n then
        fmul s.lat.prec (cinRead s c (start + (e - s.lat.blockLen.toNat))) (cvt s.lat.prec (unpack .p64 scale))
      else FReal.zero, FReal.zero))

/-- Element `e` of the half-complex spectrum (R140, R190). -/
def c2iSpectrumElem (b : Config.Build) (s : State) (c start n : Nat) (scale : Word64) (e : Nat) : FReal :=
  if e ≤ s.lat.size / 2 then (cnth (c2iTransform b s c start n scale) e).1
  else (cnth (c2iTransform b s c start n scale) (s.lat.size - e)).2

/-- The element of the half-complex layout that element `e` of the internal layout is (R151). -/
def internalPlace (n e : Nat) : Nat :=
  if e = 0 then 0 else if e = 1 then n / 2 else if e % 2 = 0 then e / 2 else n - e / 2

/-- The spectrum of `C2I`, element by element. -/
theorem nth_c2iSpectrum {b : Config.Build} {s : State} (hsize : s.lat.size = 2 ^ s.lat.order) (c start n : Nat)
    (scale : Word64) {e : Nat} (he : e < s.lat.size) :
    nth (c2iSpectrum b s c start n scale) e = c2iSpectrumElem b s c start n scale e := by
  have hinput : ((List.range (2 ^ s.lat.order)).map fun i => (nth (c2iInput s c start n scale) i, FReal.zero)) =
      (List.range s.lat.size).map fun i =>
        (if s.lat.blockLen.toNat ≤ i ∧ i < s.lat.blockLen.toNat + n then
            fmul s.lat.prec (cinRead s c (start + (i - s.lat.blockLen.toNat))) (cvt s.lat.prec (unpack .p64 scale))
          else FReal.zero, FReal.zero) := by
    rw [← hsize]
    refine List.map_congr_left fun i hi => ?_
    rw [c2iInput, nth_map_range _ _ _ (List.mem_range.1 hi)]
  rw [c2iSpectrum, forwardReals, hinput, nth_map_range _ _ _ (hsize ▸ he), ← hsize]
  rfl

/-- The spectrum has `N` elements. -/
theorem c2iSpectrum_length {b : Config.Build} {s : State} (hsize : s.lat.size = 2 ^ s.lat.order) (c start n : Nat)
    (scale : Word64) : (c2iSpectrum b s c start n scale).length = s.lat.size := by
  rw [c2iSpectrum, forwardReals_length, hsize]

/-- The block has `N` elements. -/
@[simp] theorem c2iBlock_length (b : Config.Build) (s : State) (c start n : Nat) (scale : Word64) :
    (c2iBlock b s c start n scale).length = s.lat.size := mixOne_length ..

/-- One weighted buffer in the internal layout, element by element (R149 to R151 with one input). -/
theorem nth_mixOne_input (p : Prec) {m e : Nat} (weight : FReal) (xs : List FReal) (he : e < 2 * m) :
    nth (mixOne p .input (2 * m) weight xs) e = fmul p (cvt p weight) (nth xs (internalPlace (2 * m) e)) := by
  have hplace : internalPlace (2 * m) e < 2 * m := by
    unfold internalPlace
    split_ifs <;> omega
  have hmixed : nth (mixed p (2 * m) [cvt p weight] [xs]) (internalPlace (2 * m) e) =
      fmul p (cvt p weight) (nth xs (internalPlace (2 * m) e)) := by
    rw [mixed, nth_map_range _ _ _ hplace]
    rfl
  rw [← hmixed, mixOne, reorder, reorderIn, nth_map_range _ _ _ he, internalPlace]
  split_ifs <;> rfl

/-- The block of `C2I`, element by element: the spectrum times `1/N`, an exact factor, in the internal layout. -/
theorem nth_c2iBlock {b : Config.Build} {s : State} (hsize : s.lat.size = 2 ^ s.lat.order) (ho : s.lat.order < 32)
    (c start n : Nat) (scale : Word64) {e : Nat} (he : e < s.lat.size) :
    nth (c2iBlock b s c start n scale) e = fmul s.lat.prec (oneOver s.lat.order)
      (c2iSpectrumElem b s c start n scale (internalPlace s.lat.size e)) := by
  have hhalf : s.lat.size = 2 * s.lat.blockLen.toNat := rfl
  have hplace : internalPlace s.lat.size e < s.lat.size := by
    unfold internalPlace
    split_ifs <;> omega
  rw [← nth_c2iSpectrum hsize c start n scale hplace, ← cvt_powerOfTwo_neg _ ho]
  exact nth_mixOne_input _ _ _ he

/-! ## The scratch buffer -/

/-- The scratch work leaves the channels. -/
theorem c2iScratch_chans (b : Config.Build) (s : State) (c start n : Nat) (scale : Word64) :
    (c2iScratch b s c start n scale).chans = s.chans := usePlan_chans ..

/-- The scratch work leaves the configuration. -/
theorem c2iScratch_lat (b : Config.Build) (s : State) (c start n : Nat) (scale : Word64) :
    (c2iScratch b s c start n scale).lat = s.lat := usePlan_lat ..

/-- The scratch work leaves the state of the engine. -/
theorem c2iScratch_fsm (b : Config.Build) (s : State) (c start n : Nat) (scale : Word64) :
    (c2iScratch b s c start n scale).fsm = s.fsm := usePlan_fsm ..

/-- The same buffers exist after the scratch work. -/
theorem refValid_c2iScratch (b : Config.Build) (s : State) (c start n : Nat) (scale : Word64) (r : BufRef) :
    refValid (c2iScratch b s c start n scale) r = refValid s r :=
  refValid_congr (c2iScratch_fsm ..) (c2iScratch_lat ..) (c2iScratch_chans ..) r

/-- The engine is well shaped after the scratch work. -/
theorem EngineInv.c2iScratch {b : Config.Build} {s : State} (h : EngineInv b s) (hf : s.fsm ≠ .uninit)
    (c start n : Nat) (scale : Word64) : EngineInv b (c2iScratch b s c start n scale) :=
  EngineShape.inv (((engineInv_iff_shape hf).1 h).c2iScratch c start n scale)

/-! ## The effect -/

/-- What the command has written when it scans the block: `SCR[1]` and the destination (R190). -/
def c2iWritten (b : Config.Build) (s : State) (ch : Nat) : State :=
  storeReals (c2iScratch b s ch s.op.off.toNat s.op.len.toNat s.op.scale0) (bufRef s.op.dst)
    (c2iBlock b s ch s.op.off.toNat s.op.len.toNat s.op.scale0)

/-- The two endings of the command (R191): by what the scan of the block finds. -/
theorem coeffsToInternalEffect_cases (b : Config.Build) (s : State) (ch : Nat) :
    (firstNonfinite 0 (c2iBlock b s ch s.op.off.toNat s.op.len.toNat s.op.scale0) = none ∧
      coeffsToInternalEffect b s ch = succeed (c2iWritten b s ch) 0#32) ∨
    ∃ e : Nat, firstNonfinite 0 (c2iBlock b s ch s.op.off.toNat s.op.len.toNat s.op.scale0) = some e ∧
      coeffsToInternalEffect b s ch =
        raise (logEvent b (c2iWritten b s ch) (nonfiniteRecord 0 e)) .ePreprocess (BitVec.ofNat 32 e) := by
  cases hscan : firstNonfinite 0 (c2iBlock b s ch s.op.off.toNat s.op.len.toNat s.op.scale0) with
  | none => exact .inl ⟨rfl, by simp only [coeffsToInternalEffect, c2iScan, hscan, c2iWritten]⟩
  | some e => exact .inr ⟨e, rfl, by simp only [coeffsToInternalEffect, c2iScan, hscan, c2iWritten]⟩

/-- The arena is what was written, however the command ends. -/
theorem sameArena_coeffsToInternalEffect (b : Config.Build) (s : State) (ch : Nat) :
    SameArena (c2iWritten b s ch) (coeffsToInternalEffect b s ch) := by
  rcases coeffsToInternalEffect_cases b s ch with ⟨-, h⟩ | ⟨e, -, h⟩
  · rw [h]
    exact ⟨rfl, rfl⟩
  · rw [h]
    exact (sameArena_logEvent ..).trans ⟨rfl, rfl⟩

/-- The plan used is all that was written of the plan bits and the log. -/
theorem c2iWritten_plan_log (b : Config.Build) (s : State) (ch : Nat) :
    (c2iWritten b s ch).plan = (usePlan b s false true).plan ∧
      SameLog (usePlan b s false true) (c2iWritten b s ch) := by
  refine ⟨?_, ?_, ?_, ?_⟩ <;> simp [c2iWritten, c2iScratch]

/-- The arguments that `COEFFS_TO_INTERNAL` accepts (R191). -/
structure C2iOperands (b : Config.Build) (s : State) (ch : Nat) : Prop where
  built : s.fsm ≠ .uninit
  channel : ch < s.channels
  len : s.op.len.toNat ≤ s.lat.blockLen.toNat
  staged : s.op.off.toNat + s.op.len.toNat ≤ b.cinMaxElems
  dst : writableId s s.op.dst = true
  notScratch : bufRef s.op.dst ≠ .scr 1

namespace C2iOperands

variable {b : Config.Build} {s : State} {ch : Nat}

/-- They pass the checks. -/
theorem exec (h : C2iOperands b s ch) :
    execWith b (.coeffsToInternal ch) s = .next (coeffsToInternalEffect b s ch) := by
  have hpass : ∀ c ∈ coeffsToInternalChecks b s ch, c.fails = false := by
    simp [coeffsToInternalChecks, checkWritable, h.channel, h.len, h.staged, h.dst, h.notScratch]
  change Host.Outcome.next (whenConstructed s (checked s _ _)) = _
  rw [whenConstructed_pass s _ h.built, checked_pass s _ hpass]

/-- The scratch buffer of the command is one of the engine's. -/
theorem scratch_valid (h : C2iOperands b s ch) : refValid s (.scr 1) = true := by simp [refValid, h.built]

/-- Every buffer but the destination and `SCR[1]` is kept. -/
theorem sameBuffers (h : C2iOperands b s ch) :
    SameBuffersBut s (coeffsToInternalEffect b s ch) [bufRef s.op.dst, .scr 1] := by
  intro r hr hne
  rw [List.mem_cons, List.mem_singleton, not_or] at hne
  obtain ⟨hdst, hscr⟩ := hne
  obtain ⟨hv, -⟩ := Bool.and_eq_true_iff.1 h.dst
  calc getBuf (coeffsToInternalEffect b s ch) r
      = getBuf (c2iWritten b s ch) r := (sameArena_coeffsToInternalEffect b s ch).getBuf r
    _ = getBuf (c2iScratch b s ch s.op.off.toNat s.op.len.toNat s.op.scale0) r :=
        (SameArena.getBuf ⟨rfl, rfl⟩ r).trans (getBuf_setBuf_ne _ _ hv hr hdst)
    _ = getBuf (usePlan b s false true) r :=
        (SameArena.getBuf ⟨rfl, rfl⟩ r).trans (getBuf_setBuf_ne _ _ h.scratch_valid hr hscr)
    _ = getBuf s r := (sameArena_usePlan ..).getBuf r

/-- The command leaves everything but the two buffers, the plan bits, the log and the result registers. -/
theorem frame (h : C2iOperands b s ch) :
    UnitFrame s (coeffsToInternalEffect b s ch) [bufRef s.op.dst, .scr 1] :=
  unitFrame_of_writes (writes_of_exec h.exec) h.sameBuffers

/-- The two buffers hold the spectrum and the block. -/
theorem stored (h : C2iOperands b s ch) (hs : EngineInv b s) {e : Nat} (he : e < s.lat.size) :
    Stored (coeffsToInternalEffect b s ch) (.scr 1) e
      (c2iSpectrumElem b s ch s.op.off.toNat s.op.len.toNat s.op.scale0 e) ∧
    Stored (coeffsToInternalEffect b s ch) (bufRef s.op.dst) e
      (nth (c2iBlock b s ch s.op.off.toNat s.op.len.toNat s.op.scale0) e) := by
  have hsize := hs.size_eq h.built
  obtain ⟨hv, hw⟩ := Bool.and_eq_true_iff.1 h.dst
  have hlat : (coeffsToInternalEffect b s ch).lat = s.lat := h.frame.control.lat
  have hspectrum : Stored (c2iScratch b s ch s.op.off.toNat s.op.len.toNat s.op.scale0) (.scr 1) e
      (c2iSpectrumElem b s ch s.op.off.toNat s.op.len.toNat s.op.scale0 e) := by
    rw [← nth_c2iSpectrum hsize _ _ _ _ he]
    exact stored_storeReals ((sameArena_usePlan ..).roomOk (hs.roomOk h.scratch_valid rfl)).room
      (by rwa [c2iSpectrum_length hsize])
  have hkept : getBuf (c2iWritten b s ch) (.scr 1) =
      getBuf (c2iScratch b s ch s.op.off.toNat s.op.len.toNat s.op.scale0) (.scr 1) :=
    (SameArena.getBuf ⟨rfl, rfl⟩ _).trans (getBuf_setBuf_ne _ _ hv h.scratch_valid (Ne.symm h.notScratch))
  have hroom : Room (c2iScratch b s ch s.op.off.toNat s.op.len.toNat s.op.scale0) (bufRef s.op.dst) :=
    ((hs.c2iScratch h.built ..).roomOk ((refValid_c2iScratch ..).trans hv) hw).room
  have hwritten : (c2iWritten b s ch).lat = s.lat := (storeReals_lat ..).trans (c2iScratch_lat ..)
  have hend := sameArena_coeffsToInternalEffect b s ch
  refine ⟨Stored.congr ?_ hend (hlat.trans hwritten.symm),
    Stored.congr (stored_storeReals hroom ((c2iBlock_length ..).symm ▸ he)) hend (hlat.trans hwritten.symm)⟩
  rw [Stored, elemBits, hkept, hwritten, ← c2iScratch_lat b s ch s.op.off.toNat s.op.len.toNat s.op.scale0]
  exact hspectrum

end C2iOperands

/-- Settles O36: the two lists stored element by element (`nth_c2iSpectrum`, `nth_c2iBlock`), and the ending by what
the scan of the block finds. -/
theorem coeffsToInternalResult : Obligations.CoeffsToInternalResult := by
  intro b s ch hb hs hf hch hlen hoff hdst hne p l n y spectrum block
  have hop : C2iOperands b s ch := ⟨hf, hch, hlen, hoff, hdst, hne⟩
  have ho : s.lat.order < 32 := hs.order_lt hb hf
  have hblock : ∀ e : Nat, e < n → nth (c2iBlock b s ch s.op.off.toNat s.op.len.toNat s.op.scale0) e = block e :=
    fun e he => nth_c2iBlock (hs.size_eq hf) ho _ _ _ _ he
  obtain ⟨hplan, hlog⟩ := c2iWritten_plan_log b s ch
  refine ⟨_, hop.exec, fun hbuild => ?_, hop.frame, fun e he => ?_, fun hfin => ?_, fun e he hbad hgood => ?_⟩
  · rw [exec_eq_execWith, ← hbuild]
    exact hop.exec
  · rw [← hblock e he]
    exact hop.stored hs he
  · have hscan := firstNonfinite_none (xs := c2iBlock b s ch s.op.off.toNat s.op.len.toNat s.op.scale0) fun e he => by
      rw [c2iBlock_length] at he
      rw [hblock e he]
      exact hfin e he
    rcases coeffsToInternalEffect_cases b s ch with ⟨-, h⟩ | ⟨d, hsome, -⟩
    · rw [h]
      exact ⟨ends_succeed _ _, planUsed_of_usePlan ho hplan (hlog.trans ⟨rfl, rfl, rfl⟩)⟩
    · cases hscan.symm.trans hsome
  · have hscan := firstNonfinite_some (xs := c2iBlock b s ch s.op.off.toNat s.op.len.toNat s.op.scale0) (e := e)
      (by rwa [c2iBlock_length]) (by rwa [hblock e he]) fun d hd => by
        rw [hblock d (hd.trans he)]
        exact hgood d hd
    rcases coeffsToInternalEffect_cases b s ch with ⟨hnone, -⟩ | ⟨d, hsome, h⟩
    · cases hscan.symm.trans hnone
    · cases hscan.symm.trans hsome
      rw [h]
      refine ⟨ends_raise _ _ (by decide), c2iWritten b s ch, planUsed_of_usePlan ho hplan hlog, ?_, ?_⟩
      · exact logEvent_plan ..
      · exact ⟨rfl, rfl, rfl⟩

end Sys2Proof.Machine
end

section
/-! SUPPORT. What the conversion of coefficient blocks leaves (`42_coeff_preprocessor.md` R190, R193): the records
offered to the log in order, the plan used once, and the blocks that a coefficient set holds. -/

namespace Sys2Proof.Machine

/-! One theorem is checked after the other: checked side by side, they take a thread each. -/
set_option Elab.async false

/-! ## Records offered to the log -/

/-- The state after records are offered to the log, in order. -/
def offered (b : Config.Build) (s : State) (rs : List LogRecord) : State := rs.foldl (logEvent b) s

/-- Records offered after others. -/
theorem offered_append (b : Config.Build) (s : State) (rs rs' : List LogRecord) :
    offered b s (rs ++ rs') = offered b (offered b s rs) rs' := List.foldl_append

/-- Having the same log is symmetric. -/
theorem SameLog.symm {s t : State} (h : SameLog s t) : SameLog t s := ⟨h.log.symm, h.logRd.symm, h.logLost.symm⟩

/-- The same log takes the same records. -/
theorem SameLog.offered {s t : State} (h : SameLog s t) (b : Config.Build) (rs : List LogRecord) :
    SameLog (offered b s rs) (offered b t rs) := by
  induction rs generalizing s t with
  | nil => exact h
  | cons r rs ih => exact ih (h.logEvent b r)

/-- One more record offered to the log (R30). -/
theorem LogTakes.logEvent {b : Config.Build} {s t : State} {rs : List LogRecord} (h : LogTakes b.logDepth s t rs)
    (r : LogRecord) : LogTakes b.logDepth s (logEvent b t r) (rs ++ [r]) := by
  obtain ⟨hlog, hrd, hlost⟩ := h
  have hlen : t.log.length = min b.logDepth (s.log.length + rs.length) := by
    rw [hlog, List.length_take, List.length_append]
  rcases logEvent_cases b t r with ⟨hroom, ht⟩ | ⟨hfull, ht⟩
  · have hfits : (s.log ++ rs ++ [r]).length ≤ b.logDepth := by simp; omega
    refine ⟨?_, by rw [ht, hrd], ?_⟩
    · have hall : (s.log ++ rs).length ≤ b.logDepth := by simp; omega
      rw [ht, hlog, ← List.append_assoc, List.take_of_length_le hfits, List.take_of_length_le hall]
    · have hbefore : ¬b.logDepth < s.log.length + rs.length := by omega
      have hafter : ¬b.logDepth < s.log.length + (rs ++ [r]).length := by simp; omega
      rw [ht, hlost, decide_eq_false hbefore, decide_eq_false hafter]
  · refine ⟨?_, by rw [ht, hrd], ?_⟩
    · have hall : b.logDepth ≤ (s.log ++ rs).length := by simp; omega
      rw [ht, hlog, ← List.append_assoc, List.take_append_of_le_length hall]
    · have hafter : b.logDepth < s.log.length + (rs ++ [r]).length := by simp; omega
      rw [ht, decide_eq_true hafter, Bool.or_true]

/-- A FIFO takes the records offered to it as R30 says. -/
theorem logTakes_offered {b : Config.Build} {s : State} (h : s.log.length ≤ b.logDepth) (rs : List LogRecord) :
    LogTakes b.logDepth s (offered b s rs) rs := by
  induction rs using List.reverseRecOn with
  | nil =>
    refine ⟨?_, rfl, ?_⟩
    · rw [List.append_nil, List.take_of_length_le h]
      rfl
    · rw [List.length_nil, Nat.add_zero, decide_eq_false (Nat.not_lt.2 h), Bool.or_false]
      rfl
  | append_singleton rs r ih =>
    rw [offered_append]
    exact ih.logEvent r

/-- A log that took records is any with the same contents. -/
theorem LogTakes.congr {d : Nat} {s t u : State} {rs : List LogRecord} (h : LogTakes d s t rs) (ht : SameLog t u) :
    LogTakes d s u rs := ⟨ht.log.trans h.log, ht.logRd.trans h.logRd, ht.logLost.trans h.logLost⟩

/-! ## The in-place forward plan -/

/-- Which plan bits a plan leaves depends on the bits and the configuration. -/
theorem usePlan_plan_congr (b : Config.Build) {s t : State} (hl : t.lat = s.lat) (hp : t.plan = s.plan)
    (inv inpl : Bool) : (usePlan b t inv inpl).plan = (usePlan b s inv inpl).plan := by
  simp only [usePlan, hl, hp]
  split
  · exact hp
  · simp only [logEvent_plan]

/-- The bits of every plan word after a plan is used (R146). -/
theorem getLsbD_usePlan (b : Config.Build) {s : State} (ho : s.lat.order < 32) (inv inpl inv' inpl' : Bool) (i : Nat) :
    (planWord (usePlan b s inv inpl).plan inv' inpl').getLsbD i =
      ((planWord s.plan inv' inpl').getLsbD i || decide ((inv' = inv ∧ inpl' = inpl) ∧ i = s.lat.order)) := by
  rcases usePlan_cases b s inv inpl with ⟨hbit, hu⟩ | ⟨hbit, hu⟩
  · rw [hu]
    by_cases h : (inv' = inv ∧ inpl' = inpl) ∧ i = s.lat.order
    · obtain ⟨⟨rfl, rfl⟩, rfl⟩ := h
      rw [hbit, Bool.true_or]
    · rw [decide_eq_false h, Bool.or_false]
  · rw [hu, logEvent_plan, planWord_setPlanWord]
    by_cases h : inv' = inv ∧ inpl' = inpl
    · obtain ⟨rfl, rfl⟩ := h
      rw [if_pos ⟨rfl, rfl⟩, getLsbD_setOrder _ ho, Bool.or_comm]
      simp
    · rw [if_neg h]
      simp [h]

/-- A plan that was used is not new. -/
theorem usePlan_bit (b : Config.Build) {s : State} (ho : s.lat.order < 32) (inv inpl : Bool) :
    (planWord (usePlan b s inv inpl).plan inv inpl).getLsbD s.lat.order = true := by
  simp [getLsbD_usePlan b ho]

/-- An in-place plan offers its record when it is new (R146). -/
theorem sameLog_usePlan (b : Config.Build) (s : State) (inv : Bool) :
    SameLog (offered b s (newPlan s inv)) (usePlan b s inv true) := by
  rcases usePlan_cases b s inv true with ⟨hbit, hu⟩ | ⟨hbit, hu⟩
  · rw [hu, newPlan, if_pos hbit]
    exact .refl s
  · rw [hu, newPlan, hbit]
    exact sameLog_logEvent_plan b s _ _

/-- The records of the plan that `k` blocks use: it is new to the first at most (R146, R190). -/
def plansUsed (s : State) (k : Nat) : List LogRecord := if k = 0 then [] else newPlan s false

/-! ## Coefficient sets -/

/-- Channels that are the same without their coefficient sets. -/
theorem eq_of_freeCoef {ch ch' : Channel} (h : freeCoef ch = freeCoef ch') :
    ch = { ch' with coefNBlocks := ch.coefNBlocks, coef := ch.coef } := by
  cases ch
  cases ch'
  simpa only [freeCoef, Channel.mk.injEq, true_and] using h

/-- A block appended to the coefficient set of a channel (R193). -/
theorem coef_appendCoef {s : State} {c : Nat} (hc : c < s.chans.length) (block : List FReal) :
    ((appendCoef s c block).chan c).coef = (s.chan c).coef ++ [packReals s.lat.prec s.freeCtr 0 block] :=
  congrArg Channel.coef (chan_setChan_self s c _ hc)

/-- The state of the engine when a block is appended. -/
theorem appendCoef_fsm (s : State) (c : Nat) (block : List FReal) : (appendCoef s c block).fsm = s.fsm := rfl

/-- The other channels when a block is appended. -/
theorem chan_appendCoef_ne (s : State) {c d : Nat} (block : List FReal) (hd : d ≠ c) :
    (appendCoef s c block).chan d = s.chan d := chan_setChan_ne s c d _ hd

/-- The first `n` blocks of a list of blocks, stored one after the other (R193). -/
def HoldsBlocks (p : Prec) (n : Nat) (block : Nat → List FReal) (coef : List Buf) : Prop :=
  coef.length = n ∧ ∀ i : Nat, i < n → ∃ ctr : Nat, coef.getD i [] = packReals p ctr 0 (block i)

/-- One more block stored. -/
theorem HoldsBlocks.append {p : Prec} {n : Nat} {block : Nat → List FReal} {coef : List Buf}
    (h : HoldsBlocks p n block coef) (ctr : Nat) :
    HoldsBlocks p (n + 1) block (coef ++ [packReals p ctr 0 (block n)]) := by
  obtain ⟨hlen, hget⟩ := h
  refine ⟨by rw [List.length_append, hlen, List.length_singleton], fun i hi => ?_⟩
  by_cases hin : i < n
  · rw [List.getD_append _ _ _ _ (hlen.symm ▸ hin)]
    exact hget i hin
  · obtain rfl : i = n := by omega
    refine ⟨ctr, ?_⟩
    rw [List.getD_append_right _ _ _ _ hlen.le, hlen, Nat.sub_self, List.getD_cons_zero]

/-- Each element of a block stored holds its real. -/
theorem HoldsBlocks.stored {t : State} {c n i e : Nat} {block : Nat → List FReal}
    (h : HoldsBlocks t.lat.prec n block (t.chan c).coef) (hi : i < n) (he : e < (block i).length) :
    Stored t (.coef c i) e (nth (block i) e) := by
  obtain ⟨-, hget⟩ := h
  obtain ⟨ctr, hctr⟩ := hget i hi
  refine ⟨Config.nanCode ctr (0 + e), ?_⟩
  change ((t.chan c).coef.getD i []).getD e 0#64 = _
  rw [hctr, packReals_getD _ _ _ _ _ he, nth_eq_getElem he]

/-! ## Blocks converted -/

/-- The state `t` after `k` blocks were converted from `s` on (R190, R193) and the records `rs` offered to the log: what
else of the two states differs is in the coefficient sets. -/
structure Converted (b : Config.Build) (s : State) (k : Nat) (rs : List LogRecord) (t : State) : Prop where
  writes : Writes b [.coefs] s t
  chans : t.chans.length = s.chans.length
  chan : ∀ d : Nat, freeCoef (t.chan d) = freeCoef (s.chan d)
  scr : ∀ i : Nat, i ≠ 1 ∨ k = 0 → getBuf t (.scr i) = getBuf s (.scr i)
  plan : t.plan = if k = 0 then s.plan else (usePlan b s false true).plan
  log : SameLog (offered b s rs) t

namespace Converted

variable {b : Config.Build} {s t u : State} {k k' : Nat} {rs rs' : List LogRecord}

/-- The configuration is kept. -/
theorem lat (h : Converted b s k rs t) : t.lat = s.lat := by
  obtain ⟨hsetup, -⟩ := h.writes.setup_eq (by simp)
  obtain ⟨hlat, -⟩ := Prod.mk.inj hsetup
  exact hlat

/-- The bytes of the apertures are kept. -/
theorem memory (h : Converted b s k rs t) : SameMemory s t := h.writes.sameMemory (by simp)

/-- The plan is new until a block is converted. -/
theorem newPlan_eq (h : Converted b s k rs t) (ho : s.lat.order < 32) :
    newPlan t false = if k = 0 then newPlan s false else [] := by
  have hplan := h.plan
  split at hplan
  · next hk => rw [if_pos hk, newPlan, newPlan, hplan, h.lat]
  · next hk => rw [if_neg hk, newPlan, hplan, h.lat, if_pos (usePlan_bit b ho false true)]

/-- The plan that blocks use does not depend on the blocks before. -/
theorem usePlan_eq (h : Converted b s k rs t) (ho : s.lat.order < 32) :
    (usePlan b t false true).plan = (usePlan b s false true).plan := by
  have hplan := h.plan
  split at hplan
  · exact usePlan_plan_congr b h.lat hplan false true
  · rcases usePlan_cases b t false true with ⟨-, hu⟩ | ⟨hbit, -⟩
    · rw [hu, hplan]
    · rw [hplan, h.lat, usePlan_bit b ho] at hbit
      cases hbit

/-- The records of the plan that blocks and further blocks use. -/
theorem plansUsed_add (h : Converted b s k rs t) (ho : s.lat.order < 32) (k' : Nat) :
    plansUsed s k ++ plansUsed t k' = plansUsed s (k + k') := by
  have hnew := h.newPlan_eq ho
  by_cases hk : k = 0
  · rw [if_pos hk] at hnew
    simp only [plansUsed, hk, hnew, Nat.zero_add, if_true, List.nil_append]
  · have hk' : k + k' ≠ 0 := by omega
    rw [if_neg hk] at hnew
    simp only [plansUsed, hk, hk', hnew, if_false, ite_self, List.append_nil]

/-- Nothing converted. -/
theorem refl (b : Config.Build) (s : State) : Converted b s 0 [] s :=
  ⟨.refl _ _ _, rfl, fun _ => rfl, fun _ _ => rfl, rfl, .refl s⟩

/-- Blocks converted after others. -/
theorem trans (h : Converted b s k rs t) (h' : Converted b t k' rs' u) (ho : s.lat.order < 32) :
    Converted b s (k + k') (rs ++ rs') u where
  writes := Relation.ReflTransGen.trans h.writes h'.writes
  chans := h'.chans.trans h.chans
  chan d := (h'.chan d).trans (h.chan d)
  scr i hi := (h'.scr i (by omega)).trans (h.scr i (by omega))
  plan := by
    rw [h'.plan]
    by_cases hk' : k' = 0
    · rw [if_pos hk', hk', Nat.add_zero, h.plan]
    · rw [if_neg hk', h.usePlan_eq ho, if_neg (by omega)]
  log := by
    rw [offered_append]
    exact (h.log.offered b rs').trans h'.log

/-- A record logged. -/
theorem logEvent (h : Converted b s k rs t) (r : LogRecord) : Converted b s k (rs ++ [r]) (logEvent b t r) where
  writes := h.writes.logEvent r
  chans := by rw [logEvent_chans, h.chans]
  chan d := by
    rw [State.chan, logEvent_chans]
    exact h.chan d
  scr i hi := by rw [(sameArena_logEvent b t r).getBuf, h.scr i hi]
  plan := by rw [logEvent_plan, h.plan]
  log := by
    rw [offered_append]
    exact h.log.logEvent b r

/-- A coefficient set replaced. -/
theorem setCoefs (h : Converted b s k rs t) (c : Nat) (w : Word) (coef : List Buf) :
    Converted b s k rs (t.setChan c { t.chan c with coefNBlocks := w, coef := coef }) where
  writes := h.writes.update (by simp) (.channel (.coefs _ _ _))
  chans := by rw [setChan_length, h.chans]
  chan d := by
    have hkept : freeCoef { t.chan c with coefNBlocks := w, coef := coef } = freeCoef (t.chan c) := rfl
    exact (chan_setChan_part freeCoef d fun _ => hkept).trans (h.chan d)
  scr := h.scr
  plan := h.plan
  log := h.log.trans ⟨rfl, rfl, rfl⟩

/-- The counter of free values. -/
theorem freeCtr (h : Converted b s k rs t) (n : Nat) : Converted b s k rs { t with freeCtr := n } :=
  ⟨h.writes.freeCtr n, h.chans, h.chan, h.scr, h.plan, h.log.trans ⟨rfl, rfl, rfl⟩⟩

/-- The scratch work of one block. -/
theorem c2iScratch (b : Config.Build) (s : State) (c start n : Nat) (scale : Word64) :
    Converted b s 1 (newPlan s false) (c2iScratch b s c start n scale) where
  writes := (Writes.refl b _ s).c2iScratch c start n scale
  chans := congrArg List.length (c2iScratch_chans ..)
  chan d := by rw [State.chan, c2iScratch_chans, State.chan]
  scr i hi := by
    have hne : 1 ≠ i := by omega
    change ((usePlan b s false true).scr.set 1 _).getD i [] = s.scr.getD i []
    rw [usePlan_scr, List.getD_eq_getElem?_getD, List.getElem?_set_ne hne, List.getD_eq_getElem?_getD]
  plan := storeReals_plan ..
  log := (sameLog_usePlan b s false).trans ⟨storeReals_log .., storeReals_logRd .., storeReals_logLost ..⟩

/-- With no block converted the plan bits and the log are kept. -/
theorem plan_unused (h : Converted b s k (plansUsed s k) t) (hk : k = 0) (hplan : u.plan = t.plan)
    (hlog : SameLog t u) : u.plan = s.plan ∧ SameLog s u := by
  have hplan' := h.plan
  have hlog' := h.log
  rw [if_pos hk] at hplan'
  rw [plansUsed, if_pos hk] at hlog'
  exact ⟨hplan.trans hplan', hlog'.trans hlog⟩

/-- Blocks converted use the in-place forward plan (R146, R190). -/
theorem planUsed (h : Converted b s k (plansUsed s k) t) (ho : s.lat.order < 32) (hk : k ≠ 0)
    (hplan : u.plan = t.plan) (hlog : SameLog t u) : PlanUsed b s u false true := by
  have hplan' := h.plan
  have hlog' := h.log
  rw [if_neg hk] at hplan'
  rw [plansUsed, if_neg hk] at hlog'
  exact planUsed_of_usePlan ho (hplan.trans hplan') ((sameLog_usePlan b s false).symm.trans (hlog'.trans hlog))

end Converted

end Sys2Proof.Machine
end

section
/-! SUPPORT. The loops of `SET_COEFF` (`42_coeff_preprocessor.md` R193, `43_engine.md` R215, R217): the blocks of one
channel, the channels in order, and which of them fails. -/

namespace Sys2Proof.Machine

/-! One theorem is checked after the other: checked side by side, they take a thread each. -/
set_option Elab.async false

/-! ## The blocks of one channel -/

/-- The block of `C2I` depends on the configuration and the staged bytes alone. -/
theorem c2iBlock_congr (b : Config.Build) {s t : State} (hl : t.lat = s.lat) (hm : SameMemory s t) (c start n : Nat)
    (scale : Word64) : c2iBlock b t c start n scale = c2iBlock b s c start n scale := by
  have hcin : ∀ e : Nat, cinRead t c e = cinRead s c e := fun e => by
    simp only [cinRead, readBytes, hl, hm _]
  simp only [c2iBlock, c2iSpectrum, c2iInput, hcin, hl]

/-- Block `i` of channel `c` (R193). -/
def coefBlock (b : Config.Build) (s : State) (len : Nat) (scale : Word64) (c i : Nat) : List FReal :=
  c2iBlock b s c (i * s.lat.blockLen.toNat) (blockCount s.lat.blockLen.toNat len i) scale

/-- The blocks do not depend on those converted before. -/
theorem Converted.coefBlock_eq {b : Config.Build} {s t : State} {k : Nat} {rs : List LogRecord}
    (h : Converted b s k rs t) (len : Nat) (scale : Word64) (c : Nat) :
    coefBlock b t len scale c = coefBlock b s len scale c := by
  funext i
  rw [coefBlock, coefBlock, h.lat, c2iBlock_congr b h.lat h.memory]

/-- A list of blocks of which one of the first `n` is not finite. -/
def SomeBad (n : Nat) (block : Nat → List FReal) : Prop := ∃ i : Nat, i < n ∧ ∃ x ∈ block i, isFinite x = false

/-- One more block to look at. -/
theorem someBad_succ (n : Nat) (block : Nat → List FReal) :
    SomeBad (n + 1) block ↔ SomeBad n block ∨ firstNonfinite 0 (block n) ≠ none := by
  have hlast : firstNonfinite 0 (block n) ≠ none ↔ ∃ x ∈ block n, isFinite x = false := by
    rw [Ne, firstNonfinite_eq_none_iff]
    simp
  rw [hlast]
  constructor
  · rintro ⟨i, hi, hbad⟩
    by_cases hin : i < n
    · exact .inl ⟨i, hin, hbad⟩
    · obtain rfl : i = n := by omega
      exact .inr hbad
  · rintro (⟨i, hi, hbad⟩ | hbad)
    · exact ⟨i, by omega, hbad⟩
    · exact ⟨n, n.lt_succ_self, hbad⟩

/-- A finite block offers no record. -/
theorem blockFailures_finite (c : Nat) {n : Nat} {block : Nat → List FReal} (h : firstNonfinite 0 (block n) = none) :
    blockFailures c (n + 1) block = blockFailures c n block := by
  rw [firstNonfinite_zero] at h
  simp only [blockFailures, List.range_succ, List.flatMap_append, List.flatMap_singleton, h, List.append_nil]

/-- A block that is not finite offers two. -/
theorem blockFailures_bad (c : Nat) {n e : Nat} {block : Nat → List FReal}
    (h : firstNonfinite 0 (block n) = some e) : blockFailures c (n + 1) block =
      blockFailures c n block ++ [nonfiniteRecord 0 e] ++ [blockFailRecord c n] := by
  rw [firstNonfinite_zero] at h
  simp only [blockFailures, List.range_succ, List.flatMap_append, List.flatMap_singleton, h, List.append_assoc]
  rfl

/-- A channel of finite blocks offers no record. -/
theorem blockFailures_eq_nil (c : Nat) {n : Nat} {block : Nat → List FReal} (h : ¬SomeBad n block) :
    blockFailures c n block = [] := by
  induction n with
  | zero => rfl
  | succ n ih =>
    rw [someBad_succ, not_or, not_not] at h
    obtain ⟨hbefore, hlast⟩ := h
    rw [blockFailures_finite c hlast, ih hbefore]

/-- Block `i` converted and appended to the coefficient set of channel `c` (R190, R193). -/
def blockAppended (b : Config.Build) (s : State) (c len : Nat) (scale : Word64) (i : Nat) : State :=
  appendCoef
    (c2iScratch b s c (i * s.lat.blockLen.toNat) (blockCount s.lat.blockLen.toNat len i) scale) c
    (coefBlock b s len scale c i)

/-- It leaves the state of the engine. -/
theorem blockAppended_fsm (b : Config.Build) (s : State) (c len : Nat) (scale : Word64) (i : Nat) :
    (blockAppended b s c len scale i).fsm = s.fsm := by
  rw [blockAppended, appendCoef_fsm, c2iScratch_fsm]

/-- It leaves the other channels. -/
theorem chan_blockAppended_ne (b : Config.Build) (s : State) {c d : Nat} (hd : d ≠ c) (len : Nat) (scale : Word64)
    (i : Nat) : (blockAppended b s c len scale i).chan d = s.chan d := by
  rw [blockAppended, chan_appendCoef_ne _ _ hd, State.chan, c2iScratch_chans, State.chan]

/-- The block is the last of its channel. -/
theorem coef_blockAppended (b : Config.Build) {s : State} {c : Nat} (hc : c < s.chans.length) (len : Nat)
    (scale : Word64) (i : Nat) : ∃ ctr : Nat, ((blockAppended b s c len scale i).chan c).coef =
      (s.chan c).coef ++ [packReals s.lat.prec ctr 0 (coefBlock b s len scale c i)] := by
  refine ⟨(c2iScratch b s c (i * s.lat.blockLen.toNat) (blockCount s.lat.blockLen.toNat len i) scale).freeCtr, ?_⟩
  rw [blockAppended, coef_appendCoef (by rwa [c2iScratch_chans]), State.chan, c2iScratch_chans, c2iScratch_lat]
  rfl

/-- One block more converted. -/
theorem Converted.blockAppended {b : Config.Build} {s t : State} {k : Nat} {rs : List LogRecord}
    (h : Converted b s k rs t) (ho : s.lat.order < 32) (c len : Nat) (scale : Word64) (i : Nat) :
    Converted b s (k + 1) (rs ++ newPlan t false) (blockAppended b t c len scale i) :=
  ((h.trans (.c2iScratch b t c _ _ scale) ho).setCoefs c _ _).freeCtr _

/-- One turn of the loop of `PREPROCESS` (R193): the block is appended, and the scan says what is logged. -/
theorem preprocessBlock_cases (b : Config.Build) (s : State) (c len : Nat) (scale : Word64) (i : Nat) :
    (firstNonfinite 0 (coefBlock b s len scale c i) = none ∧
      preprocessBlock b s c len scale i = (blockAppended b s c len scale i, false)) ∨
    ∃ e : Nat, firstNonfinite 0 (coefBlock b s len scale c i) = some e ∧
      preprocessBlock b s c len scale i =
        (logEvent b (logEvent b (blockAppended b s c len scale i) (nonfiniteRecord 0 e)) (blockFailRecord c i),
          true) := by
  cases hscan : firstNonfinite 0 (coefBlock b s len scale c i) with
  | none =>
    refine .inl ⟨rfl, ?_⟩
    rw [coefBlock] at hscan
    simp only [preprocessBlock, blockAppended, coefBlock, c2iScan, hscan]
  | some e =>
    refine .inr ⟨e, rfl, ?_⟩
    rw [coefBlock] at hscan
    simp only [preprocessBlock, blockAppended, coefBlock, c2iScan, hscan]

/-- The first `n` blocks of channel `c` were attempted from `s` on: the state then, and whether one failed (R193). -/
structure BlocksDone (b : Config.Build) (s : State) (c : Nat) (block : Nat → List FReal) (n : Nat)
    (r : State × Bool) : Prop where
  converted : Converted b s n (plansUsed s n ++ blockFailures c n block) r.1
  fsm : r.1.fsm = s.fsm
  other : ∀ d : Nat, d ≠ c → r.1.chan d = s.chan d
  holds : HoldsBlocks s.lat.prec n block (r.1.chan c).coef
  failed : r.2 = true ↔ SomeBad n block

namespace BlocksDone

variable {b : Config.Build} {s : State} {c n len : Nat} {scale : Word64} {r : State × Bool}

/-- None attempted yet. -/
theorem start (h : (s.chan c).coef = []) (block : Nat → List FReal) : BlocksDone b s c block 0 (s, false) where
  converted := .refl b s
  fsm := rfl
  other _ _ := rfl
  holds := ⟨by rw [h, List.length_nil], fun i hi => absurd hi i.not_lt_zero⟩
  failed := ⟨nofun, fun ⟨i, hi, _⟩ => absurd hi i.not_lt_zero⟩

/-- The record of the plan comes before those of the blocks. -/
theorem records (h : BlocksDone b s c (coefBlock b s len scale c) n r) (ho : s.lat.order < 32) :
    plansUsed s n ++ blockFailures c n (coefBlock b s len scale c) ++ newPlan r.1 false =
      plansUsed s (n + 1) ++ blockFailures c n (coefBlock b s len scale c) := by
  have hplans := h.converted.plansUsed_add ho 1
  have hnew := h.converted.newPlan_eq ho
  cases n with
  | zero =>
    rw [← hplans]
    simp [blockFailures, plansUsed]
  | succ n =>
    rw [if_neg n.succ_ne_zero] at hnew
    rw [← hplans]
    simp [plansUsed, hnew]

/-- The blocks are those of `s` when a further one is converted. -/
theorem coefBlock_eq (h : BlocksDone b s c (coefBlock b s len scale c) n r) :
    coefBlock b r.1 len scale c = coefBlock b s len scale c := h.converted.coefBlock_eq len scale c

/-- One more block of the channel. -/
theorem holds_next (h : BlocksDone b s c (coefBlock b s len scale c) n r) (hc : c < s.chans.length) :
    HoldsBlocks s.lat.prec (n + 1) (coefBlock b s len scale c) ((blockAppended b r.1 c len scale n).chan c).coef := by
  obtain ⟨ctr, hcoef⟩ := coef_blockAppended b (h.converted.chans.symm ▸ hc) len scale n
  rw [hcoef, h.converted.lat, h.coefBlock_eq]
  exact h.holds.append ctr

/-- One more block attempted. -/
theorem next (h : BlocksDone b s c (coefBlock b s len scale c) n r) (ho : s.lat.order < 32)
    (hc : c < s.chans.length) :
    BlocksDone b s c (coefBlock b s len scale c) (n + 1)
      ((preprocessBlock b r.1 c len scale n).1, r.2 || (preprocessBlock b r.1 c len scale n).2) := by
  have hconv := h.converted.blockAppended ho c len scale n
  rw [h.records ho] at hconv
  have hfsm := (blockAppended_fsm b r.1 c len scale n).trans h.fsm
  have hother : ∀ d : Nat, d ≠ c → (blockAppended b r.1 c len scale n).chan d = s.chan d := fun d hd =>
    (chan_blockAppended_ne b r.1 hd len scale n).trans (h.other d hd)
  have hholds := h.holds_next hc
  have hturn := preprocessBlock_cases b r.1 c len scale n
  rw [h.coefBlock_eq] at hturn
  rcases hturn with ⟨hscan, hturn⟩ | ⟨e, hscan, hturn⟩
  · rw [hturn]
    refine ⟨?_, hfsm, hother, hholds, ?_⟩
    · rw [blockFailures_finite c hscan]
      exact hconv
    · rw [someBad_succ, hscan, Bool.or_false, h.failed]
      simp
  · have hchan : ∀ d : Nat, (logEvent b (logEvent b (blockAppended b r.1 c len scale n) (nonfiniteRecord 0 e))
        (blockFailRecord c n)).chan d = (blockAppended b r.1 c len scale n).chan d := fun d => by
      rw [State.chan, logEvent_chans, logEvent_chans, State.chan]
    rw [hturn]
    refine ⟨?_, ?_, fun d hd => (hchan d).trans (hother d hd), (hchan c).symm ▸ hholds, ?_⟩
    · rw [blockFailures_bad c hscan, ← List.append_assoc, ← List.append_assoc]
      exact (hconv.logEvent _).logEvent _
    · rw [logEvent_fsm, logEvent_fsm, hfsm]
    · rw [someBad_succ, hscan, Bool.or_true]
      simp

end BlocksDone

/-- `PREPROCESS` of a channel without blocks (R193). -/
theorem preprocess_done (b : Config.Build) {s : State} {c : Nat} (ho : s.lat.order < 32) (hc : c < s.chans.length)
    (hempty : (s.chan c).coef = []) (cb len : Nat) (scale : Word64) :
    BlocksDone b s c (coefBlock b s len scale c) cb (preprocess b s c cb len scale) :=
  foldl_range_induction (P := BlocksDone b s c (coefBlock b s len scale c)) cb (.start hempty _)
    fun _ _ _ h => h.next ho hc

/-! ## The channels -/

/-- A loop whose first part has no failure goes on. -/
theorem untilFailure_append {f : State → Nat → State × Bool} {cs : List Nat} (ds : List Nat) {s : State}
    (h : (untilFailure f cs s).2 = none) :
    untilFailure f (cs ++ ds) s = untilFailure f ds (untilFailure f cs s).1 := by
  induction cs generalizing s with
  | nil => rfl
  | cons c cs ih =>
    cases hc : (f s c).2 with
    | true => simp [untilFailure, hc] at h
    | false =>
      simp only [untilFailure, hc, Bool.false_eq_true, if_false, List.cons_append] at h ⊢
      exact ih h

/-- A loop over the channels below `n` of which none fails. -/
theorem untilFailure_none {I : Nat → State → Prop} {f : State → Nat → State × Bool} {n : Nat} {s : State} (hs : I 0 s)
    (hok : ∀ (t : State) (c : Nat), c < n → I c t → (f t c).2 = false ∧ I (c + 1) (f t c).1) :
    ∃ t : State, untilFailure f (List.range n) s = (t, none) ∧ I n t := by
  have hloop := untilFailure_range (Q := fun _ => False) hs (fun t c hc ht _ => (hok t c hc ht).2)
    fun t c hc ht hfail => by
      obtain ⟨hok, -⟩ := hok t c hc ht
      cases hok.symm.trans hfail
  obtain ⟨hnone, ht⟩ | ⟨-, hfalse⟩ := hloop
  · exact ⟨_, Prod.ext rfl hnone, ht⟩
  · exact hfalse.elim

/-- A loop over the channels below `n` of which `c` is the first to fail. -/
theorem untilFailure_some {I : Nat → State → Prop} {Q : State → Prop} {f : State → Nat → State × Bool} {n c : Nat}
    {s : State} (hc : c < n) (hs : I 0 s)
    (hok : ∀ (t : State) (d : Nat), d < c → I d t → (f t d).2 = false ∧ I (d + 1) (f t d).1)
    (hfail : ∀ t : State, I c t → (f t c).2 = true ∧ Q (f t c).1) :
    ∃ t : State, untilFailure f (List.range n) s = (t, some c) ∧ Q t := by
  obtain ⟨t, ht, hI⟩ := untilFailure_none hs hok
  obtain ⟨hbad, hQ⟩ := hfail t hI
  have hsplit : List.range n = List.range c ++ c :: List.range' (c + 1) (n - c - 1) := by
    have happend := @List.range'_append_1 0 c (n - c - 1 + 1)
    rw [Nat.zero_add] at happend
    rw [List.range_eq_range', List.range_eq_range', ← List.range'_succ, happend]
    congr 1
    omega
  refine ⟨_, ?_, hQ⟩
  rw [hsplit, untilFailure_append _ (congrArg Prod.snd ht), ht]
  simp only [untilFailure, hbad, if_true]

/-- The channels below `c` were given their blocks from `s` on, each `cb` of them; the others have none
(R215). -/
structure ChannelsDone (b : Config.Build) (s : State) (cb : Nat) (block : Nat → Nat → List FReal) (c : Nat)
    (t : State) : Prop where
  converted : Converted b s (c * cb) (plansUsed s (c * cb)) t
  fsm : t.fsm = .initialized
  done : ∀ d : Nat, d < c → (t.chan d).coefNBlocks = BitVec.ofNat 32 cb ∧
    HoldsBlocks s.lat.prec cb (block d) (t.chan d).coef
  rest : ∀ d : Nat, c ≤ d → t.chan d = freeCoef (s.chan d)

/-- Channel `c` failed, all its blocks having been attempted, and those below it were given theirs from `s` on
(R217). -/
structure ChannelFailed (b : Config.Build) (s : State) (cb : Nat) (block : Nat → Nat → List FReal) (c : Nat)
    (t : State) : Prop where
  converted : Converted b s (c * cb + cb) (plansUsed s (c * cb + cb) ++ blockFailures c cb (block c)) t
  fsm : t.fsm = .initialized

namespace ChannelsDone

variable {b : Config.Build} {s t : State} {cb len c : Nat} {scale : Word64}

/-- A channel attempted next. -/
theorem attempted (h : ChannelsDone b s cb (coefBlock b s len scale) c t) (ho : s.lat.order < 32)
    (hc : c < s.chans.length) :
    BlocksDone b t c (coefBlock b s len scale c) cb (preprocess b t c cb len scale) := by
  have ho' : t.lat.order < 32 := h.converted.lat ▸ ho
  have hempty : (t.chan c).coef = [] := congrArg Channel.coef (h.rest c le_rfl)
  exact h.converted.coefBlock_eq len scale c ▸
    preprocess_done b ho' (h.converted.chans.symm ▸ hc) hempty cb len scale

/-- All that was converted once a further channel was attempted. -/
theorem converted_attempted (h : ChannelsDone b s cb (coefBlock b s len scale) c t) (ho : s.lat.order < 32)
    (hc : c < s.chans.length) :
    Converted b s (c * cb + cb) (plansUsed s (c * cb + cb) ++ blockFailures c cb (coefBlock b s len scale c))
      (preprocess b t c cb len scale).1 := by
  have hconv := h.converted.trans (h.attempted ho hc).converted ho
  rwa [← List.append_assoc, h.converted.plansUsed_add ho] at hconv

/-- A channel whose blocks are finite is given them. -/
theorem next (h : ChannelsDone b s cb (coefBlock b s len scale) c t) (ho : s.lat.order < 32)
    (hc : c < s.chans.length) (hgood : ¬SomeBad cb (coefBlock b s len scale c)) :
    (setCoeffChannel b cb len scale t c).2 = false ∧
      ChannelsDone b s cb (coefBlock b s len scale) (c + 1) (setCoeffChannel b cb len scale t c).1 := by
  have hblocks := h.attempted ho hc
  have hconv := h.converted_attempted ho hc
  have hok : (preprocess b t c cb len scale).2 = false := by
    rw [← Bool.not_eq_true, hblocks.failed]
    exact hgood
  rw [blockFailures_eq_nil c hgood, List.append_nil, ← Nat.succ_mul] at hconv
  have hroom : c < (preprocess b t c cb len scale).1.chans.length := hconv.chans.symm ▸ hc
  simp only [setCoeffChannel, hok, Bool.false_eq_true, if_false, true_and]
  refine ⟨hconv.setCoefs c _ _, hblocks.fsm.trans h.fsm, fun d hd => ?_, fun d hd => ?_⟩
  · by_cases hdc : d = c
    · subst hdc
      rw [chan_setChan_self _ _ _ hroom]
      exact ⟨rfl, h.converted.lat ▸ hblocks.holds⟩
    · rw [chan_setChan_ne _ _ _ _ hdc, hblocks.other d hdc]
      exact h.done d (by omega)
  · have hdc : d ≠ c := by omega
    rw [chan_setChan_ne _ _ _ _ hdc, hblocks.other d hdc]
    exact h.rest d (by omega)

/-- A channel of which a block is not finite fails, all its blocks having been attempted. -/
theorem fails (h : ChannelsDone b s cb (coefBlock b s len scale) c t) (ho : s.lat.order < 32)
    (hc : c < s.chans.length) (hbad : SomeBad cb (coefBlock b s len scale c)) :
    (setCoeffChannel b cb len scale t c).2 = true ∧
      ChannelFailed b s cb (coefBlock b s len scale) c (setCoeffChannel b cb len scale t c).1 := by
  have hblocks := h.attempted ho hc
  have hfail := hblocks.failed.2 hbad
  simp only [setCoeffChannel, hfail, if_true, true_and]
  exact ⟨h.converted_attempted ho hc, hblocks.fsm.trans h.fsm⟩

end ChannelsDone

/-- The state in which the loop of `SET_COEFF` starts (R215): no channel has coefficients. -/
theorem channelsDone_start (b : Config.Build) (s : State) (cb : Nat) (block : Nat → Nat → List FReal) :
    ChannelsDone b s cb block 0 { freeCoefs s with fsm := .initialized } where
  converted := by
    rw [Nat.zero_mul]
    exact
      { writes := ((Writes.refl b _ s).freeCoefs (by simp)).update (by simp) (.fsm _ .initialized)
        chans := List.length_map ..
        chan := fun d => by
          have hfree := congrArg freeCoef (chan_freeCoefs s d)
          exact hfree
        scr := fun _ _ => rfl
        plan := rfl
        log := ⟨rfl, rfl, rfl⟩ }
  fsm := rfl
  done := fun d hd => absurd hd d.not_lt_zero
  rest := fun d _ => chan_freeCoefs s d

end Sys2Proof.Machine
end

section
/-! `SET_COEFF` (`43_engine.md` R215 to R217, `42_coeff_preprocessor.md` R193): its checks, its two endings, and the
statements about both. -/

namespace Sys2Proof.Machine

/-! One theorem is checked after the other: checked side by side, they take a thread each. -/
set_option Elab.async false

/-! ## The checks -/

/-- A command of a build that checks a list and then has an effect, in an engine: the check found is raised and nothing
else happens. -/
theorem execWith_raises {b : Config.Build} {i : Instr} {s effect : State} {cs : List Check} {code : ResultCode}
    {w : Word} (hexec : execWith b i s = .next (whenConstructed s (checked s cs effect))) (hs : s.fsm ≠ .uninit)
    (h : firstFailure cs = some (code, w)) : execWith b i s = .next (raise s code w) := by
  rw [hexec, whenConstructed_pass s _ hs, checked, h]

/-- Block counts out of range (R216 row 1). -/
def BadBlockCount (s : State) : Prop :=
  s.arg.coeffBlocks.toNat = 0 ∨ s.lat.nBlocks.toNat < s.arg.coeffBlocks.toNat

/-- The check of the block count. -/
theorem blockCount_fails_iff (s : State) :
    (decide (s.arg.coeffBlocks = 0#32) || decide (s.lat.nBlocks.toNat < s.arg.coeffBlocks.toNat)) = true ↔
      BadBlockCount s := by
  rw [Bool.or_eq_true, decide_eq_true_iff, decide_eq_true_iff, BadBlockCount, ← BitVec.toNat_inj]
  rfl

/-- A block count in range passes it. -/
theorem blockCount_passes {s : State} (h : ¬BadBlockCount s) :
    (decide (s.arg.coeffBlocks = 0#32) || decide (s.lat.nBlocks.toNat < s.arg.coeffBlocks.toNat)) = false :=
  Bool.eq_false_iff.2 fun hfail => h ((blockCount_fails_iff s).1 hfail)

/-- Arguments of `SET_COEFF` in range (R216 rows 1 and 2). -/
structure SetCoeffArgs (b : Config.Build) (s : State) : Prop where
  built : s.fsm ≠ .uninit
  blocks : ¬BadBlockCount s
  len : s.arg.coeffLen.toNat ≤ b.cinMaxElems

/-- They pass the checks, and the capacity check is next (R216 row 3). -/
theorem SetCoeffArgs.exec {b : Config.Build} {s : State} (h : SetCoeffArgs b s) :
    execWith b .setCoeff s = .next
      (if b.coefMaxBytes < coefBytes s then
        raise (logEvent b s (setCoeffFailRecord 0xFF#8 .eAlloc)) .eAlloc 3#32
      else setCoeffEffect b s) := by
  have hpass : ∀ c ∈ setCoeffChecks b s, c.fails = false := by
    rw [setCoeffChecks, List.forall_mem_cons, List.forall_mem_singleton]
    exact ⟨blockCount_passes h.blocks, decide_eq_false (Nat.not_lt.2 h.len)⟩
  change Host.Outcome.next (whenConstructed s (checked s _ _)) = _
  rw [whenConstructed_pass s _ h.built, checked_pass s _ hpass]

/-! ## The loop -/

/-- What a command that writes the coefficient sets and `fsm` leaves of the engine. -/
theorem Writes.sameControl {b : Config.Build} {s t : State} (h : Writes b [.coefs] s t) :
    SameControl { s with fsm := t.fsm } t := by
  obtain ⟨hsetup, -⟩ := h.setup_eq (by simp)
  obtain ⟨hcounters, -⟩ := h.counters_eq (by simp) (by simp) (by simp)
  simp only [State.setup, State.counters, Prod.mk.injEq] at hsetup hcounters
  obtain ⟨hlat, htable, hspacing, hvec⟩ := hsetup
  obtain ⟨hblock, hsel⟩ := hcounters
  exact ⟨rfl, hlat, hblock, hsel, htable, hspacing, hvec⟩

/-- The channels that `SET_COEFF` builds are there. -/
theorem EngineInv.coefChannels_le {b : Config.Build} {s : State} (h : EngineInv b s) (hf : s.fsm ≠ .uninit) :
    coefChannels s ≤ s.chans.length := by
  rw [h.chans]
  exact (Nat.min_le_right _ _).trans (h.built hf).channelsHigh

/-- Block `i` of channel `c` that `SET_COEFF` builds (R193, R215). -/
def newBlock (b : Config.Build) (s : State) (c i : Nat) : List FReal :=
  coefBlock b s s.arg.coeffLen.toNat s.arg.scale c i

/-- With finite blocks `SET_COEFF` ends in `READY`, every channel it builds having its blocks (R215). -/
theorem setCoeffEffect_finite {b : Config.Build} {s : State} (ho : s.lat.order < 32)
    (hroom : coefChannels s ≤ s.chans.length)
    (hgood : ∀ c : Nat, c < coefChannels s → ¬SomeBad s.arg.coeffBlocks.toNat (newBlock b s c)) :
    ∃ u : State, ChannelsDone b s s.arg.coeffBlocks.toNat (newBlock b s) (coefChannels s) u ∧
      setCoeffEffect b s = succeed { u with fsm := .ready } 0#32 := by
  obtain ⟨u, hloop, hdone⟩ := untilFailure_none (channelsDone_start b s s.arg.coeffBlocks.toNat (newBlock b s))
    fun t c hc h => h.next ho (hc.trans_le hroom) (hgood c hc)
  exact ⟨u, hdone, by simp only [setCoeffEffect, hloop]⟩

/-- At the first channel that has a block which is not finite `SET_COEFF` fails (R217). -/
theorem setCoeffEffect_fails {b : Config.Build} {s : State} (ho : s.lat.order < 32)
    (hroom : coefChannels s ≤ s.chans.length) {c : Nat} (hc : c < coefChannels s)
    (hgood : ∀ d : Nat, d < c → ¬SomeBad s.arg.coeffBlocks.toNat (newBlock b s d))
    (hbad : SomeBad s.arg.coeffBlocks.toNat (newBlock b s c)) :
    ∃ v : State, ChannelFailed b s s.arg.coeffBlocks.toNat (newBlock b s) c v ∧
      setCoeffEffect b s = raise (logEvent b (freeCoefs v) (setCoeffFailRecord (BitVec.ofNat 8 c) .ePreprocess))
        .ePreprocess (BitVec.ofNat 32 c) := by
  obtain ⟨v, hloop, hfailed⟩ := untilFailure_some hc
    (channelsDone_start b s s.arg.coeffBlocks.toNat (newBlock b s))
    (fun t d hd h => h.next ho ((hd.trans hc).trans_le hroom) (hgood d hd))
    fun t h => h.fails ho (hc.trans_le hroom) hbad
  exact ⟨v, hfailed, by simp only [setCoeffEffect, hloop]⟩

/-! ## The statements -/

/-- The coefficient count of each channel after the loop. -/
theorem ChannelsDone.count {b : Config.Build} {s t : State} {cb n : Nat} {block : Nat → Nat → List FReal}
    (h : ChannelsDone b s cb block n t) (c : Nat) :
    (t.chan c).coefNBlocks = if c < n then BitVec.ofNat 32 cb else 0#32 := by
  by_cases hc : c < n
  · obtain ⟨hcount, -⟩ := h.done c hc
    rw [hcount, if_pos hc]
  · rw [h.rest c (Nat.le_of_not_lt hc), if_neg hc]
    rfl

/-- Settles O38: the loop over the channels keeps `ChannelsDone`, from which the statement is read. -/
theorem setCoeffResult : Obligations.SetCoeffResult := by
  intro b s hb hs hf nch cb l block hcb hcbB hlen hcap hfin
  have ho : s.lat.order < 32 := hs.order_lt hb hf
  have hblocks : ¬BadBlockCount s := by rintro (h0 | hlt) <;> omega
  have hargs : SetCoeffArgs b s := ⟨hf, hblocks, hlen⟩
  obtain ⟨u, hdone, heffect⟩ := setCoeffEffect_finite (b := b) ho (hs.coefChannels_le hf) fun c hc => by
    rintro ⟨i, hi, x, hx, hbad⟩
    rw [hfin c i hc hi x hx] at hbad
    cases hbad
  have hexec : execWith b .setCoeff s = .next (succeed { u with fsm := .ready } 0#32) := by
    have hfits : ¬b.coefMaxBytes < coefBytes s := Nat.not_lt.2 hcap
    rw [hargs.exec, if_neg hfits, heffect]
  have hwrites := writes_of_exec hexec
  obtain ⟨hregs, hport⟩ := hwrites.sameHostSide
  have hconv := hdone.converted
  refine ⟨_, hexec, fun hbuild => ?default, ends_succeed _ _, rfl, hregs, hport,
    hwrites.sameMemory (by simp [classesOf]), hwrites.sameControl, fun c => ?chan, fun c i e hc hi he => ?stored,
    fun c hc => ?rest, fun i hi => ?scr, fun h0 => ?idle, fun h1 => ?plan⟩
  case default =>
    rw [exec_eq_execWith, ← hbuild]
    exact hexec
  case chan =>
    have hchan := eq_of_freeCoef (hconv.chan c)
    rw [hdone.count c] at hchan
    exact hchan
  case stored =>
    obtain ⟨-, hholds⟩ := hdone.done c hc
    have hu : Stored u (.coef c i) e (nth (block c i) e) :=
      HoldsBlocks.stored (hconv.lat.symm ▸ hholds) hi ((c2iBlock_length ..).symm ▸ he)
    exact hu.congr ⟨rfl, rfl⟩ rfl
  case rest => exact congrArg Channel.coef (hdone.rest c hc)
  case scr => exact hconv.scr i (hi.imp id fun h0 => by rw [show coefChannels s = 0 from h0, Nat.zero_mul])
  case idle => exact hconv.plan_unused (Nat.mul_eq_zero.2 (.inl h0)) rfl ⟨rfl, rfl, rfl⟩
  case plan =>
    have hk : coefChannels s * s.arg.coeffBlocks.toNat ≠ 0 :=
      Nat.mul_ne_zero (Nat.one_le_iff_ne_zero.1 h1) (Nat.one_le_iff_ne_zero.1 hcb)
    exact hconv.planUsed ho hk rfl ⟨rfl, rfl, rfl⟩

/-- The log of a `SET_COEFF` that failed at channel `c` (R30, R193, R217). -/
theorem ChannelFailed.log {b : Config.Build} {s v : State} {cb c : Nat} {block : Nat → Nat → List FReal}
    (h : ChannelFailed b s cb block c v) (hcb : cb ≠ 0) (hs : LogInv b s) (r : LogRecord) :
    LogTakes b.logDepth s (logEvent b (freeCoefs v) r) (newPlan s false ++ blockFailures c cb (block c) ++ [r]) := by
  have hk : c * cb + cb ≠ 0 := by omega
  have hlog := h.converted.log
  rw [plansUsed, if_neg hk] at hlog
  have hfreed : SameLog v (freeCoefs v) := ⟨rfl, rfl, rfl⟩
  exact (((logTakes_offered hs.depth _).congr hlog).congr hfreed).logEvent r

/-- Settles O39: the checks in their order, and at the first channel that fails `ChannelFailed`, from which the
statement is read. -/
theorem setCoeffFailures : Obligations.SetCoeffFailures := by
  intro b s hf nch cb l badArgs badLen tooBig block bad
  have hexec : execWith b .setCoeff s = .next (whenConstructed s (checked s (setCoeffChecks b s) _)) := rfl
  refine ⟨fun hargs => ?count, fun hargs hlen => ?len, fun hargs hlen hbig => ?capacity,
    fun hargs hlen hfits hb hs hlog c hc hbad hgood => ?block, exec_eq_execWith _ _⟩
  case count => exact execWith_raises hexec hf (firstFailure_cons_fail _ ((blockCount_fails_iff s).2 hargs))
  case len =>
    refine execWith_raises hexec hf ?_
    rw [setCoeffChecks, firstFailure_cons_pass _ (blockCount_passes hargs),
      firstFailure_cons_fail _ (decide_eq_true hlen)]
  case capacity =>
    have hbytes : b.coefMaxBytes < coefBytes s := hbig
    have hok : SetCoeffArgs b s := ⟨hf, hargs, Nat.not_lt.1 hlen⟩
    rw [hok.exec, if_pos hbytes]
    rfl
  case block =>
    have hok : SetCoeffArgs b s := ⟨hf, hargs, Nat.not_lt.1 hlen⟩
    have ho : s.lat.order < 32 := hs.order_lt hb hf
    have hcb : s.arg.coeffBlocks.toNat ≠ 0 := fun h0 => hargs (.inl h0)
    have hroom : ¬b.coefMaxBytes < coefBytes s := hfits
    obtain ⟨v, hfailed, heffect⟩ := setCoeffEffect_fails ho (hs.coefChannels_le hf) hc hgood hbad
    have hnext := hok.exec
    rw [if_neg hroom, heffect] at hnext
    have hwrites := writes_of_exec hnext
    obtain ⟨hregs, hport⟩ := hwrites.sameHostSide
    have hcontrol := hwrites.sameControl
    have hplan := hfailed.converted.plan
    rw [if_neg (by omega)] at hplan
    refine ⟨_, hnext, ends_raise _ _ (by decide), ?fsm, hregs, hport,
      hwrites.sameMemory (by simp [classesOf]), fun d => ?chan, hcontrol.lat, hcontrol.tableSize, hcontrol.spacing,
      hcontrol.randvec, hcontrol.blockCounter, hcontrol.bufSel, fun i hi => ?scr, fun inv inpl i => ?plan, ?log⟩
    case fsm => exact (logEvent_fsm ..).trans hfailed.fsm
    case chan =>
      refine Eq.trans ?_ ((chan_freeCoefs v d).trans (hfailed.converted.chan d))
      rw [State.chan, raise_chans, logEvent_chans, State.chan]
    case scr => exact ((sameArena_logEvent b (freeCoefs v) _).getBuf (.scr i)).trans (hfailed.converted.scr i (.inl hi))
    case plan =>
      rw [raise_plan, logEvent_plan, freeCoefs_plan, hplan, getLsbD_usePlan b ho]
      cases inv <;> cases inpl <;> simp
    case log => exact (hfailed.log hcb hlog _).congr ⟨rfl, rfl, rfl⟩

end Sys2Proof.Machine
end

section
/-! The engine's state and its counters outside `RUN` (`43_engine.md` R210, R230, R231): which command writes `fsm`, and
what `RESET` and `IS_INITIALIZED` leave. -/

namespace Sys2Proof.Machine

/-! One theorem is checked after the other: checked side by side, they take a thread each. -/
set_option Elab.async false

/-! ## Who writes `fsm` -/

/-- Updates keep the state of the engine, but for those of `SET_COEFF` and `CONSTRUCT`. -/
theorem Update.fsm_eq {b : Config.Build} {w : WriteClass} {s t : State} (h : Update b w s t) (hc : w ≠ .coefs)
    (hw : w ≠ .construct) : t.fsm = s.fsm := by
  cases h with
  | fsm => exact absurd rfl hc
  | tearDown | build => exact absurd rfl hw
  | log _ r => exact logEvent_fsm ..
  | _ => rfl

/-- The state of the engine is kept unless `SET_COEFF` or `CONSTRUCT` writes it. -/
theorem Writes.fsm_eq {b : Config.Build} {K : List WriteClass} {s t : State} (h : Writes b K s t) (hc : .coefs ∉ K)
    (hK : .construct ∉ K) : t.fsm = s.fsm :=
  h.same State.fsm fun _ _ _ hw hu => hu.fsm_eq (ne_of_closed hw hc nofun) (ne_of_closed hw hK nofun)

/-- Building a channel's coefficient blocks leaves the state of the engine. -/
theorem preprocess_fsm (b : Config.Build) (s : State) (c cb len : Nat) (scale : Word64) :
    (preprocess b s c cb len scale).1.fsm = s.fsm := by
  refine List.foldlRecOn (motive := fun acc : State × Bool => acc.1.fsm = s.fsm) _ _ rfl fun acc hacc i _ => ?_
  have hblock : ∀ (start n : Nat) (block : List FReal),
      (c2iScan b (appendCoef (c2iScratch b acc.1 c start n scale) c block) block).fsm = s.fsm := fun start n block => by
    rw [((Writes.refl b [] _).c2iScan block).fsm_eq List.not_mem_nil List.not_mem_nil, appendCoef_fsm, c2iScratch_fsm,
      hacc]
  simp only [preprocessBlock]
  split
  · exact hblock _ _ _
  · exact (logEvent_fsm ..).trans (hblock _ _ _)

/-- A turn of the loop of `SET_COEFF` leaves the state of the engine. -/
theorem setCoeffChannel_fsm (b : Config.Build) (cb len : Nat) (scale : Word64) (s : State) (c : Nat) :
    (setCoeffChannel b cb len scale s c).1.fsm = s.fsm := by
  have hpre := preprocess_fsm b s c cb len scale
  simp only [setCoeffChannel]
  split
  · exact hpre
  · exact hpre

/-- What `SET_COEFF` does with the state of the engine: an error other than `E_PREPROCESS` keeps it, a block that is not
finite leaves `INITIALIZED`, and a success `READY` (R210, R215, R217). -/
inductive SetCoeffEnds (s t : State) : Prop where
  | kept (code : ResultCode) (hcode : code ≠ .ok ∧ code ≠ .ePreprocess) (h : t.result = code.word) (hf : t.fsm = s.fsm)
  | preprocess (h : t.result = ResultCode.ePreprocess.word) (hf : t.fsm = .initialized)
  | done (h : t.result = 0#32) (hf : t.fsm = .ready)

/-- `SET_COEFF` ends in one of these ways. -/
theorem setCoeffWith_ends (b : Config.Build) (s : State) : SetCoeffEnds s (setCoeffWith b s) := by
  refine whenConstructed_checked ?state (fun c hc => ?arg) fun _ _ => ?effect
  case state => exact .kept .eState (by decide) rfl rfl
  case arg =>
    obtain rfl | rfl : c = _ ∨ c = _ := by simpa [setCoeffChecks] using hc
    · exact .kept .eBadArg (by decide) rfl rfl
    · exact .kept .eBadArg (by decide) rfl rfl
  case effect =>
    split
    · exact .kept .eAlloc (by decide) rfl (logEvent_fsm ..)
    · have hloop : (untilFailure (setCoeffChannel b s.arg.coeffBlocks.toNat s.arg.coeffLen.toNat s.arg.scale)
          (List.range (coefChannels s)) { freeCoefs s with fsm := .initialized }).1.fsm = .initialized :=
        untilFailure_keeps (P := fun u => u.fsm = .initialized) _ rfl fun u c _ hu =>
          (setCoeffChannel_fsm b _ _ _ u c).trans hu
      simp only [setCoeffEffect]
      split
      · exact .done rfl rfl
      · next heq =>
        rw [heq] at hloop
        exact .preprocess rfl ((logEvent_fsm ..).trans hloop)

/-- No other code is that of a block that is not finite. -/
theorem ResultCode.word_ne_ePreprocess {code : ResultCode} (h : code ≠ .ePreprocess) :
    code.word ≠ ResultCode.ePreprocess.word := by
  cases code
  case ePreprocess => exact absurd rfl h
  all_goals decide

/-- The rows of R210 for `SET_COEFF`, told apart by the result code. -/
theorem SetCoeffEnds.transitions {s t : State} (h : SetCoeffEnds s t) :
    (t.result = 0#32 → t.fsm = .ready) ∧
    (t.result = ResultCode.ePreprocess.word → t.fsm = .initialized) ∧
    (t.result = ResultCode.eBadArg.word ∨ t.result = ResultCode.eAlloc.word ∨ t.result = ResultCode.eState.word →
      t.fsm = s.fsm) := by
  cases h with
  | kept code hcode hr hf =>
    obtain ⟨hok, hpre⟩ := hcode
    exact ⟨fun h0 => absurd (hr.symm.trans h0) (ResultCode.word_ne_zero hok),
      fun h1 => absurd (hr.symm.trans h1) (ResultCode.word_ne_ePreprocess hpre), fun _ => hf⟩
  | preprocess hr hf =>
    rw [hr]
    exact ⟨fun h0 => absurd h0 (by decide), fun _ => hf, fun h1 => absurd h1 (by decide)⟩
  | done hr hf =>
    rw [hr]
    exact ⟨fun _ => hf, fun h0 => absurd h0 (by decide), fun h1 => absurd h1 (by decide)⟩

/-- `CONSTRUCT` ends in `INITIALIZED` with code 0, or with another code and no engine (R210, R211). -/
theorem constructWith_ends (b : Config.Build) (s : State) :
    ((constructWith b s).result = 0#32 ∧ (constructWith b s).fsm = .initialized) ∨
    ((constructWith b s).result ≠ 0#32 ∧ (constructWith b s).fsm = .uninit) := by
  unfold constructWith
  rcases firstFailure_cases (constructChecks b s.cfg) with ⟨-, h⟩ | ⟨pre, c, post, hlist, -, -, h⟩
  · rw [h]
    exact .inl ⟨rfl, rfl⟩
  · have hcode : c.code ≠ .ok := constructChecks_code b s.cfg c (by rw [hlist]; simp)
    rw [h]
    exact .inr ⟨ResultCode.word_ne_zero hcode, logEvent_fsm ..⟩

/-- Settles O8: `CONSTRUCT` and `SET_COEFF` by their endings, every other command by the classes it writes. -/
theorem fsmTransitions : Obligations.FsmTransitions := by
  refine ⟨fun i s t h => ?_, fun s t w hw h => ?_, fun s t rest hp h => ?_⟩
  · rw [exec_eq_execWith] at h
    have hset : i = .setCoeff → SetCoeffEnds s t := by
      rintro rfl
      cases h
      exact setCoeffWith_ends Config.build s
    refine ⟨?construct, fun he _ => (hset he).transitions.1, fun he _ => (hset he).transitions.2.1,
      fun he => (hset he).transitions.2.2, fun hcon hset => ?other⟩
    case construct =>
      rintro rfl
      cases h
      obtain ⟨hr, hf⟩ | ⟨hr, hf⟩ := constructWith_ends Config.build s
      · exact ⟨fun _ => hf, fun hn => absurd hr hn⟩
      · exact ⟨fun h0 => absurd h0 hr, fun _ => hf⟩
    case other =>
      refine (writes_of_exec h).fsm_eq ?_ ?_
      · cases i <;> simp [classesOf] at hset ⊢
      · cases i <;> simp [classesOf] at hcon ⊢
  · unfold issue at h
    split at h
    · next i hi =>
      rw [(reservedWord_eq_false_iff w).2 ⟨i, hi⟩] at hw
      cases hw
    · cases h
      rfl
  · rw [step, nextEvent_serve _ _ hp] at h
    cases h
    rfl

/-! ## RESET and IS_INITIALIZED -/

/-- `RESET` in an engine. -/
theorem exec_reset {s : State} (hf : s.fsm ≠ .uninit) : exec .reset s = .next (succeed (resetEffect s) 0#32) :=
  congrArg _ (whenConstructed_pass s _ hf)

/-- Settles O55: the channels by `EngineShape.chan_resetEffect`; nothing else is written. -/
theorem resetResult : Obligations.ResetResult := by
  intro s hs hf
  have hchan : ∀ c : Nat, (succeed (resetEffect s) 0#32).chan c = (resetEffect s).chan c := fun _ => rfl
  refine ⟨_, exec_reset hf, ends_succeed _ _, rfl, rfl, fun c hc => ?_, fun c hc => ?_, rfl⟩
  · have hlen : c < s.chans.length := by
      rw [hs.chans]
      exact hc.trans_le (hs.built hf).channelsHigh
    rw [hchan, EngineShape.chan_resetEffect s c hlen, if_pos hc]
    rfl
  · rw [hchan]
    by_cases hlen : c < s.chans.length
    · rw [EngineShape.chan_resetEffect s c hlen, if_neg (Nat.not_lt.2 hc)]
    · rw [chan_out s c (Nat.le_of_not_lt hlen), chan_out _ c (by simpa using hlen)]

/-- Settles O56: the command has one path. -/
theorem isInitializedResult : Obligations.IsInitializedResult := fun _ => rfl

end Sys2Proof.Machine
end

section
/-! SUPPORT. What a turn of `RUN` for a channel (`43_engine.md` R220 to R227) reaches: the buffers of its own channel and
`SCR[0]`, and of the channel itself the counter of blocks, the overflow record and the dither state. -/

namespace Sys2Proof.Machine

/-! One theorem is checked after the other: checked side by side, they take a thread each. -/
set_option Elab.async false

/-! ## What is left of the engine -/

/-- The engine's control kept twice. -/
theorem SameControl.trans {s t u : State} (h : SameControl s t) (h' : SameControl t u) : SameControl s u :=
  ⟨h'.fsm.trans h.fsm, h'.lat.trans h.lat, h'.blockCounter.trans h.blockCounter, h'.bufSel.trans h.bufSel,
    h'.tableSize.trans h.tableSize, h'.spacing.trans h.spacing, h'.randvec.trans h.randvec⟩

/-- Having the same control is reflexive. -/
theorem SameControl.refl (s : State) : SameControl s s := ⟨rfl, rfl, rfl, rfl, rfl, rfl, rfl⟩

/-- More classes open. -/
theorem Writes.mono {b : Config.Build} {K K' : List WriteClass} {s t : State} (h : Writes b K s t)
    (hK : ∀ w ∈ K, w ∈ K') : Writes b K' s t :=
  Relation.ReflTransGen.mono (fun _ _ ⟨w, hw, hu⟩ => ⟨w, hw.imp_right (hK w), hu⟩) _ _ h

/-- Writes to the work state, the samples and the memory keep the control of the engine. -/
theorem Writes.control_eq {b : Config.Build} {K : List WriteClass} {s t : State} (h : Writes b K s t)
    (hK : ∀ w ∈ K, w = .samples ∨ w = .memory) : SameControl s t := by
  have hcoefs : .coefs ∉ K := fun hw => (hK _ hw).elim nofun nofun
  have hcon : .construct ∉ K := fun hw => (hK _ hw).elim nofun nofun
  have hres : .reset ∉ K := fun hw => (hK _ hw).elim nofun nofun
  have hcnt : .counters ∉ K := fun hw => (hK _ hw).elim nofun nofun
  obtain ⟨hsetup, -⟩ := h.setup_eq hcon
  obtain ⟨hcounters, -⟩ := h.counters_eq hcnt hres hcon
  simp only [State.setup, State.counters, Prod.mk.injEq] at hsetup hcounters
  obtain ⟨hlat, htable, hspacing, hvec⟩ := hsetup
  obtain ⟨hblock, hsel⟩ := hcounters
  exact ⟨h.fsm_eq hcoefs hcon, hlat, hblock, hsel, htable, hspacing, hvec⟩

/-- A buffer that `RUN` may write in its turn for channel `c`: one of the channel, or `SCR[0]`. -/
def BufRef.turnOf (c : Nat) : BufRef → Prop
  | .tb d _ => d = c
  | .ring d _ => d = c
  | .acc d => d = c
  | .scr i => i = 0
  | .coef _ _ => False
  | .invalid => False

/-- What happens to the arena in a turn for channel `c`: of the buffers that exist those listed may differ, and nothing
of another channel nor any scratch buffer but `SCR[0]`. -/
structure TurnFrame (c : Nat) (written : List BufRef) (s t : State) : Prop where
  control : SameControl s t
  chans : t.chans.length = s.chans.length
  coefs : (t.chan c).coefNBlocks = (s.chan c).coefNBlocks
  other : ∀ d : Nat, d ≠ c → t.chan d = s.chan d
  scr : ∀ i : Nat, i ≠ 0 → getBuf t (.scr i) = getBuf s (.scr i)
  buffers : SameBuffersBut s t written

/-- The other channels when a buffer of the turn is written. -/
theorem chan_setBuf_ne {c d : Nat} {r : BufRef} (s : State) (x : Buf) (hr : r.turnOf c) (hd : d ≠ c) :
    (setBuf s r x).chan d = s.chan d := by
  cases r with
  | tb | ring | acc =>
    obtain rfl := hr
    exact chan_setChan_ne _ _ _ _ hd
  | scr | coef | invalid => rfl

namespace TurnFrame

variable {b : Config.Build} {c : Nat} {W W' : List BufRef} {s t u : State}

/-- Which buffers exist is not changed. -/
theorem refValid (h : TurnFrame c W s t) (r : BufRef) : refValid t r = refValid s r := by
  have hn : ∀ d : Nat, (t.chan d).coefNBlocks = (s.chan d).coefNBlocks := fun d => by
    by_cases hd : d = c
    · rw [hd, h.coefs]
    · rw [h.other d hd]
  have hc : t.channels = s.channels := by rw [State.channels, h.control.lat, State.channels]
  rw [Bool.eq_iff_iff]
  cases r <;> simp [Machine.refValid, h.control.fsm, h.control.lat, hc, hn]

/-- The arena kept. -/
theorem of_arena (hc : SameControl s t) (h : SameArena s t) : TurnFrame c [] s t where
  control := hc
  chans := congrArg List.length h.chans
  coefs := by rw [State.chan, h.chans, State.chan]
  other := fun d _ => by rw [State.chan, h.chans, State.chan]
  scr := fun i _ => h.getBuf _
  buffers := fun r _ _ => h.getBuf r

/-- Nothing happened. -/
theorem refl (c : Nat) (s : State) : TurnFrame c [] s s := of_arena (.refl s) ⟨rfl, rfl⟩

/-- One thing after the other. -/
theorem trans (h : TurnFrame c W s t) (h' : TurnFrame c W' t u) : TurnFrame c (W ++ W') s u where
  control := h.control.trans h'.control
  chans := h'.chans.trans h.chans
  coefs := h'.coefs.trans h.coefs
  other := fun d hd => (h'.other d hd).trans (h.other d hd)
  scr := fun i hi => (h'.scr i hi).trans (h.scr i hi)
  buffers := fun r hr hW => by
    rw [List.mem_append, not_or] at hW
    exact (h'.buffers r ((h.refValid r).trans hr) hW.2).trans (h.buffers r hr hW.1)

/-- More buffers listed. -/
theorem mono (h : TurnFrame c W s t) (hW : ∀ r ∈ W, r ∈ W') : TurnFrame c W' s t :=
  { h with buffers := fun r hr hn => h.buffers r hr fun hin => hn (hW r hin) }

/-- A buffer of the turn stored, whatever becomes of the counter of free values. -/
theorem setBuf {r : BufRef} (hv : Machine.refValid s r = true) (hr : r.turnOf c) (x : Buf) (n : Nat) :
    TurnFrame c [r] s { setBuf s r x with freeCtr := n } where
  control := ⟨setBuf_fsm .., setBuf_lat .., setBuf_blockCounter .., setBuf_bufSel .., setBuf_tableSize ..,
    setBuf_spacing .., setBuf_randvec ..⟩
  chans := by
    cases r with
    | tb | ring | acc => exact setChan_length ..
    | scr | coef | invalid => rfl
  coefs := by
    have hbook := congrArg Channel.coefNBlocks (setBuf_book s r x c)
    exact hbook
  other := fun d hd => chan_setBuf_ne s x hr hd
  scr := fun i hi => by
    cases r with
    | scr j =>
      obtain rfl : j = 0 := hr
      change (s.scr.set 0 x).getD i [] = s.scr.getD i []
      simp only [List.getD_eq_getElem?_getD, List.getElem?_set_ne hi.symm]
    | tb | ring | acc | coef | invalid => rfl
  buffers := fun r' hr' hn => getBuf_setBuf_ne s x hv hr' fun he => hn (he ▸ List.mem_singleton_self r)

/-- Reals stored to a buffer of the turn. -/
theorem storeReals {r : BufRef} (hv : Machine.refValid s r = true) (hr : r.turnOf c) (xs : List FReal) :
    TurnFrame c [r] s (storeReals s r xs) := setBuf hv hr _ _

/-- Reals stored to a part of a buffer of the turn. -/
theorem storeRealsAt {r : BufRef} (hv : Machine.refValid s r = true) (hr : r.turnOf c) (off : Nat) (xs : List FReal) :
    TurnFrame c [r] s (storeRealsAt s r off xs) := setBuf hv hr _ _

/-- A plan used. -/
theorem usePlan (b : Config.Build) (s : State) (inv inpl : Bool) : TurnFrame c [] s (usePlan b s inv inpl) :=
  of_arena (((Writes.refl b [] s).usePlan inv inpl).control_eq nofun) (sameArena_usePlan b s inv inpl)

/-- A log record. -/
theorem logEvent (b : Config.Build) (s : State) (r : LogRecord) : TurnFrame c [] s (logEvent b s r) :=
  of_arena (((Writes.refl b [] s).logEvent r).control_eq nofun) (sameArena_logEvent b s r)

/-- A transform into a buffer of the turn. -/
theorem transformed (b : Config.Build) (inv inpl : Bool) {dst : BufRef} (src : BufRef)
    (hv : Machine.refValid s dst = true) (hr : dst.turnOf c) :
    TurnFrame c [dst] s (transformed b s inv inpl dst src) :=
  have hplan := usePlan (c := c) b s inv inpl
  hplan.trans (storeReals ((hplan.refValid dst).trans hv) hr _)

/-- The channel replaced by one with the same buffers. -/
theorem setChan {ch : Channel} (htb0 : ch.tb0 = (s.chan c).tb0) (htb1 : ch.tb1 = (s.chan c).tb1)
    (hring : ch.ring = (s.chan c).ring) (hacc : ch.acc = (s.chan c).acc) (hcoef : ch.coef = (s.chan c).coef)
    (hn : ch.coefNBlocks = (s.chan c).coefNBlocks) : TurnFrame c [] s (s.setChan c ch) where
  control := ⟨rfl, rfl, rfl, rfl, rfl, rfl, rfl⟩
  chans := setChan_length ..
  coefs := chan_setChan_part Channel.coefNBlocks c fun _ => hn
  other := fun d hd => chan_setChan_ne _ _ _ _ hd
  scr := fun _ _ => rfl
  buffers := fun r _ _ => by
    cases r with
    | tb d i => exact chan_setChan_part (fun x => if i = 0 then x.tb0 else x.tb1) d fun _ => by rw [htb0, htb1]
    | ring d i => exact chan_setChan_part (fun x => x.ring.getD i []) d fun _ => by rw [hring]
    | acc d => exact chan_setChan_part Channel.acc d fun _ => hacc
    | coef d i => exact chan_setChan_part (fun x => x.coef.getD i []) d fun _ => by rw [hcoef]
    | scr | invalid => rfl

/-- A block counted. -/
theorem runCount (s : State) (c : Nat) : TurnFrame c [] s (runCount s c) := setChan rfl rfl rfl rfl rfl rfl

end TurnFrame

/-! ## The steps -/

/-- Step 5 of `RUN`: without coefficients the dirac path, with coefficients the recurrence (R224, R225). -/
def runProduct (k slot : Nat) (s : State) (c : Nat) : State :=
  if (s.chan c).coefNBlocks = 0#32 then runDirac slot s c else runConvolve k slot s c

/-- Steps 1 to 6 of `RUN` for channel `c` (R221 to R227). -/
def runWork (b : Config.Build) (k slot : Nat) (sel : Bool) (s : State) (c : Nat) : State :=
  runOutput b (runProduct k slot (runStore b sel slot (runCount (runInput b sel s c) c) c) c) c

/-- The samples that steps 1 to 6 leave in `SCR[0]`. -/
def runSamples (b : Config.Build) (k slot : Nat) (sel : Bool) (s : State) (c : Nat) : List FReal :=
  loadReals (runWork b k slot sel s c) (.scr 0)

/-- Whether step 7 passes: the inspected sample is finite (R227). -/
def runPasses (b : Config.Build) (k slot : Nat) (sel : Bool) (s : State) (c : Nat) : Bool :=
  isFinite (nth (runSamples b k slot sel s c) b.nonfiniteCheckIndex)

/-- `RUN` for a channel is steps 1 to 6, then the output of the samples or the record of the stop. -/
theorem runChannel_eq (b : Config.Build) (k slot : Nat) (sel : Bool) (s : State) (c : Nat) :
    runChannel b k slot sel s c =
      if runPasses b k slot sel s c then
        (encodeBlock (runWork b k slot sel s c) c 0 (runSamples b k slot sel s c), false)
      else (logEvent b (runWork b k slot sel s c) (runNonfiniteRecord (runWork b k slot sel s c) c), true) := rfl

/-- Steps 1 to 6 write the work state and the counters. -/
theorem Writes.runWork {b : Config.Build} {K : List WriteClass} {s t : State} (h : Writes b K s t) (hc : .counters ∈ K)
    (k slot : Nat) (sel : Bool) (c : Nat) : Writes b K s (runWork b k slot sel t c) :=
  (h.runToStore hc slot sel c).runProductOutput k slot c

/-- Every turn keeps the control of the engine. -/
theorem sameControl_runChannel (b : Config.Build) (k slot : Nat) (sel : Bool) (s : State) (c : Nat) :
    SameControl s (runChannel b k slot sel s c).1 := by
  have hin : Writes b [] s (runInput b sel s c) :=
    (((Writes.refl b [] s).storeRealsAt _ _ _).storeRealsAt _ _ _).transformed _ _ _ _
  have hcount : SameControl (runInput b sel s c) (runCount (runInput b sel s c) c) := ⟨rfl, rfl, rfl, rfl, rfl, rfl, rfl⟩
  have hstore : Writes b [] (runCount (runInput b sel s c) c)
      (runStore b sel slot (runCount (runInput b sel s c) c) c) := (Writes.refl b [] _).storeReals _ _
  have hwork : SameControl s (runWork b k slot sel s c) :=
    ((hin.control_eq nofun).trans hcount).trans ((hstore.runProductOutput k slot c).control_eq nofun)
  rw [runChannel_eq]
  split
  · exact hwork.trans
      (((Writes.refl b [.samples, .memory] _).encodeBlock (by simp) (by simp) c 0 (isReal_loadReals _ _)).control_eq
        (by simp))
  · exact hwork.trans (((Writes.refl b [] _).logEvent _).control_eq nofun)

/-- A turn for a channel of an engine, with a ring slot that exists. -/
structure Turn (s : State) (slot c : Nat) : Prop where
  built : s.fsm ≠ .uninit
  chan : c < s.channels
  room : c < s.chans.length
  slot : slot < s.lat.nBlocks.toNat

namespace Turn

variable {b : Config.Build} {slot c : Nat} {s t : State} {W : List BufRef}

/-- The turn goes on. -/
theorem next (h : Turn s slot c) (hf : TurnFrame c W s t) : Turn t slot c where
  built := by rw [hf.control.fsm]; exact h.built
  chan := by rw [State.channels, hf.control.lat]; exact h.chan
  room := by rw [hf.chans]; exact h.room
  slot := by rw [hf.control.lat]; exact h.slot

/-- The time segment buffers of the channel exist. -/
theorem valid_tb (h : Turn s slot c) (sel : Bool) : refValid s (.tb c (segment sel)) = true := by
  have hseg : segment sel < 2 := by cases sel <;> decide
  simp [refValid, h.built, h.chan, hseg]

/-- The current ring slot of the channel exists. -/
theorem valid_ring (h : Turn s slot c) : refValid s (.ring c slot) = true := by simp [refValid, h.built, h.chan, h.slot]

/-- The accumulator of the channel exists. -/
theorem valid_acc (h : Turn s slot c) : refValid s (.acc c) = true := by simp [refValid, h.built, h.chan]

/-- The scratch buffer of the output exists. -/
theorem valid_scr (h : Turn s slot c) : refValid s (.scr 0) = true := by simp [refValid, h.built]

/-- With one ring slot the current one is slot 0. -/
theorem slot_eq (h : Turn s slot c) (h1 : s.lat.nBlocks = 1#32) : slot = 0 := by
  have hlt := h.slot
  rw [h1] at hlt
  exact Nat.lt_one_iff.1 hlt

/-- Steps 1 and 2 write the two time segment buffers. -/
theorem runInput (h : Turn s slot c) (b : Config.Build) (sel : Bool) :
    TurnFrame c [.tb c (segment sel), .tb c (segment (!sel))] s (runInput b sel s c) := by
  have h1 := TurnFrame.storeRealsAt (h.valid_tb sel) rfl s.lat.blockLen.toNat (decodeBlock s c)
  have h2 := h1.trans (TurnFrame.storeRealsAt ((h.next h1).valid_tb (!sel)) rfl 0 (decodeBlock s c))
  have h3 := h2.trans (TurnFrame.transformed b false true (.tb c (segment sel)) ((h.next h2).valid_tb sel) rfl)
  exact h3.mono (by simp)

/-- Step 4 writes the current ring slot. -/
theorem runStore (h : Turn s slot c) (b : Config.Build) (sel : Bool) :
    TurnFrame c [.ring c slot] s (runStore b sel slot s c) := .storeReals h.valid_ring rfl _

/-- Step 5 writes the current ring slot or the accumulator. -/
theorem runProduct (h : Turn s slot c) (k : Nat) :
    TurnFrame c [.ring c slot, .acc c] s (runProduct k slot s c) := by
  have hring : ∀ xs : List FReal, s.lat.nBlocks = 1#32 →
      TurnFrame c [.ring c slot, .acc c] s (storeReals s (.ring c 0) xs) := fun xs h1 => by
    obtain rfl := h.slot_eq h1
    exact (TurnFrame.storeReals h.valid_ring rfl xs).mono (by simp)
  have hacc : ∀ {t : State} (xs : List FReal), TurnFrame c [.ring c slot, .acc c] s t →
      TurnFrame c [.ring c slot, .acc c] s (storeReals t (.acc c) xs) := fun xs ht =>
    (ht.trans (.storeReals (h.next ht).valid_acc rfl xs)).mono (by simp)
  have hkeep : TurnFrame c [.ring c slot, .acc c] s s := (TurnFrame.refl c s).mono (by simp)
  unfold Machine.runProduct runDirac runConvolve
  split
  · split
    · next h1 => exact hring _ h1
    · exact hacc _ hkeep
  · split
    · next h1 => exact hring _ h1
    · exact List.foldlRecOn (motive := TurnFrame c [.ring c slot, .acc c] s) _ _ (hacc _ hkeep) fun _ ht _ _ => hacc _ ht

/-- Step 6 writes the scratch buffer of the output. -/
theorem runOutput (h : Turn s slot c) (b : Config.Build) : TurnFrame c [.scr 0] s (runOutput b s c) := by
  have h1 := TurnFrame.storeReals (c := c) h.valid_scr rfl (mixOne s.lat.prec .output s.lat.size (unpack .p64 b.outScale)
    (loadReals s (if s.lat.nBlocks = 1#32 then .ring c 0 else .acc c)))
  exact (h1.trans (.transformed b true true (.scr 0) ((h.next h1).valid_scr) rfl)).mono (by simp)

/-- Steps 3 to 6 write the current ring slot, the accumulator and the scratch buffer of the output. -/
theorem afterInput (h : Turn s slot c) (b : Config.Build) (k : Nat) (sel : Bool) :
    TurnFrame c [.ring c slot, .acc c, .scr 0] s
      (Machine.runOutput b (Machine.runProduct k slot (Machine.runStore b sel slot (runCount s c) c) c) c) := by
  have h3 := TurnFrame.runCount s c
  have h4 := h3.trans ((h.next h3).runStore b sel)
  have h5 := h4.trans ((h.next h4).runProduct k)
  have h6 := h5.trans ((h.next h5).runOutput b)
  exact h6.mono (by simp)

/-- What steps 1 to 6 write. -/
theorem runWork (h : Turn s slot c) (b : Config.Build) (k : Nat) (sel : Bool) :
    TurnFrame c [.tb c (segment sel), .tb c (segment (!sel)), .ring c slot, .acc c, .scr 0] s
      (runWork b k slot sel s c) := by
  have h2 := h.runInput b sel
  exact h2.trans ((h.next h2).afterInput b k sel)

/-- The next half of the input: the decoded samples before the old second half (R221). -/
theorem getBuf_nextSegment (h : Turn s slot c) (b : Config.Build) (k : Nat) (sel : Bool) :
    getBuf (Machine.runWork b k slot sel s c) (.tb c (segment (!sel))) =
      splice s.lat.size (getBuf s (.tb c (segment (!sel)))) 0
        (packReals s.lat.prec (s.freeCtr + 1) 0 (decodeBlock s c)) := by
  have hne : BufRef.tb c (segment (!sel)) ≠ .tb c (segment sel) := by cases sel <;> simp [segment]
  have h1 := TurnFrame.storeRealsAt (h.valid_tb sel) rfl s.lat.blockLen.toNat (decodeBlock s c)
  have h2 := h1.trans (TurnFrame.storeRealsAt ((h.next h1).valid_tb (!sel)) rfl 0 (decodeBlock s c))
  have h3 := TurnFrame.transformed b false true (.tb c (segment sel)) ((h.next h2).valid_tb sel) rfl
  have hafter := ((h.next (h2.trans h3)).afterInput b k sel).buffers _ ((h.next (h2.trans h3)).valid_tb (!sel)) (by simp)
  have hstored : ∀ x : Buf, getBuf (setBuf (storeRealsAt s (.tb c (segment sel)) s.lat.blockLen.toNat (decodeBlock s c))
      (.tb c (segment (!sel))) x) (.tb c (segment (!sel))) = x := fun x => RoomOk.room (h.next h1).room x
  refine hafter.trans ((h3.buffers _ ((h.next h2).valid_tb (!sel)) (by simpa using hne)).trans ?_)
  refine Eq.trans (SameArena.getBuf ⟨rfl, rfl⟩ _) ((hstored _).trans ?_)
  rw [h1.buffers _ (h.valid_tb (!sel)) (by simpa using hne), storeRealsAt_lat, storeRealsAt_freeCtr]

/-- Step 3 counts the block, and no other step does (R222). -/
theorem processed_runWork (h : Turn s slot c) (b : Config.Build) (k : Nat) (sel : Bool) :
    ((Machine.runWork b k slot sel s c).chan c).processed.toNat =
      min ((s.chan c).processed.toNat + 1) s.lat.nBlocks.toNat := by
  have h2 := h.runInput b sel
  have hin : Writes b [] s (Machine.runInput b sel s c) :=
    (((Writes.refl b [] s).storeRealsAt _ _ _).storeRealsAt _ _ _).transformed _ _ _ _
  have hafter : Writes b [] (runCount (Machine.runInput b sel s c) c) (Machine.runWork b k slot sel s c) :=
    ((Writes.refl b [] _).storeReals _ _).runProductOutput k slot c
  obtain ⟨-, hbefore⟩ := hin.counters_eq List.not_mem_nil List.not_mem_nil List.not_mem_nil
  obtain ⟨-, hkept⟩ := hafter.counters_eq List.not_mem_nil List.not_mem_nil List.not_mem_nil
  rw [hkept c, runCount, chan_setChan_self _ _ _ (h.next h2).room, BitVec.toNat_ofNat, hbefore c, h2.control.lat]
  have hlt := s.lat.nBlocks.isLt
  omega

end Turn

end Sys2Proof.Machine
end

section
/-! SUPPORT. The loop of `RUN` over the channels (`43_engine.md` R220 to R229): the plans it uses and their records, the
bytes of the output, what every channel holds when its turn is over, and the two ways in which `RUN` ends. -/

namespace Sys2Proof.Machine

/-! One theorem is checked after the other: checked side by side, they take a thread each. -/
set_option Elab.async false

/-! ## The plans -/

/-- A plan that exists is used without a trace. -/
theorem usePlan_of_bit {b : Config.Build} {s : State} {inv inpl : Bool}
    (h : (planWord s.plan inv inpl).getLsbD s.lat.order = true) : usePlan b s inv inpl = s := by
  rw [usePlan, h]
  rfl

/-- A plan that is new leaves its record. -/
theorem sameLog_usePlan_new (b : Config.Build) {s : State} {inv inpl : Bool}
    (h : (planWord s.plan inv inpl).getLsbD s.lat.order = false) :
    SameLog (logEvent b s (planRecord inv inpl s.lat.order)) (usePlan b s inv inpl) := by
  rw [usePlan, h]
  exact sameLog_logEvent_plan b s _ _

/-- The configuration, the plan bits and the log are the same: all that the use of a plan depends on and writes. -/
structure SamePlans (s t : State) : Prop where
  lat : t.lat = s.lat
  plan : t.plan = s.plan
  log : SameLog s t

namespace SamePlans

variable {b : Config.Build} {s t u : State}

/-- The same of a state and itself. -/
theorem refl (s : State) : SamePlans s s := ⟨rfl, rfl, .refl s⟩

/-- The same twice. -/
theorem trans (h : SamePlans s t) (h' : SamePlans t u) : SamePlans s u :=
  ⟨h'.lat.trans h.lat, h'.plan.trans h.plan, h.log.trans h'.log⟩

/-- Reals stored to a buffer. -/
theorem storeReals (h : SamePlans s t) (r : BufRef) (xs : List FReal) : SamePlans s (storeReals t r xs) :=
  h.trans ⟨storeReals_lat .., storeReals_plan .., storeReals_log .., storeReals_logRd .., storeReals_logLost ..⟩

/-- Reals stored to a part of a buffer. -/
theorem storeRealsAt (h : SamePlans s t) (r : BufRef) (off : Nat) (xs : List FReal) :
    SamePlans s (storeRealsAt t r off xs) :=
  h.trans ⟨storeRealsAt_lat .., storeRealsAt_plan .., storeRealsAt_log .., storeRealsAt_logRd .., storeRealsAt_logLost ..⟩

/-- A plan used in both. -/
theorem usePlan (h : SamePlans s t) (b : Config.Build) (inv inpl : Bool) :
    SamePlans (usePlan b s inv inpl) (usePlan b t inv inpl) where
  lat := by rw [usePlan_lat, usePlan_lat, h.lat]
  plan := usePlan_plan_congr b h.lat h.plan inv inpl
  log := by
    cases hbit : (planWord s.plan inv inpl).getLsbD s.lat.order with
    | true =>
      rw [usePlan_of_bit hbit, usePlan_of_bit (by rw [h.plan, h.lat, hbit])]
      exact h.log
    | false =>
      have hnew := sameLog_usePlan_new b (s := t) (inv := inv) (inpl := inpl) (by rw [h.plan, h.lat, hbit])
      rw [h.lat] at hnew
      exact (sameLog_usePlan_new b hbit).symm.trans ((h.log.logEvent b _).trans hnew)

/-- A plan used, and its transform stored. -/
theorem transformed (h : SamePlans s t) (b : Config.Build) (inv inpl : Bool) (dst src : BufRef) :
    SamePlans (Machine.usePlan b s inv inpl) (transformed b t inv inpl dst src) := (h.usePlan b inv inpl).storeReals _ _

/-- Step 5 of `RUN` uses no plan. -/
theorem runProduct (h : SamePlans s t) (k slot c : Nat) : SamePlans s (runProduct k slot t c) := by
  unfold Machine.runProduct runDirac runConvolve
  split
  · split <;> exact h.storeReals _ _
  · split
    · exact h.storeReals _ _
    · exact List.foldlRecOn (motive := SamePlans s) _ _ (h.storeReals _ _) fun _ hu _ _ => hu.storeReals _ _

end SamePlans

/-- Both in-place plans used, the forward one first: what every turn of `RUN` does (R146, R221, R227). -/
def bothPlans (b : Config.Build) (s : State) : State := usePlan b (usePlan b s false true) true true

/-- Steps 1 to 6 use both plans. -/
theorem samePlans_runWork (b : Config.Build) (k slot : Nat) (sel : Bool) (s : State) (c : Nat) :
    SamePlans (bothPlans b s) (runWork b k slot sel s c) := by
  have hin : SamePlans (usePlan b s false true) (runInput b sel s c) :=
    (((SamePlans.refl s).storeRealsAt _ _ _).storeRealsAt _ _ _).transformed b _ _ _ _
  have hcount : SamePlans (runInput b sel s c) (runCount (runInput b sel s c) c) := ⟨rfl, rfl, rfl, rfl, rfl⟩
  exact ((((hin.trans hcount).storeReals _ _).runProduct k slot c).storeReals _ _).transformed b _ _ _ _

/-- The bits of both plans are set once they were used. -/
theorem bothPlans_bits (b : Config.Build) {s : State} (ho : s.lat.order < 32) (inv : Bool) :
    (planWord (bothPlans b s).plan inv true).getLsbD s.lat.order = true := by
  have ho' : (usePlan b s false true).lat.order < 32 := by rwa [usePlan_lat]
  have hset := getLsbD_usePlan b ho' true true inv true s.lat.order
  rw [bothPlans, hset, getLsbD_usePlan b ho]
  cases inv <;> simp

/-- Both plans used again leave no trace. -/
theorem SamePlans.bothPlans_eq {b : Config.Build} {s t : State} (h : SamePlans (bothPlans b s) t)
    (ho : s.lat.order < 32) : bothPlans b t = t := by
  have hlat : t.lat = s.lat := by rw [h.lat, bothPlans, usePlan_lat, usePlan_lat]
  have hbit : ∀ inv : Bool, (planWord t.plan inv true).getLsbD t.lat.order = true := fun inv => by
    rw [h.plan, hlat, bothPlans_bits b ho]
  rw [bothPlans, usePlan_of_bit (hbit false), usePlan_of_bit (hbit true)]

/-- The records of the plans that `RUN` uses, when they are new (R146). -/
theorem sameLog_bothPlans (b : Config.Build) {s : State} (ho : s.lat.order < 32) :
    SameLog (offered b s (newPlan s false ++ newPlan s true)) (bothPlans b s) := by
  have hnew : newPlan (usePlan b s false true) true = newPlan s true := by
    simp [newPlan, getLsbD_usePlan b ho]
  rw [offered_append]
  refine ((sameLog_usePlan b s false).offered b _).trans ?_
  rw [← hnew]
  exact sameLog_usePlan b (usePlan b s false true) true

/-! ## The output -/

/-- Byte writes at addresses of more than `A`. -/
theorem ByteWrites.mono {A A' : Nat → Prop} {m m' : Memory} (h : ByteWrites A m m') (hA : ∀ a : Nat, A a → A' a) :
    ByteWrites A' m m' :=
  Relation.ReflTransGen.mono (fun _ _ ⟨a, v, ha, hm⟩ => ⟨a, v, hA a ha, hm⟩) _ _ h

/-- A byte of the container of a sample of channel `c` in `OUTBUF` (R72, R255). -/
def SampleByte (s : State) (c a : Nat) : Prop :=
  ∃ j i : Nat, j < s.lat.blockLen.toNat ∧ i < (s.chan c).descOut.bytes ∧ a = outputAddr s c j + i

/-- What encoding samples of channel `c` leaves: its overflow record and, with dither, its dither state are written, and
bytes of its containers; no plan is used (R255). -/
structure Encoded (c : Nat) (s t : State) : Prop where
  frame : TurnFrame c [] s t
  chan : ∃ (o : OvfRecord) (d : DitherState), t.chan c = { s.chan c with ovf := o, dstate := d } ∧
    ((s.chan c).ditherOn = false → d = (s.chan c).dstate)
  bytes : ByteWrites (SampleByte s c) s.mem t.mem
  plans : SamePlans s t

/-- A sample encoded writes the overflow record of its channel and, with dither, the dither state. -/
theorem encodeSample_writes (s : State) (c code : Nat) (y : FReal) :
    ∃ (o : OvfRecord) (d : DitherState), (encodeSample s c code y).2 = { s.chan c with ovf := o, dstate := d } ∧
      ((s.chan c).ditherOn = false → d = (s.chan c).dstate) := by
  simp only [encodeSample]
  split
  · exact ⟨_, _, rfl, fun _ => rfl⟩
  · split
    · exact ⟨_, _, rfl, fun _ => rfl⟩
    · next hd => exact ⟨_, _, rfl, fun hoff => absurd (by rw [hoff]; rfl) hd⟩

/-- Nothing encoded. -/
theorem Encoded.refl (c : Nat) (s : State) : Encoded c s s := ⟨.refl c s, ⟨_, _, rfl, fun _ => rfl⟩, .refl, .refl s⟩

/-- What a turn of the loop of `ENCODE_BLOCK` writes. -/
theorem encodeStep_writes (s : State) (c : Nat) {jy : Nat × FReal} (hj : jy.1 < s.lat.blockLen.toNat) :
    ∃ (o : OvfRecord) (d : DitherState) (m : Memory) (n : Nat),
      encodeStep c s jy = { s.setChan c { s.chan c with ovf := o, dstate := d } with mem := m, freeCtr := n } ∧
      ((s.chan c).ditherOn = false → d = (s.chan c).dstate) ∧ ByteWrites (SampleByte s c) s.mem m := by
  obtain ⟨o, d, hsample, hdither⟩ := encodeSample_writes s c (Config.nanCode s.freeCtr jy.1) jy.2
  have hbytes := (ByteWrites.writeBytes (s := s.setChan c { s.chan c with ovf := o, dstate := d }) (m := s.mem)
    (A := SampleByte s c) .refl (outputAddr s c jy.1) (containerBytes (s.chan c).descOut.bigEndian (s.chan c).descOut.bytes
      (encodeSample s c (Config.nanCode s.freeCtr jy.1) jy.2).1)
    fun i hi => ⟨jy.1, i, hj, by rwa [containerBytes_length] at hi, rfl⟩)
  refine ⟨o, d, _, s.freeCtr + 1, ?_, hdither, hbytes⟩
  rw [encodeStep, hsample, putContainer, writeBytes_eq]

/-- One more sample encoded. -/
theorem Encoded.step {c : Nat} {s t : State} (h : Encoded c s t) (hc : c < s.chans.length) {jy : Nat × FReal}
    (hj : jy.1 < s.lat.blockLen.toNat) : Encoded c s (encodeStep c t jy) := by
  obtain ⟨o, d, hchan, hdither⟩ := h.chan
  obtain ⟨o', d', m, n, hstep, hdither', hbytes⟩ := encodeStep_writes t c (h.frame.control.lat ▸ hj)
  have hroom : c < t.chans.length := h.frame.chans.symm ▸ hc
  have hwhere : SampleByte t c = SampleByte s c := by
    funext a
    simp only [SampleByte, outputAddr, hchan, h.frame.control.lat]
  have hset : TurnFrame c [] t (t.setChan c { t.chan c with ovf := o', dstate := d' }) :=
    .setChan rfl rfl rfl rfl rfl rfl
  rw [hwhere] at hbytes
  rw [hstep]
  refine ⟨(h.frame.trans hset).trans (.of_arena ⟨rfl, rfl, rfl, rfl, rfl, rfl, rfl⟩ ⟨rfl, rfl⟩), ⟨o', d', ?_, ?_⟩,
    h.bytes.trans hbytes, h.plans.trans ⟨rfl, rfl, rfl, rfl, rfl⟩⟩
  · refine (chan_setChan_self t c _ hroom).trans ?_
    rw [hchan]
  · intro hoff
    rw [hdither' (by rw [hchan]; exact hoff), hchan]
    exact hdither hoff

/-- A block encoded. -/
theorem encoded_encodeBlock {c : Nat} {s : State} (hc : c < s.chans.length) (off : Nat) (src : List FReal) :
    Encoded c s (encodeBlock s c off src) := by
  refine List.foldlRecOn (motive := Encoded c s) _ _ (.refl c s) fun u hu jy hjy => ?_
  obtain ⟨j, hj, rfl⟩ := List.mem_map.1 hjy
  exact hu.step hc (List.mem_range.1 hj)

/-! ## The input -/

/-- The bytes of the input block lie below `OUTBUF` (R71, R72). -/
theorem inputAddr_lt {b : Config.Build} {s : State} (hb : b.Legal) (hs : EngineInv b s) (hf : s.fsm ≠ .uninit) {c j i : Nat}
    (hc : c < s.channels) (hj : j < s.lat.blockLen.toNat) (hi : i < (s.chan c).descIn.bytes) :
    inbufBase + sampleOffset (s.chan c).descIn j + i < outbufBase := by
  rw [((hs.built hf).channel c hc).descIn] at hi ⊢
  have hwithin := sample_within_block hc hj hi
  have hfits := ((hs.built hf).inBytes.trans hb.samples)
  simp only [sampleOffset, sampleDesc, State.channels, inbufBase, outbufBase] at hwithin hfits ⊢
  omega

/-- The decoded block depends on the configuration, the descriptor and the bytes below `OUTBUF`. -/
theorem decodeBlock_congr {b : Config.Build} {s t : State} (hb : b.Legal) (hs : EngineInv b s) (hf : s.fsm ≠ .uninit)
    {c : Nat} (hc : c < s.channels) (hl : t.lat = s.lat) (hd : (t.chan c).descIn = (s.chan c).descIn)
    (hm : ∀ a : Nat, a < outbufBase → readByte t a = readByte s a) : decodeBlock t c = decodeBlock s c := by
  rw [decodeBlock, decodeBlock, hl]
  refine List.map_congr_left fun j hj => ?_
  have hbytes : readBytes t (inbufBase + sampleOffset (s.chan c).descIn j) (s.chan c).descIn.bytes =
      readBytes s (inbufBase + sampleOffset (s.chan c).descIn j) (s.chan c).descIn.bytes :=
    List.map_congr_left fun i hi =>
      hm _ (inputAddr_lt hb hs hf hc (List.mem_range.1 hj) (List.mem_range.1 hi))
  simp only [inputSample, getContainer, hd, hl, hbytes]

/-! ## The loop -/

/-- A time segment buffer of a channel. -/
def Channel.tb (ch : Channel) (i : Nat) : Buf := if i = 0 then ch.tb0 else ch.tb1

/-- The buffer that an id of the space of time segments names. -/
theorem getBuf_tb (s : State) (c i : Nat) : getBuf s (.tb c i) = (s.chan c).tb i := rfl

/-- The ring slot of the block that `RUN` takes next (R223). -/
def runSlot (s : State) : Nat := s.blockCounter.toNat % s.lat.nBlocks.toNat

/-- The turn of channel `c` in a `RUN` from `s` on. -/
abbrev runTurn (b : Config.Build) (s t : State) (c : Nat) : State × Bool :=
  runChannel b s.blockCounter.toNat (runSlot s) s.bufSel t c

/-- Steps 1 to 6 of the turn of channel `c` in a `RUN` from `s` on. -/
abbrev turnWork (b : Config.Build) (s t : State) (c : Nat) : State :=
  runWork b s.blockCounter.toNat (runSlot s) s.bufSel t c

/-- What the turn of channel `c` in a `RUN` from `s` on leaves of the channel (R221, R222, R223). -/
structure ChannelRun (s : State) (c : Nat) (ch : Channel) : Prop where
  processed : ch.processed.toNat = min ((s.chan c).processed.toNat + 1) s.lat.nBlocks.toNat
  dither : (s.chan c).ditherOn = false → ch.dstate = (s.chan c).dstate
  next : ∃ ctr : Nat, ch.tb (segment (!s.bufSel)) =
    splice s.lat.size ((s.chan c).tb (segment (!s.bufSel))) 0 (packReals s.lat.prec ctr 0 (decodeBlock s c))
  ring : ∀ i : Nat, i < s.lat.nBlocks.toNat → i ≠ runSlot s → ch.ring.getD i [] = (s.chan c).ring.getD i []

/-- A `RUN` from `s` on, in state `t`: steps 1 to 6 are done for the channels below `n`, and the output of those
below `m` is written. -/
structure RunDone (b : Config.Build) (s : State) (n m : Nat) (t : State) : Prop where
  writes : Writes b [.counters, .samples, .memory] s t
  control : SameControl s t
  chans : t.chans.length = s.chans.length
  done : ∀ c : Nat, c < n → ChannelRun s c (t.chan c)
  rest : ∀ c : Nat, n ≤ c → t.chan c = s.chan c
  silent : ∀ c : Nat, m ≤ c → (t.chan c).encoder = (s.chan c).encoder
  scr : ∀ i : Nat, i ≠ 0 → getBuf t (.scr i) = getBuf s (.scr i)
  bytes : ByteWrites (fun a => ∃ c : Nat, c < m ∧ SampleByte s c a) s.mem t.mem
  plans : SamePlans s t ∨ SamePlans (bothPlans b s) t

/-- An engine in which `RUN` may run. -/
structure CanRun (b : Config.Build) (s : State) : Prop where
  legal : b.Legal
  inv : EngineInv b s
  built : s.fsm ≠ .uninit

namespace CanRun

variable {b : Config.Build} {s : State}

/-- The shape of the engine. -/
theorem shape (h : CanRun b s) : BuiltInv b s := h.inv.built h.built

/-- There is a ring slot for the block. -/
theorem slot_lt (h : CanRun b s) : runSlot s < s.lat.nBlocks.toNat := Nat.mod_lt _ h.shape.nBlocksLow

/-- The order of the engine has a plan bit. -/
theorem order_lt (h : CanRun b s) : s.lat.order < 32 := h.inv.order_lt h.legal h.built

/-- The channels are there. -/
theorem room (h : CanRun b s) {c : Nat} (hc : c < s.channels) : c < s.chans.length := by
  rw [h.inv.chans]
  exact hc.trans_le h.shape.channelsHigh

end CanRun

/-- The loop begins. -/
theorem runDone_start (b : Config.Build) (s : State) : RunDone b s 0 0 s where
  writes := .refl _ _ _
  control := .refl s
  chans := rfl
  done := fun c hc => absurd hc c.not_lt_zero
  rest := fun _ _ => rfl
  silent := fun _ _ => rfl
  scr := fun _ _ => rfl
  bytes := .refl
  plans := .inl (.refl s)

namespace RunDone

variable {b : Config.Build} {s t : State} {n m c : Nat}

/-- The bytes that are not of the output read as before. -/
theorem readByte_eq (h : RunDone b s n m t) {a : Nat} (ha : ∀ c : Nat, c < m → ¬SampleByte s c a) :
    readByte t a = readByte s a := by
  have hread := h.bytes.read?_eq (a := a) fun ⟨c, hc, hbyte⟩ => ha c hc hbyte
  rw [readByte, readByte, hread, h.writes.sameHostSide.2.powerOns]

/-- Where the samples of a channel are put is not changed. -/
theorem sampleByte_eq (h : RunDone b s n m t) (c : Nat) : SampleByte t c = SampleByte s c := by
  obtain ⟨-, hsetup⟩ := h.writes.setup_eq (by simp)
  have hdesc : (t.chan c).descOut = (s.chan c).descOut := congrArg (fun x => x.2.1) (hsetup c)
  funext a
  simp only [SampleByte, outputAddr, hdesc, h.control.lat]

/-- The next turn. -/
theorem turn (h : RunDone b s n m t) (hs : CanRun b s) (hc : c < s.channels) : Turn t (runSlot s) c where
  built := by rw [h.control.fsm]; exact hs.built
  chan := by rw [State.channels, h.control.lat]; exact hc
  room := by rw [h.chans]; exact hs.room hc
  slot := by rw [h.control.lat]; exact hs.slot_lt

/-- The channel after steps 1 to 6 of its turn. -/
theorem channelRun (h : RunDone b s c c t) (hs : CanRun b s) (hc : c < s.channels) :
    ChannelRun s c ((turnWork b s t c).chan c) := by
  have hturn := h.turn hs hc
  have hframe := hturn.runWork b s.blockCounter.toNat s.bufSel
  have hchan := h.rest c le_rfl
  have hdecode : decodeBlock t c = decodeBlock s c :=
    decodeBlock_congr hs.legal hs.inv hs.built hc h.control.lat (by rw [hchan]) fun a ha =>
      h.readByte_eq fun d _ ⟨j, i, _, _, he⟩ => by
        rw [he, outputAddr] at ha
        omega
  refine ⟨?processed, fun _ => ?dither, ⟨t.freeCtr + 1, ?next⟩, fun i hi hne => ?ring⟩
  case processed =>
    have hcount := hturn.processed_runWork b s.blockCounter.toNat s.bufSel
    rwa [hchan, h.control.lat] at hcount
  case dither =>
    have henc := ((Writes.refl b [.counters] t).runWork (by simp) s.blockCounter.toNat (runSlot s) s.bufSel c).encoder_eq
      (by simp) (by simp) (by simp) c
    exact (congrArg Prod.snd henc).trans (congrArg Channel.dstate hchan)
  case next =>
    have hnext := hturn.getBuf_nextSegment b s.blockCounter.toNat s.bufSel
    rwa [hdecode, h.control.lat, getBuf_tb, getBuf_tb, hchan] at hnext
  case ring =>
    have hvalid : refValid t (.ring c i) = true := by
      simp [refValid, hturn.built, hturn.chan, h.control.lat, hi]
    have hkept := hframe.buffers (.ring c i) hvalid (by simp [hne])
    exact hkept.trans (by rw [getBuf, hchan])

/-- After steps 1 to 6 of the next turn both plans were used, whatever the turns before it used. -/
theorem plans_work (h : RunDone b s c c t) (hs : CanRun b s) : SamePlans (bothPlans b s) (turnWork b s t c) := by
  refine SamePlans.trans ?_ (samePlans_runWork b s.blockCounter.toNat (runSlot s) s.bufSel t c)
  rcases h.plans with hnew | hused
  · exact (hnew.usePlan b false true).usePlan b true true
  · rwa [hused.bothPlans_eq hs.order_lt]

/-- Steps 1 to 6 of the next turn. -/
theorem work (h : RunDone b s c c t) (hs : CanRun b s) (hc : c < s.channels) :
    RunDone b s (c + 1) c (turnWork b s t c) := by
  have hframe := (h.turn hs hc).runWork b s.blockCounter.toNat s.bufSel
  have hwrites := (Writes.refl b [.counters] t).runWork (by simp) s.blockCounter.toNat (runSlot s) s.bufSel c
  refine ⟨h.writes.runWork (by simp) _ _ _ c, h.control.trans hframe.control,
    hframe.chans.trans h.chans, fun d hd => ?done, fun d hd => ?rest, fun d hd => ?silent,
    fun i hi => (hframe.scr i hi).trans (h.scr i hi), ?bytes, .inr (h.plans_work hs)⟩
  case done =>
    by_cases hdc : d = c
    · rw [hdc]
      exact h.channelRun hs hc
    · rw [hframe.other d hdc]
      exact h.done d (by omega)
  case rest =>
    rw [hframe.other d (by omega)]
    exact h.rest d (by omega)
  case silent => exact (hwrites.encoder_eq (by simp) (by simp) (by simp) d).trans (h.silent d hd)
  case bytes =>
    rw [hwrites.mem_eq (by simp)]
    exact h.bytes

/-- The output of the turn. -/
theorem encode (h : RunDone b s (c + 1) c t) (hs : CanRun b s) (hc : c < s.channels) {ys : List FReal}
    (hys : ∀ e : Nat, IsReal .p64 (nth ys e)) : RunDone b s (c + 1) (c + 1) (encodeBlock t c 0 ys) := by
  have henc := encoded_encodeBlock (h.chans.symm ▸ hs.room hc) 0 ys
  obtain ⟨o, d, hchan, hdither⟩ := henc.chan
  have hcrun := h.done c c.lt_succ_self
  obtain ⟨-, hsetup⟩ := h.writes.setup_eq (by simp)
  have hon : (t.chan c).ditherOn = (s.chan c).ditherOn := congrArg (fun x => x.2.2.1) (hsetup c)
  refine ⟨h.writes.encodeBlock (by simp) (by simp) c 0 hys, h.control.trans henc.frame.control,
    henc.frame.chans.trans h.chans, fun e he => ?done, fun e he => ?rest, fun e he => ?silent,
    fun i hi => (henc.frame.scr i hi).trans (h.scr i hi), ?bytes,
    h.plans.imp (fun hp => hp.trans henc.plans) fun hp => hp.trans henc.plans⟩
  case done =>
    by_cases hec : e = c
    · rw [hec, hchan]
      exact ⟨hcrun.processed, fun hoff => (hdither (hon.trans hoff)).trans (hcrun.dither hoff), hcrun.next, hcrun.ring⟩
    · rw [henc.frame.other e hec]
      exact h.done e he
  case rest =>
    rw [henc.frame.other e (by omega)]
    exact h.rest e he
  case silent =>
    rw [henc.frame.other e (by omega)]
    exact h.silent e (by omega)
  case bytes =>
    have hbytes := henc.bytes
    rw [h.sampleByte_eq c] at hbytes
    exact (h.bytes.mono fun a ⟨e, he, hbyte⟩ => ⟨e, he.trans c.lt_succ_self, hbyte⟩).trans
      (hbytes.mono fun a hbyte => ⟨c, c.lt_succ_self, hbyte⟩)

/-- A turn that passes step 7. -/
theorem pass (h : RunDone b s c c t) (hs : CanRun b s) (hc : c < s.channels) (hok : (runTurn b s t c).2 = false) :
    RunDone b s (c + 1) (c + 1) (runTurn b s t c).1 := by
  rw [runTurn, runChannel_eq] at hok ⊢
  split at hok
  · next hpass =>
    rw [if_pos hpass]
    exact (h.work hs hc).encode hs hc (isReal_loadReals _ _)
  · cases hok

end RunDone

/-- A loop that a failure has stopped goes no further. -/
theorem untilFailure_append_stop {f : State → Nat → State × Bool} {cs : List Nat} (ds : List Nat) {s : State}
    (h : (untilFailure f cs s).2 ≠ none) : untilFailure f (cs ++ ds) s = untilFailure f cs s := by
  induction cs generalizing s with
  | nil => exact absurd rfl h
  | cons c cs ih =>
    cases hc : (f s c).2 with
    | true => simp only [untilFailure, hc, if_true, List.cons_append]
    | false =>
      simp only [untilFailure, hc, Bool.false_eq_true, if_false, List.cons_append] at h ⊢
      exact ih h

/-- A loop over the channels below `n`, an invariant of the channels done being kept by the turns that do not fail:
no turn fails, or a first one does, begun in a state of the invariant. -/
theorem untilFailure_cases {I : Nat → State → Prop} {f : State → Nat → State × Bool} (n : Nat) {s : State} (hs : I 0 s)
    (hok : ∀ (t : State) (c : Nat), c < n → I c t → (f t c).2 = false → I (c + 1) (f t c).1) :
    (∃ t : State, untilFailure f (List.range n) s = (t, none) ∧ I n t) ∨
    ∃ (c : Nat) (t : State), c < n ∧ I c t ∧ (f t c).2 = true ∧
      untilFailure f (List.range n) s = ((f t c).1, some c) := by
  induction n with
  | zero => exact .inl ⟨s, rfl, hs⟩
  | succ n ih =>
    rw [List.range_succ]
    obtain ⟨t, ht, hI⟩ | ⟨c, t, hc, hI, hfail, ht⟩ := ih fun t c hc => hok t c (by omega)
    · rw [untilFailure_append _ (congrArg Prod.snd ht), ht]
      cases hn : (f t n).2 with
      | true => exact .inr ⟨n, t, n.lt_succ_self, hI, hn, by simp only [untilFailure, hn, if_true]⟩
      | false =>
        exact .inl ⟨_, by simp only [untilFailure, hn, Bool.false_eq_true, if_false], hok t n n.lt_succ_self hI hn⟩
    · have hstop : (untilFailure f (List.range n) s).2 ≠ none := by rw [ht]; exact nofun
      exact .inr ⟨c, t, by omega, hI, hfail, by rw [untilFailure_append_stop _ hstop, ht]⟩

/-! ## The two endings -/

/-- The loop of `RUN` from `s` on. -/
abbrev runLoop (b : Config.Build) (s : State) : State × Option Nat :=
  untilFailure (runTurn b s) (List.range s.channels) s

/-- The loop of `RUN`: every turn passes step 7, or a first one does not (R227). -/
theorem runLoop_cases {b : Config.Build} {s : State} (hs : CanRun b s) :
    (∃ t : State, runLoop b s = (t, none) ∧ RunDone b s s.channels s.channels t) ∨
    ∃ (c : Nat) (t : State), c < s.channels ∧ RunDone b s c c t ∧
      runPasses b s.blockCounter.toNat (runSlot s) s.bufSel t c = false ∧
      runLoop b s = (logEvent b (turnWork b s t c) (runNonfiniteRecord (turnWork b s t c) c), some c) := by
  obtain hdone | ⟨c, t, hc, hI, hfail, hloop⟩ := untilFailure_cases (I := fun n => RunDone b s n n) s.channels
    (runDone_start b s) fun t c hc h hok => h.pass hs hc hok
  · exact .inl hdone
  · rw [runTurn, runChannel_eq] at hfail hloop
    split at hfail
    · cases hfail
    · next hpass =>
      rw [if_neg hpass] at hloop
      exact .inr ⟨c, t, hc, hI, Bool.eq_false_iff.2 hpass, hloop⟩

/-- Below the top of the counter `RUN` in `READY` does its work (R228). -/
theorem runWith_below_top (b : Config.Build) {s : State} (hf : s.fsm = .ready) (hk : s.blockCounter.toNat ≠ 2 ^ 64 - 1) :
    runWith b s = runEffect b s := by
  rw [runWith, whenReady_pass s _ hf, checked_pass]
  intro c hc
  rw [List.mem_singleton.1 hc]
  exact decide_eq_false hk

/-- At the top of the counter `RUN` in `READY` raises `E_COUNTER` (R228). -/
theorem runWith_top (b : Config.Build) {s : State} (hf : s.fsm = .ready) (hk : s.blockCounter.toNat = 2 ^ 64 - 1) :
    runWith b s = raise s .eCounter 0#32 := by
  rw [runWith, whenReady_pass s _ hf, checked, firstFailure_cons_fail _ (decide_eq_true hk)]

/-- What `RUN` leaves when every turn passes: the selector and the counter move on (R229). -/
def runCompleted (t : State) : State :=
  succeed { t with bufSel := !t.bufSel, blockCounter := t.blockCounter + 1#64 } 0#32

/-- The effect of a `RUN` whose turns all pass. -/
theorem runEffect_none {b : Config.Build} {s t : State} (h : runLoop b s = (t, none)) : runEffect b s = runCompleted t := by
  have hloop : untilFailure (runChannel b s.blockCounter.toNat (s.blockCounter.toNat % s.lat.nBlocks.toNat) s.bufSel)
      (List.range s.channels) s = (t, none) := h
  simp only [runEffect, hloop]
  rfl

/-- The effect of a `RUN` that a channel stops. -/
theorem runEffect_some {b : Config.Build} {s t : State} {c : Nat} (h : runLoop b s = (t, some c)) :
    runEffect b s = raise t .eNonfinite (BitVec.ofNat 32 c) := by
  have hloop : untilFailure (runChannel b s.blockCounter.toNat (s.blockCounter.toNat % s.lat.nBlocks.toNat) s.bufSel)
      (List.range s.channels) s = (t, some c) := h
  simp only [runEffect, hloop]

end Sys2Proof.Machine
end

section
/-! The counters of `RUN` (`43_engine.md` R227, R228, R232): the block counter in every build, what a `RUN` that stops
leaves, and the counters of a stream. -/

namespace Sys2Proof.Machine

/-! One theorem is checked after the other: checked side by side, they take a thread each. -/
set_option Elab.async false

/-! ## The block counter -/

/-- The loop of `RUN` keeps the control of the engine. -/
theorem sameControl_runLoop (b : Config.Build) (s : State) : SameControl s (runLoop b s).1 :=
  untilFailure_keeps (P := SameControl s) _ (.refl s) fun _ _ _ hu => hu.trans (sameControl_runChannel ..)

/-- A `RUN` that ends with code 0 was below the top of the counter, and every turn passed. -/
theorem runWith_succeeded {b : Config.Build} {s : State} (hf : s.fsm = .ready) (h : (runWith b s).result = 0#32) :
    s.blockCounter.toNat ≠ 2 ^ 64 - 1 ∧ ∃ t : State, runLoop b s = (t, none) ∧ runWith b s = runCompleted t := by
  by_cases hk : s.blockCounter.toNat = 2 ^ 64 - 1
  · rw [runWith_top b hf hk] at h
    exact absurd h (ResultCode.word_ne_zero (code := .eCounter) nofun)
  · rw [runWith_below_top b hf hk] at h ⊢
    cases hloop : runLoop b s with
    | mk t stopped =>
      cases stopped with
      | none => exact ⟨hk, t, rfl, runEffect_none hloop⟩
      | some c =>
        rw [runEffect_some hloop] at h
        exact absurd h (ResultCode.word_ne_zero (code := .eNonfinite) nofun)

/-- One more block below the top of the counter. -/
theorem blockCounter_succ {w : Word64} (h : w.toNat ≠ 2 ^ 64 - 1) : (w + 1#64).toNat = w.toNat + 1 := by
  have hlt := w.isLt
  rw [BitVec.toNat_add, BitVec.toNat_ofNat]
  omega

/-- `RESET` in an engine of any build. -/
theorem execWith_reset (b : Config.Build) {s t : State} (hf : s.fsm ≠ .uninit) (h : execWith b .reset s = .next t) :
    t = succeed (resetEffect s) 0#32 := by
  have hnext : execWith b .reset s = .next (succeed (resetEffect s) 0#32) := exec_reset hf
  rw [hnext] at h
  cases h
  rfl

/-- `CONSTRUCT` leaves the counters of an engine at 0 (R213). -/
theorem constructWith_counters (b : Config.Build) (s : State) :
    (constructWith b s).blockCounter = 0#64 ∧ (constructWith b s).bufSel = false := by
  unfold constructWith
  split
  · exact ⟨logEvent_blockCounter .., logEvent_bufSel ..⟩
  · exact ⟨rfl, rfl⟩

/-- Settles O50: `RUN` by its endings (`runWith_top`, `runWith_succeeded`), the others by what they clear. -/
theorem blockCounterNeverWraps : Obligations.BlockCounterNeverWraps := by
  refine ⟨fun b s hf hk => ?top, fun b s t hf h hok => ?run, fun b s t hf h => ?reset, fun b s t h => ?construct,
    exec_eq_execWith⟩
  case top =>
    have hword : ResultCode.eCounter.word = 0xFFFFFFF0#32 := by decide
    rw [execWith, runWith_top b hf hk, raise, hword]
  case run =>
    cases h
    obtain ⟨hk, t, hloop, ht⟩ := runWith_succeeded hf hok
    have hcontrol := sameControl_runLoop b s
    rw [hloop] at hcontrol
    have hcount : (runWith b s).blockCounter = s.blockCounter + 1#64 := by rw [ht, ← hcontrol.blockCounter]; rfl
    rw [hcount, blockCounter_succ hk]
  case reset =>
    rw [execWith_reset b hf h]
    rfl
  case construct =>
    cases h
    obtain ⟨hcount, -⟩ := constructWith_counters b s
    exact hcount

/-! ## The counters of a stream -/

/-- A channel of a torn-down or new engine has counted no block. -/
theorem processed_constructWith (b : Config.Build) (s : State) (c : Nat) :
    ((constructWith b s).chan c).processed = 0#32 := by
  unfold constructWith
  split
  · have hchan : ∀ (code : ResultCode) (aux : Word) (r : LogRecord),
        (raise (logEvent b (noEngine b s) r) code aux).chan c = (noEngine b s).chan c := fun code aux r => by
      rw [State.chan, raise_chans, logEvent_chans, State.chan]
    rw [hchan, chan_noEngine]
    rfl
  · change ((buildEngine b (noEngine b s) (latch s.cfg)).chan c).processed = 0#32
    by_cases hc : c < b.maxChannels
    · rw [chan_buildEngine _ _ _ hc]
      split <;> rfl
    · rw [chan_out _ c (by simpa using hc)]
      rfl

/-- A `RUN` that ends with code 0 in an engine that is well shaped. -/
theorem CanRun.completed {b : Config.Build} {s : State} (hs : CanRun b s) (hf : s.fsm = .ready)
    (h : (runWith b s).result = 0#32) : s.blockCounter.toNat ≠ 2 ^ 64 - 1 ∧
      ∃ t : State, runWith b s = runCompleted t ∧ RunDone b s s.channels s.channels t := by
  obtain ⟨hk, t, hloop, ht⟩ := runWith_succeeded hf h
  obtain ⟨t', hloop', hdone⟩ | ⟨c, t', -, -, -, hloop'⟩ := runLoop_cases hs
  · rw [hloop] at hloop'
    cases hloop'
    exact ⟨hk, t, ht, hdone⟩
  · rw [hloop] at hloop'
    cases hloop'

/-- Settles O54: the counters after each of the three commands; `RUN`'s are those of `RunDone`. -/
theorem streamCounters : Obligations.StreamCounters := by
  refine ⟨fun b s t _ h _ => ?construct, fun b s t _ hs hf h => ?reset, fun b s t k hb hs hat hf h hok => ?run,
    exec_eq_execWith⟩
  case construct =>
    cases h
    obtain ⟨hcount, hsel⟩ := constructWith_counters b s
    refine ⟨by rw [hcount]; rfl, by rw [hsel]; rfl, fun c _ => ?_⟩
    rw [processed_constructWith, Nat.zero_min]
    rfl
  case reset =>
    rw [execWith_reset b hf h]
    refine ⟨rfl, rfl, fun c hc => ?_⟩
    have hlen : c < s.chans.length := by
      rw [hs.chans]
      exact hc.trans_le (hs.built hf).channelsHigh
    change ((resetEffect s).chan c).processed.toNat = _
    have hc' : c < s.channels := hc
    have hchan := EngineShape.chan_resetEffect s c hlen
    rw [if_pos hc'] at hchan
    rw [hchan, Nat.zero_min]
    rfl
  case run =>
    cases h
    have hrun : CanRun b s := ⟨hb, hs, by rw [hf]; nofun⟩
    obtain ⟨hk, t, ht, hdone⟩ := hrun.completed hf hok
    rw [ht]
    refine ⟨?_, ?_, fun c hc => ?_⟩
    · change (t.blockCounter + 1#64).toNat = k + 1
      rw [hdone.control.blockCounter, blockCounter_succ hk, hat.blockCounter]
    · change (!t.bufSel) = _
      rw [hdone.control.bufSel, hat.bufSel]
      by_cases hodd : k % 2 = 1
      · have heven : ¬(k + 1) % 2 = 1 := by omega
        rw [decide_eq_true hodd, decide_eq_false heven]
        rfl
      · have hsucc : (k + 1) % 2 = 1 := by omega
        rw [decide_eq_false hodd, decide_eq_true hsucc]
        rfl
    · have hc' : c < s.channels := by rwa [State.channels, ← hdone.control.lat]
      change (t.chan c).processed.toNat = min (k + 1) t.lat.nBlocks.toNat
      rw [(hdone.done c hc').processed, hat.processed c hc', hdone.control.lat]
      omega

/-! ## A `RUN` that stops -/

/-- What `RUN` leaves when channel `c` stops it after steps 1 to 6 (R227). -/
def runStopped (b : Config.Build) (t : State) (c : Nat) : State :=
  raise (logEvent b t (runNonfiniteRecord t c)) .eNonfinite (BitVec.ofNat 32 c)

/-- The stop changes the log and the result registers alone. -/
theorem runStopped_writes (b : Config.Build) (t : State) (c : Nat) : Writes b [] t (runStopped b t c) :=
  ((Writes.refl b [] t).logEvent _).raise _ _

/-- The arena at the stop. -/
theorem sameArena_runStopped (b : Config.Build) (t : State) (c : Nat) : SameArena t (runStopped b t c) :=
  ⟨logEvent_chans .., logEvent_scr ..⟩

/-- A `RUN` that ends with `E_NONFINITE` was stopped by the first channel whose inspected sample is not finite. -/
theorem CanRun.stopped {b : Config.Build} {s t : State} (hs : CanRun b s) (hf : s.fsm = .ready)
    (h : execWith b .run s = .next t) (hstop : t.result = ResultCode.eNonfinite.word) :
    ∃ (c : Nat) (u : State), c < s.channels ∧ RunDone b s c c u ∧
      runPasses b s.blockCounter.toNat (runSlot s) s.bufSel u c = false ∧ t = runStopped b (turnWork b s u c) c := by
  cases h
  have hk : s.blockCounter.toNat ≠ 2 ^ 64 - 1 := fun hk => by
    rw [runWith_top b hf hk] at hstop
    have hne : ResultCode.eCounter.word ≠ ResultCode.eNonfinite.word := by decide
    exact hne hstop
  rw [runWith_below_top b hf hk] at hstop ⊢
  obtain ⟨t, hloop, -⟩ | ⟨c, u, hc, hdone, hpass, hloop⟩ := runLoop_cases hs
  · rw [runEffect_none hloop] at hstop
    have hne : ResultCode.ok.word ≠ ResultCode.eNonfinite.word := by decide
    exact absurd hstop hne
  · exact ⟨c, u, hc, hdone, hpass, runEffect_some hloop⟩

/-- Settles O53: the loop ends at the channel that stopped it (`runLoop_cases`) with the output of the channels below it
written (`RunDone`). -/
theorem runStoppedLeaves : Obligations.RunStoppedLeaves := by
  intro s t hs hlog hf h hstop
  have hrun : CanRun Config.build s := ⟨Config.build_legal, hs, by rw [hf]; nofun⟩
  obtain ⟨c, u, hc, hdone, hpass, rfl⟩ := hrun.stopped hf ((exec_eq_execWith _ _).symm.trans h) hstop
  have hwork := hdone.work hrun hc
  have hend := runStopped_writes Config.build (turnWork Config.build s u c) c
  have hcontrol := hwork.control.trans (hend.control_eq nofun)
  have harena := sameArena_runStopped Config.build (turnWork Config.build s u c) c
  have hchan : ∀ d : Nat, (runStopped Config.build (turnWork Config.build s u c) c).chan d =
      (turnWork Config.build s u c).chan d := fun d => by rw [State.chan, harena.chans, State.chan]
  have hwrites : Writes Config.build [.counters, .samples, .memory] s
      (runStopped Config.build (turnWork Config.build s u c) c) := hwork.writes.trans (hend.mono nofun)
  obtain ⟨hregs, hport⟩ := hwrites.sameHostSide
  obtain ⟨hovf, hdither⟩ := Prod.mk.inj (hwork.silent c le_rfl)
  refine ⟨c, hc, rfl, rfl, ?finite, ?log, hcontrol.fsm.trans hf, hcontrol.blockCounter, hcontrol.bufSel, hregs, hport,
    fun d hd => ?processed, by rw [hchan, hovf], by rw [hchan, hdither],
    fun d hd => by rw [hchan, hwork.rest d hd],
    fun d => Prod.mk.inj (hwrites.coefSet_eq (by simp) (by simp) d), fun a ha => ?byte⟩
  case finite =>
    have hsize : 0 < (turnWork Config.build s u c).lat.size := by
      rw [hwork.control.lat]
      exact Nat.mul_pos Nat.two_pos (hs.blockLen_pos hrun.built)
    have hbad : isFinite (nth (loadReals (turnWork Config.build s u c) (.scr 0)) 0) = false := hpass
    rw [nth_loadReals _ hsize] at hbad
    rwa [elem, elemBits, harena.getBuf, (hend.control_eq nofun).lat]
  case log =>
    have hoffered := (logTakes_offered hlog.depth (newPlan s false ++ newPlan s true)).congr
      ((sameLog_bothPlans Config.build hrun.order_lt).trans (hdone.plans_work hrun).log)
    have hrecord := hoffered.logEvent (runNonfiniteRecord (turnWork Config.build s u c) c)
    rw [runNonfiniteRecord, hwork.control.blockCounter] at hrecord
    refine hrecord.congr ?_
    rw [runStopped, runNonfiniteRecord, hwork.control.blockCounter]
    exact ⟨rfl, rfl, rfl⟩
  case processed =>
    rw [hchan]
    exact (hwork.done d (Nat.lt_succ_of_le hd)).processed
  case byte =>
    refine (hend.sameMemory List.not_mem_nil a).trans (hwork.readByte_eq fun d hd ⟨j, i, hj, hi, he⟩ => ?_)
    have hwidth : (s.chan d).descOut.bytes = fmtBytes s.lat.fmtOut.toNat := by
      rw [(hrun.shape.channel d (hd.trans hc)).descOut]
      rfl
    have hout := ha d j hd hj
    omega

end Sys2Proof.Machine
end

section
/-! The `RUN` that succeeds (`43_engine.md` R220 to R229): the decoded samples as R253 gives them (`44_codec_dither.md`),
where they wait for the next block, and the statement. -/

namespace Sys2Proof.Machine

/-! One theorem is checked after the other: checked side by side, they take a thread each. -/
set_option Elab.async false

/-! ## The decoder -/

/-- Narrowing leaves a value of the precision. -/
theorem cvt_of_isReal {p : Prec} {x : FReal} (h : IsReal p x) : cvt p x = x := by
  cases x with
  | nan | inf => rfl
  | fin neg m => exact roundReal_exact neg ((isReal_fin_iff p neg m).1 h)

/-- A binary32 value is one of either precision. -/
theorem IsReal.of_p32 {x : FReal} (h : IsReal .p32 x) (p : Prec) : IsReal p x := by
  cases p with
  | p32 => exact h
  | p64 => exact h.widen

/-- The significant bits of a valid format are no more than its container holds. -/
theorem fmtSbits_le {w : Nat} (h : fmtValid w = true) : fmtSbits w ≤ 8 * fmtBytes w := by
  simp only [fmtValid, Bool.and_eq_true] at h
  obtain ⟨-, h⟩ := h
  split at h <;> simp only [Bool.and_eq_true, decide_eq_true_eq] at h <;> omega

/-- The integer of a container is its high bits as a two's-complement number (R253). -/
theorem decodeInt_eq {d : SampleDesc} (u : Nat) (h1 : 1 ≤ d.sbits) (hS : d.sbits ≤ 8 * d.bytes) :
    decodeInt d u =
      if u / 2 ^ (8 * d.bytes - d.sbits) < 2 ^ (d.sbits - 1) then ((u / 2 ^ (8 * d.bytes - d.sbits) : Nat) : Int)
      else ((u / 2 ^ (8 * d.bytes - d.sbits) : Nat) : Int) - 2 ^ d.sbits := by
  obtain ⟨q, hq⟩ : ∃ q, 8 * d.bytes = d.sbits + q := ⟨8 * d.bytes - d.sbits, by omega⟩
  have hlow : 8 * d.bytes - d.sbits = q := by omega
  have hhalf : 2 ^ (8 * d.bytes - 1) = 2 ^ (d.sbits - 1) * 2 ^ q := by
    rw [← pow_add]
    congr 1
    omega
  have hwhole : (2 : Int) ^ (8 * d.bytes) = 2 ^ d.sbits * 2 ^ q := by rw [hq, pow_add]
  have hneg : ((u / 2 ^ q : Nat) : Int) < 2 ^ (d.sbits - 1) ↔ u < 2 ^ (8 * d.bytes - 1) := by
    rw [hhalf, ← Nat.div_lt_iff_lt_mul (Nat.two_pow_pos q)]
    exact_mod_cast Iff.rfl
  rw [decodeInt, signExtend, hlow]
  by_cases hsign : u < 2 ^ (8 * d.bytes - 1)
  · rw [if_pos hsign, if_pos (by exact_mod_cast hneg.2 hsign)]
    norm_cast
  · rw [if_neg hsign, if_neg (by exact_mod_cast mt hneg.1 hsign), hwhole, Int.sub_eq_add_neg, ← Int.neg_mul,
      Int.add_mul_ediv_right _ _ (by positivity)]
    push_cast
    ring

/-- The weight of the last significant bit is a value of both precisions. -/
theorem isMagnitude_scale (p : Prec) {n : Nat} (h : n ≤ 32) : IsMagnitude p (2 ^ (1074 - (n - 1))) := by
  have hlsb : Prec.lsb p ≤ 925 := by cases p <;> decide
  have htop : 1074 - (n - 1) - Prec.lsb p + 2 ≤ Prec.top p := by
    cases p <;> simp only [Prec.lsb, Prec.top] <;> omega
  refine ⟨1, 1074 - (n - 1) - Prec.lsb p, Nat.one_lt_two_pow (Nat.one_le_iff_ne_zero.1 (Prec.digits_pos p)), htop, ?_⟩
  rw [Nat.one_mul, ← pow_add]
  congr 1
  omega

/-- `DecSample` of a container of a valid format is what R253 says. -/
theorem decodeSample_eq (p : Prec) {fmt : BitVec 13} (h : fmtValid fmt.toNat = true) (n c u : Nat) :
    decodeSample p (sampleDesc fmt n c) u = sampleValue p (sampleDesc fmt n c) u := by
  have hscale := unpack_scale fmt n c h
  unfold decodeSample sampleValue
  cases hfloat : fmtIsFloat fmt.toNat with
  | true =>
    have hdesc : (sampleDesc fmt n c).isFloat = true := hfloat
    rw [if_pos hdesc, if_pos hdesc]
    split
    · exact cvt_of_isReal (IsReal.of_p32 ⟨_, rfl⟩ p)
    · cases p with
      | p32 => rfl
      | p64 => exact cvt_of_isReal ⟨_, rfl⟩
  | false =>
    have hdesc : ¬(sampleDesc fmt n c).isFloat = true := by
      change ¬fmtIsFloat fmt.toNat = true
      rw [hfloat]
      nofun
    obtain ⟨hlow, hhigh⟩ := fmtSbits_of_valid h
    rw [hfloat, if_neg nofun] at hscale
    rw [if_neg hdesc, if_neg hdesc, hscale, decodeInt_eq u hlow (fmtSbits_le h),
      cvt_of_isReal ((isReal_fin_iff p _ _).2 (isMagnitude_scale p (hhigh hfloat)))]
    rfl

/-- Sample `j` of the decoded block of a channel (R72, R251, R253). -/
theorem getElem_decodeBlock {b : Config.Build} {s : State} (hs : BuiltInv b s) {c j : Nat} (hc : c < s.channels)
    (hj : j < (decodeBlock s c).length) :
    (decodeBlock s c)[j] = sampleValue s.lat.prec (s.chan c).descIn
      (getContainer s (0x10000000 + (c * (s.chan c).descIn.bytes + j * s.channels * (s.chan c).descIn.bytes))
        (s.chan c).descIn.bytes (s.chan c).descIn.bigEndian) := by
  simp only [decodeBlock, List.getElem_map, List.getElem_range, inputSample]
  rw [(hs.channel c hc).descIn]
  exact decodeSample_eq s.lat.prec hs.fmtIn s.channels c _

/-! ## The next half of the input -/

/-- The elements of a buffer whose first ones were replaced. -/
theorem splice_zero_getD {n : Nat} {x xs : Buf} (hx : x.length = n) (hxs : xs.length ≤ n) (j : Nat) :
    (splice n x 0 xs).getD j 0#64 = if j < xs.length then xs.getD j 0#64 else x.getD j 0#64 := by
  have hlen : (xs ++ x.drop xs.length).length = n := by simp; omega
  have heq : splice n x 0 xs = xs ++ x.drop xs.length := by
    rw [splice, fitTo_eq_self n x hx, List.take_zero, List.nil_append, Nat.zero_add, fitTo_eq_self n _ hlen]
  rw [heq]
  split
  · next hj => exact List.getD_append _ _ _ _ hj
  · next hj =>
    rw [List.getD_append_right _ _ _ _ (Nat.le_of_not_lt hj)]
    simp only [List.getD_eq_getElem?_getD, List.getElem?_drop]
    congr 3
    omega

/-- The buffer of the next block: the other one (R221). -/
theorem segment_not (sel : Bool) : segment (!sel) = if sel then 0 else 1 := by cases sel <;> rfl

/-- The buffer of the next block after a turn, element by element: the decoded samples, then what it held. -/
theorem ChannelRun.nextSegment {b : Config.Build} {s t : State} {c : Nat} (h : ChannelRun s c (t.chan c))
    (hs : BuiltInv b s) (hc : c < s.channels) (hlat : t.lat = s.lat) :
    (∀ j : Nat, j < s.lat.blockLen.toNat → Stored t (.tb c (segment (!s.bufSel))) j
      (sampleValue s.lat.prec (s.chan c).descIn
        (getContainer s (0x10000000 + (c * (s.chan c).descIn.bytes + j * s.channels * (s.chan c).descIn.bytes))
          (s.chan c).descIn.bytes (s.chan c).descIn.bigEndian))) ∧
    (∀ j : Nat, s.lat.blockLen.toNat ≤ j → elemBits t (.tb c (segment (!s.bufSel))) j =
      elemBits s (.tb c (segment (!s.bufSel))) j) := by
  obtain ⟨ctr, hnext⟩ := h.next
  have hsize : s.lat.size = 2 * s.lat.blockLen.toNat := rfl
  have hdecoded : (decodeBlock s c).length = s.lat.blockLen.toNat := by simp [decodeBlock]
  have hpacked : (packReals s.lat.prec ctr 0 (decodeBlock s c)).length = s.lat.blockLen.toNat :=
    (packReals_length ..).trans hdecoded
  have hold : ((s.chan c).tb (segment (!s.bufSel))).length = s.lat.size := by
    unfold Channel.tb
    split
    · exact (hs.channel c hc).tb0
    · exact (hs.channel c hc).tb1
  have helem : ∀ j : Nat, elemBits t (.tb c (segment (!s.bufSel))) j =
      if j < s.lat.blockLen.toNat then (packReals s.lat.prec ctr 0 (decodeBlock s c)).getD j 0#64
      else elemBits s (.tb c (segment (!s.bufSel))) j := fun j => by
    rw [elemBits, getBuf_tb, hnext, splice_zero_getD hold (by omega), hpacked]
    rfl
  refine ⟨fun j hj => ⟨Config.nanCode ctr (0 + j), ?_⟩, fun j hj => ?_⟩
  · have hj' : j < (decodeBlock s c).length := hdecoded.symm ▸ hj
    rw [helem, if_pos hj, packReals_getD _ _ _ _ _ hj', getElem_decodeBlock hs hc, hlat]
  · rw [helem, if_neg (Nat.not_lt.2 hj)]

/-! ## The statement -/

/-- A byte of a sample container is one of the output block. -/
theorem SampleByte.output {s : State} {c a : Nat} (h : SampleByte s c a) (hc : c < s.channels) : OutputByte s a := by
  obtain ⟨j, i, hj, hi, he⟩ := h
  exact ⟨c, j, i, hc, hj, hi, he⟩

/-- A `RUN` below the top of the counter of which every turn passes. -/
theorem CanRun.succeeds {b : Config.Build} {s : State} (hs : CanRun b s) (hf : s.fsm = .ready)
    (hk : s.blockCounter.toNat ≠ 2 ^ 64 - 1) (h : (runLoop b s).2 = none) :
    ∃ t : State, runLoop b s = (t, none) ∧ RunDone b s s.channels s.channels t ∧
      execWith b .run s = .next (runCompleted t) := by
  obtain ⟨t, hloop, hdone⟩ | ⟨c, t, -, -, -, hloop⟩ := runLoop_cases hs
  · refine ⟨t, hloop, hdone, ?_⟩
    rw [execWith, runWith_below_top b hf hk, runEffect_none hloop]
  · rw [hloop] at h
    cases h

/-- Settles O51: the loop keeps `RunDone`, from which the statement is read. -/
theorem runSucceeds : Obligations.RunSucceeds := by
  intro b s hb hs hf hk k l blocks hnone
  have hrun : CanRun b s := ⟨hb, hs, by rw [hf]; nofun⟩
  obtain ⟨t, -, hdone, hexec⟩ := hrun.succeeds hf hk hnone
  obtain ⟨hregs, hport⟩ := (writes_of_exec hexec).sameHostSide
  have hchan : ∀ c : Nat, (runCompleted t).chan c = t.chan c := fun _ => rfl
  have hcontrol := hdone.control
  refine ⟨runCompleted t, hexec, fun hbuild => ?default, ends_succeed _ _, hcontrol.fsm.trans hf, hcontrol.lat, ?count,
    congrArg not hcontrol.bufSel, hregs, hport, hcontrol.tableSize, hcontrol.spacing, hcontrol.randvec, fun c hc => ?chan,
    hdone.rest, hdone.scr, fun a ha => ?byte⟩
  case default => rw [exec_eq_execWith, ← hbuild, hexec]
  case count =>
    change (t.blockCounter + 1#64).toNat = s.blockCounter.toNat + 1
    rw [hcontrol.blockCounter, blockCounter_succ hk]
  case chan =>
    have hcrun := hdone.done c hc
    obtain ⟨hn, hcoef⟩ := Prod.mk.inj (hdone.writes.coefSet_eq (by simp) (by simp) c)
    obtain ⟨hstored, hkept⟩ := ChannelRun.nextSegment (t := runCompleted t) hcrun hrun.shape hc hcontrol.lat
    rw [segment_not] at hstored hkept
    exact ⟨hcrun.processed, hn, hcoef, hdone.writes.snap_eq (by simp) (by simp) (by simp) c, hcrun.dither, hstored, hkept,
      hcrun.ring⟩
  case byte =>
    refine hdone.readByte_eq fun c hc hbyte => ?_
    obtain ⟨hlow, hhigh⟩ := (hbyte.output hc).within_block hs
    exact ha.elim (Nat.not_lt.2 hlow) (Nat.not_le.2 hhigh)

end Sys2Proof.Machine
end

section
/-! SUPPORT. States that differ in what no unit command reads of another: the operand registers, the result registers and
the counts of blocks. `blank` forgets these, and every operation that `RUN` and the unit commands share commutes with it. -/

namespace Sys2Proof.Machine

/-! One theorem is checked after the other: checked side by side, they take a thread each. -/
set_option Elab.async false

/-! ## What is forgotten -/

/-- A channel without its count of blocks. -/
def uncounted (ch : Channel) : Channel := { ch with processed := 0#32 }

/-- A state without its operand registers, its result registers and the counts of blocks of its channels. -/
def blank (s : State) : State :=
  { s with chans := s.chans.map uncounted, op := .reset, result := 0#32, resultAux := 0#32, lastFail := false }

/-- A channel of such a state. -/
theorem chan_blank (s : State) (c : Nat) : (blank s).chan c = uncounted (s.chan c) := by
  simp only [blank, State.chan, List.getD_eq_getElem?_getD, List.getElem?_map]
  cases s.chans[c]? <;> rfl

/-- The operand registers are forgotten. -/
theorem blank_op (s : State) (o : OpRegs) : blank { s with op := o } = blank s := rfl

/-- How a command ended is forgotten. -/
theorem blank_succeed (s : State) (aux : Word) : blank (succeed s aux) = blank s := rfl

/-- A channel replaced. -/
theorem blank_setChan (s : State) (c : Nat) (ch : Channel) :
    blank (s.setChan c ch) = (blank s).setChan c (uncounted ch) := by
  simp only [blank, State.setChan, List.map_set]

/-- A channel replaced by one that differs in its count of blocks. -/
theorem setChan_blank_self (s : State) (c : Nat) : (blank s).setChan c (uncounted (s.chan c)) = blank s := by
  rw [← chan_blank]
  by_cases hc : c < (blank s).chans.length
  · have hself : (blank s).chans.set c ((blank s).chan c) = (blank s).chans := by
      rw [State.chan, List.getD_eq_getElem _ _ hc, List.set_getElem_self]
    rw [State.setChan, hself]
  · exact setChan_out _ _ _ (Nat.le_of_not_lt hc)

/-- A block counted. -/
theorem blank_runCount (s : State) (c : Nat) : blank (runCount s c) = blank s := by
  rw [runCount, blank_setChan]
  exact setChan_blank_self s c

/-! ## What is kept -/

/-- Every buffer is kept. -/
theorem getBuf_blank (s : State) (r : BufRef) : getBuf (blank s) r = getBuf s r := by
  cases r <;> simp only [getBuf, chan_blank] <;> rfl

/-- Every buffer reads the same. -/
theorem loadReals_blank (s : State) (r : BufRef) : loadReals (blank s) r = loadReals s r := by
  rw [loadReals, getBuf_blank]
  rfl

/-- The product of two buffers. -/
theorem productOf_blank (s : State) (a k : BufRef) : productOf (blank s) a k = productOf s a k := by
  rw [productOf, loadReals_blank, loadReals_blank]
  rfl

/-- A buffer plus the product of two. -/
theorem accumulated_blank (s : State) (dst a k : BufRef) : accumulated (blank s) dst a k = accumulated s dst a k := by
  rw [accumulated, loadReals_blank, productOf_blank]
  rfl

/-- The samples of the input. -/
theorem decodeBlock_blank (s : State) (c : Nat) : decodeBlock (blank s) c = decodeBlock s c := by
  simp only [decodeBlock, inputSample, chan_blank]
  rfl

/-- Which buffers exist. -/
theorem refValid_blank (s : State) (r : BufRef) : refValid (blank s) r = refValid s r := by
  cases r <;> simp only [refValid, chan_blank] <;> rfl

/-! ## What commutes -/

/-- A buffer stored. -/
theorem blank_setBuf (s : State) (r : BufRef) (x : Buf) : blank (setBuf s r x) = setBuf (blank s) r x := by
  cases r with
  | tb c i =>
    simp only [setBuf, blank_setChan, chan_blank]
    split <;> rfl
  | ring c i =>
    simp only [setBuf, blank_setChan, chan_blank]
    rfl
  | acc c =>
    simp only [setBuf, blank_setChan, chan_blank]
    rfl
  | scr | coef | invalid => rfl

/-- Reals stored to a buffer. -/
theorem blank_storeReals (s : State) (r : BufRef) (xs : List FReal) :
    blank (storeReals s r xs) = storeReals (blank s) r xs := by
  have hset := blank_setBuf s r (packReals s.lat.prec s.freeCtr 0 xs)
  calc blank (storeReals s r xs)
      = { blank (setBuf s r (packReals s.lat.prec s.freeCtr 0 xs)) with freeCtr := s.freeCtr + 1 } := rfl
    _ = storeReals (blank s) r xs := by rw [hset]; rfl

/-- Reals stored to a part of a buffer. -/
theorem blank_storeRealsAt (s : State) (r : BufRef) (off : Nat) (xs : List FReal) :
    blank (storeRealsAt s r off xs) = storeRealsAt (blank s) r off xs := by
  have hset := blank_setBuf s r (splice s.lat.size (getBuf s r) off (packReals s.lat.prec s.freeCtr off xs))
  rw [← getBuf_blank] at hset
  calc blank (storeRealsAt s r off xs)
      = { blank (setBuf s r (splice s.lat.size (getBuf s r) off (packReals s.lat.prec s.freeCtr off xs))) with
          freeCtr := s.freeCtr + 1 } := rfl
    _ = storeRealsAt (blank s) r off xs := by rw [← getBuf_blank, hset]; rfl

/-- A log record. -/
theorem blank_logEvent (b : Config.Build) (s : State) (r : LogRecord) :
    blank (logEvent b s r) = logEvent b (blank s) r := by
  rcases logEvent_cases b s r with ⟨hl, h⟩ | ⟨hl, h⟩
  · have hroom : (blank s).log.length < b.logDepth := hl
    rw [h, logEvent, if_pos hroom]
    rfl
  · have hfull : ¬(blank s).log.length < b.logDepth := Nat.not_lt.2 hl
    rw [h, logEvent, if_neg hfull]
    rfl

/-- A plan used. -/
theorem blank_usePlan (b : Config.Build) (s : State) (inv inpl : Bool) :
    blank (usePlan b s inv inpl) = usePlan b (blank s) inv inpl := by
  rcases usePlan_cases b s inv inpl with ⟨hbit, h⟩ | ⟨hbit, h⟩
  · rw [h]
    exact (usePlan_of_bit (s := blank s) hbit).symm
  · have hnew : (planWord (blank s).plan inv inpl).getLsbD (blank s).lat.order = false := hbit
    rw [h, blank_logEvent, usePlan, hnew]
    rfl

/-- A transform. -/
theorem blank_transformed (b : Config.Build) (s : State) (inv inpl : Bool) (dst src : BufRef) :
    blank (transformed b s inv inpl dst src) = transformed b (blank s) inv inpl dst src := by
  simp only [transformed, blank_storeReals, blank_usePlan, loadReals_blank]
  rfl

/-- One sample encoded: the container, and the channel. -/
theorem encodeSample_blank (s : State) (c code : Nat) (y : FReal) :
    encodeSample (blank s) c code y = ((encodeSample s c code y).1, uncounted (encodeSample s c code y).2) := by
  have hdesc : (uncounted (s.chan c)).descOut = (s.chan c).descOut := rfl
  have hdither : (uncounted (s.chan c)).ditherOn = (s.chan c).ditherOn := rfl
  simp only [encodeSample, chan_blank, hdesc, hdither]
  split
  · rfl
  · split <;> rfl

/-- A run of byte writes. -/
theorem blank_writeBytes (s : State) (addr : Nat) (bs : List Byte) :
    blank (writeBytes s addr bs) = writeBytes (blank s) addr bs := by
  induction bs generalizing s addr with
  | nil => rfl
  | cons v vs ih => exact ih (writeByte s addr v) (addr + 1)

/-- A turn of the loop of `ENCODE_BLOCK`. -/
theorem blank_encodeStep (c : Nat) (s : State) (jy : Nat × FReal) :
    blank (encodeStep c s jy) = encodeStep c (blank s) jy := by
  have hdesc : ((blank s).chan c).descOut = (s.chan c).descOut := by rw [chan_blank]; rfl
  have haddr : outputAddr (blank s) c jy.1 = outputAddr s c jy.1 := by rw [outputAddr, hdesc]; rfl
  have hcode : Config.nanCode (blank s).freeCtr jy.1 = Config.nanCode s.freeCtr jy.1 := rfl
  simp only [encodeStep, hdesc, haddr, hcode, encodeSample_blank, putContainer, ← blank_setChan, ← blank_writeBytes]
  rfl

/-- A block encoded. -/
theorem blank_encodeBlock (s : State) (c off : Nat) (src : List FReal) :
    blank (encodeBlock s c off src) = encodeBlock (blank s) c off src := by
  have hfold : ∀ (l : List (Nat × FReal)) (u : State),
      blank (l.foldl (encodeStep c) u) = l.foldl (encodeStep c) (blank u) := fun l => by
    induction l with
    | nil => exact fun _ => rfl
    | cons jy l ih => exact fun u => by rw [List.foldl_cons, ih, blank_encodeStep, List.foldl_cons]
  exact hfold _ s

/-! ## The steps of `RUN` -/

/-- Steps 1 and 2. -/
theorem blank_runInput (b : Config.Build) (sel : Bool) (s : State) (c : Nat) :
    blank (runInput b sel s c) = runInput b sel (blank s) c := by
  simp only [runInput, blank_transformed, blank_storeRealsAt, decodeBlock_blank]
  rfl

/-- Step 4. -/
theorem blank_runStore (b : Config.Build) (sel : Bool) (slot : Nat) (s : State) (c : Nat) :
    blank (runStore b sel slot s c) = runStore b sel slot (blank s) c := by
  simp only [runStore, blank_storeReals, loadReals_blank]
  rfl

/-- The recurrence of step 5 with `n` terms after the first one (R225). -/
def convolveTerms (k slot n : Nat) (s : State) (c : Nat) : State :=
  (List.range n).foldl
    (fun t j =>
      storeReals t (.acc c)
        (accumulated t (.acc c) (.ring c (slotBack k (j + 1) t.lat.nBlocks.toNat)) (.coef c (j + 1))))
    (storeReals s (.acc c) (productOf s (.ring c slot) (.coef c 0)))

/-- Step 5 with `n` terms of the recurrence after the first one, whatever the counts of blocks are. -/
def productTerms (k slot n : Nat) (s : State) (c : Nat) : State :=
  if (s.chan c).coefNBlocks = 0#32 then runDirac slot s c
  else if s.lat.nBlocks = 1#32 then storeReals s (.ring c 0) (productOf s (.ring c 0) (.coef c 0))
  else convolveTerms k slot n s c

/-- Step 5 takes as many terms as there are blocks of coefficients and of input (R225). -/
theorem runProduct_eq (k slot : Nat) (s : State) (c : Nat) : runProduct k slot s c =
    productTerms k slot (min (s.chan c).coefNBlocks.toNat (s.chan c).processed.toNat - 1) s c := rfl

/-- The recurrence. -/
theorem blank_convolveTerms (k slot n : Nat) (s : State) (c : Nat) :
    blank (convolveTerms k slot n s c) = convolveTerms k slot n (blank s) c := by
  induction n with
  | zero =>
    simp only [convolveTerms, List.range_zero, List.foldl_nil, blank_storeReals, productOf_blank]
  | succ n ih =>
    simp only [convolveTerms, List.range_succ, List.foldl_append, List.foldl_cons, List.foldl_nil] at ih ⊢
    rw [blank_storeReals, ← ih, accumulated_blank]
    rfl

/-- Step 5. -/
theorem blank_productTerms (k slot n : Nat) (s : State) (c : Nat) :
    blank (productTerms k slot n s c) = productTerms k slot n (blank s) c := by
  have hcoef : ((blank s).chan c).coefNBlocks = (s.chan c).coefNBlocks := by rw [chan_blank]; rfl
  have hlat : (blank s).lat = s.lat := rfl
  simp only [productTerms, runDirac, hcoef, hlat, ← blank_convolveTerms, loadReals_blank, productOf_blank,
    ← blank_storeReals]
  split_ifs <;> rfl

/-- Step 6. -/
theorem blank_runOutput (b : Config.Build) (s : State) (c : Nat) :
    blank (runOutput b s c) = runOutput b (blank s) c := by
  simp only [runOutput, blank_transformed, blank_storeReals, loadReals_blank]
  rfl

/-- The count of blocks when step 5 begins (R222). -/
theorem processed_runStore {slot c : Nat} {s : State} (h : Turn s slot c) (b : Config.Build) (sel : Bool) :
    ((runStore b sel slot (runCount (runInput b sel s c) c) c).chan c).processed.toNat =
      min ((s.chan c).processed.toNat + 1) s.lat.nBlocks.toNat := by
  have hwork :=
    (Writes.refl b [] (runStore b sel slot (runCount (runInput b sel s c) c) c)).runProductOutput 0 slot c
  obtain ⟨-, hkept⟩ := hwork.counters_eq List.not_mem_nil List.not_mem_nil List.not_mem_nil
  rw [← hkept c]
  exact h.processed_runWork b 0 sel

/-- Steps 1 to 6, the count of blocks being forgotten. -/
theorem blank_runWork {slot c : Nat} {s : State} (h : Turn s slot c) (b : Config.Build) (k : Nat) (sel : Bool) :
    blank (runWork b k slot sel s c) =
      runOutput b (productTerms k slot
        (min (s.chan c).coefNBlocks.toNat (min ((s.chan c).processed.toNat + 1) s.lat.nBlocks.toNat) - 1)
        (runStore b sel slot (runInput b sel (blank s) c) c) c) c := by
  have hcoefs : ((runStore b sel slot (runCount (runInput b sel s c) c) c).chan c).coefNBlocks =
      (s.chan c).coefNBlocks := by
    have hcount := (h.runInput b sel).trans (TurnFrame.runCount _ c)
    exact (hcount.trans ((h.next hcount).runStore b sel)).coefs
  rw [runWork, blank_runOutput, runProduct_eq, blank_productTerms, blank_runStore, blank_runCount, blank_runInput, hcoefs,
    processed_runStore h b sel]

end Sys2Proof.Machine
end

section
/-! `RUN` as its unit commands (`43_engine.md` R220 to R229): the commands issued by hand go through the states of
`RUN`'s own steps, but for what `blank` forgets. -/

namespace Sys2Proof.Machine

/-! One theorem is checked after the other: checked side by side, they take a thread each. -/
set_option Elab.async false

/-! ## Ids of buffers -/

/-- A buffer that exists is the one its id names (R112, R113). -/
theorem bufRef_bufferId {b : Config.Build} {s : State} (hs : CanRun b s) {r : BufRef} (hr : refValid s r = true) :
    bufRef (bufferId r) = r := by
  have hchan : ∀ c : Nat, c < s.channels → c < 16 := fun c hc => by
    have hhigh := hs.shape.channelsHigh
    have hmax := hs.legal.channels.2
    omega
  have hslot : ∀ i : Nat, i < s.lat.nBlocks.toNat → i < 2 ^ 24 := fun i hi =>
    hi.trans_le (hs.shape.nBlocksHigh.trans hs.legal.blocks)
  obtain ⟨hid, -⟩ := bufferIds
  cases r with
  | tb c i =>
    simp only [refValid, Bool.and_eq_true, decide_eq_true_eq] at hr
    obtain ⟨⟨-, hc⟩, hi⟩ := hr
    exact (hid c i (hchan c hc) (by omega)).1
  | ring c i =>
    simp only [refValid, Bool.and_eq_true, decide_eq_true_eq] at hr
    obtain ⟨⟨-, hc⟩, hi⟩ := hr
    exact (hid c i (hchan c hc) (hslot i hi)).2.1
  | acc c =>
    simp only [refValid, Bool.and_eq_true, decide_eq_true_eq] at hr
    exact (hid c 0 (hchan c hr.2) (by decide)).2.2.1
  | scr i =>
    simp only [refValid, Bool.and_eq_true, decide_eq_true_eq] at hr
    exact (hid 0 i (by decide) (by omega)).2.2.2.1
  | coef c i =>
    simp only [refValid, Bool.and_eq_true, decide_eq_true_eq] at hr
    obtain ⟨⟨-, hc⟩, hi⟩ := hr
    exact (hid c i (hchan c hc) (hslot i (hi.trans_le (hs.shape.channel c hc).coefNBlocks))).2.2.2.2
  | invalid => cases hr

/-- The buffers of a turn may be written (R113). -/
theorem refWritable_of_turnOf {c : Nat} {r : BufRef} (h : r.turnOf c) : refWritable r = true := by
  cases r with
  | tb | ring | acc | scr => rfl
  | coef | invalid => cases h

/-! ## A unit command issued by hand -/

/-- The state `u` is `w` but for what is forgotten, on an engine whose buffers have ids. -/
structure ByHand (slot : Nat) (w u : State) : Prop where
  same : blank u = w
  turn : Turn w slot 0
  ids : ∀ r : BufRef, refValid w r = true → bufRef (bufferId r) = r

namespace ByHand

variable {b : Config.Build} {slot : Nat} {w w' u u' : State} {W : List BufRef} {dst src coef r : BufRef} {o : OpRegs}

/-- One more step, of `RUN` and by hand. -/
theorem next (h : ByHand slot w u) (hf : TurnFrame 0 W w w') (hsame : blank u' = w') : ByHand slot w' u' where
  same := hsame
  turn := h.turn.next hf
  ids := fun r hr => h.ids r ((hf.refValid r).symm.trans hr)

/-- The configuration is the same. -/
theorem lat (h : ByHand slot w u) : u.lat = w.lat := by
  rw [← h.same]
  rfl

/-- There is an engine. -/
theorem built (h : ByHand slot w u) : u.fsm ≠ .uninit := by
  have hbuilt := h.turn.built
  rw [← h.same] at hbuilt
  exact hbuilt

/-- Whatever the operand registers are, it is the same state. -/
theorem ops (h : ByHand slot w u) (o : OpRegs) : ByHand slot w { u with op := o } := ⟨h.same, h.turn, h.ids⟩

/-- The buffer an id names reads the same. -/
theorem loadReals (h : ByHand slot w u) (hr : refValid w r = true) :
    loadReals u (bufRef (bufferId r)) = Machine.loadReals w r := by
  rw [h.ids r hr, ← loadReals_blank, h.same]

/-- The product of the buffers two ids name is the same. -/
theorem productOf (h : ByHand slot w u) (hs : refValid w src = true) (hk : refValid w coef = true) :
    productOf u (bufRef (bufferId src)) (bufRef (bufferId coef)) = Machine.productOf w src coef := by
  rw [h.ids src hs, h.ids coef hk, ← productOf_blank, h.same]

/-! ### The checks -/

/-- An id of a buffer that exists passes its check. -/
theorem checkValid (h : ByHand slot w u) (hr : refValid w r = true) : (checkValid u (bufferId r)).fails = false := by
  have hv : refValid u r = true := by rwa [← refValid_blank, h.same]
  rw [Machine.checkValid, validId, h.ids r hr, hv]
  rfl

/-- The id of a buffer that exists and may be written passes its check. -/
theorem checkWritable (h : ByHand slot w u) (hr : refValid w r = true) (ht : r.turnOf 0) :
    (checkWritable u (bufferId r)).fails = false := by
  have hv : refValid u r = true := by rwa [← refValid_blank, h.same]
  rw [Machine.checkWritable, writableId, validId, h.ids r hr, hv, refWritable_of_turnOf ht]
  rfl

/-- The check of the channel passes. -/
theorem checkChannel (h : ByHand slot w u) : (checkChannel u 0).fails = false := by
  have hchan := h.turn.chan
  rw [State.channels, ← h.lat] at hchan
  exact decide_eq_false (Nat.not_le.2 hchan)

/-- The check of an offset in the first half passes. -/
theorem checkOffset (h : ByHand slot w u) (hoff : u.op.off.toNat ≤ w.lat.blockLen.toNat) :
    (checkOffset u).fails = false := by
  have hsize : u.lat.size = 2 * u.lat.blockLen.toNat := rfl
  rw [← h.lat] at hoff
  refine decide_eq_false ?_
  omega

/-- Two buffers have two ids. -/
theorem id_ne (h : ByHand slot w u) {r r' : BufRef} (hr : refValid w r = true) (hr' : refValid w r' = true)
    (hne : r ≠ r') : decide (bufferId r = bufferId r') = false :=
  decide_eq_false fun he => hne (by rw [← h.ids r hr, he, h.ids r' hr'])

/-! ### The commands -/

/-- A command whose checks all pass has its effect. -/
theorem unitStep_eq (h : ByHand slot w u) {i : Instr} {cs : List Check} {effect : State}
    (he : execWith b i { u with op := o } =
      .next (whenConstructed { u with op := o } (checked { u with op := o } cs effect)))
    (hcs : ∀ c ∈ cs, c.fails = false) : unitStep b u o i = effect := by
  have hbuilt : ({ u with op := o } : State).fsm ≠ .uninit := h.built
  rw [unitStep, he, whenConstructed_pass _ _ hbuilt, checked_pass _ _ hcs]

/-- A command that stores reals to its destination. -/
theorem storing (h : ByHand slot w u) (hd : refValid w dst = true) (ht : dst.turnOf 0) {i : Instr} {cs : List Check}
    {xs ys : List FReal}
    (he : execWith b i { u with op := o } = .next (whenConstructed { u with op := o } (checked { u with op := o } cs
      (succeed (storeReals { u with op := o } (bufRef (bufferId dst)) xs) 0#32))))
    (hcs : ∀ c ∈ cs, c.fails = false) (hxs : xs = ys) : ByHand slot (storeReals w dst ys) (unitStep b u o i) := by
  refine h.next (.storeReals hd ht _) ?_
  rw [h.unitStep_eq he hcs, h.ids dst hd, hxs, blank_succeed, blank_storeReals, blank_op, h.same]

/-- `DECODE` into a half of a buffer (R252). -/
theorem decode (h : ByHand slot w u) (hd : refValid w dst = true) (ht : dst.turnOf 0)
    {off : Word} (hoff : off.toNat ≤ w.lat.blockLen.toNat) :
    ByHand slot (storeRealsAt w dst off.toNat (decodeBlock w 0))
      (unitStep b u { OpRegs.reset with dst := bufferId dst, off := off } (.decodeSamples 0)) := by
  have ho := h.ops { OpRegs.reset with dst := bufferId dst, off := off }
  refine h.next (.storeRealsAt hd ht _ _) ?_
  rw [h.unitStep_eq rfl (List.forall_mem_cons.2 ⟨ho.checkChannel, List.forall_mem_cons.2
    ⟨ho.checkWritable hd ht, List.forall_mem_singleton.2 (ho.checkOffset hoff)⟩⟩), blank_succeed, blank_storeRealsAt,
    ← decodeBlock_blank, ho.same, h.ids dst hd]

/-- A transform in place (R147, R148). -/
theorem transform (h : ByHand slot w u) (hd : refValid w dst = true) (ht : dst.turnOf 0)
    (inv : Bool) :
    ByHand slot (transformed b w inv true dst dst)
      (unitStep b u (opsOf dst dst) (if inv then .freqToTime else .timeToFreq)) := by
  have ho := h.ops (opsOf dst dst)
  have hpass : ∀ c ∈ [Machine.checkValid { u with op := opsOf dst dst } (bufferId dst),
      Machine.checkWritable { u with op := opsOf dst dst } (bufferId dst)], c.fails = false :=
    List.forall_mem_cons.2 ⟨ho.checkValid hd, List.forall_mem_singleton.2 (ho.checkWritable hd ht)⟩
  have hstep : unitStep b u (opsOf dst dst) (if inv then .freqToTime else .timeToFreq) =
      succeed (transformed b { u with op := opsOf dst dst } inv (decide (bufferId dst = bufferId dst))
        (bufRef (bufferId dst)) (bufRef (bufferId dst))) 0#32 := by
    cases inv <;> exact h.unitStep_eq rfl hpass
  refine h.next (.transformed b inv true dst hd ht) ?_
  rw [hstep, decide_eq_true rfl, h.ids dst hd, blank_succeed, blank_transformed, ho.same]

/-- `MIX_AND_SCALE` of one input passes its checks (R149). -/
theorem mixChecks (h : ByHand slot w u) (hdst : u.op.dst = bufferId dst) (hsrc : u.op.src0 = bufferId src)
    (hd : refValid w dst = true) (ht : dst.turnOf 0) (hs : refValid w src = true) (hne : dst ≠ src) :
    ∀ c ∈ mixChecks u 1, c.fails = false := by
  have hsources : u.op.sources.take 1 = [bufferId src] := by rw [← hsrc]; rfl
  have halias : [bufferId src].contains (bufferId dst) = false := by
    simpa using of_decide_eq_false (h.id_ne hd hs hne)
  rw [Machine.mixChecks, hsources, hdst]
  exact List.forall_mem_cons.2 ⟨rfl, List.forall_mem_cons.2 ⟨h.checkValid hs, List.forall_mem_cons.2
    ⟨h.checkWritable hd ht, List.forall_mem_singleton.2 halias⟩⟩⟩

/-- `MIX_AND_SCALE.IN` of one input (R149). -/
theorem mixIn (h : ByHand slot w u) (hd : refValid w dst = true) (ht : dst.turnOf 0)
    (hs : refValid w src = true) (hne : dst ≠ src) (weight : Word64) :
    ByHand slot (storeReals w dst (mixOne w.lat.prec .input w.lat.size (unpack .p64 weight) (Machine.loadReals w src)))
      (unitStep b u { opsOf dst src with scale0 := weight } (.mixAndScaleIn 1)) := by
  have ho := h.ops { opsOf dst src with scale0 := weight }
  refine h.storing hd ht rfl (ho.mixChecks rfl rfl hd ht hs hne) ?_
  rw [← ho.loadReals hs, ← h.lat]
  rfl

/-- `MIX_AND_SCALE.OUT` of one input (R149). -/
theorem mixOut (h : ByHand slot w u) (hd : refValid w dst = true) (ht : dst.turnOf 0)
    (hs : refValid w src = true) (hne : dst ≠ src) (weight : Word64) :
    ByHand slot (storeReals w dst (mixOne w.lat.prec .output w.lat.size (unpack .p64 weight) (Machine.loadReals w src)))
      (unitStep b u { opsOf dst src with scale0 := weight } (.mixAndScaleOut 1)) := by
  have ho := h.ops { opsOf dst src with scale0 := weight }
  refine h.storing hd ht rfl (ho.mixChecks rfl rfl hd ht hs hne) ?_
  rw [← ho.loadReals hs, ← h.lat]
  rfl

/-- `CONVOLVE` and `CONVOLVE_ADD` pass their checks (R171, R172). -/
theorem convolveChecks (h : ByHand slot w u) (hdst : u.op.dst = bufferId dst) (hsrc : u.op.src0 = bufferId src)
    (hcoef : u.op.coef = bufferId coef) (hd : refValid w dst = true)
    (ht : dst.turnOf 0) (hs : refValid w src = true) (hk : refValid w coef = true) (hds : dst ≠ src) (hdk : dst ≠ coef) :
    ∀ c ∈ convolveChecks u, c.fails = false := by
  rw [Machine.convolveChecks, hdst, hsrc, hcoef, h.id_ne hd hs hds, h.id_ne hd hk hdk]
  exact List.forall_mem_cons.2 ⟨h.checkValid hs, List.forall_mem_cons.2 ⟨h.checkValid hk, List.forall_mem_cons.2
    ⟨h.checkWritable hd ht, List.forall_mem_singleton.2 rfl⟩⟩⟩

/-- `CONVOLVE` (R171). -/
theorem convolve (h : ByHand slot w u) (hd : refValid w dst = true) (ht : dst.turnOf 0)
    (hs : refValid w src = true) (hk : refValid w coef = true) (hds : dst ≠ src) (hdk : dst ≠ coef) :
    ByHand slot (storeReals w dst (Machine.productOf w src coef))
      (unitStep b u { opsOf dst src with coef := bufferId coef } .convolve) := by
  have ho := h.ops { opsOf dst src with coef := bufferId coef }
  exact h.storing hd ht rfl (ho.convolveChecks rfl rfl rfl hd ht hs hk hds hdk) (ho.productOf hs hk)

/-- `CONVOLVE_ADD` (R172). -/
theorem convolveAdd (h : ByHand slot w u) (hd : refValid w dst = true) (ht : dst.turnOf 0)
    (hs : refValid w src = true) (hk : refValid w coef = true) (hds : dst ≠ src) (hdk : dst ≠ coef) :
    ByHand slot (storeReals w dst (accumulated w dst src coef))
      (unitStep b u { opsOf dst src with coef := bufferId coef } .convolveAdd) := by
  have ho := h.ops { opsOf dst src with coef := bufferId coef }
  refine h.storing hd ht rfl (ho.convolveChecks rfl rfl rfl hd ht hs hk hds hdk) ?_
  rw [accumulated, accumulated, ← h.lat, ← ho.loadReals hd, ← ho.productOf hs hk]
  rfl

/-- `CONVOLVE_INPLACE` (R173). -/
theorem convolveInplace (h : ByHand slot w u) (hd : refValid w dst = true) (ht : dst.turnOf 0)
    (hk : refValid w coef = true) (hdk : dst ≠ coef) :
    ByHand slot (storeReals w dst (Machine.productOf w dst coef))
      (unitStep b u { OpRegs.reset with dst := bufferId dst, coef := bufferId coef } .convolveInplace) := by
  have ho := h.ops { OpRegs.reset with dst := bufferId dst, coef := bufferId coef }
  exact h.storing hd ht rfl (List.forall_mem_cons.2 ⟨ho.checkWritable hd ht, List.forall_mem_cons.2
    ⟨ho.checkValid hk, List.forall_mem_singleton.2 (h.id_ne hd hk hdk)⟩⟩) (ho.productOf hd hk)

/-- `DIRAC_CONVOLVE` (R174). -/
theorem diracConvolve (h : ByHand slot w u) (hd : refValid w dst = true) (ht : dst.turnOf 0)
    (hs : refValid w src = true) (hds : dst ≠ src) :
    ByHand slot (storeReals w dst (dirac w.lat.prec w.lat.order (Machine.loadReals w src)))
      (unitStep b u (opsOf dst src) .diracConvolve) := by
  have ho := h.ops (opsOf dst src)
  refine h.storing hd ht rfl (List.forall_mem_cons.2 ⟨ho.checkValid hs, List.forall_mem_cons.2
    ⟨ho.checkWritable hd ht, List.forall_mem_singleton.2 (h.id_ne hd hs hds)⟩⟩) ?_
  rw [← ho.loadReals hs, ← h.lat]
  rfl

/-- `DIRAC_CONVOLVE_INPLACE` (R175). -/
theorem diracConvolveInplace (h : ByHand slot w u) (hd : refValid w dst = true) (ht : dst.turnOf 0) :
    ByHand slot (storeReals w dst (dirac w.lat.prec w.lat.order (Machine.loadReals w dst)))
      (unitStep b u { OpRegs.reset with dst := bufferId dst } .diracConvolveInplace) := by
  have ho := h.ops { OpRegs.reset with dst := bufferId dst }
  refine h.storing hd ht rfl (List.forall_mem_singleton.2 (ho.checkWritable hd ht)) ?_
  rw [← ho.loadReals hd, ← h.lat]

/-- `ENCODE` of a buffer from its begin on (R256). -/
theorem encode (h : ByHand slot w u) (hs : refValid w src = true) :
    blank (unitStep b u (opsOf .invalid src) (.encodeSamples 0)) = encodeBlock w 0 0 (Machine.loadReals w src) := by
  have ho := h.ops (opsOf .invalid src)
  rw [h.unitStep_eq rfl (List.forall_mem_cons.2 ⟨ho.checkChannel, List.forall_mem_cons.2
    ⟨ho.checkValid hs, List.forall_mem_singleton.2 (ho.checkOffset (Nat.zero_le _))⟩⟩), blank_succeed,
    blank_encodeBlock, ho.same, ← ho.loadReals hs]
  rfl

end ByHand

/-! ## The steps of `RUN` issued by hand -/

/-- The samples of the input are not in the arena. -/
theorem decodeBlock_storeRealsAt (s : State) (r : BufRef) (off : Nat) (xs : List FReal) (c : Nat) :
    decodeBlock (storeRealsAt s r off xs) c = decodeBlock s c := by
  have hbook := congrArg Channel.descIn
    (setBuf_book s r (splice s.lat.size (getBuf s r) off (packReals s.lat.prec s.freeCtr off xs)) c)
  have hchan : ((storeRealsAt s r off xs).chan c).descIn = (s.chan c).descIn := hbook
  have hmem : (storeRealsAt s r off xs).mem = s.mem := setBuf_mem ..
  have hpower : (storeRealsAt s r off xs).powerOns = s.powerOns := setBuf_powerOns ..
  simp only [decodeBlock, inputSample, getContainer, readBytes, readByte, hchan, hmem, hpower, storeRealsAt_lat]

/-- Steps 1 and 2 of `RUN` as unit commands (R221, R252). -/
def runInputUnits (l : Word) (sel : Bool) : List (OpRegs × Instr) :=
  [({ OpRegs.reset with dst := bufferId (.tb 0 (segment sel)), off := l }, .decodeSamples 0),
   ({ OpRegs.reset with dst := bufferId (.tb 0 (segment (!sel))), off := 0#32 }, .decodeSamples 0),
   (opsOf (.tb 0 (segment sel)) (.tb 0 (segment sel)), .timeToFreq)]

/-- Step 6 of `RUN` as unit commands (R227). -/
def runOutputUnits (b : Config.Build) (blocks : Nat) : List (OpRegs × Instr) :=
  [({ opsOf (.scr 0) (if blocks = 1 then .ring 0 0 else .acc 0) with scale0 := b.outScale }, .mixAndScaleOut 1),
   (opsOf (.scr 0) (.scr 0), .freqToTime)]

/-- The unit commands of `RUN` step by step. -/
theorem runUnits_eq (b : Config.Build) (s : State) :
    runUnits b s = runInputUnits s.lat.blockLen s.bufSel ++
      ({ opsOf (.ring 0 (runSlot s)) (.tb 0 (segment s.bufSel)) with scale0 := b.inScale }, .mixAndScaleIn 1) ::
      (runProductUnits s s.blockCounter.toNat (runSlot s) (min ((s.chan 0).processed.toNat + 1) s.lat.nBlocks.toNat) ++
      runOutputUnits b s.lat.nBlocks.toNat) := by
  have hother : 1 - segment s.bufSel = segment (!s.bufSel) := by cases s.bufSel <;> rfl
  simp only [runUnits, runInputUnits, runOutputUnits, runSlot, ← hother, List.cons_append, List.nil_append]
  rfl

/-- A number of blocks as a word and as a number. -/
theorem eq_word_iff_toNat (n : Word) : n = 1#32 ↔ n.toNat = 1 := by
  rw [← BitVec.toNat_inj]
  rfl

/-- Unit commands one after the other. -/
theorem unitSteps_append (b : Config.Build) (s : State) (cs ds : List (OpRegs × Instr)) :
    unitSteps b s (cs ++ ds) = unitSteps b (unitSteps b s cs) ds := List.foldl_append

/-- Every slot before the current one is a slot (R225). -/
theorem slotBack_lt (k i : Nat) {blocks : Nat} (h : 0 < blocks) : slotBack k i blocks < blocks := by
  have hlow := Int.emod_nonneg ((k : Int) - (i : Int)) (b := (blocks : Int)) (by omega)
  have hhigh := Int.emod_lt_of_pos ((k : Int) - (i : Int)) (b := (blocks : Int)) (by omega)
  rw [slotBack]
  omega

/-- The recurrence of step 5 with `n` terms after the first one as unit commands (R225). -/
def convolveUnits (k slot blocks n : Nat) : List (OpRegs × Instr) :=
  ({ opsOf (.acc 0) (.ring 0 slot) with coef := bufferId (.coef 0 0) }, .convolve) ::
    (List.range n).map fun (j : Nat) =>
      ({ opsOf (.acc 0) (.ring 0 (slotBack k (j + 1) blocks)) with coef := bufferId (.coef 0 (j + 1)) }, .convolveAdd)

/-- One more term, as a unit command. -/
theorem convolveUnits_succ (k slot blocks n : Nat) : convolveUnits k slot blocks (n + 1) =
    convolveUnits k slot blocks n ++
      [({ opsOf (.acc 0) (.ring 0 (slotBack k (n + 1) blocks)) with coef := bufferId (.coef 0 (n + 1)) },
        .convolveAdd)] := by
  rw [convolveUnits, List.range_succ, List.map_append, ← List.cons_append]
  rfl

/-- One more term. -/
theorem convolveTerms_succ (k slot n : Nat) (s : State) (c : Nat) : convolveTerms k slot (n + 1) s c =
    storeReals (convolveTerms k slot n s c) (.acc c) (accumulated (convolveTerms k slot n s c) (.acc c)
      (.ring c (slotBack k (n + 1) (convolveTerms k slot n s c).lat.nBlocks.toNat)) (.coef c (n + 1))) := by
  rw [convolveTerms, List.range_succ, List.foldl_append]
  rfl

/-- The recurrence writes the accumulator. -/
theorem Turn.convolveTerms {slot c : Nat} {s : State} (h : Turn s slot c) (k n : Nat) :
    TurnFrame c [.acc c] s (Machine.convolveTerms k slot n s c) := by
  induction n with
  | zero => exact .storeReals h.valid_acc rfl _
  | succ n ih =>
    rw [convolveTerms_succ]
    exact (ih.trans (.storeReals (h.next ih).valid_acc rfl _)).mono (by simp)

/-- Step 5 keeps the configuration. -/
theorem Turn.productTerms_lat {slot c : Nat} {s : State} (h : Turn s slot c) (k n : Nat) :
    (productTerms k slot n s c).lat = s.lat := by
  rw [productTerms, runDirac]
  split_ifs
  · exact storeReals_lat ..
  · exact storeReals_lat ..
  · exact storeReals_lat ..
  · exact (h.convolveTerms k n).control.lat

/-- What the unit commands of step 5 depend on. -/
theorem runProductUnits_congr {s t : State} (hcoefs : (t.chan 0).coefNBlocks = (s.chan 0).coefNBlocks)
    (hblocks : t.lat.nBlocks = s.lat.nBlocks) (k slot processed : Nat) :
    runProductUnits t k slot processed = runProductUnits s k slot processed := by
  simp only [runProductUnits, hcoefs, hblocks]

namespace ByHand

variable {b : Config.Build} {slot : Nat} {w u : State}

/-- Steps 1 and 2. -/
theorem runInput (h : ByHand slot w u) (b : Config.Build) (sel : Bool) :
    ByHand slot (Machine.runInput b sel w 0) (unitSteps b u (runInputUnits w.lat.blockLen sel)) := by
  have h1 := h.decode (b := b) (h.turn.valid_tb sel) rfl le_rfl
  have h2 := h1.decode (b := b) (h1.turn.valid_tb (!sel)) rfl (off := 0#32) (Nat.zero_le _)
  have h3 := h2.transform (b := b) (h2.turn.valid_tb sel) rfl false
  rw [decodeBlock_storeRealsAt] at h3
  exact h3

/-- Step 4. -/
theorem runStore (h : ByHand slot w u) (b : Config.Build) (sel : Bool) :
    ByHand slot (Machine.runStore b sel slot w 0)
      (unitStep b u { opsOf (.ring 0 slot) (.tb 0 (segment sel)) with scale0 := b.inScale } (.mixAndScaleIn 1)) :=
  h.mixIn h.turn.valid_ring rfl (h.turn.valid_tb sel) nofun b.inScale

/-- The recurrence of step 5. -/
theorem convolveTerms (h : ByHand slot w u) (b : Config.Build) (k n : Nat) (hn : n < (w.chan 0).coefNBlocks.toNat) :
    ByHand slot (Machine.convolveTerms k slot n w 0) (unitSteps b u (convolveUnits k slot w.lat.nBlocks.toNat n)) := by
  have hcoef : ∀ {w' u' : State} {W : List BufRef} {i : Nat}, ByHand slot w' u' → TurnFrame 0 W w w' →
      i < (w.chan 0).coefNBlocks.toNat → refValid w' (.coef 0 i) = true := fun hw' hframe hi => by
    simp [refValid, hw'.turn.built, hw'.turn.chan, hframe.coefs, hi]
  induction n with
  | zero =>
    have hfirst := h.convolve (b := b) h.turn.valid_acc rfl h.turn.valid_ring (hcoef h (.refl 0 w) hn) nofun nofun
    exact hfirst
  | succ n ih =>
    have hbefore := ih (by omega)
    have hframe := h.turn.convolveTerms k n
    have hlat := hframe.control.lat
    have hring : refValid (Machine.convolveTerms k slot n w 0) (.ring 0 (slotBack k (n + 1) w.lat.nBlocks.toNat)) =
        true := by
      simp [refValid, hbefore.turn.built, hbefore.turn.chan, hlat, slotBack_lt k (n + 1) (Nat.zero_lt_of_lt h.turn.slot)]
    have hadd := hbefore.convolveAdd (b := b) hbefore.turn.valid_acc rfl hring (hcoef hbefore hframe hn) nofun nofun
    rw [convolveTerms_succ, hlat, convolveUnits_succ, unitSteps_append]
    exact hadd

/-- Step 5. -/
theorem runProduct (h : ByHand slot w u) (b : Config.Build) (k processed : Nat) :
    ByHand slot (productTerms k slot (min (w.chan 0).coefNBlocks.toNat processed - 1) w 0)
      (unitSteps b u (runProductUnits w k slot processed)) := by
  have hslot : w.lat.nBlocks.toNat = 1 → slot = 0 := fun h1 => h.turn.slot_eq ((eq_word_iff_toNat _).2 h1)
  have hring : w.lat.nBlocks.toNat = 1 → refValid w (.ring 0 0) = true := fun h1 => hslot h1 ▸ h.turn.valid_ring
  have hnone : (w.chan 0).coefNBlocks = 0#32 ↔ (w.chan 0).coefNBlocks.toNat = 0 := BitVec.toNat_inj.symm
  simp only [productTerms, runDirac, runProductUnits, hnone, eq_word_iff_toNat]
  by_cases h0 : (w.chan 0).coefNBlocks.toNat = 0
  · by_cases h1 : w.lat.nBlocks.toNat = 1
    · rw [if_pos h0, if_pos h0, if_pos h1, if_pos h1]
      exact h.diracConvolveInplace (b := b) (hring h1) rfl
    · rw [if_pos h0, if_pos h0, if_neg h1, if_neg h1]
      exact h.diracConvolve (b := b) h.turn.valid_acc rfl h.turn.valid_ring nofun
  · have hcoef : refValid w (.coef 0 0) = true := by
      simp [refValid, h.turn.built, h.turn.chan, Nat.pos_of_ne_zero h0]
    by_cases h1 : w.lat.nBlocks.toNat = 1
    · rw [if_neg h0, if_neg h0, if_pos h1, if_pos h1]
      exact h.convolveInplace (b := b) (hring h1) rfl hcoef nofun
    · rw [if_neg h0, if_neg h0, if_neg h1, if_neg h1]
      exact h.convolveTerms b k _ (by omega)

/-- Step 6. -/
theorem runOutput (h : ByHand slot w u) (b : Config.Build) :
    ByHand slot (Machine.runOutput b w 0) (unitSteps b u (runOutputUnits b w.lat.nBlocks.toNat)) := by
  have hsrc : (if w.lat.nBlocks = 1#32 then BufRef.ring 0 0 else .acc 0) =
      if w.lat.nBlocks.toNat = 1 then .ring 0 0 else .acc 0 := if_congr (eq_word_iff_toNat _) rfl rfl
  have hvalid : refValid w (if w.lat.nBlocks.toNat = 1 then .ring 0 0 else .acc 0) = true := by
    split
    · next h1 =>
      have hslot := h.turn.slot_eq ((eq_word_iff_toNat _).2 h1)
      exact hslot ▸ h.turn.valid_ring
    · exact h.turn.valid_acc
  have hne : BufRef.scr 0 ≠ if w.lat.nBlocks.toNat = 1 then .ring 0 0 else .acc 0 := by split <;> nofun
  have h1 := h.mixOut (b := b) h.turn.valid_scr rfl hvalid hne b.outScale
  have h2 := h1.transform (b := b) h1.turn.valid_scr rfl true
  rw [Machine.runOutput, hsrc]
  exact h2

/-- Steps 5 and 6. -/
theorem runProductOutput (h : ByHand slot w u) (b : Config.Build) (k processed : Nat) :
    ByHand slot
      (Machine.runOutput b (productTerms k slot (min (w.chan 0).coefNBlocks.toNat processed - 1) w 0) 0)
      (unitSteps b u (runProductUnits w k slot processed ++ runOutputUnits b w.lat.nBlocks.toNat)) := by
  have hout := (h.runProduct b k processed).runOutput b
  rw [h.turn.productTerms_lat] at hout
  rw [unitSteps_append]
  exact hout

end ByHand

/-! ## The whole call -/

/-- Channels that differ in their counts of blocks. -/
theorem eq_of_uncounted {x y : Channel} (h : uncounted x = uncounted y) : x = { y with processed := x.processed } :=
  congrArg (fun ch : Channel => { ch with processed := x.processed }) h

/-- What two states that differ in what is forgotten have in common. -/
theorem eq_of_blank {s t : State} (h : blank s = blank t) :
    s.scr = t.scr ∧ s.mem = t.mem ∧ s.plan = t.plan ∧ SameLog t s ∧ s.freeCtr = t.freeCtr := by
  simp only [blank, State.mk.injEq] at h
  obtain ⟨-, -, -, -, -, hscr, -, -, -, hplan, hlog, hrd, hlost, -, -, -, -, -, -, -, -, hmem, -, -, hctr, -⟩ := h
  exact ⟨hscr, hmem, hplan, ⟨hlog, hrd, hlost⟩, hctr⟩

/-- Every element reads the same when the operand registers and the counts are forgotten. -/
theorem elem_blank (s : State) (r : BufRef) (e : Nat) : elem (blank s) r e = elem s r e := by
  rw [elem, elemBits, getBuf_blank]
  rfl

namespace CanRun

variable {b : Config.Build} {s : State}

/-- The unit commands begin where `RUN` does. -/
theorem byHand (h : CanRun b s) (hc : 0 < s.channels) : ByHand (runSlot s) (blank s) s where
  same := rfl
  turn :=
    have hroom : (blank s).chans.length = s.chans.length := List.length_map ..
    ⟨h.built, hc, (h.room hc).trans_eq hroom.symm, h.slot_lt⟩
  ids := fun r hr => bufRef_bufferId h (by rwa [refValid_blank] at hr)

/-- The unit commands of steps 1 to 6 issued by hand leave what steps 1 to 6 of the turn of channel 0 leave. -/
theorem byHand_runUnits (h : CanRun b s) (hc : 0 < s.channels) :
    ByHand (runSlot s) (blank (turnWork b s s 0)) (unitSteps b s (runUnits b s)) := by
  have hturn := (runDone_start b s).turn h hc
  have h0 := h.byHand hc
  have h2 := h0.runInput b s.bufSel
  have h4 := h2.runStore b s.bufSel
  have hframe := (h0.turn.runInput b s.bufSel).trans (h2.turn.runStore b s.bufSel)
  have hcoefs := hframe.coefs.trans (congrArg Channel.coefNBlocks (chan_blank s 0))
  have hlat := hframe.control.lat
  have hout := h4.runProductOutput b s.blockCounter.toNat (min ((s.chan 0).processed.toNat + 1) s.lat.nBlocks.toNat)
  rw [hcoefs, runProductUnits_congr hcoefs (congrArg Latched.nBlocks hlat), hlat] at hout
  rw [blank_runWork hturn, runUnits_eq, unitSteps_append]
  exact hout

/-- Step 7 inspects a sample of `SCR[0]` (R227). -/
theorem runPasses_zero (h : CanRun b s) (hc : 0 < s.channels) :
    runPasses b s.blockCounter.toNat (runSlot s) s.bufSel s 0 =
      isFinite (elem (turnWork b s s 0) (.scr 0) b.nonfiniteCheckIndex) := by
  have hlat := (((runDone_start b s).turn h hc).runWork b s.blockCounter.toNat s.bufSel).control.lat
  have hindex : b.nonfiniteCheckIndex < (turnWork b s s 0).lat.size := by
    obtain ⟨k, hlow, -, hlen⟩ := h.shape.blockLen
    have hsize : s.lat.size = 2 * s.lat.blockLen.toNat := rfl
    have hcheck : b.nonfiniteCheckIndex < 2 ^ k :=
      h.legal.check.trans_le (Nat.pow_le_pow_right (by omega) (by omega))
    rw [hlat, hsize, hlen]
    omega
  rw [runPasses, runSamples, nth_loadReals _ hindex]

end CanRun

/-- On one channel the loop of `RUN` is one turn. -/
theorem runLoop_one {b : Config.Build} {s : State} (hc : s.channels = 1)
    (hpass : runPasses b s.blockCounter.toNat (runSlot s) s.bufSel s 0 = true) :
    runLoop b s = (encodeBlock (turnWork b s s 0) 0 0 (loadReals (turnWork b s s 0) (.scr 0)), none) := by
  have hturn : runTurn b s s 0 =
      (encodeBlock (turnWork b s s 0) 0 0 (loadReals (turnWork b s s 0) (.scr 0)), false) := by
    rw [runTurn, runChannel_eq, if_pos hpass]
    rfl
  rw [runLoop, hc, List.range_one, untilFailure, hturn]
  rfl

/-- Settles O52: the unit commands go through the states of the only turn of `RUN` (`byHand_runUnits`), but for what
`blank` forgets. -/
theorem runIsItsUnitCommands : Obligations.RunIsItsUnitCommands := by
  intro b s hb hs hf hc hk v u hfinite
  have hrun : CanRun b s := ⟨hb, hs, by rw [hf]; nofun⟩
  have hchan : 0 < s.channels := by omega
  have hhand := hrun.byHand_runUnits hchan
  have hpass : runPasses b s.blockCounter.toNat (runSlot s) s.bufSel s 0 = true := by
    rw [hrun.runPasses_zero hchan, ← elem_blank, ← hhand.same, elem_blank]
    exact hfinite
  have hloop := runLoop_one hc hpass
  obtain ⟨t, ht, hdone, hexec⟩ := hrun.succeeds hf hk (congrArg Prod.snd hloop)
  have hunits : blank u = blank t := by
    have hu := hhand.encode (b := b) hhand.turn.valid_scr
    rw [loadReals_blank, ← blank_encodeBlock] at hu
    rw [hloop] at ht
    exact hu.trans (congrArg (fun r => blank r.1) ht)
  obtain ⟨hscr, hmem, hplan, ⟨hlog, hrd, hlost⟩, hctr⟩ := eq_of_blank hunits.symm
  refine ⟨runCompleted t, hexec, fun hbuild => ?default, ends_succeed _ _, ?chan, (hdone.done 0 hchan).processed,
    fun c hc1 => hdone.rest c (by omega), hscr, hmem, hplan, ⟨hlog, hrd, hlost⟩, hctr, ?count,
    congrArg not hdone.control.bufSel⟩
  case default => rw [exec_eq_execWith, ← hbuild, hexec]
  case chan =>
    have huncounted : uncounted (t.chan 0) = uncounted (u.chan 0) := by rw [← chan_blank, ← chan_blank, hunits]
    exact eq_of_uncounted huncounted
  case count => exact congrArg (· + 1#64) hdone.control.blockCounter

end Sys2Proof.Machine
end

section
/-! Containers and byte order (`44_codec_dither.md` R250): a container as the weighted sum of its bytes, the bytes of a
number one by one, and the statement that a container put is the one read. -/

namespace Sys2Proof.Machine

/-! One theorem is checked after the other: checked side by side, they take a thread each. -/
set_option Elab.async false

/-! ## Bytes and numbers -/

/-- A table read from its end. -/
theorem reverse_map_range {α : Type} (f : Nat → α) (n : Nat) :
    ((List.range n).map f).reverse = (List.range n).map fun i => f (n - 1 - i) := by
  refine List.ext_getElem (by simp) fun i hi _ => ?_
  simp

/-- The number with the given bytes is their weighted sum. -/
theorem fromBytes_map_range (n : Nat) (f : Nat → Byte) :
    fromBytes ((List.range n).map f) = ((List.range n).map fun i => (f i).toNat * 2 ^ (8 * i)).sum := by
  induction n generalizing f with
  | zero => rfl
  | succ n ih =>
    have hweight : ∀ i : Nat, (f (i + 1)).toNat * 2 ^ (8 * (i + 1)) = 256 * ((f (i + 1)).toNat * 2 ^ (8 * i)) := by
      intro i
      rw [Nat.mul_succ, pow_add]
      ring
    have hrest := ih fun i => f (i + 1)
    simp only [List.range_succ_eq_map, List.map_cons, List.map_map, Function.comp_def, Nat.succ_eq_add_one, hweight,
      List.sum_map_mul_left, fromBytes, List.sum_cons, hrest]
    simp

/-- The bytes of a number, the least significant first. -/
theorem toBytes_eq_map (n u : Nat) : toBytes n u = (List.range n).map fun i => BitVec.ofNat 8 (u / 2 ^ (8 * i)) := by
  induction n generalizing u with
  | zero => rfl
  | succ n ih =>
    have hshift : ∀ i : Nat, u / 256 / 2 ^ (8 * i) = u / 2 ^ (8 * (i + 1)) := by
      intro i
      rw [Nat.div_div_eq_div_mul, Nat.mul_succ, pow_add, Nat.mul_comm]
      rfl
    simp only [toBytes, ih, List.range_succ_eq_map, List.map_cons, List.map_map, Function.comp_def, Nat.succ_eq_add_one,
      hshift, Nat.mul_zero, pow_zero, Nat.div_one]

/-! ## Containers -/

/-- The weight of a byte of a container, as a power of 256 (R250). -/
def bytePlace (be : Bool) (bw i : Nat) : Nat := if be then bw - 1 - i else i

/-- A container as the weighted sum of its bytes. -/
theorem containerValue_map_range (be : Bool) (bw : Nat) (f : Nat → Byte) :
    containerValue be ((List.range bw).map f) =
      ((List.range bw).map fun i => (f i).toNat * 2 ^ (8 * bytePlace be bw i)).sum := by
  cases be with
  | false => exact fromBytes_map_range bw f
  | true =>
    rw [containerValue, if_pos rfl, reverse_map_range, fromBytes_map_range, ← List.sum_reverse, reverse_map_range]
    refine congrArg List.sum (List.map_congr_left fun i hi => ?_)
    have hback : bw - 1 - (bw - 1 - i) = i := by have := List.mem_range.1 hi; omega
    rw [hback, bytePlace, if_pos rfl]

/-- The bytes of a container one by one. -/
theorem containerBytes_eq_map (be : Bool) (bw u : Nat) :
    containerBytes be bw u = (List.range bw).map fun i => BitVec.ofNat 8 (u / 2 ^ (8 * bytePlace be bw i)) := by
  cases be with
  | false => exact toBytes_eq_map bw u
  | true =>
    rw [containerBytes, if_pos rfl, toBytes_eq_map, reverse_map_range]
    rfl

/-- The number in the bytes of a container. -/
theorem containerValue_containerBytes (be : Bool) (bw u : Nat) :
    containerValue be (containerBytes be bw u) = u % 2 ^ (8 * bw) := by
  have hbytes : fromBytes (toBytes bw u) = u % 2 ^ (8 * bw) := by
    rw [fromBytes_toBytes, pow_mul]
    rfl
  cases be with
  | false => exact hbytes
  | true =>
    rw [containerValue, containerBytes, if_pos rfl, if_pos rfl, List.reverse_reverse]
    exact hbytes

/-- A byte of a container put is read back. -/
theorem readByte_putContainer (s : State) (a u : Nat) {bw i : Nat} (be : Bool) (hi : i < bw) :
    readByte (putContainer s a bw be u) (a + i) = BitVec.ofNat 8 (u / 2 ^ (8 * bytePlace be bw i)) := by
  rw [putContainer, readByte_writeBytes_get _ _ _ _ (by rwa [containerBytes_length])]
  simp only [containerBytes_eq_map, List.getElem_map, List.getElem_range]

/-- A container put leaves every byte outside it alone. -/
theorem readByte_putContainer_ne (s : State) (a bw u : Nat) (be : Bool) {x : Nat} (h : x < a ∨ a + bw ≤ x) :
    readByte (putContainer s a bw be u) x = readByte s x :=
  readByte_writeBytes_ne s a _ x (by rwa [containerBytes_length])

/-- A container depends on its bytes alone. -/
theorem getContainer_congr {s t : State} {a bw : Nat} (be : Bool)
    (h : ∀ i : Nat, i < bw → readByte t (a + i) = readByte s (a + i)) :
    getContainer t a bw be = getContainer s a bw be := by
  rw [getContainer, getContainer, readBytes, readBytes, List.map_congr_left fun i hi => h i (List.mem_range.1 hi)]

/-- A container put is the one read, as far as it fits. -/
theorem getContainer_putContainer (s : State) (a bw u : Nat) (be : Bool) :
    getContainer (putContainer s a bw be u) a bw be = u % 2 ^ (8 * bw) := by
  have hbytes : readBytes (putContainer s a bw be u) a bw = containerBytes be bw u := by
    rw [containerBytes_eq_map]
    exact List.map_congr_left fun i hi => readByte_putContainer s a u be (List.mem_range.1 hi)
  rw [getContainer, hbytes, containerValue_containerBytes]

/-- Settles O19: a container is a table of bytes in either order (`containerValue_map_range`,
`containerBytes_eq_map`). -/
theorem containerBytesLaw : Obligations.ContainerBytes := fun s a bw u be =>
  ⟨containerValue_map_range be bw _, fun _ hi => readByte_putContainer s a u be hi,
    fun _ hx => readByte_putContainer_ne s a bw u be hx, getContainer_putContainer s a bw u be⟩

end Sys2Proof.Machine
end

section
/-! Quantisation (`44_codec_dither.md` R259) and the updates of an overflow record (`45_overflow_tracker.md` R290 to
R292): where a value lies, what each place gives, and the statement. -/

namespace Sys2Proof.Machine

/-! One theorem is checked after the other: checked side by side, they take a thread each. -/
set_option Elab.async false

/-! ## The updates of a record -/

/-- A clip is counted, and the count saturates (R290). -/
theorem clipCounted_ovfClip (o : OvfRecord) : ClipCounted o (ovfClip o) := by
  have hlt : min (o.clips.toNat + 1) (2 ^ 32 - 1) < 2 ^ 32 := by omega
  rw [ClipCounted, ovfClip, BitVec.toNat_ofNat, Nat.mod_eq_of_lt hlt]

/-- The float peak of a record becomes a value above it and else stays (R291). -/
theorem floatPeak_ovfPeakF (o : OvfRecord) (m : FReal) : FloatPeak o (ovfPeakF o m) m := by
  unfold ovfPeakF
  constructor <;> intro h
  · rw [if_pos h]
    exact ⟨0, rfl⟩
  · rw [if_neg (by rw [h]; exact Bool.false_ne_true)]

/-- Offering a float peak leaves the rest of the record. -/
theorem ovfPeakF_eq (o : OvfRecord) (m : FReal) : ovfPeakF o m = { o with largestF := (ovfPeakF o m).largestF } := by
  unfold ovfPeakF
  split <;> rfl

/-- The float peak of a record is a running maximum (R291). -/
theorem unpack_ovfPeakF (o : OvfRecord) {m : FReal} (hm : IsReal .p64 m) :
    unpack .p64 (ovfPeakF o m).largestF = if flt (unpack .p64 o.largestF) m then m else unpack .p64 o.largestF := by
  unfold ovfPeakF
  split
  · exact unpack_pack hm 0
  · rfl

/-- Offering an integer peak leaves the rest of the record. -/
theorem ovfPeakI_eq (o : OvfRecord) (a : Nat) : ovfPeakI o a = { o with largestI := (ovfPeakI o a).largestI } := by
  unfold ovfPeakI
  split <;> rfl

/-- The integer peak of a record is a running maximum (R292). -/
theorem largestI_ovfPeakI (o : OvfRecord) {a : Nat} (ha : a < 2 ^ 32) :
    (ovfPeakI o a).largestI.toNat = max o.largestI.toNat a := by
  unfold ovfPeakI
  split
  · rw [BitVec.toNat_ofNat]
    omega
  · omega

/-! ## Where a value lies -/

/-- A value is above the range of a format (R259). -/
def AboveRange (d : SampleDesc) (u : FReal) : Prop :=
  u = .inf false ∨ ∃ neg mag, u = .fin neg mag ∧ ((2 : Int) ^ (d.sbits - 1) - 1) * 2 ^ 1074 < signedUnits neg mag

/-- A value is below the range of a format. -/
def BelowRange (d : SampleDesc) (u : FReal) : Prop :=
  u = .inf true ∨ ∃ neg mag, u = .fin neg mag ∧ signedUnits neg mag < -(2 : Int) ^ (d.sbits - 1) * 2 ^ 1074

/-- The comparison with the largest integer of a format. -/
theorem greaterThanInt_sampleMax (d : SampleDesc) (u : FReal) :
    greaterThanInt u (sampleMax d) = true ↔ AboveRange d u := by
  cases u with
  | nan => simp [greaterThanInt, AboveRange, -Int.reducePow]
  | inf neg => simp [greaterThanInt, AboveRange, -Int.reducePow]
  | fin neg mag =>
    refine ⟨fun h => .inr ⟨neg, mag, rfl, of_decide_eq_true h⟩, ?_⟩
    rintro (h | ⟨_, _, h, hlt⟩) <;> cases h
    exact decide_eq_true hlt

/-- The comparison with the smallest integer of a format. -/
theorem lessThanInt_sampleMin (d : SampleDesc) (u : FReal) :
    lessThanInt u (sampleMin d) = true ↔ BelowRange d u := by
  cases u with
  | nan => simp [lessThanInt, BelowRange, -Int.reducePow]
  | inf neg => simp [lessThanInt, BelowRange, -Int.reducePow]
  | fin neg mag =>
    refine ⟨fun h => .inr ⟨neg, mag, rfl, of_decide_eq_true h⟩, ?_⟩
    rintro (h | ⟨_, _, h, hlt⟩) <;> cases h
    exact decide_eq_true hlt

/-- No value is both above and below the range. -/
theorem AboveRange.not_below {d : SampleDesc} {u : FReal} (h : AboveRange d u) : ¬BelowRange d u := by
  have hpos : (0 : Int) < 2 ^ (d.sbits - 1) := by positivity
  rintro (rfl | ⟨neg, mag, rfl, hlow⟩)
  · obtain h | ⟨_, _, h, -⟩ := h <;> cases h
  · obtain h | ⟨_, _, h, hhigh⟩ := h <;> cases h
    generalize (2 : Int) ^ (d.sbits - 1) = n at hpos hlow hhigh
    omega

/-! ## Quantisation -/

/-- A NaN is a clip and gives 0. -/
theorem quantise_nan (d : SampleDesc) (o : OvfRecord) : quantise d o .nan = (0, ovfClip o) := rfl

/-- A value above the range is a clip and gives the largest integer. -/
theorem quantise_above {d : SampleDesc} {u : FReal} (h : AboveRange d u) (o : OvfRecord) :
    quantise d o u = (2 ^ (d.sbits - 1) - 1, ovfPeakF (ovfClip o) u) := by
  have hnan : ¬isNan u = true := by obtain rfl | ⟨_, _, rfl, -⟩ := h <;> exact Bool.false_ne_true
  rw [quantise, if_neg hnan, if_pos ((greaterThanInt_sampleMax d u).2 h)]
  rfl

/-- A value below the range is a clip and gives the smallest integer. -/
theorem quantise_below {d : SampleDesc} {u : FReal} (h : BelowRange d u) (o : OvfRecord) :
    quantise d o u = (-(2 ^ (d.sbits - 1)), ovfPeakF (ovfClip o) (fneg u)) := by
  have hnan : ¬isNan u = true := by obtain rfl | ⟨_, _, rfl, -⟩ := h <;> exact Bool.false_ne_true
  have habove : ¬AboveRange d u := fun ha => ha.not_below h
  rw [quantise, if_neg hnan, if_neg (mt (greaterThanInt_sampleMax d u).1 habove),
    if_pos ((lessThanInt_sampleMin d u).2 h)]
  rfl

/-- A value within the range is rounded to the nearest integer, ties upward. -/
theorem quantise_within {d : SampleDesc} {neg : Bool} {mag : Nat} (o : OvfRecord)
    (hlow : -(2 : Int) ^ (d.sbits - 1) * 2 ^ 1074 ≤ signedUnits neg mag)
    (hhigh : signedUnits neg mag ≤ ((2 : Int) ^ (d.sbits - 1) - 1) * 2 ^ 1074) :
    quantise d o (.fin neg mag) =
      (floorHalf (.fin neg mag), ovfPeakI o (floorHalf (.fin neg mag)).natAbs) := by
  have habove : ¬greaterThanInt (.fin neg mag) (sampleMax d) = true := fun h => not_lt.2 hhigh (of_decide_eq_true h)
  have hbelow : ¬lessThanInt (.fin neg mag) (sampleMin d) = true := fun h => not_lt.2 hlow (of_decide_eq_true h)
  have hnan : ¬isNan (.fin neg mag) = true := Bool.false_ne_true
  rw [quantise, if_neg hnan, if_neg habove, if_neg hbelow]

/-- A value is a NaN, above the range, below it or within it. -/
theorem range_cases (d : SampleDesc) (u : FReal) :
    u = .nan ∨ AboveRange d u ∨ BelowRange d u ∨ ∃ neg mag, u = .fin neg mag ∧
      -(2 : Int) ^ (d.sbits - 1) * 2 ^ 1074 ≤ signedUnits neg mag ∧
      signedUnits neg mag ≤ ((2 : Int) ^ (d.sbits - 1) - 1) * 2 ^ 1074 := by
  cases u with
  | nan => exact .inl rfl
  | inf neg =>
    cases neg with
    | false => exact .inr (.inl (.inl rfl))
    | true => exact .inr (.inr (.inl (.inl rfl)))
  | fin neg mag =>
    by_cases hhigh : signedUnits neg mag ≤ ((2 : Int) ^ (d.sbits - 1) - 1) * 2 ^ 1074
    · by_cases hlow : -(2 : Int) ^ (d.sbits - 1) * 2 ^ 1074 ≤ signedUnits neg mag
      · exact .inr (.inr (.inr ⟨neg, mag, rfl, hlow, hhigh⟩))
      · exact .inr (.inr (.inl (.inr ⟨neg, mag, rfl, not_le.1 hlow⟩)))
    · exact .inr (.inl (.inr ⟨neg, mag, rfl, not_le.1 hhigh⟩))

/-- The nearest integer of a finite value, ties upward: at most a half above it and less than a half below. -/
theorem floorHalf_bounds (neg : Bool) (mag : Nat) :
    2 * floorHalf (.fin neg mag) * 2 ^ 1074 ≤ 2 * signedUnits neg mag + 2 ^ 1074 ∧
      2 * signedUnits neg mag + 2 ^ 1074 < 2 * (floorHalf (.fin neg mag) + 1) * 2 ^ 1074 := by
  have hhalf : (2 : Int) ^ 1074 = 2 * 2 ^ 1073 := pow_succ' 2 1073
  have hpos : (0 : Int) < 2 ^ 1074 := pow_pos two_pos _
  have hdown := Int.ediv_mul_le (signedUnits neg mag + 2 ^ 1073) hpos.ne'
  have hup := Int.lt_ediv_add_one_mul_self (signedUnits neg mag + 2 ^ 1073) hpos
  rw [floorHalf]
  generalize (2 : Int) ^ 1074 = one at hhalf hdown hup ⊢
  generalize (2 : Int) ^ 1073 = half at hhalf hdown hup ⊢
  constructor <;> linarith

/-- A value within the range rounds to an integer of the range. -/
theorem floorHalf_range {d : SampleDesc} {neg : Bool} {mag : Nat}
    (hlow : -(2 : Int) ^ (d.sbits - 1) * 2 ^ 1074 ≤ signedUnits neg mag)
    (hhigh : signedUnits neg mag ≤ ((2 : Int) ^ (d.sbits - 1) - 1) * 2 ^ 1074) :
    (-(2 ^ (d.sbits - 1)) : Int) ≤ floorHalf (.fin neg mag) ∧
      floorHalf (.fin neg mag) ≤ 2 ^ (d.sbits - 1) - 1 := by
  obtain ⟨hdown, hup⟩ := floorHalf_bounds neg mag
  have hpos : (0 : Int) < 2 ^ 1074 := pow_pos two_pos _
  generalize (2 : Int) ^ 1074 = one at *
  constructor
  · refine Int.lt_add_one_iff.1 (lt_of_mul_lt_mul_right ?_ hpos.le)
    linarith
  · refine Int.lt_add_one_iff.1 (lt_of_mul_lt_mul_right ?_ hpos.le)
    linarith

/-- The integer of any value is in the range of the format. -/
theorem quantise_range (d : SampleDesc) (o : OvfRecord) (u : FReal) :
    (-(2 ^ (d.sbits - 1)) : Int) ≤ (quantise d o u).1 ∧ (quantise d o u).1 ≤ 2 ^ (d.sbits - 1) - 1 := by
  have hpos : (0 : Int) < 2 ^ (d.sbits - 1) := by positivity
  rcases range_cases d u with rfl | h | h | ⟨neg, mag, rfl, hlow, hhigh⟩
  · rw [quantise_nan]
    omega
  · rw [quantise_above h]
    omega
  · rw [quantise_below h]
    omega
  · rw [quantise_within o hlow hhigh]
    exact floorHalf_range hlow hhigh

/-- A clip leaves the peaks, and the float peak that follows it is of the record before. -/
theorem clip_peak (o : OvfRecord) (m : FReal) :
    ClipCounted o (ovfPeakF (ovfClip o) m) ∧ FloatPeak o (ovfPeakF (ovfClip o) m) m ∧
      (ovfPeakF (ovfClip o) m).largestI = o.largestI := by
  refine ⟨?_, floatPeak_ovfPeakF (ovfClip o) m, ?_⟩
  · rw [ovfPeakF_eq]
    exact clipCounted_ovfClip o
  · rw [ovfPeakF_eq]
    rfl

/-- Quantisation is what R259 says, in every case. -/
theorem quantised_quantise {d : SampleDesc} (hS : d.sbits ≤ 32) (o : OvfRecord) (u : FReal) :
    Quantised d o u (quantise d o u).1 (quantise d o u).2 where
  max := quantise_max d o u
  nan := by
    rintro rfl
    exact ⟨rfl, clipCounted_ovfClip o, rfl, rfl⟩
  above := fun h => by
    rw [quantise_above h]
    exact ⟨rfl, clip_peak o u⟩
  below := fun h => by
    rw [quantise_below h]
    exact ⟨rfl, clip_peak o (fneg u)⟩
  within := by
    rintro neg mag rfl hlow hhigh
    obtain ⟨hmin, hmax⟩ := floorHalf_range hlow hhigh
    have hpow : (2 : Int) ^ (d.sbits - 1) ≤ 2 ^ 31 := pow_le_pow_right₀ (by norm_num) (by omega)
    have hsmall : (floorHalf (.fin neg mag)).natAbs < 2 ^ 32 := by omega
    obtain ⟨hdown, hup⟩ := floorHalf_bounds neg mag
    rw [quantise_within o hlow hhigh]
    refine ⟨hdown, hup, ?_, ?_, largestI_ovfPeakI o hsmall⟩ <;> rw [ovfPeakI_eq]

/-- Settles O42: the four places of a value (`range_cases`) are the four branches of `Quantise`. -/
theorem quantiseLaw : Obligations.QuantiseLaw := by
  refine ⟨fun d o u _ hS => ?_, fun o => ⟨clipCounted_ovfClip o, rfl⟩,
    fun o m hm _ _ => ⟨unpack_ovfPeakF o hm, ovfPeakF_eq o m⟩,
    fun o a ha => ⟨largestI_ovfPeakI o (by omega), ovfPeakI_eq o a⟩⟩
  obtain ⟨hmin, hmax⟩ := quantise_range d o u
  exact ⟨hmin, hmax, quantised_quantise hS o u⟩

end Sys2Proof.Machine
end

section
/-! The dither table (`44_codec_dither.md` R263 to R265): the bytes for a seed, as many as are asked for. -/

namespace Sys2Proof.Machine

/-! One theorem is checked after the other: checked side by side, they take a thread each. -/
set_option Elab.async false

/-- The generator gives as many bytes as are asked for. -/
theorem randTable_length (n : Nat) (t : Taus) : (randTable n t).length = n := by
  induction n generalizing t with
  | zero => rfl
  | succ n ih => rw [randTable, List.length_cons, ih]

/-- The first bytes that the generator gives do not depend on how many are asked for. -/
theorem take_randTable {m n : Nat} (h : m ≤ n) (t : Taus) : (randTable n t).take m = randTable m t := by
  induction m generalizing n t with
  | zero => rw [List.take_zero, randTable]
  | succ m ih =>
    obtain ⟨k, rfl⟩ := Nat.exists_eq_add_of_le' (Nat.one_le_of_lt h)
    rw [randTable, randTable, List.take_succ_cons, ih (Nat.le_of_succ_le_succ h)]

/-- A seed of 0 is taken as 1 (R263). -/
theorem tausInit_zero : tausInit 0#32 = tausInit 1#32 := rfl

/-- Settles O45: the listed bytes are computed, and how many are asked for makes no difference to the first ones
(`take_randTable`). -/
theorem ditherTableLaw : Obligations.DitherTable := by
  refine ⟨by decide, fun n => by rw [ditherTable, tausInit_zero, ditherTable], fun seed m n h =>
    ⟨take_randTable h _, randTable_length n _⟩⟩

end Sys2Proof.Machine
end

section
/-! The integer encoders (`44_codec_dither.md` R258 to R268): a sample in the integer domain, one sample with dither,
and the exact round trip of an integer format. -/

namespace Sys2Proof.Machine

/-! One theorem is checked after the other: checked side by side, they take a thread each. -/
set_option Elab.async false

/-! ## Exact products -/

/-- An exact product is not changed by rounding: the rounded magnitude is nowhere farther from it than it is itself. -/
theorem roundReal_exact_mul {p : Prec} (neg : Bool) (x : Nat) {m : Nat} (h : IsMagnitude p m) :
    roundReal p neg x (m * 2 ^ x) = .fin neg m := by
  obtain ⟨c, e, hc, he, hm⟩ := h
  have hmul : m = c * 2 ^ (Prec.lsb p + e) := by rw [hm, Nat.add_comm, pow_add, Nat.mul_assoc]
  have hmag : roundMag p x (m * 2 ^ x) = m := by
    have hnear := roundMag_nearest p x (m * 2 ^ x) c e hc
    rw [← hmul] at hnear
    exact Nat.eq_of_mul_eq_mul_right (Nat.two_pow_pos x) (by omega)
  have hlt : m < Prec.tooLarge p := by
    rw [hmul, Prec.tooLarge_eq]
    exact Nat.mul_lt_mul_of_lt_of_le hc (Nat.pow_le_pow_right (by omega) (by omega)) (Nat.two_pow_pos _)
  simp only [roundReal, hmag]
  exact if_neg (by omega)

/-- The product of two finite values that is a value of the precision is exact (R12). -/
theorem fmul_exact {p : Prec} {a b : Bool} {m n k : Nat} (h : IsMagnitude p k) (hk : m * n = k * 2 ^ 1074) :
    fmul p (.fin a m) (.fin b n) = .fin (a != b) k := by
  rw [fmul, hk, roundReal_exact_mul _ _ h]

/-- An integer of at most so many digits as the precision has, at a weight of the precision. -/
theorem isMagnitude_mul_pow {p : Prec} {n e : Nat} (hn : n < 2 ^ Prec.digits p) (hlow : Prec.lsb p ≤ e)
    (hhigh : e + 2 ≤ Prec.top p + Prec.lsb p) : IsMagnitude p (n * 2 ^ e) := by
  refine ⟨n, e - Prec.lsb p, hn, by omega, ?_⟩
  rw [Nat.mul_assoc, ← pow_add, Nat.sub_add_cancel hlow]

/-- The weights `2^-31` to `2^31` are values of either precision. -/
theorem weight_bounds (p : Prec) {e : Nat} (hlow : 1043 ≤ e) (hhigh : e ≤ 1105) :
    Prec.lsb p ≤ e ∧ e + 2 ≤ Prec.top p + Prec.lsb p := by
  cases p <;> simp only [Prec.lsb, Prec.top] <;> omega

/-! ## The integer domain -/

/-- The factor of the integer domain is `2^(S-1)` (R258). -/
theorem integerDomain_eq (p : Prec) {d : SampleDesc} (h1 : 1 ≤ d.sbits) (hS : d.sbits ≤ 32) (y : FReal) :
    integerDomain p d y = fmul p y (.fin false (2 ^ (1074 + (d.sbits - 1)))) := by
  have hexp : (1074 + ((d.sbits : Int) - 1)).toNat = 1074 + (d.sbits - 1) := by omega
  obtain ⟨hlow, hhigh⟩ := weight_bounds p (e := 1074 + (d.sbits - 1)) (by omega) (by omega)
  have hmag : IsMagnitude p (2 ^ (1074 + (d.sbits - 1))) := by
    rw [← Nat.one_mul (2 ^ _)]
    exact isMagnitude_mul_pow (Nat.one_lt_two_pow (Nat.one_le_iff_ne_zero.1 (Prec.digits_pos p))) hlow hhigh
  rw [integerDomain, powerOfTwo, hexp, cvt_of_isReal ((isReal_fin_iff p _ _).2 hmag)]

/-! ## One sample -/

/-- A sample of a float format (R257). -/
theorem encodeSample_float {s : State} {c : Nat} (h : (s.chan c).descOut.isFloat = true) (code : Nat) (y : FReal) :
    encodeSample s c code y =
      ((encodeFloat (s.chan c).descOut code (s.chan c).ovf y).1,
        { s.chan c with ovf := (encodeFloat (s.chan c).descOut code (s.chan c).ovf y).2 }) := by
  simp only [encodeSample, h, if_true]

/-- A sample of an integer format without dither (R258). -/
theorem encodeSample_int {s : State} {c : Nat} (h : (s.chan c).descOut.isFloat = false)
    (hoff : (s.chan c).ditherOn = false) (code : Nat) (y : FReal) :
    encodeSample s c code y =
      ((encodeInt s.lat.prec (s.chan c).descOut (s.chan c).ovf y).1,
        { s.chan c with ovf := (encodeInt s.lat.prec (s.chan c).descOut (s.chan c).ovf y).2 }) := by
  simp [encodeSample, h, hoff]

/-- The value to quantise and the sample less the error fed back, of a sample with dither (R261). -/
abbrev ditheredInputs (s : State) (c : Nat) (y : FReal) : FReal × FReal :=
  ditheredValue s.lat.prec (s.chan c).descOut (s.chan c).dstate (randMap (randByte s (s.chan c).dstate.cursor.toNat)) y

/-- A sample of an integer format with dither (R261). -/
theorem encodeSample_dither {s : State} {c : Nat} (h : (s.chan c).descOut.isFloat = false)
    (hon : (s.chan c).ditherOn = true) (code : Nat) (y : FReal) :
    encodeSample s c code y =
      (intContainer (s.chan c).descOut (quantise (s.chan c).descOut (s.chan c).ovf (ditheredInputs s c y).1).1,
        { s.chan c with
          ovf := (quantise (s.chan c).descOut (s.chan c).ovf (ditheredInputs s c y).1).2
          dstate := nextDither s.lat.prec (s.chan c).dstate s.tableSize.toNat code
            (randMap (randByte s (s.chan c).dstate.cursor.toNat)) (ditheredInputs s c y).1
            (ditheredInputs s c y).2 }) := by
  simp [encodeSample, h, hon]

/-- Settles O43: a sample with dither, its integer domain written out (`integerDomain_eq`). -/
theorem ditheredSample : Obligations.DitheredSample := by
  intro s c code y ch d p hfloat hon hlow hhigh _ b v r w u q
  have hv : integerDomain p d y = v := integerDomain_eq p (by omega) hhigh y
  refine ⟨pack p code r, _, ⟨code, rfl⟩, ⟨code, rfl⟩, ?_⟩
  rw [encodeSample_dither hfloat hon, ditheredInputs, ditheredValue, hv]
  rfl

/-! ## The round trip -/

/-- The signed units of a sign and a magnitude of an integer. -/
theorem signedUnits_int (m : Int) (n : Nat) : signedUnits (decide (m < 0)) (m.natAbs * n) = m * n := by
  unfold signedUnits
  push_cast
  split
  · next h =>
    have hm : m < 0 := of_decide_eq_true h
    rw [abs_of_neg hm]
    ring
  · next h =>
    have hm : ¬m < 0 := fun hm => h (decide_eq_true hm)
    rw [abs_of_nonneg (not_lt.1 hm)]

/-- A number that fits so many bits is read back from its two's complement (R371). -/
theorem signExtend_emod {n : Nat} (hn : 1 ≤ n) {x : Int} (hlow : -2 ^ (n - 1) ≤ x) (hhigh : x < 2 ^ (n - 1)) :
    signExtend n (x % 2 ^ n).toNat = x := by
  have hwhole : (2 : Int) ^ n = 2 * 2 ^ (n - 1) := by rw [← pow_succ', Nat.sub_add_cancel hn]
  have hmod : x % 2 ^ n = if x < 0 then x + 2 ^ n else x := by
    split
    · rw [← Int.add_emod_right, Int.emod_eq_of_lt (by omega) (by omega)]
    · exact Int.emod_eq_of_lt (by omega) (by omega)
  have hnat : ((x % 2 ^ n).toNat : Int) = x % 2 ^ n := Int.toNat_of_nonneg (by rw [hmod]; split <;> omega)
  have hsign : (x % 2 ^ n).toNat < 2 ^ (n - 1) ↔ x % 2 ^ n < 2 ^ (n - 1) := by
    rw [← hnat]
    exact_mod_cast Iff.rfl
  simp only [signExtend, hsign, hnat]
  by_cases hneg : x < 0
  · rw [hmod, if_pos hneg, if_neg (by omega)]
    omega
  · rw [hmod, if_neg hneg, if_pos hhigh]

/-- The container of an integer of the format holds it in its high bits (R260), and decoding reads it (R253). -/
theorem decodeInt_intContainer {d : SampleDesc} (h1 : 1 ≤ d.sbits) (hS : d.sbits ≤ 8 * d.bytes) {m : Int}
    (hlow : -(2 ^ (d.sbits - 1)) ≤ m) (hhigh : m ≤ 2 ^ (d.sbits - 1) - 1) :
    decodeInt d (intContainer d m) = m := by
  have hpos : (0 : Int) < 2 ^ (8 * d.bytes - d.sbits) := pow_pos two_pos _
  have hhalf : (2 : Int) ^ (8 * d.bytes - 1) = 2 ^ (d.sbits - 1) * 2 ^ (8 * d.bytes - d.sbits) := by
    rw [← pow_add]
    congr 1
    omega
  have hmin : -2 ^ (8 * d.bytes - 1) ≤ m * 2 ^ (8 * d.bytes - d.sbits) := by
    rw [hhalf, ← Int.neg_mul]
    exact mul_le_mul_of_nonneg_right hlow hpos.le
  have hmax : m * 2 ^ (8 * d.bytes - d.sbits) < 2 ^ (8 * d.bytes - 1) := by
    rw [hhalf]
    exact mul_lt_mul_of_pos_right (Int.lt_of_le_sub_one hhigh) hpos
  rw [decodeInt, intContainer, signExtend_emod (by omega) hmin hmax, Int.mul_ediv_cancel _ hpos.ne']

/-- An integer is its own nearest integer. -/
theorem floorHalf_int (m : Int) : floorHalf (.fin (decide (m < 0)) (m.natAbs * 2 ^ 1074)) = m := by
  have hcast : (((2 : Nat) ^ 1074 : Nat) : Int) = 2 ^ 1074 := Nat.cast_pow 2 1074
  have hhalf : (2 : Int) ^ 1074 = 2 * 2 ^ 1073 := pow_succ' 2 1073
  have hpos : (0 : Int) < 2 ^ 1073 := pow_pos two_pos _
  rw [floorHalf, signedUnits_int, hcast, Int.add_comm, Int.add_mul_ediv_right _ _ (pow_pos two_pos _).ne',
    Int.ediv_eq_zero_of_lt hpos.le (by omega), Int.zero_add]

/-- An integer of the format is quantised to itself. -/
theorem quantise_int {d : SampleDesc} (o : OvfRecord) {m : Int} (hlow : -(2 ^ (d.sbits - 1)) ≤ m)
    (hhigh : m ≤ 2 ^ (d.sbits - 1) - 1) :
    quantise d o (.fin (decide (m < 0)) (m.natAbs * 2 ^ 1074)) = (m, ovfPeakI o m.natAbs) := by
  have hcast : (((2 : Nat) ^ 1074 : Nat) : Int) = 2 ^ 1074 := Nat.cast_pow 2 1074
  have hpos : (0 : Int) ≤ 2 ^ 1074 := (pow_pos two_pos _).le
  rw [quantise_within, floorHalf_int] <;> rw [signedUnits_int, hcast]
  · exact mul_le_mul_of_nonneg_right hlow hpos
  · exact mul_le_mul_of_nonneg_right hhigh hpos

/-- An integer of so many digits as a precision has, at one of the weights of the codec. -/
theorem isMagnitude_sample {p : Prec} {n k : Nat} (hn : n < 2 ^ Prec.digits p) (hk : k ≤ 31) :
    IsMagnitude p (n * 2 ^ (1074 - k)) := by
  obtain ⟨hlow, hhigh⟩ := weight_bounds p (e := 1074 - k) (by omega) (by omega)
  exact isMagnitude_mul_pow hn hlow hhigh

/-- An integer of so many digits as a precision has. -/
theorem isMagnitude_integer {p : Prec} {n : Nat} (hn : n < 2 ^ Prec.digits p) : IsMagnitude p (n * 2 ^ 1074) := by
  obtain ⟨hlow, hhigh⟩ := weight_bounds p (e := 1074) (by omega) (by omega)
  exact isMagnitude_mul_pow hn hlow hhigh

/-- A sample that is an integer of the format encodes to it (R258). -/
theorem encodeInt_exact {p : Prec} {d : SampleDesc} (h1 : 1 ≤ d.sbits) (hS : d.sbits ≤ 32) (o : OvfRecord) {m : Int}
    (hlow : -(2 ^ (d.sbits - 1)) ≤ m) (hhigh : m ≤ 2 ^ (d.sbits - 1) - 1) (hm : m.natAbs < 2 ^ Prec.digits p) :
    encodeInt p d o (.fin (decide (m < 0)) (m.natAbs * 2 ^ (1074 - (d.sbits - 1)))) =
      (intContainer d m, ovfPeakI o m.natAbs) := by
  have hone : m.natAbs * 2 ^ (1074 - (d.sbits - 1)) * 2 ^ (1074 + (d.sbits - 1)) = m.natAbs * 2 ^ 1074 * 2 ^ 1074 := by
    rw [Nat.mul_assoc, Nat.mul_assoc, ← pow_add, ← pow_add]
    congr 2
    omega
  have hdomain := fmul_exact (a := decide (m < 0)) (b := false) (isMagnitude_integer hm) hone
  rw [encodeInt, integerDomain_eq p h1 hS, hdomain, Bool.bne_false]
  simp only [quantise_int o hlow hhigh]

/-- The integer of a container decodes to the sample (R253). -/
theorem fmul_i2f_scale {p : Prec} {k : Nat} (hk : k ≤ 31) {m : Int} (hm : m.natAbs < 2 ^ Prec.digits p) :
    fmul p (i2f p m) (.fin false (2 ^ (1074 - k))) = .fin (decide (m < 0)) (m.natAbs * 2 ^ (1074 - k)) := by
  have hmul : m.natAbs * 2 ^ 1074 * 2 ^ (1074 - k) = m.natAbs * 2 ^ (1074 - k) * 2 ^ 1074 := by
    rw [Nat.mul_right_comm]
  have hprod := fmul_exact (a := decide (m < 0)) (b := false) (isMagnitude_sample hm hk) hmul
  rw [i2f, roundReal_exact _ (isMagnitude_integer hm), hprod, Bool.bne_false]

/-- The significant bits of a valid integer format. -/
theorem two_le_fmtSbits {w : Nat} (h : fmtValid w = true) (hint : fmtIsFloat w = false) : 2 ≤ fmtSbits w := by
  simp only [fmtValid, hint, Bool.false_eq_true, if_false, Bool.and_eq_true, decide_eq_true_eq] at h
  omega

/-- Settles O44: the sample is exact in the integer domain (`encodeInt_exact`), and so is the product that decodes it
(`fmul_i2f_scale`). -/
theorem integerRoundTrip : Obligations.IntegerRoundTrip := by
  intro p fmt nch c o m hvalid hint hfit hlow hhigh d x
  obtain ⟨h1, h32⟩ := fmtSbits_of_valid hvalid
  have hS := h32 hint
  have hdigits : 2 ^ (fmtSbits fmt.toNat - 1) < 2 ^ Prec.digits p := by
    refine Nat.pow_lt_pow_right (by decide) ?_
    rcases hfit with h | rfl
    · cases p <;> simp only [Prec.digits] <;> omega
    · simp only [Prec.digits]
      omega
  have hm : m.natAbs < 2 ^ Prec.digits p := by
    refine lt_of_le_of_lt ?_ hdigits
    zify
    exact abs_le.2 ⟨hlow, hhigh.trans (Int.sub_le_self _ zero_le_one)⟩
  have hencode : encodeInt p d o x = (intContainer d m, ovfPeakI o m.natAbs) :=
    encodeInt_exact (d := d) h1 hS o hlow hhigh hm
  rw [hencode]
  refine ⟨rfl, ?record, ?decode⟩
  case record =>
    simp only [ovfPeakI]
    split
    · next h => rw [max_eq_right h.le]
    · next h => rw [max_eq_left (not_lt.1 h), BitVec.ofNat_toNat, BitVec.setWidth_eq]
  case decode =>
    have hfloat : ¬d.isFloat = true := by
      change ¬fmtIsFloat fmt.toNat = true
      rw [hint]
      exact Bool.false_ne_true
    have hscale : unpack .p64 d.scale = .fin false (2 ^ (1074 - (fmtSbits fmt.toNat - 1))) := by
      rw [unpack_scale fmt nch c hvalid, hint, if_neg Bool.false_ne_true]
    rw [decodeSample, if_neg hfloat, decodeInt_intContainer (d := d) h1 (fmtSbits_le hvalid) hlow hhigh, hscale,
      cvt_of_isReal ((isReal_fin_iff p _ _).2 (isMagnitude_scale p hS)), fmul_i2f_scale (by omega) hm]

end Sys2Proof.Machine
end

section
/-! `DECODE` (`44_codec_dither.md` R252): the checks it shares with `ENCODE`, a store to a part of a buffer, and the
statement. -/

namespace Sys2Proof.Machine

/-! One theorem is checked after the other: checked side by side, they take a thread each. -/
set_option Elab.async false

/-! ## The checks -/

/-- A command that checks its channel, then an operand, then its offset (R252, R256): what it raises, and that it has
its effect when all three hold. -/
theorem codec_checks {i : Instr} {s effect : State} {ch : Nat} {c : Check}
    (hexec : exec i s = .next (whenConstructed s (checked s [checkChannel s ch, c, checkOffset s] effect)))
    (hf : s.fsm ≠ .uninit) :
    (s.channels ≤ ch → exec i s = .next (raise s .eBadArg (BitVec.ofNat 32 ch))) ∧
    (ch < s.channels → c.fails = true → exec i s = .next (raise s c.code c.aux)) ∧
    (ch < s.channels → c.fails = false → s.lat.size < s.op.off.toNat + s.lat.blockLen.toNat →
      exec i s = .next (raise s .eBadArg s.op.off)) ∧
    (ch < s.channels → c.fails = false → s.op.off.toNat + s.lat.blockLen.toNat ≤ s.lat.size →
      exec i s = .next effect) := by
  have hpass : ch < s.channels → (checkChannel s ch).fails = false := fun h => decide_eq_false (Nat.not_le.2 h)
  refine ⟨fun h => ?_, fun h hc => ?_, fun h hc hoff => ?_, fun h hc hoff => ?_⟩
  · exact exec_raises hexec hf (firstFailure_cons_fail _ (decide_eq_true h))
  · refine exec_raises hexec hf ?_
    rw [firstFailure_cons_pass _ (hpass h), firstFailure_cons_fail _ hc]
  · refine exec_raises hexec hf ?_
    rw [firstFailure_cons_pass _ (hpass h), firstFailure_cons_pass _ hc, firstFailure_cons_fail _ (decide_eq_true hoff)]
    rfl
  · have hlast : (checkOffset s).fails = false := decide_eq_false (Nat.not_lt.2 hoff)
    refine exec_succeeds hexec hf ?_
    simp [hpass h, hc, hlast]

/-! ## A part of a buffer -/

/-- The elements of a buffer of which a part was replaced. -/
theorem splice_getD {n off j : Nat} (x : Buf) {xs : Buf} (hfit : off + xs.length ≤ n) (hj : j < n) :
    (splice n x off xs).getD j 0#64 =
      if off ≤ j ∧ j < off + xs.length then xs.getD (j - off) 0#64 else x.getD j 0#64 := by
  rw [splice, fitTo_getD _ _ _ hj, ← fitTo_getD n x j hj]
  have hlen := fitTo_length n x
  generalize fitTo n x = y at hlen ⊢
  have hhead : (y.take off).length = off := List.length_take_of_le (by omega)
  by_cases hlow : j < off
  · rw [if_neg (by omega), List.append_assoc, List.getD_append _ _ _ _ (by omega)]
    simp only [List.getD_eq_getElem?_getD, List.getElem?_take_of_lt hlow]
  by_cases hhigh : j < off + xs.length
  · rw [if_pos ⟨by omega, hhigh⟩, List.append_assoc, List.getD_append_right _ _ _ _ (by omega), hhead,
      List.getD_append _ _ _ _ (by omega)]
  · rw [if_neg (by omega), List.getD_append_right _ _ _ _ (by rw [List.length_append]; omega)]
    simp only [List.getD_eq_getElem?_getD, List.getElem?_drop, List.length_append, hhead]
    congr 2
    omega

/-- The bits of an element after a store to a part of a buffer. -/
theorem elemBits_storeRealsAt {s : State} {r : BufRef} (hr : Room s r) {off e : Nat} {xs : List FReal}
    (hfit : off + xs.length ≤ s.lat.size) (he : e < s.lat.size) :
    elemBits (storeRealsAt s r off xs) r e =
      if off ≤ e ∧ e < off + xs.length then (packReals s.lat.prec s.freeCtr off xs).getD (e - off) 0#64
      else elemBits s r e := by
  have hbuf : getBuf (storeRealsAt s r off xs) r =
      splice s.lat.size (getBuf s r) off (packReals s.lat.prec s.freeCtr off xs) :=
    (SameArena.getBuf ⟨rfl, rfl⟩ r).trans (hr _)
  rw [elemBits, hbuf, splice_getD _ (by rwa [packReals_length]) he, packReals_length, elemBits]

/-- A unit command that stores reals to a part of its destination: how it ends, what it leaves and what it stores. -/
theorem unit_storeAt {b : Config.Build} {i : Instr} {s : State} {off : Nat} {xs : List FReal} (hs : EngineInv b s)
    (hdst : writableId s s.op.dst = true) (hi : classesOf i = []) (hfit : off + xs.length ≤ s.lat.size)
    (hexec : exec i s = .next (succeed (storeRealsAt s (bufRef s.op.dst) off xs) 0#32)) :
    let t := succeed (storeRealsAt s (bufRef s.op.dst) off xs) 0#32
    Ends t .ok 0#32 ∧ UnitFrame s t [bufRef s.op.dst] ∧ t.plan = s.plan ∧ SameLog s t ∧
      (∀ j : Nat, j < xs.length → Stored t (bufRef s.op.dst) (off + j) (nth xs j)) ∧
      (∀ e : Nat, e < s.lat.size → e < off ∨ off + xs.length ≤ e →
        elemBits t (bufRef s.op.dst) e = elemBits s (bufRef s.op.dst) e) := by
  intro t
  obtain ⟨hv, hw⟩ := Bool.and_eq_true_iff.1 hdst
  have hroom := (hs.roomOk hv hw).room
  have hsame : SameArena (storeRealsAt s (bufRef s.op.dst) off xs) t := ⟨rfl, rfl⟩
  have hbits : ∀ e : Nat, elemBits t (bufRef s.op.dst) e =
      elemBits (storeRealsAt s (bufRef s.op.dst) off xs) (bufRef s.op.dst) e := fun e => by
    rw [elemBits, hsame.getBuf, elemBits]
  rw [exec_eq_execWith] at hexec
  have hwrites := writes_of_exec hexec
  rw [hi] at hwrites
  refine ⟨ends_succeed _ _, unitFrame_of_writes hwrites fun r hr hne => ?buffers, storeRealsAt_plan ..,
    ⟨storeRealsAt_log .., storeRealsAt_logRd .., storeRealsAt_logLost ..⟩, fun j hj => ?stored,
    fun e he hout => ?kept⟩
  case buffers =>
    rw [List.mem_singleton] at hne
    exact (SameArena.getBuf ⟨rfl, rfl⟩ r).trans (getBuf_setBuf_ne s _ hv hr hne)
  case stored =>
    have hprec : t.lat.prec = s.lat.prec := congrArg Latched.prec (storeRealsAt_lat ..)
    refine ⟨Config.nanCode s.freeCtr (off + j), ?_⟩
    rw [hbits, elemBits_storeRealsAt hroom hfit (by omega), if_pos (by omega), Nat.add_sub_cancel_left,
      packReals_getD _ _ _ _ _ hj, hprec, nth, List.getD_eq_getElem _ _ hj]
  case kept => rw [hbits, elemBits_storeRealsAt hroom hfit he, if_neg (by omega)]

/-- Settles O40: the checks are `codec_checks`, the samples those of `getElem_decodeBlock`, stored by `unit_storeAt`. -/
theorem decodeResult : Obligations.DecodeResult := by
  intro s ch hs hf l off
  obtain ⟨hchan, hid, hoffset, hpass⟩ :=
    codec_checks (i := .decodeSamples ch) (c := checkWritable s s.op.dst) rfl hf
  refine ⟨hchan, fun hc hdst => hid hc (congrArg not hdst), fun hc hdst => hoffset hc (congrArg not hdst),
    fun hc hdst hfit => ?_⟩
  have hlen : (decodeBlock s ch).length = l := by simp [decodeBlock, l]
  have hexec := hpass hc (congrArg not hdst) hfit
  obtain ⟨hends, hframe, hplan, hlog, hstored, hkept⟩ := unit_storeAt hs hdst rfl (by rwa [hlen]) hexec
  rw [hlen] at hstored hkept
  refine ⟨_, hexec, hends, hframe, hplan, hlog, fun j hj => ?_, hkept⟩
  have hj' : j < (decodeBlock s ch).length := hlen.symm ▸ hj
  have hsample := hstored j hj
  rw [nth, List.getD_eq_getElem _ _ hj', getElem_decodeBlock (hs.built hf) hc hj'] at hsample
  exact hsample

end Sys2Proof.Machine
end

section
/-! `ENCODE` (`44_codec_dither.md` R255 to R261): one sample by the variant of its channel, the states between the
samples of a block, the containers in `OUTBUF`, and the statement. -/

namespace Sys2Proof.Machine

/-! One theorem is checked after the other: checked side by side, they take a thread each. -/
set_option Elab.async false

/-! ## The bits of a real -/

/-- The exponent and fraction bits of a finite value lie below those of infinity. -/
theorem magnitudeBits_lt_infinity {p : Prec} {m : Nat} (h : IsMagnitude p m) : magnitudeBits p m < infinityBits p := by
  obtain ⟨c, e, hc, he, rfl, hn⟩ := h.normal
  rw [magnitudeBits_eq p hc hn]
  cases p <;> simp only [Prec.digits, Prec.top, infinityBits] at hc he ⊢ <;> omega

/-- A real has no more bits than its precision. -/
theorem packNat_lt {p : Prec} {x : FReal} (h : IsReal p x) (code : Nat) : packNat p code x < 2 ^ Prec.bits p := by
  have hsign : ∀ neg : Bool, (if neg then signWeight p else 0) ≤ signWeight p := fun neg => by
    split
    · exact le_rfl
    · exact Nat.zero_le _
  cases x with
  | nan =>
    have hpayload := Nat.mod_lt (code / 2) (y := 2 ^ (Prec.digits p - 1) - 1) (by cases p <;> decide)
    rw [packNat, nanBits]
    cases p <;> simp only [signWeight, infinityBits, Prec.digits, Prec.bits] at hpayload ⊢ <;> split <;> omega
  | inf neg =>
    have hneg := hsign neg
    rw [packNat]
    cases p <;> simp only [signWeight, infinityBits, Prec.bits] at hneg ⊢ <;> omega
  | fin neg m =>
    have hneg := hsign neg
    have hm := magnitudeBits_lt_infinity ((isReal_fin_iff p neg m).1 h)
    rw [packNat]
    cases p <;> simp only [signWeight, infinityBits, Prec.bits] at hneg hm ⊢ <;> omega

/-! ## One sample -/

/-- What a valid format says of a descriptor (R110). -/
structure ValidDesc (d : SampleDesc) : Prop where
  float : d.isFloat = true → d.bytes = 4 ∨ d.bytes = 8
  low : d.isFloat = false → 2 ≤ d.sbits
  high : d.isFloat = false → d.sbits ≤ 32

/-- The descriptors of a valid format (R24). -/
theorem validDesc_sampleDesc {fmt : BitVec 13} (h : fmtValid fmt.toNat = true) (n c : Nat) :
    ValidDesc (sampleDesc fmt n c) where
  float := fun (hf : fmtIsFloat fmt.toNat = true) => by
    simp only [fmtValid, hf, if_true, Bool.and_eq_true, Bool.or_eq_true, decide_eq_true_eq] at h
    obtain ⟨-, hbytes, -⟩ := h
    exact hbytes
  low := two_le_fmtSbits h
  high := (fmtSbits_of_valid h).2

/-- The precision of the containers of a float format (R257). -/
def containerPrec (d : SampleDesc) : Prec := if d.bytes = 4 then .p32 else .p64

/-- A container of a float format holds a real of its precision. -/
theorem ValidDesc.bits_eq {d : SampleDesc} (h : ValidDesc d) (hf : d.isFloat = true) :
    Prec.bits (containerPrec d) = 8 * d.bytes := by
  obtain h4 | h8 := h.float hf
  · rw [containerPrec, h4, if_pos rfl]
    rfl
  · rw [containerPrec, h8, if_neg (by decide)]
    rfl

/-- 1.0 in units of `2^-1074`. -/
theorem powerOfTwo_zero : powerOfTwo 0 = .fin false (2 ^ 1074) :=
  congrArg (fun k => FReal.fin false (2 ^ k)) (show (1074 + (0 : Int)).toNat = 1074 from rfl)

/-- The record after a sample of a float format that is not a NaN: the clip, then the peak (R257). -/
theorem encodeFloat_record {d : SampleDesc} {y : FReal} (code : Nat) (o : OvfRecord) (hy : y ≠ .nan) :
    (encodeFloat d code o y).2 =
      ovfPeakF (if flt (.fin false (2 ^ 1074)) (fabs y) then ovfClip o else o) (fabs y) := by
  have hnan : ¬isNan y = true := by
    cases y with
    | nan => exact absurd rfl hy
    | inf | fin => exact Bool.false_ne_true
  simp only [encodeFloat, if_neg hnan, powerOfTwo_zero, widen]

/-- The float encoder is what R257 says. -/
theorem floatEncoded_encodeFloat {d : SampleDesc} (hd : ValidDesc d) (hf : d.isFloat = true) (code : Nat)
    (o : OvfRecord) {y : FReal} (hy : IsReal .p64 y) :
    FloatEncoded d o y (encodeFloat d code o y).1 (encodeFloat d code o y).2 := by
  have hbits : (encodeFloat d code o y).1 = packNat (containerPrec d) code (cvt (containerPrec d) y) := by
    simp only [encodeFloat]
    split <;> rfl
  have hrecord := encodeFloat_record (d := d) code o (y := y)
  refine ⟨?fits, ?bits, encodeFloat_max .., ?largestI, ?nan, ?peak, ?clip, ?fit⟩
  case fits =>
    rw [hbits, ← hd.bits_eq hf]
    exact packNat_lt (isReal_cvt _ _) code
  case bits =>
    have hread := unpack_pack (isReal_cvt (containerPrec d) y) code
    rw [hbits]
    refine hread.trans ?_
    unfold containerPrec
    split
    · rfl
    · exact cvt_of_isReal hy
  case largestI =>
    by_cases hnan : y = .nan
    · rw [hnan]
      rfl
    · rw [hrecord hnan, ovfPeakF_eq]
      split <;> rfl
  case nan =>
    rintro rfl
    exact ⟨clipCounted_ovfClip o, rfl⟩
  case peak =>
    intro hnan
    rw [hrecord hnan]
    split
    · exact floatPeak_ovfPeakF (ovfClip o) (fabs y)
    · exact floatPeak_ovfPeakF o (fabs y)
  case clip =>
    intro hnan hclip
    rw [hrecord hnan, if_pos hclip, ovfPeakF_eq]
    exact clipCounted_ovfClip o
  case fit =>
    intro hnan hfit
    rw [hrecord hnan, hfit, if_neg Bool.false_ne_true, ovfPeakF_eq]

/-- One sample is encoded as the variant of its channel says (R257, R258, R261). -/
theorem sampleEncoded_encodeSample {s : State} {c : Nat} (hd : ValidDesc (s.chan c).descOut)
    (ht : 0 < s.tableSize.toNat) (code : Nat) {y : FReal} (hy : IsReal .p64 y) :
    SampleEncoded s (s.chan c) y (encodeSample s c code y).1 (encodeSample s c code y).2 := by
  obtain ⟨o, t, hframe, hdither⟩ := encodeSample_writes s c code y
  refine ⟨by rw [hframe], ?undithered, ?float, ?int, ?dither⟩
  case undithered =>
    rintro (hf | hoff)
    · rw [encodeSample_float hf]
    · rw [hframe]
      exact hdither hoff
  case float =>
    intro hf
    rw [encodeSample_float hf]
    exact floatEncoded_encodeFloat hd hf code _ hy
  case int =>
    intro hf hoff
    rw [encodeSample_int hf hoff, encodeInt, integerDomain_eq _ (Nat.one_le_of_lt (hd.low hf)) (hd.high hf)]
    exact ⟨_, rfl, quantised_quantise (hd.high hf) _ _⟩
  case dither =>
    intro hf hon
    have hcursor : ((s.chan c).dstate.cursor.toNat + 1) % s.tableSize.toNat < 2 ^ 32 :=
      (Nat.mod_lt _ ht).trans s.tableSize.isLt
    rw [encodeSample_dither hf hon, ditheredInputs, ditheredValue,
      integerDomain_eq _ (Nat.one_le_of_lt (hd.low hf)) (hd.high hf)]
    exact ⟨⟨_, rfl, quantised_quantise (hd.high hf) _ _⟩,
      (BitVec.toNat_ofNat ..).trans (Nat.mod_eq_of_lt hcursor), ⟨code, rfl⟩, ⟨code, rfl⟩⟩

namespace SampleEncoded

variable {s t : State} {ch ch' : Channel} {y : FReal} {u : Nat}

/-- Encoding a sample reads the configuration and the dither table. -/
theorem congr (h : SampleEncoded t ch y u ch') (hc : SameControl s t) : SampleEncoded s ch y u ch' where
  frame := h.frame
  undithered := h.undithered
  float := h.float
  int := by rw [← hc.lat]; exact h.int
  dither := fun hf hon => by
    have hdither := h.dither hf hon
    rw [DitherEncoded, hc.lat, hc.randvec, hc.tableSize] at hdither
    exact hdither

/-- The container of a sample fits its bytes. -/
theorem fits (h : SampleEncoded s ch y u ch') : u < 2 ^ (8 * ch.descOut.bytes) := by
  have hint : ∀ q : Int, highBits ch.descOut q < 2 ^ (8 * ch.descOut.bytes) := fun q => by
    have hpos : (0 : Int) < 2 ^ (8 * ch.descOut.bytes) := pow_pos two_pos _
    rw [highBits, Int.toNat_lt (Int.emod_nonneg _ hpos.ne')]
    exact_mod_cast Int.emod_lt_of_pos _ hpos
  cases hf : ch.descOut.isFloat with
  | true => exact (h.float hf).fits
  | false =>
    cases hon : ch.ditherOn with
    | false =>
      obtain ⟨q, rfl, -⟩ := h.int hf hon
      exact hint q
    | true =>
      obtain ⟨⟨q, rfl, -⟩, -⟩ := h.dither hf hon
      exact hint q

end SampleEncoded

/-! ## The block -/

/-- The state after the first `j` samples of a block of channel `c` (R255). -/
def encodedSamples (s : State) (c off : Nat) (src : List FReal) (j : Nat) : State :=
  (numbered j off src).foldl (encodeStep c) s

/-- A block encoded is all its samples. -/
theorem encodeBlock_eq (s : State) (c off : Nat) (src : List FReal) :
    encodeBlock s c off src = encodedSamples s c off src s.lat.blockLen.toNat := rfl

/-- One more sample. -/
theorem encodedSamples_succ (s : State) (c off : Nat) (src : List FReal) (j : Nat) :
    encodedSamples s c off src (j + 1) = encodeStep c (encodedSamples s c off src j) (j, nth src (off + j)) := by
  simp [encodedSamples, numbered, List.range_succ]

/-- What the first samples leave. -/
theorem encoded_encodedSamples {s : State} {c : Nat} (hc : c < s.chans.length) (off : Nat) (src : List FReal) {j : Nat}
    (hj : j ≤ s.lat.blockLen.toNat) : Encoded c s (encodedSamples s c off src j) := by
  induction j with
  | zero => exact .refl c s
  | succ j ih =>
    rw [encodedSamples_succ]
    exact (ih (Nat.le_of_succ_le hj)).step hc hj

/-- The samples leave the scratch buffers. -/
theorem encodeBlock_scr (s : State) (c off : Nat) (src : List FReal) : (encodeBlock s c off src).scr = s.scr := by
  refine List.foldlRecOn (motive := fun u : State => u.scr = s.scr) _ _ rfl fun u hu jy _ => ?_
  rw [encodeStep, putContainer, writeBytes_eq]
  exact hu

/-- The channel after one more sample. -/
theorem chan_encodeStep {s : State} {c : Nat} (hc : c < s.chans.length) (jy : Nat × FReal) :
    (encodeStep c s jy).chan c = (encodeSample s c (Config.nanCode s.freeCtr jy.1) jy.2).2 := by
  rw [encodeStep, putContainer, writeBytes_eq]
  exact chan_setChan_self s c _ hc

/-- The container after one more sample. -/
theorem getContainer_encodeStep (s : State) (c : Nat) (jy : Nat × FReal) :
    getContainer (encodeStep c s jy) (outputAddr s c jy.1) (s.chan c).descOut.bytes (s.chan c).descOut.bigEndian =
      (encodeSample s c (Config.nanCode s.freeCtr jy.1) jy.2).1 % 2 ^ (8 * (s.chan c).descOut.bytes) :=
  getContainer_putContainer ..

/-- One more sample leaves the bytes outside its container. -/
theorem readByte_encodeStep_ne (s : State) (c : Nat) (jy : Nat × FReal) {a : Nat}
    (h : a < outputAddr s c jy.1 ∨ outputAddr s c jy.1 + (s.chan c).descOut.bytes ≤ a) :
    readByte (encodeStep c s jy) a = readByte s a :=
  readByte_putContainer_ne _ _ _ _ _ h

/-- The places of the samples of a channel in `OUTBUF` (R72). -/
theorem outputAddr_eq {b : Config.Build} {s : State} (hs : BuiltInv b s) {c : Nat} (hc : c < s.channels) (j : Nat) :
    outputAddr s c j =
      0x20000000 + (c * (s.chan c).descOut.bytes + j * s.channels * (s.chan c).descOut.bytes) := by
  rw [outputAddr, (hs.channel c hc).descOut]
  rfl

/-- A container ends where that of a later sample begins, or before. -/
theorem outputAddr_le {b : Config.Build} {s : State} (hs : BuiltInv b s) {c i j : Nat} (hc : c < s.channels)
    (h : i < j) : outputAddr s c i + (s.chan c).descOut.bytes ≤ outputAddr s c j := by
  have hstep : i * s.channels + 1 ≤ j * s.channels :=
    calc i * s.channels + 1 ≤ (i + 1) * s.channels := by linarith [hs.channelsLow]
      _ ≤ j * s.channels := Nat.mul_le_mul_right _ h
  have hbytes := Nat.mul_le_mul_right (s.chan c).descOut.bytes hstep
  rw [outputAddr_eq hs hc, outputAddr_eq hs hc]
  linarith

/-- A channel of an engine and a block of samples for it. -/
structure EncodesBlock (s : State) (c : Nat) (src : List FReal) : Prop where
  inv : EngineInv Config.build s
  built : s.fsm ≠ .uninit
  chan : c < s.channels
  reals : ∀ e : Nat, IsReal .p64 (nth src e)

namespace EncodesBlock

variable {s : State} {c : Nat} {src : List FReal}

/-- The shape of the engine. -/
theorem shape (h : EncodesBlock s c src) : BuiltInv Config.build s := h.inv.built h.built

/-- The channel exists. -/
theorem room (h : EncodesBlock s c src) : c < s.chans.length := by
  rw [h.inv.chans]
  exact h.chan.trans_le h.shape.channelsHigh

/-- The samples keep the output format of the channel. -/
theorem descOut_eq (h : EncodesBlock s c src) (off : Nat) {j : Nat} (hj : j ≤ s.lat.blockLen.toNat) :
    ((encodedSamples s c off src j).chan c).descOut = (s.chan c).descOut := by
  obtain ⟨o, d, hchan, -⟩ := (encoded_encodedSamples h.room off src hj).chan
  rw [hchan]

/-- The samples keep the places of the containers. -/
theorem outputAddr_eq (h : EncodesBlock s c src) (off : Nat) {j : Nat} (hj : j ≤ s.lat.blockLen.toNat) (i : Nat) :
    outputAddr (encodedSamples s c off src j) c i = outputAddr s c i := by
  rw [outputAddr, outputAddr, h.descOut_eq off hj]

/-- The sample after the first `j` is encoded on the channel that they left; its container is written. -/
theorem sample_encoded (h : EncodesBlock s c src) (off : Nat) {j : Nat} (hj : j < s.lat.blockLen.toNat) :
    SampleEncoded s ((encodedSamples s c off src j).chan c) (nth src (off + j))
      (getContainer (encodedSamples s c off src (j + 1)) (outputAddr s c j) (s.chan c).descOut.bytes
        (s.chan c).descOut.bigEndian)
      ((encodedSamples s c off src (j + 1)).chan c) := by
  have henc := encoded_encodedSamples h.room off src hj.le
  have hdesc := h.descOut_eq off hj.le
  have hroom : c < (encodedSamples s c off src j).chans.length := henc.frame.chans.symm ▸ h.room
  have hvalid : ValidDesc ((encodedSamples s c off src j).chan c).descOut := by
    rw [hdesc, (h.shape.channel c h.chan).descOut]
    exact validDesc_sampleDesc h.shape.fmtOut _ _
  have htable : 0 < (encodedSamples s c off src j).tableSize.toNat := by
    rw [henc.frame.control.tableSize]
    exact Nat.zero_lt_of_lt (h.shape.channel c h.chan).cursor
  have hsample := sampleEncoded_encodeSample hvalid htable
    (Config.nanCode (encodedSamples s c off src j).freeCtr j) (h.reals (off + j))
  have hfits := hsample.fits
  have hwritten := getContainer_encodeStep (encodedSamples s c off src j) c (j, nth src (off + j))
  rw [Nat.mod_eq_of_lt hfits, hdesc, h.outputAddr_eq off hj.le] at hwritten
  rw [encodedSamples_succ, chan_encodeStep hroom, hwritten]
  exact hsample.congr henc.frame.control

/-- The samples after a container leave it. -/
theorem getContainer_kept (h : EncodesBlock s c src) (off : Nat) {i j : Nat} (hij : i < j)
    (hj : j ≤ s.lat.blockLen.toNat) (be : Bool) :
    getContainer (encodedSamples s c off src j) (outputAddr s c i) (s.chan c).descOut.bytes be =
      getContainer (encodedSamples s c off src (i + 1)) (outputAddr s c i) (s.chan c).descOut.bytes be := by
  induction j, hij using Nat.le_induction with
  | base => rfl
  | succ j hij ih =>
    have hle : j ≤ s.lat.blockLen.toNat := Nat.le_of_succ_le hj
    rw [← ih hle, encodedSamples_succ]
    refine getContainer_congr be fun k hk => readByte_encodeStep_ne _ _ _ (.inl ?_)
    rw [h.outputAddr_eq off hle]
    exact Nat.lt_of_lt_of_le (Nat.add_lt_add_left hk _) (outputAddr_le h.shape h.chan hij)

end EncodesBlock

/-! ## The statement -/

/-- A channel of which the record and the dither state were written. -/
theorem eq_of_encoder {x y : Channel} {o : OvfRecord} {t : DitherState} (h : x = { y with ovf := o, dstate := t }) :
    x = { y with ovf := x.ovf, dstate := x.dstate } := by
  subst h
  rfl

/-- Settles O41: each sample is encoded on the channel that the one before left (`EncodesBlock.sample_encoded`), and the
later ones leave its container (`EncodesBlock.getContainer_kept`). -/
theorem encodeResult : Obligations.EncodeResult := by
  intro s ch hs hf l off d addr
  obtain ⟨hchan, hid, hoffset, hpass⟩ := codec_checks (i := .encodeSamples ch) (c := checkValid s s.op.src0) rfl hf
  refine ⟨hchan, fun hc hsrc => hid hc (congrArg not hsrc), fun hc hsrc => hoffset hc (congrArg not hsrc),
    fun hc hsrc hfit => ?_⟩
  have hexec := hpass hc (congrArg not hsrc) hfit
  have hwrites := exec_eq_execWith _ s ▸ hexec
  obtain ⟨hregs, hport⟩ := (writes_of_exec hwrites).sameHostSide
  have hblock : EncodesBlock s ch (loadReals s (bufRef s.op.src0)) := ⟨hs, hf, hc, isReal_loadReals _ _⟩
  have henc := encoded_encodeBlock hblock.room off (loadReals s (bufRef s.op.src0))
  have haddr : ∀ j : Nat, outputAddr s ch j = addr j := outputAddr_eq hblock.shape hc
  obtain ⟨o, t, hframe, hdither⟩ := henc.chan
  refine ⟨_, fun j => (encodedSamples s ch off (loadReals s (bufRef s.op.src0)) j).chan ch, hexec, ends_succeed _ _,
    hregs, hport, ?control, ?log, henc.plans.plan, encodeBlock_scr .., fun c hne => henc.frame.other c hne, ?frame,
    ?dither, rfl, rfl, fun j hj => ?sample, fun a ha => ?bytes⟩
  case control =>
    have hcontrol := henc.frame.control
    exact ⟨hcontrol.fsm, hcontrol.lat, hcontrol.blockCounter, hcontrol.bufSel, hcontrol.tableSize, hcontrol.spacing,
      hcontrol.randvec⟩
  case log => exact ⟨henc.plans.log.log, henc.plans.log.logRd, henc.plans.log.logLost⟩
  case frame => exact eq_of_encoder hframe
  case dither => exact fun hoff => (congrArg Channel.dstate hframe).trans (hdither hoff)
  case sample =>
    have hsample := hblock.sample_encoded off hj
    rw [← hblock.getContainer_kept off hj le_rfl, nth_loadReals _ (by omega), haddr] at hsample
    exact hsample
  case bytes =>
    refine (readByte_congr (s := encodeBlock s ch off _) rfl rfl a).trans ?_
    have hnot : ¬SampleByte s ch a := by
      rintro ⟨j, i, hj, hi, rfl⟩
      have hout := ha j hj
      change i < d.bytes at hi
      rw [← haddr j] at hout
      omega
    rw [readByte, readByte, henc.bytes.read?_eq hnot]
    exact congrArg (fun n => Option.getD _ (Config.powerOnByte n a)) hport.powerOns

end Sys2Proof.Machine
end

section
/-! `CHECK_OVERFLOWS` (`45_overflow_tracker.md` R300, R301): what a report holds, the loop over the channels, and the
statement. -/

namespace Sys2Proof.Machine

/-! One theorem is checked after the other: checked side by side, they take a thread each. -/
set_option Elab.async false

/-! ## The report of a channel -/

section
variable {b : Config.Build} {o : OvfRecord}

/-- A peak of zero (R301). -/
theorem peakDb_silent (h : feq (peakOf o) FReal.zero = true) : peakDb b o = (.negInf, FReal.zero) := if_pos h

/-- A level of zero (R301). -/
theorem peakDb_zero (h : feq (peakOf o) FReal.zero = false) (hl : feq (levelOf b o) FReal.zero = true) :
    peakDb b o = (.negZero, FReal.zero) := (if_neg (Bool.eq_false_iff.1 h)).trans (if_pos hl)

/-- Any other level (R301). -/
theorem peakDb_level (h : feq (peakOf o) FReal.zero = false) (hl : feq (levelOf b o) FReal.zero = false) :
    peakDb b o = (.finite, levelOf b o) :=
  (if_neg (Bool.eq_false_iff.1 h)).trans (if_neg (Bool.eq_false_iff.1 hl))

end

/-- The record of a report says what R301 asks. -/
theorem reports_reportRecord (b : Config.Build) (c : Nat) (o : OvfRecord) : Reports b c o (reportRecord b c o) where
  kind := rfl
  ch := rfl
  a := rfl
  negInf h := by
    rw [reportRecord, peakDb_silent h]
    exact ⟨rfl, rfl⟩
  negZero h hl := by
    rw [reportRecord, peakDb_zero h hl]
    exact ⟨rfl, rfl⟩
  finite h hl := by
    rw [reportRecord, peakDb_level h hl]
    exact ⟨rfl, 0, rfl⟩

/-! ## The loop over the channels -/

/-- Whether the records of some channel differ from its snapshot, as R300 compares them. -/
theorem anyDiffers_iff (s : State) : anyDiffers s = true ↔
    ∃ c : Nat, c < s.channels ∧ ((s.chan c).ovf.clips ≠ (s.chan c).snap.clips ∨
      (s.chan c).ovf.largestI ≠ (s.chan c).snap.largestI ∨
      feq (unpack .p64 (s.chan c).ovf.largestF) (unpack .p64 (s.chan c).snap.largestF) = false) := by
  simp only [anyDiffers, List.any_eq_true, List.mem_range, ovfDiffers, Bool.or_eq_true, decide_eq_true_eq,
    Bool.not_eq_true', or_assoc]

/-- A channel with its snapshot taken (R300). -/
def snapped (ch : Channel) : Channel := { ch with snap := snapshot ch.ovf }

/-- The reports of the channels below `n`, in order (R300). -/
def reports (b : Config.Build) (s : State) (n : Nat) : List LogRecord :=
  (List.range n).map fun c => reportRecord b c (s.chan c).ovf

/-- The report of one more channel. -/
theorem reports_succ (b : Config.Build) (s : State) (n : Nat) :
    reports b s (n + 1) = reports b s n ++ [reportRecord b n (s.chan n).ovf] := by
  rw [reports, List.range_succ, List.map_append, reports, List.map_singleton]

/-- What the loop of `CHECK_OVERFLOWS` leaves once the channels below `n` are reported. -/
structure Reported (b : Config.Build) (s : State) (n : Nat) (t : State) : Prop where
  control : SameControl s t
  plan : t.plan = s.plan
  scr : t.scr = s.scr
  room : t.chans.length = s.chans.length
  log : LogTakes b.logDepth s t (reports b s n)
  done : ∀ c : Nat, c < n → t.chan c = snapped (s.chan c)
  rest : ∀ c : Nat, n ≤ c → t.chan c = s.chan c

/-- Nothing is reported before the first channel. -/
theorem reported_start {b : Config.Build} {s : State} (h : s.log.length ≤ b.logDepth) : Reported b s 0 s where
  control := .refl s
  plan := rfl
  scr := rfl
  room := rfl
  log := logTakes_offered h []
  done _ hc := absurd hc (Nat.not_lt_zero _)
  rest _ _ := rfl

/-- The channels after one is reported. -/
theorem chan_reportChannel (b : Config.Build) (s : State) (c d : Nat) :
    (reportChannel b s c).chan d = (s.setChan c (snapped (s.chan c))).chan d := by
  rw [State.chan, reportChannel, logEvent_chans]
  rfl

/-- One more channel reported. -/
theorem Reported.next {b : Config.Build} {s t : State} {n : Nat} (h : Reported b s n t) (hn : n < s.chans.length) :
    Reported b s (n + 1) (reportChannel b t n) where
  control := h.control.trans (by constructor <;> simp [reportChannel])
  plan := (by simp [reportChannel] : (reportChannel b t n).plan = t.plan).trans h.plan
  scr := (by simp [reportChannel] : (reportChannel b t n).scr = t.scr).trans h.scr
  room := (by simp [reportChannel] : (reportChannel b t n).chans.length = t.chans.length).trans h.room
  log := by
    have hsame : SameLog t (t.setChan n (snapped (t.chan n))) := ⟨rfl, rfl, rfl⟩
    rw [reports_succ, ← h.rest n le_rfl]
    exact (h.log.congr hsame).logEvent _
  done c hc := by
    rw [chan_reportChannel]
    by_cases hcn : c = n
    · rw [hcn, chan_setChan_self t n _ (h.room.symm ▸ hn), h.rest n le_rfl]
    · rw [chan_setChan_ne t n c _ hcn, h.done c (by omega)]
  rest c hc := by
    rw [chan_reportChannel, chan_setChan_ne t n c _ (by omega), h.rest c (by omega)]

/-- Every channel reported (R300). -/
theorem reported_all {b : Config.Build} {s : State} (hlog : s.log.length ≤ b.logDepth)
    (hroom : s.channels ≤ s.chans.length) :
    Reported b s s.channels ((List.range s.channels).foldl (reportChannel b) s) :=
  foldl_range_induction (P := Reported b s) s.channels (reported_start hlog) fun _ _ hc h =>
    h.next (hc.trans_le hroom)

/-! ## The statement -/

/-- The command in an engine (R300). -/
theorem exec_checkOverflows {s : State} (hf : s.fsm ≠ .uninit) : exec .checkOverflows s = .next
    (if anyDiffers s then succeed ((List.range s.channels).foldl (reportChannel Config.build) s) 1#32
      else succeed s 0#32) := exec_succeeds (cs := []) rfl hf nofun

/-- Settles O46: the two answers are told apart by `anyDiffers`; the loop over the channels keeps `Reported`, from which
the second is read. -/
theorem checkOverflowsResult : Obligations.CheckOverflowsResult := by
  intro s hs hlog hf differs
  have hexec := exec_checkOverflows hf
  cases hd : anyDiffers s with
  | false =>
    have hquiet : ¬differs := fun h => Bool.eq_false_iff.1 hd ((anyDiffers_iff s).2 h)
    rw [hd, if_neg Bool.false_ne_true] at hexec
    exact ⟨_, hexec, fun _ => ⟨ends_succeed _ _, rfl⟩, fun h => absurd h hquiet⟩
  | true =>
    rw [hd, if_pos rfl] at hexec
    have hwrites := writes_of_exec ((exec_eq_execWith _ _).symm.trans hexec)
    obtain ⟨hregs, hport⟩ := hwrites.sameHostSide
    have hroom : s.channels ≤ s.chans.length := hs.chans.symm ▸ (hs.built hf).channelsHigh
    have hrep := reported_all (b := Config.build) hlog.depth hroom
    refine ⟨_, hexec, fun h => absurd ((anyDiffers_iff s).1 hd) h, fun _ => ⟨ends_succeed _ _, hregs, hport,
      hrep.control.trans ⟨rfl, rfl, rfl, rfl, rfl, rfl, rfl⟩, hwrites.sameMemory (by simp [classesOf]), hrep.plan,
      hrep.scr, ⟨reports Config.build s s.channels, by simp [reports], fun c r hr => ?_, ?_⟩, hrep.done, hrep.rest⟩⟩
    · obtain ⟨hc, rfl⟩ := List.getElem?_eq_some_iff.1 hr
      simpa [reports] using reports_reportRecord Config.build c (s.chan c).ovf
    · exact hrep.log.congr ⟨rfl, rfl, rfl⟩

end Sys2Proof.Machine
end

section
/-! The level of a report (`45_overflow_tracker.md` R301 to R303): rounding between two values of the precision, the
logarithm that R302 allows on the ratios that occur, and the statement. -/

namespace Sys2Proof.Machine

/-! One theorem is checked after the other: checked side by side, they take a thread each. -/
set_option Elab.async false

/-! ## Rounding between two values -/

/-- No value of the precision is nearer to a magnitude than its rounding. -/
theorem IsMagnitude.nearest {p : Prec} {k : Nat} (h : IsMagnitude p k) (x m : Nat) :
    (((roundMag p x m * 2 ^ x : Nat) : Int) - m).natAbs ≤ (((k * 2 ^ x : Nat) : Int) - m).natAbs := by
  obtain ⟨c, e, hc, -, rfl⟩ := h
  have hnear := roundMag_nearest p x m c e hc
  rwa [Nat.add_comm, pow_add, ← Nat.mul_assoc c] at hnear

/-- Rounding stays above a value of the precision. -/
theorem IsMagnitude.le_roundMag {p : Prec} {x m k : Nat} (hk : IsMagnitude p k) (h : k * 2 ^ x ≤ m) :
    k ≤ roundMag p x m := by
  have hnear := hk.nearest x m
  exact Nat.le_of_mul_le_mul_right (by omega : k * 2 ^ x ≤ roundMag p x m * 2 ^ x) (Nat.two_pow_pos x)

/-- Rounding stays below a value of the precision. -/
theorem IsMagnitude.roundMag_le {p : Prec} {x m k : Nat} (hk : IsMagnitude p k) (h : m ≤ k * 2 ^ x) :
    roundMag p x m ≤ k := by
  have hnear := hk.nearest x m
  exact Nat.le_of_mul_le_mul_right (by omega : roundMag p x m * 2 ^ x ≤ k * 2 ^ x) (Nat.two_pow_pos x)

/-- A value of the precision is not too large. -/
theorem IsMagnitude.lt_tooLarge {p : Prec} {k : Nat} (h : IsMagnitude p k) : k < Prec.tooLarge p := by
  by_contra hlarge
  have hround := roundReal_exact false h
  have hmag : k ≤ roundMag p 0 k := h.le_roundMag (by rw [pow_zero, Nat.mul_one])
  rw [roundReal, if_pos ((Nat.le_of_not_lt hlarge).trans hmag)] at hround
  cases hround

/-- A magnitude from the least positive value up to a value of the precision is rounded to a positive finite one. -/
theorem roundReal_positive {p : Prec} {x m k : Nat} (neg : Bool) (hk : IsMagnitude p k)
    (hlow : 2 ^ Prec.lsb p * 2 ^ x ≤ m) (hhigh : m ≤ k * 2 ^ x) :
    ∃ r : Nat, 0 < r ∧ roundReal p neg x m = .fin neg r := by
  have hleast : IsMagnitude p (2 ^ Prec.lsb p) :=
    ⟨1, 0, Nat.one_lt_two_pow (Nat.ne_of_gt (Prec.digits_pos p)), Prec.two_le_top p, by simp⟩
  have hfits : ¬Prec.tooLarge p ≤ roundMag p x m :=
    Nat.not_le.2 ((hk.roundMag_le hhigh).trans_lt hk.lt_tooLarge)
  exact ⟨_, (Nat.two_pow_pos _).trans_le (hleast.le_roundMag hlow), if_neg hfits⟩

/-! ## The ratio -/

/-- `i2f64` of the integer peak is exact (R301). -/
theorem i2f_word (w : Word) : i2f .p64 w.toNat = .fin false (w.toNat * 2 ^ 1074) := by
  have hneg : decide ((w.toNat : Int) < 0) = false := decide_eq_false (by omega)
  rw [i2f, hneg, Int.natAbs_natCast, roundReal_exact false (isMagnitude_int (by omega))]

/-- The ratio of a peak not below `n` units to the integer `n` is a positive number. -/
theorem fdiv64_integer {m n : Nat} (hm : IsMagnitude .p64 m) (hn : 0 < n) (hnm : n ≤ m) :
    ∃ r : Nat, 0 < r ∧ fdiv64 (.fin false m) (.fin false (n * 2 ^ 1074)) = .fin false r := by
  have hquot : m * 2 ^ 1075 / (n * 2 ^ 1074) = 2 * m / n := by
    rw [pow_succ' 2 1074, ← Nat.mul_assoc, Nat.mul_comm m 2, Nat.mul_div_mul_right _ _ (Nat.two_pow_pos _)]
  have hrem : n = 1 → m * 2 ^ 1075 % (n * 2 ^ 1074) = 0 := by
    rintro rfl
    rw [pow_succ' 2 1074, ← Nat.mul_assoc, Nat.one_mul, Nat.mul_mod_left]
  have hlow : 2 ≤ 2 * m / n := (Nat.le_div_iff_mul_le hn).2 (Nat.mul_le_mul_left 2 hnm)
  have hhigh : n = 1 ∨ 2 * m / n ≤ m := by
    refine or_iff_not_imp_left.2 fun h1 => ?_
    calc 2 * m / n ≤ 2 * m / 2 := Nat.div_le_div_left (by omega) Nat.two_pos
      _ = m := Nat.mul_div_cancel_left m Nat.two_pos
  rw [fdiv64, if_neg (Nat.mul_ne_zero hn.ne' (Nat.two_pow_pos _).ne')]
  refine roundReal_positive _ hm ?_ ?_
  · rw [hquot, Prec.lsb]
    omega
  · rw [hquot]
    rcases hhigh with rfl | hhigh
    · rw [if_pos (hrem rfl), Nat.div_one]
      omega
    · split <;> omega

/-- The peak of a record: `+infinity`, or the larger of two finite peaks (R301). -/
theorem peakOf_cases {o : OvfRecord} (h : IsPeak o.largestF) :
    (unpack .p64 o.largestF = .inf false ∧ peakOf o = .inf false) ∨
    ∃ m : Nat, unpack .p64 o.largestF = .fin false m ∧
      peakOf o = .fin false (max m (o.largestI.toNat * 2 ^ 1074)) := by
  rw [peakOf, i2f_word]
  rcases h.cases with hinf | ⟨m, hm⟩
  · exact .inl ⟨hinf, by rw [hinf]; rfl⟩
  · refine .inr ⟨m, hm, ?_⟩
    rw [hm, flt_false_false]
    by_cases hlt : m < o.largestI.toNat * 2 ^ 1074
    · rw [if_pos (decide_eq_true hlt), max_eq_right hlt.le]
    · rw [if_neg (Bool.eq_false_iff.1 (decide_eq_false hlt)), max_eq_left (Nat.le_of_not_lt hlt)]

/-- What R28 says of the maximum of a record: an integer up to `2^31`, which is 1 for a float format, and below the
float peak where an integer format has one. -/
def HasMaximum (o : OvfRecord) (n : Nat) : Prop :=
  1 ≤ n ∧ n ≤ 2 ^ 31 ∧ unpack .p64 o.max = .fin false (n * 2 ^ 1074) ∧
    (n = 1 ∨ o.largestF = 0#64 ∨ flt (unpack .p64 o.max) (unpack .p64 o.largestF) = true)

/-- A finite peak other than zero is not below as many units as the maximum has in integers. -/
theorem HasMaximum.le_peak {o : OvfRecord} {n m : Nat} (h : HasMaximum o n)
    (hm : unpack .p64 o.largestF = .fin false m) (hpos : 0 < max m (o.largestI.toNat * 2 ^ 1074)) :
    n ≤ max m (o.largestI.toNat * 2 ^ 1074) := by
  obtain ⟨-, hhigh, hmax, hpeak⟩ := h
  rcases hpeak with rfl | hzero | hover
  · exact hpos
  · rw [hzero, show unpack .p64 0#64 = .fin false 0 from rfl] at hm
    cases hm
    rw [Nat.zero_max] at hpos ⊢
    calc n ≤ 2 ^ 31 := hhigh
      _ ≤ 2 ^ 1074 := Nat.pow_le_pow_right Nat.two_pos (by decide)
      _ ≤ _ := Nat.le_mul_of_pos_left _ (Nat.pos_of_mul_pos_right hpos)
  · rw [hmax, hm, flt_false_false, decide_eq_true_eq] at hover
    exact (Nat.le_mul_of_pos_right n (Nat.two_pow_pos _)).trans (hover.le.trans (le_max_left _ _))

/-- The ratio of a peak other than zero: `+infinity` where the float peak is, else a positive number. -/
theorem ratioOf_cases {o : OvfRecord} {n : Nat} (h : IsPeak o.largestF) (hmax : HasMaximum o n)
    (hpeak : feq (peakOf o) FReal.zero = false) :
    (isFinite (unpack .p64 o.largestF) = false ∧ ratioOf o = .inf false) ∨
      ∃ r : Nat, 0 < r ∧ ratioOf o = .fin false r := by
  have ⟨hn, _, hunpack, _⟩ := hmax
  rcases peakOf_cases h with ⟨hinf, hp⟩ | ⟨m, hm, hp⟩
  · exact .inl ⟨by rw [hinf]; rfl, by rw [ratioOf, hp, hunpack]; rfl⟩
  · have hpos : 0 < max m (o.largestI.toNat * 2 ^ 1074) := by
      refine Nat.pos_of_ne_zero fun h0 => ?_
      rw [hp, h0] at hpeak
      cases hpeak
    have hmag : IsMagnitude .p64 (max m (o.largestI.toNat * 2 ^ 1074)) := by
      rcases max_choice m (o.largestI.toNat * 2 ^ 1074) with he | he
      · rw [he]
        exact (isReal_fin_iff _ false m).1 ⟨_, hm⟩
      · rw [he]
        exact isMagnitude_int (by omega)
    rw [ratioOf, hp, hunpack]
    exact .inr (fdiv64_integer hmag hn (hmax.le_peak hm hpos))

/-! ## The logarithm -/

/-- A unit in the last place of a number is not above the number, or it is the least unit (R302). -/
theorem ulp_le (k : Nat) : (2 : ℝ) ^ (k.log2 + 1 - 53) ≤ k + 1 := by
  have h : 2 ^ (k.log2 + 1 - 53) ≤ k + 1 := by
    by_cases hk : k = 0
    · subst hk
      decide
    · exact (Nat.pow_le_pow_right Nat.two_pos (by omega)).trans ((Nat.log2_self_le hk).trans k.le_succ)
  exact_mod_cast h

/-- The magnitude of a signed number of units. -/
theorem abs_signedUnits (neg : Bool) (mag : Nat) : |((signedUnits neg mag : Int) : ℝ)| = mag := by
  cases neg <;> simp [signedUnits]

/-- A number within one unit in the last place of `x` is at most twice as far from zero, but for a unit. -/
theorem WithinOneUlp.le_double {neg : Bool} {mag : Nat} {x : ℝ} (h : WithinOneUlp (signedUnits neg mag) x) :
    (mag : ℝ) ≤ 2 * (|x| * (2 : ℝ) ^ 1074) + 1 := by
  have hdiff := (abs_sub_abs_le_abs_sub _ _).trans h
  rw [abs_signedUnits, abs_mul, abs_of_pos (show (0 : ℝ) < (2 : ℝ) ^ 1074 by positivity)] at hdiff
  have hfloor : (⌊|x| * (2 : ℝ) ^ 1074⌋₊ : ℝ) ≤ |x| * (2 : ℝ) ^ 1074 := Nat.floor_le (by positivity)
  linarith only [hdiff, hfloor, ulp_le ⌊|x| * (2 : ℝ) ^ 1074⌋₊]

/-- A number within one unit in the last place of a logarithm that occurs is far below the largest one. -/
theorem WithinOneUlp.lt_two_pow {neg : Bool} {mag : Nat} {x : ℝ} (h : WithinOneUlp (signedUnits neg mag) x)
    (hx : |x| ≤ 1074) : mag < 2 ^ 1100 := by
  have hone : (1 : ℝ) ≤ (2 : ℝ) ^ 1074 := one_le_pow₀ (by norm_num)
  have hscaled := mul_le_mul_of_nonneg_right hx (zero_le_one.trans hone)
  have hdouble := h.le_double
  have hbound : (mag : ℝ) ≤ 2149 * (2 : ℝ) ^ 1074 := by
    generalize (2 : ℝ) ^ 1074 = u at hone hscaled hdouble ⊢
    linarith only [hone, hscaled, hdouble]
  have hnat : mag ≤ 2149 * 2 ^ 1074 := by exact_mod_cast hbound
  calc mag ≤ 2149 * 2 ^ 1074 := hnat
    _ < 2 ^ 26 * 2 ^ 1074 := Nat.mul_lt_mul_of_pos_right (by decide) (Nat.two_pow_pos _)
    _ = 2 ^ 1100 := by rw [← pow_add]

section
variable {b : Config.Build} {r : Nat}

/-- The logarithm of a positive number is a number of moderate size (R302). -/
theorem log10_positive (h : Log10Laws b.log10) (hr : IsMagnitude .p64 r) (hpos : 0 < r) :
    ∃ (neg : Bool) (mag : Nat), mag < 2 ^ 1100 ∧ log10 b (.fin false r) = .fin neg mag := by
  have hx := unpack_pack_fin false hr 0
  obtain ⟨neg, mag, hlog⟩ := isFinite_fin (h.finite _ r hx hpos)
  exact ⟨neg, mag, (h.accurate _ r neg mag hx hpos hlog).lt_two_pow (logb_bound hpos (unpack_lt hx)), hlog⟩

/-- Twenty times such a logarithm is a number of its sign, and not zero unless the logarithm is. -/
theorem fmul64_twenty (neg : Bool) {mag : Nat} (hpos : 0 < mag) (hmag : mag < 2 ^ 1100) :
    ∃ k : Nat, 0 < k ∧ fmul64 (.fin false (20 * 2 ^ 1074)) (.fin neg mag) = .fin neg k := by
  have hprod : 20 * 2 ^ 1074 * mag = 20 * mag * 2 ^ 1074 := Nat.mul_right_comm _ _ _
  have hhigh : 20 * mag ≤ 2 ^ 1105 := by
    calc 20 * mag ≤ 2 ^ 5 * 2 ^ 1100 := Nat.mul_le_mul (by decide) hmag.le
      _ = 2 ^ 1105 := by rw [← pow_add]
  rw [fmul64, fmul, hprod, Bool.false_bne]
  refine roundReal_positive neg (isMagnitude_pow (e := 1105) (by decide)) ?_ (Nat.mul_le_mul_right _ hhigh)
  exact Nat.mul_le_mul_right _ (by rw [Prec.lsb]; omega)

/-- How a level follows its ratio (R302, R303): zero exactly at 1, positive above it and negative below it, and finite
when the ratio is. -/
structure LevelFollows (ratio level : FReal) : Prop where
  zero : feq level FReal.zero = true ↔ feq ratio (.fin false (2 ^ 1074)) = true
  above : flt (.fin false (2 ^ 1074)) ratio = true → flt FReal.zero level = true
  below : flt ratio (.fin false (2 ^ 1074)) = true → flt level FReal.zero = true
  finite : isFinite ratio = true → isFinite level = true

/-- The level of a ratio, as `levelOf` computes it from the ratio of a record. -/
def levelOfRatio (b : Config.Build) (ratio : FReal) : FReal := fmul64 (.fin false (20 * 2 ^ 1074)) (log10 b ratio)

/-- The level of a record is that of its ratio (R301). -/
theorem levelOf_eq (b : Config.Build) (o : OvfRecord) : levelOf b o = levelOfRatio b (ratioOf o) := rfl

/-- The level at full scale (R302). -/
theorem levelOfRatio_one (h : Log10Laws b.log10) : levelOfRatio b (.fin false (2 ^ 1074)) = .fin false 0 := by
  have hbits : pack .p64 0 (.fin false (2 ^ 1074)) = 0x3FF0000000000000#64 := by decide +kernel
  rw [levelOfRatio, log10, hbits, h.one]
  decide +kernel

/-- The level of an infinite peak (R302). -/
theorem levelOfRatio_inf (h : Log10Laws b.log10) : levelOfRatio b (.inf false) = .inf false := by
  have hbits : pack .p64 0 (.inf false) = 0x7FF0000000000000#64 := by decide +kernel
  rw [levelOfRatio, log10, hbits, h.infinity]
  decide +kernel

/-- The level above full scale (R302). -/
theorem levelOfRatio_above (h : Log10Laws b.log10) (hr : IsMagnitude .p64 r) (hone : 2 ^ 1074 < r) :
    ∃ k : Nat, 0 < k ∧ levelOfRatio b (.fin false r) = .fin false k := by
  obtain ⟨neg, mag, hmag, hlog⟩ := log10_positive h hr ((Nat.two_pow_pos _).trans hone)
  have hsign := h.above (pack .p64 0 (.fin false r)) (by
    rw [powerOfTwo_zero, unpack_pack_fin false hr, flt_false_false, decide_eq_true hone])
  have hcases := flt_false_cases ((congrArg (flt FReal.zero) hlog).symm.trans hsign)
  obtain ⟨n, hn, hpos⟩ := hcases.resolve_left nofun
  cases hn
  rw [levelOfRatio, hlog]
  exact fmul64_twenty false hpos hmag

/-- A finite value below zero is negative. -/
theorem negative_of_flt_zero {neg : Bool} {mag : Nat} (h : flt (.fin neg mag) FReal.zero = true) :
    neg = true ∧ 0 < mag := by
  cases neg with
  | false =>
    rw [FReal.zero, flt_false_false, decide_eq_true_eq] at h
    exact absurd h (Nat.not_lt_zero _)
  | true =>
    refine ⟨rfl, Nat.pos_of_ne_zero ?_⟩
    rintro rfl
    cases h

/-- The level below full scale (R302). -/
theorem levelOfRatio_below (h : Log10Laws b.log10) (hr : IsMagnitude .p64 r) (hpos : 0 < r) (hone : r < 2 ^ 1074) :
    ∃ k : Nat, 0 < k ∧ levelOfRatio b (.fin false r) = .fin true k := by
  obtain ⟨neg, mag, hmag, hlog⟩ := log10_positive h hr hpos
  have hunpack := unpack_pack_fin false hr 0
  have hsign := h.below (pack .p64 0 (.fin false r))
    (by rw [hunpack, FReal.zero, flt_false_false, decide_eq_true hpos])
    (by rw [powerOfTwo_zero, hunpack, flt_false_false, decide_eq_true hone])
  obtain ⟨rfl, hmag0⟩ := negative_of_flt_zero ((congrArg (flt · FReal.zero) hlog).symm.trans hsign)
  rw [levelOfRatio, hlog]
  exact fmul64_twenty true hmag0 hmag

/-- Equality of two values that are not negative. -/
theorem feq_false_false (m n : Nat) : feq (.fin false m) (.fin false n) = decide (m = n) := by
  simp [feq, signedUnits]

/-- A negative value is not zero. -/
theorem feq_negative_zero {k : Nat} (hk : 0 < k) : feq (.fin true k) FReal.zero = false := by
  simp [feq, FReal.zero, signedUnits, hk.ne']

/-- The level of an infinite ratio follows it. -/
theorem levelFollows_inf (h : Log10Laws b.log10) : LevelFollows (.inf false) (levelOfRatio b (.inf false)) := by
  rw [levelOfRatio_inf h]
  exact ⟨by decide, fun _ => rfl, nofun, nofun⟩

/-- The level of a positive ratio follows it. -/
theorem levelFollows_fin (h : Log10Laws b.log10) (hr : IsMagnitude .p64 r) (hpos : 0 < r) :
    LevelFollows (.fin false r) (levelOfRatio b (.fin false r)) := by
  rcases Nat.lt_trichotomy r (2 ^ 1074) with hlt | hone | hgt
  · obtain ⟨k, hk, hlevel⟩ := levelOfRatio_below h hr hpos hlt
    rw [hlevel]
    refine ⟨?_, ?_, fun _ => flt_true_false k 0 hk, fun _ => rfl⟩
    · rw [feq_false_false, decide_eq_false hlt.ne]
      exact iff_of_false (ne_true_of_eq_false (feq_negative_zero hk)) nofun
    · rw [flt_false_false, decide_eq_false hlt.not_gt]
      exact nofun
  · rw [hone, levelOfRatio_one h]
    refine ⟨?_, ?_, ?_, fun _ => rfl⟩
    · rw [feq_false_false, decide_eq_true rfl]
      exact iff_of_true rfl rfl
    · rw [flt_false_false, decide_eq_false (lt_irrefl _)]
      exact nofun
    · rw [flt_false_false, decide_eq_false (lt_irrefl _)]
      exact nofun
  · obtain ⟨k, hk, hlevel⟩ := levelOfRatio_above h hr hgt
    rw [hlevel]
    refine ⟨?_, fun _ => ?_, ?_, fun _ => rfl⟩
    · rw [FReal.zero, feq_false_false, feq_false_false, decide_eq_false hk.ne', decide_eq_false hgt.ne']
    · rw [FReal.zero, flt_false_false, decide_eq_true hk]
    · rw [flt_false_false, decide_eq_false hgt.not_gt]
      exact nofun

end

/-! ## The statement -/

/-- The level of a record whose peak is not zero follows its ratio, and the ratio is finite when the peak is. -/
theorem levelFollows_ratioOf {b : Config.Build} {o : OvfRecord} {n : Nat} (hlaws : Log10Laws b.log10)
    (hpeak : IsPeak o.largestF) (hmax : HasMaximum o n) (hpos : feq (peakOf o) FReal.zero = false) :
    LevelFollows (ratioOf o) (levelOf b o) ∧
      (isFinite (unpack .p64 o.largestF) = true → isFinite (ratioOf o) = true) := by
  have hreal : IsReal .p64 (ratioOf o) := isReal_fdiv64 _ _
  rw [levelOf_eq]
  rcases ratioOf_cases hpeak hmax hpos with ⟨hinf, hratio⟩ | ⟨r, hr, hratio⟩
  · rw [hratio]
    exact ⟨levelFollows_inf hlaws, fun h => absurd h (ne_true_of_eq_false hinf)⟩
  · rw [hratio] at hreal ⊢
    exact ⟨levelFollows_fin hlaws ((isReal_fin_iff _ false r).1 hreal) hr, fun _ => rfl⟩

/-- Settles O47: the three classes are those of `peakDb_silent`, `peakDb_zero` and `peakDb_level`, and where the peak is
not zero the level follows the ratio (`levelFollows_ratioOf`). -/
theorem peakDbClasses : Obligations.PeakDbClasses := by
  rintro b o hlaws hnan hsign ⟨n, hmax⟩
  cases hpos : feq (peakOf o) FReal.zero with
  | true =>
    rw [peakDb_silent hpos]
    exact ⟨iff_of_true rfl rfl, iff_of_false nofun fun h => Bool.noConfusion h.1, fun _ => rfl, nofun⟩
  | false =>
    obtain ⟨hfollows, hfinite⟩ := levelFollows_ratioOf hlaws ⟨hnan, hsign⟩ hmax hpos
    cases hzero : feq (levelOf b o) FReal.zero with
    | true =>
      rw [peakDb_zero hpos hzero]
      exact ⟨iff_of_false nofun nofun, iff_of_true rfl ⟨rfl, hfollows.zero.1 hzero⟩, fun _ => rfl, nofun⟩
    | false =>
      have hratio : feq (ratioOf o) (.fin false (2 ^ 1074)) ≠ true := fun h =>
        ne_true_of_eq_false hzero (hfollows.zero.2 h)
      rw [peakDb_level hpos hzero]
      exact ⟨iff_of_false nofun nofun, iff_of_false nofun fun h => hratio h.2, fun h => absurd rfl h,
        fun _ => ⟨rfl, hfollows.above, hfollows.below, fun h => hfollows.finite (hfinite h)⟩⟩

end Sys2Proof.Machine
end

section
/-! How every command ends (`60_exceptions.md` R310 to R313, R317): refused for the state of the engine, refused for an
argument before any effect, with one of the three errors that leave something behind, or with success. -/

namespace Sys2Proof.Machine

/-! One theorem is checked after the other: checked side by side, they take a thread each. -/
set_option Elab.async false

/-! ## The result codes -/

/-- A code is determined by its number (R114). -/
theorem ResultCode.number_injective : Function.Injective ResultCode.number := by
  have hctor : ∀ code : ResultCode, code.number = code.ctorIdx := fun code => by cases code <;> rfl
  intro c d h
  rw [hctor, hctor] at h
  rw [← ResultCode.ofNat_ctorIdx c, h, ResultCode.ofNat_ctorIdx]

/-- The numbers of the codes fit a word (R114). -/
theorem ResultCode.number_lt (code : ResultCode) : code.number < 2 ^ 32 := by
  cases code <;> decide

/-- A code is determined by its word (R114). -/
theorem ResultCode.word_injective : Function.Injective ResultCode.word := by
  intro c d h
  have hword : BitVec.ofNat 32 c.number = BitVec.ofNat 32 d.number := BitVec.neg_inj.1 h
  refine ResultCode.number_injective ?_
  rw [← Nat.mod_eq_of_lt c.number_lt, ← Nat.mod_eq_of_lt d.number_lt, ← BitVec.toNat_ofNat, hword,
    BitVec.toNat_ofNat]

/-! ## The endings -/

/-- Operands that name one buffer in a combination that the command's row refuses (R318). -/
inductive OperandsClash (s : State) : Instr → Prop where
  | convolve (h : s.op.dst = s.op.src0 ∨ s.op.dst = s.op.coef) : OperandsClash s .convolve
  | convolveAdd (h : s.op.dst = s.op.src0 ∨ s.op.dst = s.op.coef) : OperandsClash s .convolveAdd
  | convolveInplace (h : s.op.dst = s.op.coef) : OperandsClash s .convolveInplace
  | diracConvolve (h : s.op.dst = s.op.src0) : OperandsClash s .diracConvolve
  | mixAndScaleIn {n j : Nat} (hj : j < n) (h : s.op.dst = s.op.sources.getD j 0#32) :
      OperandsClash s (.mixAndScaleIn n)
  | mixAndScaleOut {n j : Nat} (hj : j < n) (h : s.op.dst = s.op.sources.getD j 0#32) :
      OperandsClash s (.mixAndScaleOut n)
  | coeffsToInternal (ch : Nat) (h : s.op.dst = 0x40000001#32) : OperandsClash s (.coeffsToInternal ch)

/-- The errors that the checks of a command raise before any effect, but for `CONSTRUCT` (R315). -/
inductive RefusedWith (i : Instr) (s : State) : ResultCode → Prop where
  | badArg : RefusedWith i s .eBadArg
  | counter (h : i = .run) : RefusedWith i s .eCounter
  | clash (h : OperandsClash s i) : RefusedWith i s .eAlias

/-- How a command ends that is legal in the state of the engine (R310, R312). -/
inductive LegalEnding (b : Config.Build) (i : Instr) (s : State) : State → Prop where
  | refused {code : ResultCode} (h : RefusedWith i s code) (aux : Word) : LegalEnding b i s (raise s code aux)
  | noRoom (h : i = .setCoeff) :
      LegalEnding b i s (raise (logEvent b s (setCoeffFailRecord 0xFF#8 .eAlloc)) .eAlloc 3#32)
  | stopped {code : ResultCode} (h : code = .ePreprocess ∨ code = .eNonfinite) (u : State) (aux : Word) :
      LegalEnding b i s (raise u code aux)
  | notBuilt (h : i = .construct) {c : Check} (hc : c ∈ constructChecks b s.cfg) (u : State) :
      LegalEnding b i s (raise u c.code c.aux)
  | done (u : State) (aux : Word) : LegalEnding b i s (succeed u aux)

/-- How a command ends (R310, R313). -/
inductive CommandEnding (b : Config.Build) (i : Instr) (s t : State) : Prop where
  | illegal (h : legalIn i s.fsm = false) (ht : t = raise s .eState (BitVec.ofNat 32 s.fsm.code))
  | legal (h : legalIn i s.fsm = true) (ht : LegalEnding b i s t)

/-! ## Operands -/

/-- The one id that names `SCR[1]` (R112). -/
theorem bufRef_eq_scr_one_iff (id : Word) : bufRef id = .scr 1 ↔ id = 0x40000001#32 := by
  refine ⟨fun h => ?_, fun h => h ▸ rfl⟩
  have hfields : idSpace id = 4 ∧ idChan id = 0 ∧ idIndex id = 1 := by
    rw [bufRef_eq] at h
    generalize idSpace id = space at h ⊢
    unfold refOfFields at h
    split at h
    case h_4 => split at h <;> simp_all
    case h_3 => split at h <;> cases h
    all_goals cases h
  rw [idSpace_eq, idChan_eq, idIndex_eq] at hfields
  apply BitVec.eq_of_toNat_eq
  simp only [BitVec.toNat_ofNat]
  omega

/-- A destination among the inputs asked for is one of them. -/
theorem exists_source_of_contains {s : State} {n : Nat} (h : (s.op.sources.take n).contains s.op.dst = true) :
    ∃ j : Nat, j < n ∧ s.op.dst = s.op.sources.getD j 0#32 := by
  obtain ⟨j, hj, hdst⟩ := List.getElem_of_mem (List.contains_iff_mem.1 h)
  have hjn : j < n := hj.trans_le (List.length_take_le _ _)
  exact ⟨j, hjn, by rw [← getD_take_sources s.op hjn, List.getD_eq_getElem _ _ hj, hdst]⟩

/-- An input that is asked for is among them. -/
theorem contains_source {s : State} {n j : Nat} (hn : n ≤ 4) (hj : j < n)
    (h : s.op.dst = s.op.sources.getD j 0#32) : (s.op.sources.take n).contains s.op.dst = true := by
  have hlen : j < (s.op.sources.take n).length := (length_take_sources s.op hn).symm ▸ hj
  rw [h, ← getD_take_sources s.op hj, List.getD_eq_getElem _ _ hlen]
  exact List.contains_iff_mem.2 (List.getElem_mem hlen)

/-! ## The commands -/

section
variable {b : Config.Build} {i : Instr} {s effect : State} {cs : List Check}

/-- A command legal in `INITIALIZED` and `READY`, with its checks. -/
theorem CommandEnding.guarded (hlegal : legalIn i s.fsm = decide (s.fsm ≠ .uninit))
    (hcs : ∀ c ∈ cs, c.fails = true → RefusedWith i s c.code) (heffect : LegalEnding b i s effect) :
    CommandEnding b i s (whenConstructed s (checked s cs effect)) := by
  by_cases hf : s.fsm = .uninit
  · refine .illegal (hlegal.trans (decide_eq_false (not_not_intro hf))) ?_
    rw [whenConstructed_fail s _ hf, hf]
    rfl
  · refine .legal (hlegal.trans (decide_eq_true hf)) ?_
    rw [whenConstructed_pass s _ hf]
    rcases checked_cases s cs effect with ⟨-, h⟩ | ⟨c, hc, hfail, h⟩
    · rw [h]
      exact heffect
    · rw [h]
      exact .refused (hcs c hc hfail) _

/-- A command legal in `INITIALIZED` and `READY`, without checks. -/
theorem CommandEnding.guardedOnly (hlegal : legalIn i s.fsm = decide (s.fsm ≠ .uninit))
    (heffect : LegalEnding b i s effect) : CommandEnding b i s (whenConstructed s effect) :=
  CommandEnding.guarded (cs := []) hlegal nofun heffect

/-- A command legal in `INITIALIZED` and `READY` whose checks raise `E_BAD_ARG` alone. -/
theorem CommandEnding.guardedArgs (hlegal : legalIn i s.fsm = decide (s.fsm ≠ .uninit))
    (hcs : ∀ c ∈ cs, c.code = .eBadArg) (heffect : LegalEnding b i s effect) :
    CommandEnding b i s (whenConstructed s (checked s cs effect)) :=
  .guarded hlegal (fun c hc _ => hcs c hc ▸ .badArg) heffect

/-- A command with the checks of `CONVOLVE` (R171, R172). -/
theorem commandEnding_convolve (hlegal : legalIn i s.fsm = decide (s.fsm ≠ .uninit))
    (hclash : s.op.dst = s.op.src0 ∨ s.op.dst = s.op.coef → OperandsClash s i)
    (heffect : LegalEnding b i s effect) :
    CommandEnding b i s (whenConstructed s (checked s (convolveChecks s) effect)) := by
  refine .guarded hlegal ?_ heffect
  simp only [convolveChecks, List.forall_mem_cons]
  exact ⟨fun _ => .badArg, fun _ => .badArg, fun _ => .badArg, fun h => .clash (hclash (by simpa using h)), nofun⟩

/-- A command with the checks of `MIX_AND_SCALE` (R149). -/
theorem commandEnding_mix {n : Nat} (hlegal : legalIn i s.fsm = decide (s.fsm ≠ .uninit))
    (hclash : ∀ j : Nat, j < n → s.op.dst = s.op.sources.getD j 0#32 → OperandsClash s i)
    (heffect : LegalEnding b i s effect) :
    CommandEnding b i s (whenConstructed s (checked s (mixChecks s n) effect)) := by
  refine .guarded hlegal ?_ heffect
  simp only [mixChecks, List.forall_mem_cons, List.forall_mem_append, List.forall_mem_map]
  refine ⟨fun _ => .badArg, fun _ _ _ => .badArg, fun _ => .badArg, fun h => ?_, nofun⟩
  obtain ⟨j, hj, hdst⟩ := exists_source_of_contains h
  exact .clash (hclash j hj hdst)

/-- `COEFFS_TO_INTERNAL` (R191). -/
theorem commandEnding_coeffsToInternal (b : Config.Build) (s : State) (ch : Nat) :
    CommandEnding b (.coeffsToInternal ch) s (coeffsToInternalWith b ch s) := by
  refine .guarded rfl ?checks ?effect
  case checks =>
    simp only [coeffsToInternalChecks, List.forall_mem_cons]
    refine ⟨fun _ => .badArg, fun _ => .badArg, fun _ => .badArg, fun _ => .badArg, fun h => ?_, nofun⟩
    exact .clash (.coeffsToInternal ch ((bufRef_eq_scr_one_iff _).1 (of_decide_eq_true h)))
  case effect =>
    simp only [coeffsToInternalEffect]
    split
    · exact .done _ _
    · exact .stopped (.inl rfl) _ _

/-- `VERIFY` (R192). -/
theorem commandEnding_verify (b : Config.Build) (s : State) (n : Nat) :
    CommandEnding b (.verify n) s (verifyWith b n s) := by
  refine .guardedArgs rfl ?checks ?effect
  case checks =>
    rw [verifyChecks, List.forall_mem_cons, List.forall_mem_map]
    exact ⟨rfl, fun _ _ => rfl⟩
  split
  · exact .done _ _
  · exact .done _ _

/-- `CONSTRUCT` (R211), legal in every state of the engine. -/
theorem commandEnding_construct (b : Config.Build) (s : State) :
    CommandEnding b .construct s (constructWith b s) := by
  refine .legal rfl ?_
  unfold constructWith
  rcases firstFailure_cases (constructChecks b s.cfg) with ⟨-, h⟩ | ⟨pre, c, post, hcs, -, -, h⟩
  · rw [h]
    exact .done _ _
  · rw [h]
    exact .notBuilt rfl (by rw [hcs]; simp) _

/-- `SET_COEFF` (R215 to R217). -/
theorem commandEnding_setCoeff (b : Config.Build) (s : State) :
    CommandEnding b .setCoeff s (setCoeffWith b s) := by
  refine .guardedArgs rfl (by simp [setCoeffChecks]) ?_
  split
  · exact .noRoom rfl
  · simp only [setCoeffEffect]
    split
    · exact .done _ _
    · exact .stopped (.inl rfl) _ _

/-- `RUN` (R220, R227, R228), legal in `READY` alone. -/
theorem commandEnding_run (b : Config.Build) (s : State) : CommandEnding b .run s (runWith b s) := by
  unfold runWith
  by_cases hr : s.fsm = .ready
  · rw [whenReady_pass s _ hr]
    refine .legal (decide_eq_true hr) ?_
    rcases checked_cases s _ (runEffect b s) with ⟨-, h⟩ | ⟨c, hc, -, h⟩
    · rw [h]
      simp only [runEffect]
      split
      · exact .done _ _
      · exact .stopped (.inr rfl) _ _
    · obtain rfl := List.mem_singleton.1 hc
      rw [h]
      exact .refused (.counter rfl) _
  · exact .illegal (decide_eq_false hr) (whenReady_fail s _ hr)

/-- `CHECK_OVERFLOWS` (R300). -/
theorem commandEnding_checkOverflows (b : Config.Build) (s : State) :
    CommandEnding b .checkOverflows s (checkOverflowsWith b s) := by
  refine .guardedOnly rfl ?_
  split
  · exact .done _ _
  · exact .done _ _

end

/-- Every command, in every state and build, ends in one of these ways. -/
theorem execWith_ends (b : Config.Build) (i : Instr) (s : State) :
    ∃ t : State, execWith b i s = .next t ∧ CommandEnding b i s t := by
  cases i <;> refine ⟨_, rfl, ?_⟩
  case construct => exact commandEnding_construct b s
  case setCoeff => exact commandEnding_setCoeff b s
  case run => exact commandEnding_run b s
  case reset => exact .guardedOnly rfl (.done _ _)
  case checkOverflows => exact commandEnding_checkOverflows b s
  case isInitialized => exact .legal rfl (.done _ _)
  case timeToFreq => exact .guardedArgs rfl (by simp [checkValid, checkWritable]) (.done _ _)
  case freqToTime => exact .guardedArgs rfl (by simp [checkValid, checkWritable]) (.done _ _)
  case mixAndScaleIn n => exact commandEnding_mix rfl (fun _ hj h => .mixAndScaleIn hj h) (.done _ _)
  case mixAndScaleOut n => exact commandEnding_mix rfl (fun _ hj h => .mixAndScaleOut hj h) (.done _ _)
  case convolve => exact commandEnding_convolve rfl .convolve (.done _ _)
  case convolveAdd => exact commandEnding_convolve rfl .convolveAdd (.done _ _)
  case convolveInplace =>
    refine .guarded rfl ?_ (.done _ _)
    simp only [List.forall_mem_cons]
    exact ⟨fun _ => .badArg, fun _ => .badArg, fun h => .clash (.convolveInplace (of_decide_eq_true h)), nofun⟩
  case diracConvolve =>
    refine .guarded rfl ?_ (.done _ _)
    simp only [List.forall_mem_cons]
    exact ⟨fun _ => .badArg, fun _ => .badArg, fun h => .clash (.diracConvolve (of_decide_eq_true h)), nofun⟩
  case diracConvolveInplace => exact .guardedArgs rfl (by simp [checkWritable]) (.done _ _)
  case coeffsToInternal ch => exact commandEnding_coeffsToInternal b s ch
  case verify n => exact commandEnding_verify b s n
  case decodeSamples ch =>
    exact .guardedArgs rfl (by simp [checkChannel, checkWritable, checkOffset]) (.done _ _)
  case encodeSamples ch =>
    exact .guardedArgs rfl (by simp [checkChannel, checkValid, checkOffset]) (.done _ _)

/-- Every command, in every state of the build with the defaults. -/
theorem exec_ends (i : Instr) (s : State) : ∃ t : State, exec i s = .next t ∧ CommandEnding Config.build i s t := by
  rw [exec_eq_execWith]
  exact execWith_ends Config.build i s

/-- The ending of a command that was executed. -/
theorem commandEnding_of_exec {i : Instr} {s t : State} (h : exec i s = .next t) :
    CommandEnding Config.build i s t := by
  obtain ⟨u, hu, hend⟩ := exec_ends i s
  rw [hu] at h
  cases h
  exact hend

/-! ## The codes of the endings -/

/-- `CONSTRUCT` raises none of these codes (R212). -/
theorem constructChecks_code_notMem (b : Config.Build) (g : CfgRegs) : ∀ c ∈ constructChecks b g,
    c.code ∉ [ResultCode.eIncompatible, .eLoad, .eState, .eAlias] := by
  simp [constructChecks]

/-- The code of a refusal. -/
theorem RefusedWith.code_mem {i : Instr} {s : State} {code : ResultCode} (h : RefusedWith i s code) :
    code ∈ [ResultCode.eBadArg, .eCounter, .eAlias] := by
  cases h <;> decide

/-- A legal command writes the result registers, and its code is neither one of the two that the hardware never
raises nor that of a state in which the command is not legal (R310, R311, R313, R114). -/
theorem LegalEnding.ends {b : Config.Build} {i : Instr} {s t : State} (h : LegalEnding b i s t) :
    ∃ (code : ResultCode) (aux : Word), Ends t code aux ∧ code ∉ [ResultCode.eIncompatible, .eLoad, .eState] := by
  cases h with
  | refused h aux => cases h <;> exact ⟨_, _, ends_raise _ _ (by decide), by decide⟩
  | noRoom => exact ⟨_, _, ends_raise _ _ (by decide), by decide⟩
  | stopped h u aux => obtain rfl | rfl := h <;> exact ⟨_, _, ends_raise _ _ (by decide), by decide⟩
  | notBuilt _ hc u =>
    refine ⟨_, _, ends_raise _ _ (constructChecks_code b s.cfg _ hc), fun hmem => ?_⟩
    exact constructChecks_code_notMem b s.cfg _ hc (List.mem_append_left [ResultCode.eAlias] hmem)
  | done u aux => exact ⟨_, _, ends_succeed _ _, by decide⟩

/-- Every command writes the result registers, with a code that the hardware raises (R310, R311, R114). -/
theorem CommandEnding.ends {b : Config.Build} {i : Instr} {s t : State} (h : CommandEnding b i s t) :
    ∃ (code : ResultCode) (aux : Word), Ends t code aux ∧ code ∉ [ResultCode.eIncompatible, .eLoad] := by
  cases h with
  | illegal _ ht =>
    rw [ht]
    exact ⟨_, _, ends_raise _ _ (by decide), by decide⟩
  | legal _ ht =>
    obtain ⟨code, aux, hends, hcode⟩ := ht.ends
    exact ⟨code, aux, hends, fun hmem => hcode (List.mem_append_left [ResultCode.eState] hmem)⟩

/-! ## The step -/

section
variable {b : Config.Build} {ex : Executor}

/-- A host write ends in a state when every command does (R310, R71, R79). -/
theorem hostWrite_next (hex : ∀ (i : Instr) (s : State), ∃ t : State, ex i s = .next t) (s : State)
    (size : AccessSize) (addr : Word) (data : Word64) : ∃ t : State, hostWrite b ex s size addr data = .next t := by
  unfold hostWrite
  split
  · split
    · unfold csrWrite
      split
      · unfold issue
        split
        · exact hex _ s
        · exact ⟨_, rfl⟩
      · exact ⟨_, rfl⟩
    · exact ⟨_, rfl⟩
  · exact ⟨_, rfl⟩

/-- An event at the block ends in a state when every command does (R310). -/
theorem nextEvent_next (hex : ∀ (i : Instr) (s : State), ∃ t : State, ex i s = .next t) (s : State) :
    ∃ t : State, nextEvent b ex s = .next t := by
  cases hp : s.pending with
  | nil => exact ⟨s, nextEvent_idle b ex hp⟩
  | cons txn rest =>
    rw [nextEvent_serve b ex hp]
    cases txn with
    | write size addr data => exact hostWrite_next hex _ size addr data
    | read size addr => exact ⟨_, rfl⟩
    | hardReset => exact ⟨_, rfl⟩

end

/-! ## The statements -/

/-- Settles O6: the ending of every command (`CommandEnding.ends`), and a step at the port runs at most one command
(`nextEvent_next`). -/
theorem everyCommandEndsWithAResult : Obligations.EveryCommandEndsWithAResult := by
  refine ⟨fun i s => ?_, nextEvent_next fun i s => ?_⟩
  · obtain ⟨t, ht, hend⟩ := exec_ends i s
    obtain ⟨code, aux, hends, hcode⟩ := hend.ends
    obtain ⟨hincompatible, hload⟩ : code ≠ .eIncompatible ∧ code ≠ .eLoad := by simpa using hcode
    exact ⟨t, code, aux, ht, hends, hincompatible, hload⟩
  · obtain ⟨t, ht, -⟩ := exec_ends i s
    exact ⟨t, ht⟩

/-- Settles O7: an illegal command has one ending, and no legal one has the code `E_STATE` (`LegalEnding.ends`). -/
theorem illegalStateRaises : Obligations.IllegalStateRaises := by
  refine fun i s => ⟨fun hillegal => ?_, fun hlegal t h hstate => ?_⟩
  · obtain ⟨t, ht, hend⟩ := exec_ends i s
    rw [ht]
    cases hend with
    | illegal _ h => exact congrArg _ h
    | legal h _ => exact absurd (hillegal.symm.trans h) Bool.false_ne_true
  · cases commandEnding_of_exec h with
    | illegal hillegal _ => exact absurd (hillegal.symm.trans hlegal) Bool.false_ne_true
    | legal _ hend =>
      obtain ⟨code, aux, hends, hcode⟩ := hend.ends
      have hword : code.word = ResultCode.eState.word := hends.result.symm.trans hstate
      rw [ResultCode.word_injective hword] at hcode
      exact hcode (by decide)

/-- Settles O16: an error with another code refused the command, for the state of the engine or for an argument, or it
is that of a coefficient set without room. -/
theorem errorsLeaveTheState : Obligations.ErrorsLeaveTheState := by
  intro i s t h hcon hok hpre hnon
  cases commandEnding_of_exec h with
  | illegal _ ht =>
    subst ht
    exact ⟨fun _ => rfl, fun hr => absurd (ResultCode.word_injective hr) (by decide)⟩
  | legal _ ht =>
    cases ht with
    | refused hcode aux =>
      refine ⟨fun _ => rfl, fun hr => absurd hcode.code_mem ?_⟩
      rw [ResultCode.word_injective hr]
      decide
    | noRoom hi => exact ⟨fun hr => absurd rfl hr, fun _ => ⟨hi, rfl⟩⟩
    | stopped hcode =>
      obtain rfl | rfl := hcode
      · exact absurd rfl hpre
      · exact absurd rfl hnon
    | notBuilt hi => exact absurd hi hcon
    | done => exact absurd rfl hok

end Sys2Proof.Machine
end

section
/-! Operands that name one buffer (`60_exceptions.md` R318): the combinations that a command refuses, one row each, and
that no other combination is refused. -/

namespace Sys2Proof.Machine

/-! One theorem is checked after the other: checked side by side, they take a thread each. -/
set_option Elab.async false

/-! ## The rows -/

section
variable {i : Instr} {s effect : State}

/-- An id that may be written is valid. -/
theorem validId_of_writableId {id : Word} (h : writableId s id = true) : validId s id = true :=
  ((writableId_iff s id).1 h).1

/-- `CONVOLVE` and `CONVOLVE_ADD`: the destination is neither factor (R171, R172). -/
theorem raises_convolve_clash (hexec : exec i s = .next (whenConstructed s (checked s (convolveChecks s) effect)))
    (hs : s.fsm ≠ .uninit) (hdst : writableId s s.op.dst = true) (hsrc : validId s s.op.src0 = true)
    (hcoef : validId s s.op.coef = true) (h : s.op.dst = s.op.src0 ∨ s.op.dst = s.op.coef) :
    exec i s = .next (raise s .eAlias s.op.dst) := by
  refine exec_raises hexec hs ?_
  rw [convolveChecks, firstFailure_valid _ hsrc, firstFailure_valid _ hcoef, firstFailure_writable _ hdst]
  exact firstFailure_cons_fail _ (by simpa using h)

/-- `CONVOLVE_INPLACE`: the destination is not the coefficient operand (R173). -/
theorem raises_convolveInplace_clash (hs : s.fsm ≠ .uninit) (hdst : writableId s s.op.dst = true)
    (h : s.op.dst = s.op.coef) : exec .convolveInplace s = .next (raise s .eAlias s.op.dst) := by
  have hcoef : validId s s.op.coef = true := h ▸ validId_of_writableId hdst
  refine exec_raises rfl hs ?_
  rw [firstFailure_writable _ hdst, firstFailure_valid _ hcoef]
  exact firstFailure_cons_fail _ (decide_eq_true h)

/-- `DIRAC_CONVOLVE`: the destination is not the source (R174). -/
theorem raises_diracConvolve_clash (hs : s.fsm ≠ .uninit) (hdst : writableId s s.op.dst = true)
    (h : s.op.dst = s.op.src0) : exec .diracConvolve s = .next (raise s .eAlias s.op.dst) := by
  have hsrc : validId s s.op.src0 = true := h ▸ validId_of_writableId hdst
  refine exec_raises rfl hs ?_
  rw [firstFailure_valid _ hsrc, firstFailure_writable _ hdst]
  exact firstFailure_cons_fail _ (decide_eq_true h)

/-- `MIX_AND_SCALE`: the destination is none of the inputs (R149). -/
theorem raises_mix_clash {n j : Nat} (hexec : exec i s = .next (whenConstructed s (checked s (mixChecks s n) effect)))
    (hs : s.fsm ≠ .uninit) (hdst : writableId s s.op.dst = true) (hn1 : 1 ≤ n) (hn : n ≤ 4)
    (hsrc : ∀ k : Nat, k < n → validId s (s.op.sources.getD k 0#32) = true) (hj : j < n)
    (h : s.op.dst = s.op.sources.getD j 0#32) : exec i s = .next (raise s .eAlias s.op.dst) := by
  refine exec_raises hexec hs ?_
  have hsplit : mixChecks s n = verifyChecks s n ++ [checkWritable s s.op.dst,
      { fails := (s.op.sources.take n).contains s.op.dst, code := .eAlias, aux := s.op.dst }] := rfl
  rw [hsplit, firstFailure_append_pass _ (verify_pass hn1 hn hsrc), firstFailure_writable _ hdst]
  exact firstFailure_cons_fail _ (contains_source hn hj h)

/-- `COEFFS_TO_INTERNAL`: the destination is not `SCR[1]` (R191). -/
theorem raises_coeffsToInternal_clash {ch : Nat} (hs : s.fsm ≠ .uninit) (hdst : writableId s s.op.dst = true)
    (hch : ch < s.channels) (hlen : s.op.len.toNat ≤ s.lat.blockLen.toNat)
    (hoff : s.op.off.toNat + s.op.len.toNat ≤ 2 ^ 22) (h : s.op.dst = 0x40000001#32) :
    exec (.coeffsToInternal ch) s = .next (raise s .eAlias s.op.dst) := by
  have hmax : Config.build.cinMaxElems = 2 ^ 22 := rfl
  refine exec_raises (cs := coeffsToInternalChecks Config.build s ch) rfl hs ?_
  rw [coeffsToInternalChecks, hmax, firstFailure_cons_pass _ (decide_eq_false (Nat.not_le.2 hch)),
    firstFailure_cons_pass _ (decide_eq_false (Nat.not_lt.2 hlen)),
    firstFailure_cons_pass _ (decide_eq_false (Nat.not_lt.2 hoff)), firstFailure_writable _ hdst]
  exact firstFailure_cons_fail _ (decide_eq_true ((bufRef_eq_scr_one_iff _).2 h))

end

/-! ## The statement -/

/-- A legal command that ends with `E_ALIAS` has operands that its row refuses. -/
theorem LegalEnding.operandsClash {b : Config.Build} {i : Instr} {s t : State} (h : LegalEnding b i s t)
    (hr : t.result = ResultCode.eAlias.word) : OperandsClash s i := by
  cases h with
  | refused hcode aux =>
    cases hcode with
    | badArg | counter => exact absurd (ResultCode.word_injective hr) (by decide)
    | clash hclash => exact hclash
  | noRoom => exact absurd (ResultCode.word_injective hr) (by decide)
  | stopped hcode => obtain rfl | rfl := hcode <;> exact absurd (ResultCode.word_injective hr) (by decide)
  | notBuilt _ hc =>
    refine absurd ?_ (constructChecks_code_notMem b s.cfg _ hc)
    rw [ResultCode.word_injective hr]
    decide
  | done => exact absurd hr.symm (ResultCode.word_ne_zero (by decide))

/-- A command that ends with `E_ALIAS` has operands that its row refuses. -/
theorem CommandEnding.operandsClash {b : Config.Build} {i : Instr} {s t : State} (h : CommandEnding b i s t)
    (hr : t.result = ResultCode.eAlias.word) : OperandsClash s i := by
  cases h with
  | illegal _ ht =>
    subst ht
    exact absurd (ResultCode.word_injective hr) (by decide)
  | legal _ hend => exact hend.operandsClash hr

/-- Settles O58: one lemma for each row of R318, and `CommandEnding.operandsClash` for the combinations allowed. -/
theorem aliasLaw : Obligations.AliasLaw := by
  refine ⟨fun s i hs hdst h => ?refused, fun s t i hexec hr => ?allowed⟩
  case refused =>
    obtain ⟨rfl | rfl, hsrc, hcoef, h⟩ | ⟨rfl, h⟩ | ⟨rfl, h⟩ | ⟨n, rfl | rfl, hn1, hn, hsrc, j, hj, h⟩ |
      ⟨ch, rfl, hch, hlen, hoff, h⟩ := h
    · exact raises_convolve_clash rfl hs hdst hsrc hcoef h
    · exact raises_convolve_clash rfl hs hdst hsrc hcoef h
    · exact raises_convolveInplace_clash hs hdst h
    · exact raises_diracConvolve_clash hs hdst h
    · exact raises_mix_clash rfl hs hdst hn1 hn hsrc hj h
    · exact raises_mix_clash rfl hs hdst hn1 hn hsrc hj h
    · exact raises_coeffsToInternal_clash hs hdst hch hlen hoff h
  case allowed =>
    cases (commandEnding_of_exec hexec).operandsClash hr with
    | convolve h => exact .inl ⟨.inl rfl, h⟩
    | convolveAdd h => exact .inl ⟨.inr rfl, h⟩
    | convolveInplace h => exact .inr (.inl ⟨rfl, h⟩)
    | diracConvolve h => exact .inr (.inr (.inl ⟨rfl, h⟩))
    | mixAndScaleIn hj h => exact .inr (.inr (.inr (.inl ⟨_, .inl rfl, _, hj, h⟩)))
    | mixAndScaleOut hj h => exact .inr (.inr (.inr (.inl ⟨_, .inr rfl, _, hj, h⟩)))
    | coeffsToInternal ch h => exact .inr (.inr (.inr (.inr ⟨ch, rfl, h⟩)))

end Sys2Proof.Machine
end
